-- ==== Sys2Proof/Config.lean ====
section
/-! DEFINITION. The parameters of the GRIN Huffman core (spec 00_scope.md rule R7, at their defaults, log entry 1) and the
values the spec leaves free (opaque constants: nothing in Lean can evaluate them). -/

namespace Sys2Proof.Config

/-- `SYM_W` (R6, R7): the width of a symbol field. -/
abbrev symW : Nat := 9
/-- `BYTE_W` (R6, R7): the width of a data byte. -/
abbrev byteW : Nat := 8
/-- `NSYM` (R6, R7): the number of symbols. -/
abbrev nsym : Nat := 257
/-- `EOF_SYM` (R6, R7): the end-of-stream sentinel. -/
abbrev eofSym : Nat := 256
/-- `FREQ_W` (R7, default; log entry 1): the width of one frequency counter. -/
abbrev freqW : Nat := 64
/-- `NFREQ_W = FREQ_W + 9` (R7): the width of a node's frequency. -/
abbrev nfreqW : Nat := freqW + 9
/-- `NODE_MAX` (R7, default; log entry 1): the number of node records of the arena. -/
abbrev nodeMax : Nat := 513
/-- `IDX_W = ceil(log2(NODE_MAX))` (R7): the width of a node index. -/
abbrev idxW : Nat := 10
/-- `CNT_W = ceil(log2(NODE_MAX + 1))` (R7): the width of the node count. -/
abbrev cntW : Nat := 10
/-- `CW_MAX = floor((NODE_MAX - 1) / 2)` (R7): the greatest codeword length. -/
abbrev cwMax : Nat := (nodeMax - 1) / 2
/-- `LEN_W = ceil(log2(CW_MAX + 1))` (R7): the width of a codeword length. -/
abbrev lenW : Nat := 9
/-- The default of the parameter `MAGIC` (R7, R121; log entry 23), the host's 32-bit magic number. The host's sessions take
the number as an argument; the block never sees it. -/
def magic : BitVec 32 := 0x00000736#32

/-- Free value (R68, D29; log entry 4): how many of the bits that remain a failed `BitsIn` consumes, before it is bounded by
what remains. -/
opaque endReadLoss : Nat → Nat
/-- Free value (R75, D18, `PAD`; log entry 6): one padding bit the BitChannel adds when it is closed. -/
opaque pad : Nat → Bool
/-- Free value (R295, U14; log entry 7): what a read of `NNODE` or `ROOT` shows while BUILD or DESER runs and after a DESER
that faulted, in the width of those registers (R25: a CSR is read zero-extended). -/
opaque staleCsr : Nat → BitVec cntW
/-- Free value (R88; log entry 3): one byte of a byte source that never ends. -/
opaque endlessByte : Nat → BitVec byteW
/-- Free value (R88; log entry 3): one bit of a bit source that never ends. -/
opaque endlessBit : Nat → Bool

end Sys2Proof.Config
end

