-- ==== Sys2Proof/Word.lean ====
section
/-! DEFINITION. The word types of the GRIN Huffman core: what the spec treats as bits (spec 00_scope.md rules R6 to R8). All
integers are unsigned (R8). -/

namespace Sys2Proof

/-- A data byte, and a command word (R6, R101). -/
abbrev Byte := BitVec Config.byteW
/-- The 9-bit field that carries a symbol; 257 to 511 are not symbols (R6, R178). -/
abbrev Sym := BitVec Config.symW
/-- A frequency counter `FT[s]` (R30). -/
abbrev Freq := BitVec Config.freqW
/-- A node's frequency (R31). -/
abbrev NodeFreq := BitVec Config.nfreqW
/-- An arena index: `ROOT`, `CUR`, `left`, `right` (R27, R29, R31). -/
abbrev NodeIdx := BitVec Config.idxW
/-- A node count: `NNODE` (R28). -/
abbrev NodeCnt := BitVec Config.cntW
/-- A bit sequence in stream order, the first bit sent or received first (R8). -/
abbrev Bits := List Bool

/-- `EOF_SYM` as a 9-bit field (R6). -/
abbrev eof : Sym := 256#9

/-- A byte as a symbol: zero-extension is the only widening (R8). -/
abbrev Byte.sym (b : Byte) : Sym := b.setWidth Config.symW

end Sys2Proof
end

