-- ==== Sys2Proof/Syntax.lean ====
section
/-! DEFINITION. The instruction set: one constructor for each row of spec/opcode_table.json (spec 30_encoding.md rules R100 to
R102, R110 to R112). A command has no operand (R101). -/

namespace Sys2Proof

/-- What the engine can be given: the nine commands (R100), the illegal command words (R102: the seven reserved opcodes and
every word whose high nibble is not zero), and the two data records of a serialized tree, which the running DESER takes from
the bit source (R111, R112; log entry 12). -/
inductive Instr where
  | nop
  | count
  | build
  | derive
  | ser
  | encode
  | deser
  | decode
  | rst
  | reserved8
  | reserved9
  | reservedA
  | reservedB
  | reservedC
  | reservedD
  | reservedE
  /-- A word `rsv` (bits 7:4, not 0000), `op` (bits 3:0, any): R101, R102. -/
  | reservedRsv (rsv op : BitVec 4)
  /-- A leaf record: the tag `0` and the 9-bit symbol (R111). -/
  | treeLeaf (sym : Sym)
  /-- The tag `1` of an internal node; its two subtrees are the records that follow (R112). -/
  | treeInternal
  deriving DecidableEq, Repr

end Sys2Proof
end

