-- ==== Sys2Proof/WellFormed.lean ====
section
/-! DEFINITION. Which terms of Instr are instructions of the table (spec 30_encoding.md rules R101, R102). -/

namespace Sys2Proof

/-- The one check: a word of the row RESERVED_RSV has a high nibble that is not 0000 (R102); with 0000 it would be the word of
another row. Every other constructor is well-formed at every operand: a leaf record admits all 512 values of its field
(R111, R114). -/
def Instr.wf : Instr → Bool
  | .nop => true
  | .count => true
  | .build => true
  | .derive => true
  | .ser => true
  | .encode => true
  | .deser => true
  | .decode => true
  | .rst => true
  | .reserved8 => true
  | .reserved9 => true
  | .reservedA => true
  | .reservedB => true
  | .reservedC => true
  | .reservedD => true
  | .reservedE => true
  | .reservedRsv rsv _ => rsv != 0#4
  | .treeLeaf _ => true
  | .treeInternal => true

end Sys2Proof
end

