-- ==== Sys2Proof/Decode.lean ====
section
/-! DEFINITION. Bit order on the streams, the decoder, and after it the encoder (spec 00_scope.md rule R8; 30_encoding.md rules
R100 to R103, R110 to R112). -/

namespace Sys2Proof

/-! ## Bit order: a multi-bit field is sent most-significant bit first (R8, R64, R65) -/

/-- The `n` low-order bits of `v`, MSB-first: `v[n-1], v[n-2], .., v[0]` (R65). -/
def msbBits : Nat → Nat → Bits
  | 0, _ => []
  | n + 1, v => v.testBit n :: msbBits n v

/-- The unsigned value of a bit sequence read MSB-first: `c1*2^(n-1) + .. + cn` (R64). -/
def msbValue : Bits → Nat
  | [] => 0
  | b :: bs => b.toNat * 2 ^ bs.length + msbValue bs

/-! ## Codes -/

/-- What the decoder reads: a command word from the command port (8 bits, R101), or the bits of one record of a serialized
tree in stream order (R110). -/
inductive Code where
  | command (w : Byte)
  | record (bits : Bits)
  deriving DecidableEq, Repr

/-- Why a bit sequence is no record, by name (R112). -/
inductive Reject where
  /-- There is no tag bit. -/
  | noTag
  /-- A leaf's tag is followed by fewer than nine bits (R111). -/
  | shortSymbol
  /-- Bits are left over after the record. -/
  | trailingBits
  deriving DecidableEq, Repr

/-- The instruction of a command word: `rsv` is bits 7:4, `op` is bits 3:0 (R101), the opcodes are R100's, and a word that
is not one of the nine is illegal (R102). Total: every word is a row of the table. -/
def decodeCommand (w : Byte) : Instr :=
  let rsv := w.extractLsb' 4 4
  let op := w.extractLsb' 0 4
  if rsv ≠ 0#4 then .reservedRsv rsv op
  else match op.toNat with
    | 0x0 => .nop
    | 0x1 => .count
    | 0x2 => .build
    | 0x3 => .derive
    | 0x4 => .ser
    | 0x5 => .encode
    | 0x6 => .deser
    | 0x7 => .decode
    | 0x8 => .reserved8
    | 0x9 => .reserved9
    | 0xA => .reservedA
    | 0xB => .reservedB
    | 0xC => .reservedC
    | 0xD => .reservedD
    | 0xE => .reservedE
    | _ => .rst

/-- The record at the front of a bit sequence and the bits after it (R111, R112). -/
def decodeRecord : Bits → Except Reject (Instr × Bits)
  | [] => .error .noTag
  | true :: rest => .ok (.treeInternal, rest)
  | false :: rest =>
    if rest.length < 9 then .error .shortSymbol
    else .ok (.treeLeaf (BitVec.ofNat 9 (msbValue (rest.take 9))), rest.drop 9)

/-- The decoder. -/
def decode : Code → Except Reject Instr
  | .command w => .ok (decodeCommand w)
  | .record bits =>
    match decodeRecord bits with
    | .error e => .error e
    | .ok (i, []) => .ok i
    | .ok (_, _ :: _) => .error .trailingBits

/-! ## The encoder -/

/-- The code of an instruction, from R100, R101 (command words) and R111, R112 (records). -/
def encode : Instr → Code
  | .nop => .command 0x00#8
  | .count => .command 0x01#8
  | .build => .command 0x02#8
  | .derive => .command 0x03#8
  | .ser => .command 0x04#8
  | .encode => .command 0x05#8
  | .deser => .command 0x06#8
  | .decode => .command 0x07#8
  | .rst => .command 0x0F#8
  | .reserved8 => .command 0x08#8
  | .reserved9 => .command 0x09#8
  | .reservedA => .command 0x0A#8
  | .reservedB => .command 0x0B#8
  | .reservedC => .command 0x0C#8
  | .reservedD => .command 0x0D#8
  | .reservedE => .command 0x0E#8
  | .reservedRsv rsv op => .command (rsv ++ op)
  | .treeLeaf sym => .record (false :: msbBits 9 sym.toNat)
  | .treeInternal => .record [true]

/-- The width in bits of a code: 8 for a command, the number of its bits for a record (the table's column `width`). -/
def Code.width : Code → Nat
  | .command _ => 8
  | .record bits => bits.length

/-! ## The table's numbering of a code's bits -/

/-- The code whose bits, numbered as spec/opcode_table.json numbers them, are `w`, laid out as the hardware has them: a
command word is 8 bits; a leaf record's ten bits stand on the stream from bit 9 (the tag) down to bit 0; the tag of an
internal node is one bit. A row's width may be given in whole bytes (a leaf record as 16). The byte-wide form of
TREE_INTERNAL's one bit is the command word 0x01, COUNT (log entry 12). -/
def tableCode (nbits w : Nat) : Option Code :=
  if nbits = 8 then
    if w < 2 ^ 8 then some (.command (BitVec.ofNat 8 w)) else none
  else if nbits = 10 ∨ nbits = 16 then
    if w < 2 ^ 10 then some (.record (msbBits 10 w)) else none
  else if nbits = 1 then
    if w < 2 then some (.record (msbBits 1 w)) else none
  else none

/-- The instruction the decoder reads from an instruction whose bits are `w` in the table's numbering. -/
def decodeTableWord (nbits w : Nat) : Option Instr :=
  match tableCode nbits w with
  | none => none
  | some c =>
    match decode c with
    | .ok i => some i
    | .error _ => none

end Sys2Proof
end

