-- ==== Sys2Proof/Machine/Memory.lean ====
section
/-! DEFINITION. An internal memory as plain data: a list of (index, value) pairs in one canonical form. An index that is not
listed has no value (spec 10_state.md rule R41; log entries 8 and 20). -/

namespace Sys2Proof.Machine

/-- An internal memory (R30 to R32, R34): its cells in rising index order; an unlisted cell has no value. -/
abbrev Memory (α : Type) := List (Nat × α)

/-- The value of cell `a`, or none if nothing has written it. -/
def Memory.read {α : Type} : Memory α → Nat → Option α
  | [], _ => none
  | (k, v) :: m, a => if k = a then some v else Memory.read m a

/-- `M[a] <- v`, keeping the index order. -/
def Memory.write {α : Type} : Memory α → Nat → α → Memory α
  | [], a, v => [(a, v)]
  | (k, x) :: m, a, v =>
    if a < k then (a, v) :: (k, x) :: m
    else if a = k then (a, v) :: m
    else (k, x) :: Memory.write m a v

/-- The memory whose cells `0 .. n-1` all hold `v`: the clearing loops of R141, R150, R190. -/
def Memory.fill {α : Type} (n : Nat) (v : α) : Memory α :=
  (List.range n).map fun a => (a, v)

/-- The canonical form: indices strictly rising, all below the memory's size. No entry can equal what an unlisted cell reads
as, since that is no value. -/
abbrev Memory.wf {α : Type} (size : Nat) (m : Memory α) : Prop :=
  m.Pairwise (fun p q => p.1 < q.1) ∧ ∀ p ∈ m, p.1 < size

end Sys2Proof.Machine
end

