-- ==== Sys2Proof/Machine/State.lean ====
section
/-! DEFINITION. The state of the machine as plain data: the block (spec 10_state.md), the command port and the four streams it
reaches (spec 20_memory.md), and what the host still does (spec 70_reset_and_hazards.md). -/

namespace Sys2Proof.Machine

/-! ## The block's own types -/

/-- `PHASE` (R21): the command being executed, or none. -/
inductive Phase where
  | idle | count | build | derive | ser | encode | deser | decode
  deriving DecidableEq, Repr

/-- A node record (R31): `tag` is the constructor, so a field that does not apply to the tag does not exist (log entry 11). -/
inductive Node where
  | leaf (sym : Sym) (freq : NodeFreq)
  | internal (left right : NodeIdx) (freq : NodeFreq)
  deriving DecidableEq, Repr

/-- The fields `len` and `bits` of an entry of `CWT` (R34); the codeword is `bits[0], .., bits[len-1]`. -/
structure Codeword where
  len : BitVec Config.lenW
  bits : BitVec Config.cwMax
  deriving DecidableEq, Repr

/-- An entry of `CWT` (R34): none is `valid = 0` (log entry 11). -/
abbrev CwEntry := Option Codeword

/-- The 2-bit visit phase of a `STACK` entry (R33): the node is reached; its left subtree is under way; its right subtree is
under way. -/
inductive Visit where
  | enter | left | right
  deriving DecidableEq, Repr

/-- An entry of `STACK` (R33): an arena index and a visit phase. -/
structure Frame where
  node : NodeIdx
  visit : Visit
  deriving DecidableEq, Repr

/-- The loop position of the running command (R21): the pseudocode step that comes next. -/
inductive LoopPos where
  /-- The command has been accepted and has done nothing yet (DECODE's control state CHECK, R222). -/
  | start
  /-- The head of the command's loop (DECODE's WALK; for SER, DESER and DERIVE the node on top of `STACK`). -/
  | top
  /-- SER, DESER: the tag of leaf `i` has passed and its nine symbol bits come next. -/
  | symbol (i : NodeIdx)
  /-- ENCODE: inside `emit(s)`, before `bits[j]`. -/
  | emit (s : Sym) (j : Nat)
  /-- DECODE: a byte is due on the byte sink (EMIT, R222). -/
  | write
  /-- DECODE: `EOS` or `TRUNC` is set and only the end is left (STOP, R222). -/
  | stop
  deriving DecidableEq, Repr

/-! ## Ports and streams -/

/-- What a source answers once its data are used up: `End`, `Err`, nothing ever, or further items for ever, of which the one
numbered `next` comes next (R62, R64, R88; log entries 3 and 26). -/
inductive SourceEnd where
  | endOfData | failure | silent
  | endless (next : Nat)
  deriving DecidableEq, Repr

/-- A source: the items not yet consumed, in order, and what comes after them (R62, R67). -/
structure Source (α : Type) where
  data : List α
  ending : SourceEnd
  deriving DecidableEq, Repr

/-- What a sink answers once it takes no more: `Err`, or nothing ever (R63, R65, R88). -/
inductive SinkEnd where
  | failure | silent
  deriving DecidableEq, Repr

/-- A sink: what it holds, oldest first (for the bit sink, `OUTBITS`, R66); how many more transactions it takes (none: no
bound); and what it answers after that. -/
structure Sink (α : Type) where
  written : List α
  room : Option Nat
  whenFull : SinkEnd
  deriving DecidableEq, Repr

/-! ## The host -/

/-- What the host can do while a command runs, after that many further engine steps (R283, R294, R295). -/
inductive BusyMove where
  | readCsr (after : Nat) (number : BitVec 3)
  | reset (after : Nat)
  deriving DecidableEq, Repr

/-- A word on the command port (R101, R290), and what the host does while the command of that word runs. -/
structure PortWord where
  word : Byte
  during : List BusyMove
  deriving DecidableEq, Repr

/-- One move of the host (R83, R285 to R288, R295). -/
inductive HostMove where
  /-- Presents a command word on the command port (R290). -/
  | present (p : PortWord)
  /-- The `rst` input (R280). -/
  | hardwareReset
  /-- Reads a CSR (R25). -/
  | readCsr (number : BitVec 3)
  | attachByteSource (src : Source Byte)
  | attachByteSink (room : Option Nat) (whenFull : SinkEnd)
  | attachBitSource (src : Source Bool)
  | attachBitSink (room : Option Nat) (whenFull : SinkEnd)
  /-- `writeBits(value, n)` on the BitChannel, by the host itself (R83, R286). -/
  | writeBits (value n : Nat)
  /-- `readBits(n)` on the BitChannel, by the host itself (R83, R287). -/
  | readBits (n : Nat)
  | closeByteSource
  | closeByteSink
  | closeBitSource
  /-- Closes the BitChannel opened for writing: pads the last byte and gives the file (R75, R286, R288). -/
  | closeBitSink
  deriving DecidableEq, Repr

/-- What the host has seen, oldest first. -/
inductive HostSeen where
  /-- The value of a CSR read (R25). -/
  | csr (number : BitVec 3) (value : BitVec 16)
  /-- The answers of the host's own `readBits` (R287). -/
  | bits (value : Nat)
  | bitsEnded
  | bitsFailed
  /-- The answers of the host's own `writeBits` (R286). -/
  | bitsWritten
  | writeFailed
  /-- The bytes of the file of a closed BitChannel (R75). -/
  | file (bytes : List Byte)
  deriving DecidableEq, Repr

/-! ## The state -/

/-- The machine. `STATUS.BUSY` and `STATUS.FAULT` are `phase ≠ idle` and `err ≠ 0` (R22) and are computed in Flags.lean. -/
structure State where
  /-- `PHASE` (R21). -/
  phase : Phase
  /-- The loop position of the running command (R21). -/
  loop : LoopPos
  /-- `STATUS.FT_V` (R22, bit 2). -/
  ftV : Bool
  /-- `STATUS.TREE_V` (R22, bit 3). -/
  treeV : Bool
  /-- `STATUS.CWT_V` (R22, bit 4). -/
  cwtV : Bool
  /-- `STATUS.EOS` (R22, bit 5). -/
  eos : Bool
  /-- `STATUS.TRUNC` (R22, bit 6). -/
  trunc : Bool
  /-- `ERR` (R23). -/
  err : BitVec 8
  /-- `ERRINFO` (R24). -/
  errinfo : BitVec 16
  /-- `ROOT` (R27). -/
  root : NodeIdx
  /-- `NNODE` (R28). -/
  nnode : NodeCnt
  /-- `CUR` (R29). -/
  cur : NodeIdx
  /-- `FT` (R30), 257 counters. -/
  ft : Memory Freq
  /-- `ARENA` (R31), `NODE_MAX` records. -/
  arena : Memory Node
  /-- `PQ` (R32), `NODE_MAX` membership bits. -/
  pq : Memory Bool
  /-- `CWT` (R34), 257 entries. -/
  cwt : Memory CwEntry
  /-- `STACK` (R33), its top first; `SP` is its length. -/
  stack : List Frame
  /-- `PATH` (R33): the branch taken at the root is bit 0. -/
  path : BitVec Config.cwMax
  /-- `PLEN` (R33): how many bits of `PATH` are the path. -/
  plen : BitVec Config.lenW
  /-- The working count `n` of BUILD's and DESER's pseudocode (R150, R175): the records allocated so far. -/
  alloc : NodeCnt
  /-- The command port (R61, R290): the word that waits on it, if any. -/
  cmd : Option PortWord
  /-- The byte source `BSRC` (R60, R62). -/
  bsrc : Source Byte
  /-- The byte sink `BSNK` (R60, R63). -/
  bsnk : Sink Byte
  /-- The bit source `BITIN` (R60, R64, R67). -/
  bitin : Source Bool
  /-- The bit sink `BITOUT` (R60, R65, R66). -/
  bitout : Sink Bool
  /-- What the host will still do, in order. -/
  host : List HostMove
  /-- What the host has seen. -/
  seen : List HostSeen
  /-- The model's own counter of the free values drawn so far (log entry 10). -/
  draws : Nat
  deriving DecidableEq, Repr

/-! ## Outcomes -/

/-- Why a step can stop the machine. Every one is an access the spec gives no meaning, safe (the model stops where the spec
says nothing), and none is reached from reset (Safety.lean). -/
inductive Fault where
  /-- Raised by BUILD, SER, DERIVE, DECODE: a record of `ARENA` that nothing has written is read (R41, U9). Safe. -/
  | unwrittenRecord (i : Nat)
  /-- Raised by COUNT, BUILD: a counter of `FT` that nothing has written is read (R41, U9). Safe. -/
  | unwrittenCounter (s : Nat)
  /-- Raised by ENCODE: an entry of `CWT` that nothing has written is read (R41, U9). Safe. -/
  | unwrittenEntry (s : Nat)
  /-- Raised by SER, DERIVE, DECODE: a field that does not apply to the record's tag is read, "unspecified and never read"
  (R31, U11). Safe. -/
  | fieldNotOfTag (i : Nat)
  /-- Raised by BUILD: a record past `NODE_MAX` is written; there is no such record (R31). Safe. -/
  | noSuchRecord (i : Nat)
  /-- Raised by BUILD: the collection is empty, for which "nothing is specified" (N14, R156). Safe. -/
  | emptyCollection
  deriving DecidableEq, Repr

/-- Why an instruction is refused. -/
inductive Refusal where
  /-- Raised by an arm of exec whose instruction has no meaning yet. Safe. -/
  | notModelled (mnemonic : String)
  /-- Raised by the two data records where no DESER is running at a node boundary: nothing reads a record there, and no step
  gives one to exec (log entry 12). Safe. -/
  | recordOutsideDeser
  deriving DecidableEq, Repr

/-- The outcome of a step or of a part of one. -/
abbrev Result := Host.Outcome State Fault Refusal

/-! ## Reset -/

/-- Right after power-on and hardware reset: every register as R41 gives it, the memories without a value (R41, log entry 8),
the working storage empty (log entry 9), no stream attached (R285, log entry 14), no word on the command port and no move of
the host pending (log entry 13). -/
def State.reset : State where
  phase := .idle
  loop := .start
  ftV := false
  treeV := false
  cwtV := false
  eos := false
  trunc := false
  err := 0#8
  errinfo := 0#16
  root := 0#10
  nnode := 0#10
  cur := 0#10
  ft := []
  arena := []
  pq := []
  cwt := []
  stack := []
  path := 0#256
  plen := 0#9
  alloc := 0#10
  cmd := none
  bsrc := ⟨[], .silent⟩
  bsnk := ⟨[], some 0, .silent⟩
  bitin := ⟨[], .silent⟩
  bitout := ⟨[], some 0, .silent⟩
  host := []
  seen := []
  draws := 0

end Sys2Proof.Machine
end

