-- ==== Sys2Proof/Machine/Flags.lean ====
section
/-! DEFINITION. The status word, the level outputs and the CSRs the host reads (spec 10_state.md rules R21 to R28;
60_exceptions.md rules R241, R251). -/

namespace Sys2Proof.Machine

/-- The 4-bit encoding of `PHASE` (R21): 0 when idle, else the opcode of the command. -/
def Phase.code : Phase → BitVec 4
  | .idle => 0x0#4
  | .count => 0x1#4
  | .build => 0x2#4
  | .derive => 0x3#4
  | .ser => 0x4#4
  | .encode => 0x5#4
  | .deser => 0x6#4
  | .decode => 0x7#4

/-- `STATUS.BUSY`, and the level output `busy` (R22, R251): `PHASE ≠ IDLE`. -/
def State.busy (s : State) : Bool := s.phase != .idle

/-- `STATUS.FAULT`, and the level output `fault` (R22, R251): `ERR ≠ 0`. -/
def State.fault (s : State) : Bool := s.err != 0#8

/-- `STATUS` (R22): bit 7 reads 0. -/
def State.status (s : State) : BitVec 8 :=
  0#1 ++ BitVec.ofBool s.trunc ++ BitVec.ofBool s.eos ++ BitVec.ofBool s.cwtV ++ BitVec.ofBool s.treeV
    ++ BitVec.ofBool s.ftV ++ BitVec.ofBool s.fault ++ BitVec.ofBool s.busy

/-- `cmd_ready` (R290): the command port accepts a word only when `BUSY = 0`. -/
def State.cmdReady (s : State) : Bool := !s.busy

/-- The value of CSR `n` (R25): a 16-bit zero-extended register; 5, 6 and 7 read 0. -/
def State.csr (s : State) (n : BitVec 3) : BitVec 16 :=
  match n.toNat with
  | 0 => s.status.setWidth 16
  | 1 => s.err.setWidth 16
  | 2 => s.errinfo
  | 3 => s.nnode.setWidth 16
  | 4 => s.root.setWidth 16
  | _ => 0#16

/-- No tree, and the recorded fault is one that DESER raises in such a state (U14): `FormatError` and `ArenaOverflow` are its
own (R241), and of the two commands that raise `IOError(3)` DECODE has a tree (R291). -/
def State.deserFaulted (s : State) : Bool :=
  !s.treeV && (s.err == 3#8 || s.err == 7#8 || (s.err == 4#8 && s.errinfo == 3#16))

/-- Whether a read of CSR `n` shows a free value: `NNODE` or `ROOT` while BUILD or DESER runs, or after a DESER that faulted
(R295, U14; log entry 7). -/
def State.csrStale (s : State) (n : BitVec 3) : Bool :=
  (n.toNat == 3 || n.toNat == 4) && (s.phase == .build || s.phase == .deser || s.deserFaulted)

/-! ## Fault codes -/

/-- The faults a command can raise (R241), each with the value it records. -/
inductive Err where
  | illegalCommand (w : Byte)
  | notReady (opcode : BitVec 4)
  | formatError
  | ioError (port : BitVec 3)
  | missingCodeword (s : Sym)
  | degenerateTree (s : Sym)
  | arenaOverflow
  | freqOverflow (b : Byte)
  deriving DecidableEq, Repr

/-- `ERR`'s value for a fault (R241). -/
def Err.code : Err → BitVec 8
  | .illegalCommand _ => 1#8
  | .notReady _ => 2#8
  | .formatError => 3#8
  | .ioError _ => 4#8
  | .missingCodeword _ => 5#8
  | .degenerateTree _ => 6#8
  | .arenaOverflow => 7#8
  | .freqOverflow _ => 8#8

/-- `ERRINFO`'s value for a fault, zero-extended to 16 bits (R24, R241). -/
def Err.info : Err → BitVec 16
  | .illegalCommand w => w.setWidth 16
  | .notReady opcode => opcode.setWidth 16
  | .formatError => 0#16
  | .ioError port => port.setWidth 16
  | .missingCodeword s => s.setWidth 16
  | .degenerateTree s => s.setWidth 16
  | .arenaOverflow => 0#16
  | .freqOverflow b => b.setWidth 16

/-- Port ids of `IOError` (R241). -/
def portByteSource : BitVec 3 := 1#3
def portByteSink : BitVec 3 := 2#3
def portBitSource : BitVec 3 := 3#3
def portBitSink : BitVec 3 := 4#3

end Sys2Proof.Machine
end

