-- ==== Sys2Proof/Machine/Operands.lean ====
section
/-! DEFINITION. Where the commands take their operands from and put their results: the four stream ports (spec 20_memory.md
rules R61 to R68) and the internal memories (spec 00_scope.md rule R9). -/

namespace Sys2Proof.Machine

/-! ## Sources -/

/-- The answer of a source to one transaction (R62, R64); `waiting` is no answer yet (R88). -/
inductive Answer (α : Type) where
  | got (x : α)
  | ended
  | failed
  | waiting
  deriving DecidableEq, Repr

/-- What a source that holds too little answers. `End` is answered again until the host attaches another stream (R69, log
entry 3). An endless source never holds too little (`Source.supply`). -/
def SourceEnd.answer {α : Type} : SourceEnd → Answer α
  | .endOfData => .ended
  | .failure => .failed
  | .silent => .waiting
  | .endless _ => .waiting

/-- A source before a transaction that wants `n` items: an endless one brings in what its data lack, the items `more k` in
order (R88; log entry 3); any other is as it is. -/
def Source.supply {α : Type} (more : Nat → α) (n : Nat) (src : Source α) : Source α :=
  match src.ending with
  | .endless k =>
    let lack := n - src.data.length
    ⟨src.data ++ (List.range lack).map fun j => more (k + j), .endless (k + lack)⟩
  | _ => src

/-- One item: an item is consumed by the answer that carries it; `End` and `Err` consume nothing (R62, R67). -/
def Source.take {α : Type} (src : Source α) : Answer α × Source α :=
  match src.data with
  | x :: xs => (.got x, { src with data := xs })
  | [] => (src.ending.answer, src)

/-- `ByteIn()` (R62). -/
def byteIn (s : State) : Answer Byte × State :=
  let r := (s.bsrc.supply Config.endlessByte 1).take
  (r.1, { s with bsrc := r.2 })

/-- `BitIn()` (R64, R67). -/
def bitIn (s : State) : Answer Bool × State :=
  let r := (s.bitin.supply Config.endlessBit 1).take
  (r.1, { s with bitin := r.2 })

/-- How many of the bits that remain a failed `BitsIn` consumes: any number of them (R68; log entries 4 and 25). -/
def endReadLoss (s : State) : Nat :=
  Config.endReadLoss s.draws % (s.bitin.data.length + 1)

/-- `BitsIn(n)` (R64, R67, R68): the value of the next `n` bits, MSB-first; with fewer than `n` bits left, `End` or `Err`,
after which the position is any value up to the end; a port that does not answer consumes nothing. -/
def bitsIn (n : Nat) (s : State) : Answer Nat × State :=
  let src := s.bitin.supply Config.endlessBit n
  if n ≤ src.data.length then
    (.got (msbValue (src.data.take n)), { s with bitin := { src with data := src.data.drop n } })
  else
    match src.ending.answer with
    | .waiting => (.waiting, s)
    | answer => (answer,
        { s with bitin := { src with data := src.data.drop (endReadLoss s) }, draws := s.draws + 1 })

/-! ## Sinks -/

/-- The answer of a sink to one transaction (R63, R65); `waiting` is no answer yet (R88). -/
inductive PutAnswer where
  | ok
  | failed
  | waiting
  deriving DecidableEq, Repr

/-- What a sink that takes no more answers. -/
def SinkEnd.answer : SinkEnd → PutAnswer
  | .failure => .failed
  | .silent => .waiting

/-- One transaction that appends `xs`: all of them when the sink takes it, none when it answers `Err` (R63, R65, R66; log
entry 5). -/
def Sink.put {α : Type} (snk : Sink α) (xs : List α) : PutAnswer × Sink α :=
  match snk.room with
  | none => (.ok, { snk with written := snk.written ++ xs })
  | some (k + 1) => (.ok, { snk with written := snk.written ++ xs, room := some k })
  | some 0 => (snk.whenFull.answer, snk)

/-- `ByteOut(b)` (R63). -/
def byteOut (b : Byte) (s : State) : PutAnswer × State :=
  ((s.bsnk.put [b]).1, { s with bsnk := (s.bsnk.put [b]).2 })

/-- `BitOut(b)` (R65, R66). -/
def bitOut (b : Bool) (s : State) : PutAnswer × State :=
  ((s.bitout.put [b]).1, { s with bitout := (s.bitout.put [b]).2 })

/-- `BitsOut(v, n)` (R65, R66): the `n` low-order bits of `v`, MSB-first, in one transaction. -/
def bitsOut (v n : Nat) (s : State) : PutAnswer × State :=
  ((s.bitout.put (msbBits n v)).1, { s with bitout := (s.bitout.put (msbBits n v)).2 })

/-! ## Internal memories: a cell that nothing has written has no value (R41), so reading it stops the machine -/

/-- `FT[s]`, handed to `k`. -/
def withCounter (s : State) (sym : Nat) (k : Freq → Result) : Result :=
  match s.ft.read sym with
  | some f => k f
  | none => .fault (.unwrittenCounter sym)

/-- `CWT[s]`, handed to `k`. -/
def withEntry (s : State) (sym : Nat) (k : CwEntry → Result) : Result :=
  match s.cwt.read sym with
  | some e => k e
  | none => .fault (.unwrittenEntry sym)

/-- `ARENA[i]`, handed to `k`. -/
def withRecord (s : State) (i : NodeIdx) (k : Node → Result) : Result :=
  match s.arena.read i.toNat with
  | some nd => k nd
  | none => .fault (.unwrittenRecord i.toNat)

/-- `ARENA[i].left` and `ARENA[i].right`, handed to `k`; a leaf has no such fields (R31). -/
def withChildren (s : State) (i : NodeIdx) (k : NodeIdx → NodeIdx → Result) : Result :=
  withRecord s i fun
    | .internal l r _ => k l r
    | .leaf _ _ => .fault (.fieldNotOfTag i.toNat)

/-- `ARENA[i].sym`, handed to `k`; an internal node has no such field (R31). -/
def withSym (s : State) (i : NodeIdx) (k : Sym → Result) : Result :=
  withRecord s i fun
    | .leaf sym _ => k sym
    | .internal _ _ _ => .fault (.fieldNotOfTag i.toNat)

/-- `ARENA[i] <- nd`; the arena has `NODE_MAX` records (R31). -/
def writeRecord (i : Nat) (nd : Node) (s : State) : Result :=
  if i < Config.nodeMax then .next { s with arena := s.arena.write i nd }
  else .fault (.noSuchRecord i)

/-! ## Codewords and the working path (R33, R34) -/

/-- The codeword of an entry: `bits[0], .., bits[len-1]` in stream order (R34). -/
def Codeword.seq (c : Codeword) : Bits := (List.range c.len.toNat).map c.bits.getLsbD

/-- `v` with bit `j` set to `b`. -/
def withBit {w : Nat} (v : BitVec w) (j : Nat) (b : Bool) : BitVec w :=
  if b then v ||| (1#w <<< j) else v &&& ~~~(1#w <<< j)

/-- A branch is added to `PATH`: one bit more (R33). -/
def State.pushBranch (b : Bool) (s : State) : State :=
  { s with path := withBit s.path s.plen.toNat b, plen := s.plen + 1 }

/-- The last branch is taken off `PATH`: one bit less; the bits past `PLEN` are no part of the path (R33). -/
def State.popBranch (s : State) : State := { s with plen := s.plen - 1 }

/-! ## Records -/

/-- `ARENA[i].freq` (R31). -/
def Node.freq : Node → NodeFreq
  | .leaf _ f => f
  | .internal _ _ f => f

end Sys2Proof.Machine
end

