-- ==== Sys2Proof/Machine/Ops.lean ====
section
/-! DEFINITION. The operations the commands share: sequencing, taking a fault and returning from one (spec 60_exceptions.md
rules R246 to R249), acceptance (spec 70_reset_and_hazards.md rules R290, R291), the end of a command (R297), hardware reset
(R280), and running an engine step again and again. -/

namespace Sys2Proof.Machine

/-- First `o`; then, from its next state, `f`. -/
def andThen (o : Result) (f : State → Result) : Result :=
  match o with
  | .next s => f s
  | .fault e => .fault e
  | .refused r => .refused r

/-! ## Fault entry and return -/

/-- The end of a command (R297): `PHASE <- IDLE`, so that `BUSY` falls. The loop position goes back to its start (log
entry 17). -/
def State.finish (s : State) : State :=
  { s with phase := .idle, loop := .start }

/-- `raise F(info)`, fault entry (R246): the first fault is recorded in `ERR` and `ERRINFO`, `FAULT` follows from `ERR`, and
the command ends; nothing else changes. DESIGN CHOICE (log entry 28): a table whose command faulted (FT after COUNT, ARENA after
DESER) keeps the cells written before the fault, with their values; U10 gives them no value, and no command can read them. -/
def raise (e : Err) (s : State) : State :=
  { s with
    err := if s.err = 0#8 then e.code else s.err
    errinfo := if s.err = 0#8 then e.info else s.errinfo }.finish

/-- The registers at their reset values (R41): what RST does (R231, R248), and part of hardware reset. -/
def State.clearRegisters (s : State) : State :=
  { s with
    phase := .idle, loop := .start
    ftV := false, treeV := false, cwtV := false, eos := false, trunc := false
    err := 0#8, errinfo := 0#16
    root := 0#10, nnode := 0#10, cur := 0#10 }

/-- Hardware reset (R280, R281): the registers at their reset values; the memories and the working storage without a value
(log entries 8, 9); streams, command port and host untouched (log entry 19). -/
def hardwareReset (s : State) : State :=
  { s.clearRegisters with
    ft := [], arena := [], pq := [], cwt := [], stack := [], path := 0#256, plen := 0#9, alloc := 0#10 }

/-! ## Acceptance -/

/-- The valid flag a command needs (R291). -/
def State.ready (s : State) : Phase → Bool
  | .build => s.ftV
  | .derive => s.treeV
  | .ser => s.treeV
  | .encode => s.cwtV
  | .decode => s.treeV
  | .count => true
  | .deser => true
  | .idle => true

/-- Acceptance of a legal command that runs (R102, R247, R249, R291): discarded while `FAULT = 1`; else `NotReady` with the
opcode if the flag it needs is 0; else `PHASE` takes the command's opcode and the command stands at its first step. -/
def accept (p : Phase) (s : State) : Result :=
  if s.fault then .next s
  else if s.ready p then .next { s with phase := p, loop := .start }
  else .next (raise (.notReady p.code) s)

/-- Acceptance of an illegal word (R102, R247): discarded while `FAULT = 1`, else `IllegalCommand` with the word. -/
def acceptIllegal (w : Byte) (s : State) : Result :=
  if s.fault then .next s else .next (raise (.illegalCommand w) s)

/-! ## Running the engine -/

/-- At most `n` engine steps `tick`, fewer if the command ends. An engine step that waits for a port changes nothing. -/
def drive (tick : State → Result) : Nat → State → Result
  | 0, s => .next s
  | n + 1, s => if s.phase = .idle then .next s else andThen (tick s) (drive tick n)

end Sys2Proof.Machine
end

