-- ==== Sys2Proof/Machine/Build.lean ====
section
/-! DEFINITION. BUILD, the Huffman tree builder (spec 41_build.md). -/

namespace Sys2Proof.Machine

/-- The members of the collection (R32, R152), in index order. -/
def State.members (s : State) : List Nat := (s.pq.filter fun p => p.2).map fun p => p.1

/-- The extraction key of a node (R153; log entry 24): its frequency, then its index. -/
def nodeKey (arena : Memory Node) (i : Nat) : Except Fault (NodeFreq × Nat) :=
  match arena.read i with
  | some nd => .ok (nd.freq, i)
  | none => .error (.unwrittenRecord i)

/-- The lesser of two keys in lexicographic order, frequencies unsigned (R153). -/
def lesserKey (a b : NodeFreq × Nat) : NodeFreq × Nat :=
  if a.1 < b.1 ∨ (a.1 = b.1 ∧ a.2 < b.2) then a else b

/-- The least key of the listed nodes (R153). -/
def minKey (arena : Memory Node) : List Nat → Except Fault (NodeFreq × Nat)
  | [] => .error .emptyCollection
  | [i] => nodeKey arena i
  | i :: j :: is =>
    match nodeKey arena i, minKey arena (j :: is) with
    | .ok a, .ok b => .ok (lesserKey a b)
    | .error e, _ => .error e
    | .ok _, .error e => .error e

/-- `extract_min()` (R150, R153): the member with the least key leaves the collection and is handed to `k` with its
frequency. -/
def extractMin (s : State) (k : Nat → NodeFreq → State → Result) : Result :=
  match minKey s.arena s.members with
  | .ok (f, i) => k i f { s with pq := s.pq.write i false }
  | .error e => .fault e

/-- A new node: the next free record, a member of the collection (R150, R151, R154). -/
def addNode (nd : Node) (s : State) : Result :=
  andThen (writeRecord s.alloc.toNat nd s) fun t =>
    .next { t with pq := t.pq.write s.alloc.toNat true, alloc := s.alloc + 1 }

/-- Step 1 (R151): one leaf for each listed symbol whose counter is not 0, in the order listed. -/
def addLeaves : List Nat → State → Result
  | [], s => .next s
  | sym :: syms, s =>
    withCounter s sym fun f =>
      if f = 0 then addLeaves syms s
      else andThen (addNode (.leaf (BitVec.ofNat Config.symW sym) (f.setWidth Config.nfreqW)) s) (addLeaves syms)

/-- The start of BUILD (R150): the flags, the empty collection, the leaves. -/
def buildStart (s : State) : Result :=
  addLeaves (List.range Config.nsym)
    { s with treeV := false, cwtV := false, pq := Memory.fill Config.nodeMax false, alloc := 0, loop := .top }

/-- One merge (R154): the first-extracted node becomes the left child, the second-extracted the right. -/
def buildMerge (s : State) : Result :=
  extractMin s fun a fa t =>
    extractMin t fun b fb u =>
      addNode (.internal (BitVec.ofNat Config.idxW a) (BitVec.ofNat Config.idxW b) (fa + fb)) u

/-- The end of BUILD (R155): the remaining node is the root; the table is consumed. -/
def buildEnd (r : Nat) (s : State) : State :=
  { s with
    pq := s.pq.write r false, root := BitVec.ofNat Config.idxW r, nnode := s.alloc
    treeV := true, ftV := false }.finish

/-- One engine step of BUILD (R150): the leaves, then one merge a step, then the end. -/
def buildTick (s : State) : Result :=
  match s.loop with
  | .start => buildStart s
  | _ =>
    match s.members with
    | [] => .fault .emptyCollection
    | [r] => .next (buildEnd r s)
    | _ :: _ :: _ => buildMerge s

/-- Engine steps that carry BUILD to its end: at most 256 merges (R88, R156). -/
def buildFuel : Nat := Config.nodeMax + 2

/-- BUILD from where it stands. -/
def runBuild (s : State) : Result := drive buildTick buildFuel s

/-- `BUILD` (R150). -/
def execBuild (s : State) : Result := andThen (accept .build s) runBuild

end Sys2Proof.Machine
end

