-- ==== Sys2Proof/Machine/Control.lean ====
section
/-! DEFINITION. NOP and RST (spec 46_control.md), and the illegal command words (spec 30_encoding.md rule R102). -/

namespace Sys2Proof.Machine

/-- `NOP` (R230): nothing, and discarded while `FAULT = 1`, which has the same effect (R247). -/
def execNop (s : State) : Result := .next s

/-- `RST` (R231, R248): executed also while `FAULT = 1`; the registers at their reset values, the memories and the working
storage as they are, no stream touched. -/
def execRst (s : State) : Result := .next s.clearRegisters

/-- The words 0x08 to 0x0E and every word with a high nibble that is not 0000 are illegal (R102). -/
def execReserved8 (s : State) : Result := acceptIllegal 0x08#8 s
def execReserved9 (s : State) : Result := acceptIllegal 0x09#8 s
def execReservedA (s : State) : Result := acceptIllegal 0x0A#8 s
def execReservedB (s : State) : Result := acceptIllegal 0x0B#8 s
def execReservedC (s : State) : Result := acceptIllegal 0x0C#8 s
def execReservedD (s : State) : Result := acceptIllegal 0x0D#8 s
def execReservedE (s : State) : Result := acceptIllegal 0x0E#8 s
def execReservedRsv (rsv op : BitVec 4) (s : State) : Result := acceptIllegal (rsv ++ op) s

end Sys2Proof.Machine
end

