-- ==== Sys2Proof/Machine/Count.lean ====
section
/-! DEFINITION. COUNT, the frequency counter (spec 40_count.md). -/

namespace Sys2Proof.Machine

/-- The loop body of COUNT for a byte read (R141, R143): the bound is tested before the counter is changed. -/
def countByte (b : Byte) (s : State) : Result :=
  withCounter s b.toNat fun f =>
    if f = BitVec.allOnes Config.freqW then .next (raise (.freqOverflow b) s)
    else .next { s with ft := s.ft.write b.toNat (f + 1) }

/-- The end of COUNT (R141, R142): the EOF entry, and `FT_V`. -/
def countEnd (s : State) : State :=
  { s with ft := s.ft.write Config.eofSym 1, ftV := true }.finish

/-- One engine step of COUNT (R141): the fresh table, then one byte a step. -/
def countTick (s : State) : Result :=
  match s.loop with
  | .start => .next { s with ftV := false, ft := Memory.fill Config.nsym 0, loop := .top }
  | _ =>
    match byteIn s with
    | (.got b, t) => countByte b t
    | (.ended, t) => .next (countEnd t)
    | (.failed, t) => .next (raise (.ioError portByteSource) t)
    | (.waiting, _) => .next s

/-- Engine steps that carry COUNT to its end or to a port that does not answer; on an endless source (R88) COUNT goes on in the
next step. -/
def countFuel (s : State) : Nat := s.bsrc.data.length + 2

/-- COUNT from where it stands. -/
def runCount (s : State) : Result := drive countTick (countFuel s) s

/-- `COUNT` (R140, R141). -/
def execCount (s : State) : Result := andThen (accept .count s) runCount

end Sys2Proof.Machine
end

