-- ==== Sys2Proof/Machine/DecodeStream.lean ====
section
/-! DEFINITION. DECODE, the streaming bit decoder (spec 45_decode.md). -/

namespace Sys2Proof.Machine

/-- The control state CHECK (R211, R212, R222): the flags and the cursor, then the degenerate tree; no bit is read. -/
def decodeCheck (s : State) : Result :=
  let t := { s with eos := false, trunc := false, cur := s.root }
  withRecord t t.root fun
    | .internal _ _ _ => .next { t with loop := .top }
    | .leaf sym _ =>
      if sym = eof then .next { t with eos := true, loop := .stop }
      else .next (raise (.degenerateTree sym) t)

/-- At the new position `i` (R211, R215, R217): an internal node, the EOF leaf, or a leaf whose byte is due. -/
def decodeArrive (i : NodeIdx) (s : State) : Result :=
  let t := { s with cur := i }
  withRecord t i fun
    | .internal _ _ _ => .next t
    | .leaf sym _ =>
      if sym = eof then .next { t with eos := true, loop := .stop }
      else .next { t with loop := .write }

/-- The control state WALK (R211, R213, R214, R222): one bit, one move. -/
def decodeWalk (s : State) : Result :=
  match bitIn s with
  | (.got b, t) => withChildren t t.cur fun l r => decodeArrive (if b then r else l) t
  | (.ended, t) => .next { t with trunc := true, loop := .stop }
  | (.failed, t) => .next (raise (.ioError portBitSource) t)
  | (.waiting, _) => .next s

/-- The control state EMIT (R211, R217, R222): the low eight bits of the leaf's value, then the root again. -/
def decodeEmit (s : State) : Result :=
  withSym s s.cur fun sym =>
    match byteOut (sym.setWidth Config.byteW) s with
    | (.ok, t) => .next { t with cur := t.root, loop := .top }
    | (.failed, t) => .next (raise (.ioError portByteSink) t)
    | (.waiting, _) => .next s

/-- One engine step of DECODE (R222); the control state STOP ends the command. -/
def decodeTick (s : State) : Result :=
  match s.loop with
  | .start => decodeCheck s
  | .write => decodeEmit s
  | .stop => .next s.finish
  | _ => decodeWalk s

/-- Engine steps that carry DECODE to its end or to a port that does not answer: at most two a bit (R88); on an endless source
DECODE goes on in the next step. -/
def decodeFuel (s : State) : Nat := 2 * s.bitin.data.length + 4

/-- DECODE from where it stands. -/
def runDecode (s : State) : Result := drive decodeTick (decodeFuel s) s

/-- `DECODE` (R210, R211). -/
def execDecode (s : State) : Result := andThen (accept .decode s) runDecode

end Sys2Proof.Machine
end

