-- ==== Sys2Proof/Machine/Derive.lean ====
section
/-! DEFINITION. DERIVE, the symbol-to-codeword table generator (spec 43_derive.md). -/

namespace Sys2Proof.Machine

/-- The start of DERIVE (R190): every entry invalid, the walk at the root with the empty path. -/
def deriveStart (s : State) : State :=
  { s with
    cwtV := false, cwt := Memory.fill Config.nsym none
    stack := [⟨s.root, .enter⟩], plen := 0, loop := .top }

/-- At a leaf (R190, R192): its symbol's entry is `PATH` with `PLEN` as its length; a value above 256 has no entry. -/
def recordCodeword (sym : Sym) (s : State) : State :=
  if sym.toNat < Config.nsym then { s with cwt := s.cwt.write sym.toNat (some ⟨s.plen, s.path⟩) } else s

/-- The end of DERIVE (R190). -/
def deriveEnd (s : State) : State := { s with cwtV := true }.finish

/-- One engine step of DERIVE (R190, R191): the walk is pre-order, left before right; `PATH` holds the branches from the root
to the node being visited. -/
def deriveTick (s : State) : Result :=
  match s.loop with
  | .start => .next (deriveStart s)
  | _ =>
    match s.stack with
    | [] => .next (deriveEnd s)
    | ⟨i, .enter⟩ :: rest =>
      withRecord s i fun
        | .leaf sym _ => .next { recordCodeword sym s with stack := rest }
        | .internal l _ _ => .next { s.pushBranch false with stack := ⟨l, .enter⟩ :: ⟨i, .left⟩ :: rest }
    | ⟨i, .left⟩ :: rest =>
      withChildren s i fun _ r =>
        .next { s.popBranch.pushBranch true with stack := ⟨r, .enter⟩ :: ⟨i, .right⟩ :: rest }
    | ⟨_, .right⟩ :: rest => .next { s.popBranch with stack := rest }

/-- Engine steps that carry DERIVE to its end on a tree of at most `NODE_MAX` nodes (R88): at most three a node. -/
def deriveFuel : Nat := 3 * Config.nodeMax + 2

/-- DERIVE from where it stands. -/
def runDerive (s : State) : Result := drive deriveTick deriveFuel s

/-- `DERIVE` (R190). -/
def execDerive (s : State) : Result := andThen (accept .derive s) runDerive

end Sys2Proof.Machine
end

