-- ==== Sys2Proof/Machine/Encode.lean ====
section
/-! DEFINITION. ENCODE, the streaming bit encoder (spec 44_encode.md). -/

namespace Sys2Proof.Machine

/-- The lookup of `emit(s)` (R201 to R203): a symbol with no entry raises `MissingCodeword` before any bit of it is written. -/
def encodeLookup (sym : Sym) (s : State) : Result :=
  withEntry s sym.toNat fun
    | some _ => .next { s with loop := .emit sym 0 }
    | none => .next (raise (.missingCodeword sym) s)

/-- After the last bit of a codeword (R201, R204): the next byte, or the end of ENCODE after the EOF codeword. -/
def encodeNext (sym : Sym) (s : State) : State :=
  if sym = eof then s.finish else { s with loop := .top }

/-- One bit of `emit(s)` (R201), or its end when all `len` bits are out. -/
def encodeBit (sym : Sym) (j : Nat) (s : State) : Result :=
  withEntry s sym.toNat fun
    | none => .next (raise (.missingCodeword sym) s)
    | some cw =>
      if j < cw.len.toNat then
        match bitOut (cw.bits.getLsbD j) s with
        | (.ok, t) => .next { t with loop := .emit sym (j + 1) }
        | (.failed, t) => .next (raise (.ioError portBitSink) t)
        | (.waiting, _) => .next s
      else .next (encodeNext sym s)

/-- One engine step of ENCODE (R201): one transaction a step. -/
def encodeTick (s : State) : Result :=
  match s.loop with
  | .start => .next { s with loop := .top }
  | .emit sym j => encodeBit sym j s
  | _ =>
    match byteIn s with
    | (.got b, t) => encodeLookup b.sym t
    | (.ended, t) => encodeLookup eof t
    | (.failed, t) => .next (raise (.ioError portByteSource) t)
    | (.waiting, _) => .next s

/-- The length of the longest codeword of a table. -/
def longestCodeword (cwt : Memory CwEntry) : Nat :=
  cwt.foldr (fun p n => max (p.2.elim 0 fun c => c.len.toNat) n) 0

/-- Engine steps that carry ENCODE to its end or to a port that does not answer; on an endless source (R88) ENCODE goes on in
the next step. -/
def encodeFuel (s : State) : Nat := (s.bsrc.data.length + 2) * (longestCodeword s.cwt + 2) + 1

/-- ENCODE from where it stands. -/
def runEncode (s : State) : Result := drive encodeTick (encodeFuel s) s

/-- `ENCODE` (R200, R201). -/
def execEncode (s : State) : Result := andThen (accept .encode s) runEncode

end Sys2Proof.Machine
end

