-- ==== Sys2Proof/Machine/SerDes.lean ====
section
/-! DEFINITION. SER and DESER, the tree serializer and deserializer, and the two records of a serialized tree (spec
42_serdes.md; 30_encoding.md rules R110 to R114). -/

namespace Sys2Proof.Machine

/-! ## SER -/

/-- What a bit sink's answer does to SER: the transaction's result `t` goes on as `k t`; `Err` raises `IOError(4)`; no answer
changes nothing (R171, R243). -/
def serPut (s : State) (answer : PutAnswer × State) (k : State → State) : Result :=
  match answer with
  | (.ok, t) => .next (k t)
  | (.failed, t) => .next (raise (.ioError portBitSink) t)
  | (.waiting, _) => .next s

/-- One engine step of SER (R171): one transaction, or one move along the stack, a step. -/
def serTick (s : State) : Result :=
  match s.loop with
  | .start => .next { s with stack := [⟨s.root, .enter⟩], loop := .top }
  | .symbol i =>
    withSym s i fun sym =>
      serPut s (bitsOut sym.toNat Config.symW s) fun t => { t with stack := t.stack.tail, loop := .top }
  | _ =>
    match s.stack with
    | [] => .next s.finish
    | ⟨i, .enter⟩ :: rest =>
      withRecord s i fun
        | .leaf _ _ => serPut s (bitOut false s) fun t => { t with loop := .symbol i }
        | .internal l _ _ =>
          serPut s (bitOut true s) fun t => { t with stack := ⟨l, .enter⟩ :: ⟨i, .left⟩ :: rest }
    | ⟨i, .left⟩ :: rest =>
      withChildren s i fun _ r => .next { s with stack := ⟨r, .enter⟩ :: ⟨i, .right⟩ :: rest }
    | ⟨_, .right⟩ :: rest => .next { s with stack := rest }

/-- Engine steps that carry SER to its end on a tree of at most `NODE_MAX` nodes (R88): at most three a node. -/
def serFuel : Nat := 3 * Config.nodeMax + 2

/-- SER from where it stands. -/
def runSer (s : State) : Result := drive serTick serFuel s

/-- `SER` (R170, R171). -/
def execSer (s : State) : Result := andThen (accept .ser s) runSer

/-! ## DESER -/

/-- The start of DESER (R175). -/
def deserStart (s : State) : State :=
  { s with treeV := false, cwtV := false, alloc := 0, stack := [], loop := .top }

/-- The end of DESER (R175). -/
def deserEnd (r : NodeIdx) (s : State) : State :=
  { s with root := r, nnode := s.alloc, treeV := true }.finish

/-- `return c` of `deser_node` (R175): the subtree at `c` is complete. Below a frame whose left subtree it is, the right
subtree comes next; below one whose right subtree it is, the node is written and is complete in its turn; below no frame it
is the whole tree. Records are allocated in pre-order, so the left child of `i` is `i + 1` (log entry 15). -/
def deserReturn (s : State) : NodeIdx → List Frame → Result
  | c, [] => .next (deserEnd c { s with stack := [] })
  | _, ⟨i, .enter⟩ :: rest => .next { s with stack := ⟨i, .right⟩ :: rest, loop := .top }
  | _, ⟨i, .left⟩ :: rest => .next { s with stack := ⟨i, .right⟩ :: rest, loop := .top }
  | c, ⟨i, .right⟩ :: rest =>
    andThen (writeRecord i.toNat (.internal (i + 1) c 0) s) fun t => deserReturn t i rest

/-- `require n < NODE_MAX else raise ArenaOverflow(0)`, then `i <- n ; n <- n + 1` (R175, R177), handed to `k`. -/
def deserAlloc (s : State) (k : NodeIdx → State → Result) : Result :=
  if s.alloc.toNat < Config.nodeMax then k s.alloc { s with alloc := s.alloc + 1 }
  else .next (raise .arenaOverflow s)

/-- After a tag `0` (R175): a leaf's record is allocated and its symbol comes next. -/
def deserLeafTag (s : State) : Result :=
  deserAlloc s fun i t => .next { t with loop := .symbol i }

/-- After a tag `1` (R175): an internal node's record is allocated and its left subtree comes next. -/
def deserInternalTag (s : State) : Result :=
  deserAlloc s fun i t => .next { t with stack := ⟨i, .left⟩ :: t.stack, loop := .top }

/-- After the nine bits of the symbol of leaf `i` (R175, R178): stored as read, with no range check. -/
def deserSymbol (i : NodeIdx) (sym : Sym) (s : State) : Result :=
  andThen (writeRecord i.toNat (.leaf sym 0) s) fun t => deserReturn t i t.stack

/-- One engine step of DESER (R175): one transaction a step. -/
def deserTick (s : State) : Result :=
  match s.loop with
  | .start => .next (deserStart s)
  | .symbol i =>
    match bitsIn Config.symW s with
    | (.got v, t) => deserSymbol i (BitVec.ofNat Config.symW v) t
    | (.ended, t) => .next (raise .formatError t)
    | (.failed, t) => .next (raise (.ioError portBitSource) t)
    | (.waiting, _) => .next s
  | _ =>
    match bitIn s with
    | (.got false, t) => deserLeafTag t
    | (.got true, t) => deserInternalTag t
    | (.ended, t) => .next (raise .formatError t)
    | (.failed, t) => .next (raise (.ioError portBitSource) t)
    | (.waiting, _) => .next s

/-- Engine steps that carry DESER to its end or to a port that does not answer, on an endless source too: a tag and a symbol
for each record at most, and the tag that overflows (R88, R177). -/
def deserFuel : Nat := 2 * Config.nodeMax + 3

/-- DESER from where it stands. -/
def runDeser (s : State) : Result := drive deserTick deserFuel s

/-- `DESER` (R174, R175). -/
def execDeser (s : State) : Result := andThen (accept .deser s) runDeser

/-! ## The records of a serialized tree, as the running DESER takes them -/

/-- DESER is at a node boundary: a tag comes next. -/
def State.atNode (s : State) : Bool := s.phase == .deser && s.loop == .top

/-- `TREE_LEAF` (R111, R175): what DESER does with a leaf record it has read. -/
def execTreeLeaf (sym : Sym) (s : State) : Result :=
  if s.atNode then
    andThen (deserLeafTag s) fun t =>
      match t.loop with
      | .symbol i => deserSymbol i sym t
      | _ => .next t
  else .refused .recordOutsideDeser

/-- `TREE_INTERNAL` (R112, R175): what DESER does with an internal tag it has read. -/
def execTreeInternal (s : State) : Result :=
  if s.atNode then deserInternalTag s else .refused .recordOutsideDeser

end Sys2Proof.Machine
end

