-- ==== Sys2Proof/Machine/Dispatch.lean ====
section
/-! DEFINITION. The dispatch: one arm for each constructor of Instr (spec 30_encoding.md rules R100, R102, R111, R112). -/

namespace Sys2Proof.Machine

def exec (i : Instr) (s : State) : Host.Outcome State Fault Refusal :=
  match i with
  | .nop => Sys2Proof.Machine.execNop s
  | .count => Sys2Proof.Machine.execCount s
  | .build => Sys2Proof.Machine.execBuild s
  | .derive => Sys2Proof.Machine.execDerive s
  | .ser => Sys2Proof.Machine.execSer s
  | .encode => Sys2Proof.Machine.execEncode s
  | .deser => Sys2Proof.Machine.execDeser s
  | .decode => Sys2Proof.Machine.execDecode s
  | .rst => Sys2Proof.Machine.execRst s
  | .reserved8 => Sys2Proof.Machine.execReserved8 s
  | .reserved9 => Sys2Proof.Machine.execReserved9 s
  | .reservedA => Sys2Proof.Machine.execReservedA s
  | .reservedB => Sys2Proof.Machine.execReservedB s
  | .reservedC => Sys2Proof.Machine.execReservedC s
  | .reservedD => Sys2Proof.Machine.execReservedD s
  | .reservedE => Sys2Proof.Machine.execReservedE s
  | .reservedRsv rsv op => Sys2Proof.Machine.execReservedRsv rsv op s
  | .treeLeaf sym => Sys2Proof.Machine.execTreeLeaf sym s
  | .treeInternal => Sys2Proof.Machine.execTreeInternal s

end Sys2Proof.Machine
end

