-- ==== Sys2Proof/Machine/Engine.lean ====
section
/-! DEFINITION. The control engine between its steps: the engine step of the command that runs, the acceptance of an
instruction without its run, and the host's moves in the middle of a run (spec 10_state.md rule R21; 70_reset_and_hazards.md
rules R283, R290, R295). -/

namespace Sys2Proof.Machine

/-- One engine step of the command that runs (R21; log entry 18); none runs when idle. -/
def engineTick (s : State) : Result :=
  match s.phase with
  | .idle => .next s
  | .count => countTick s
  | .build => buildTick s
  | .derive => deriveTick s
  | .ser => serTick s
  | .encode => encodeTick s
  | .deser => deserTick s
  | .decode => decodeTick s

/-- The command that runs, carried on to its end or until a port does not answer. -/
def resume (s : State) : Result :=
  match s.phase with
  | .idle => .next s
  | .count => runCount s
  | .build => runBuild s
  | .derive => runDerive s
  | .ser => runSer s
  | .encode => runEncode s
  | .deser => runDeser s
  | .decode => runDecode s

/-- The acceptance of an instruction (R102, R291): what exec does before the engine runs. An instruction that completes
within its acceptance step (R21) is complete. -/
def acceptOnly (i : Instr) (s : State) : Result :=
  match i with
  | .nop => execNop s
  | .count => accept .count s
  | .build => accept .build s
  | .derive => accept .derive s
  | .ser => accept .ser s
  | .encode => accept .encode s
  | .deser => accept .deser s
  | .decode => accept .decode s
  | .rst => execRst s
  | .reserved8 => execReserved8 s
  | .reserved9 => execReserved9 s
  | .reservedA => execReservedA s
  | .reservedB => execReservedB s
  | .reservedC => execReservedC s
  | .reservedD => execReservedD s
  | .reservedE => execReservedE s
  | .reservedRsv rsv op => execReservedRsv rsv op s
  | .treeLeaf sym => execTreeLeaf sym s
  | .treeInternal => execTreeInternal s

/-- The host reads CSR `n` (R25, R295): no side effect on the block. -/
def hostReadCsr (n : BitVec 3) (s : State) : State :=
  if s.csrStale n then
    { s with seen := s.seen ++ [.csr n ((Config.staleCsr s.draws).setWidth 16)], draws := s.draws + 1 }
  else { s with seen := s.seen ++ [.csr n (s.csr n)] }

/-- How many engine steps pass before a move of the host during a run. -/
def BusyMove.after : BusyMove → Nat
  | .readCsr after _ => after
  | .reset after => after

/-- A move of the host during a run (R283, R295). -/
def BusyMove.act : BusyMove → State → State
  | .readCsr _ n => hostReadCsr n
  | .reset _ => hardwareReset

/-- The run of a command with the host's moves in it: a hardware reset stops it at any step boundary (R283, U17). -/
def runDuring : List BusyMove → State → Result
  | [], s => resume s
  | m :: ms, s => andThen (drive engineTick m.after s) fun t => runDuring ms (m.act t)

/-- A word is accepted from the command port (R290). -/
def issue (p : PortWord) (s : State) : Result :=
  match p.during with
  | [] => exec (decodeCommand p.word) s
  | m :: ms => andThen (acceptOnly (decodeCommand p.word) s) (runDuring (m :: ms))

end Sys2Proof.Machine
end

