-- ==== Sys2Proof/Machine/HostSide.lean ====
section
/-! DEFINITION. What the host does at the block's ports, and the BitChannel as the host uses it (spec 20_memory.md rules R66 to
R75, R83; 30_encoding.md rules R105, R120, R121; 70_reset_and_hazards.md rules R285 to R289). -/

namespace Sys2Proof.Machine

/-! ## Bits and bytes of a file (R70): the first bit of every eight is bit 7 of the byte -/

/-- The bytes of a bit sequence, eight bits a byte. -/
def packBytes : Bits → List Byte
  | a :: b :: c :: d :: e :: f :: g :: h :: rest =>
    BitVec.ofNat 8 (msbValue [a, b, c, d, e, f, g, h]) :: packBytes rest
  | _ => []

/-- The bits of a file. -/
def unpackBytes (bytes : List Byte) : Bits := bytes.flatMap fun b => msbBits 8 b.toNat

/-- How many padding bits follow `k` bits when the channel is closed (R75). -/
def padCount (k : Nat) : Nat := (8 - k % 8) % 8

/-- The padding bits (R75): each is free (log entry 6). -/
def padding (draws n : Nat) : Bits := (List.range n).map fun j => Config.pad (draws + j)

/-! ## The host's own transactions on the BitChannel (R83, R286, R287; log entry 21) -/

/-- `writeBits(value, n)` by the host; none while the sink does not answer. -/
def hostWriteBits (value n : Nat) (s : State) : Option State :=
  match bitsOut value n s with
  | (.ok, t) => some { t with seen := t.seen ++ [.bitsWritten] }
  | (.failed, t) => some { t with seen := t.seen ++ [.writeFailed] }
  | (.waiting, _) => none

/-- `readBits(n)` by the host; none while the source does not answer. -/
def hostReadBits (n : Nat) (s : State) : Option State :=
  match bitsIn n s with
  | (.got v, t) => some { t with seen := t.seen ++ [.bits v] }
  | (.ended, t) => some { t with seen := t.seen ++ [.bitsEnded] }
  | (.failed, t) => some { t with seen := t.seen ++ [.bitsFailed] }
  | (.waiting, _) => none

/-- `close` of the BitChannel opened for writing (R75): the file is `OUTBITS` and the padding; nothing stands behind the port
any more. -/
def hostCloseBitSink (s : State) : State :=
  let n := padCount s.bitout.written.length
  { s with
    bitout := ⟨[], some 0, .silent⟩
    seen := s.seen ++ [.file (packBytes (s.bitout.written ++ padding s.draws n))]
    draws := s.draws + n }

/-- A move of the host on the streams, which only happens while the block is idle (R83, R294); none if it cannot happen
now. -/
def whileIdle (s : State) (t : Option State) : Option State := if s.busy then none else t

/-- A move of the host, or none if it cannot happen now and waits (R290, R294). DESIGN CHOICE (log entry 27): a sink that is
attached is an empty one, and attaching another without closing drops the model's record of what the old one took; the host
sees no file of it. -/
def hostMove (s : State) : HostMove → Option State
  | .present p => if s.cmd.isSome then none else some { s with cmd := some p }
  | .hardwareReset => some (hardwareReset s)
  | .readCsr n => some (hostReadCsr n s)
  | .attachByteSource src => whileIdle s (some { s with bsrc := src })
  | .attachByteSink room whenFull => whileIdle s (some { s with bsnk := ⟨[], room, whenFull⟩ })
  | .attachBitSource src => whileIdle s (some { s with bitin := src })
  | .attachBitSink room whenFull => whileIdle s (some { s with bitout := ⟨[], room, whenFull⟩ })
  | .writeBits value n => whileIdle s (hostWriteBits value n s)
  | .readBits n => whileIdle s (hostReadBits n s)
  | .closeByteSource => whileIdle s (some { s with bsrc := ⟨[], .silent⟩ })
  | .closeByteSink => whileIdle s (some { s with bsnk := { s.bsnk with room := some 0, whenFull := .silent } })
  | .closeBitSource => whileIdle s (some { s with bitin := ⟨[], .silent⟩ })
  | .closeBitSink => whileIdle s (some (hostCloseBitSink s))

/-- The host's next move, if it has one and it can happen now. -/
def hostAct (s : State) : Option State :=
  match s.host with
  | [] => none
  | m :: ms => hostMove { s with host := ms } m

/-! ## Sessions (R105, R286, R287) -/

/-- The macro COMPRESS (R105). -/
def compressWords : List Byte := [0x01#8, 0x02#8, 0x03#8, 0x04#8, 0x05#8]

/-- The macro DECOMPRESS (R105). -/
def decompressWords : List Byte := [0x06#8, 0x07#8]

/-- A command word presented with no move of the host during its run. -/
def presentWord (w : Byte) : HostMove := .present ⟨w, []⟩

/-- The compression session of R286 for the input `input`: the magic number (R121, a parameter), COUNT over the input, BUILD,
DERIVE, SER, the input again, ENCODE, close (R288). -/
def compressSession (input : List Byte) (magic : BitVec 32 := Config.magic) : List HostMove :=
  [.attachBitSink none .silent, .writeBits magic.toNat 32, .attachByteSource ⟨input, .endOfData⟩,
    presentWord 0x01#8, presentWord 0x02#8, presentWord 0x03#8, presentWord 0x04#8,
    .attachByteSource ⟨input, .endOfData⟩, presentWord 0x05#8, .readCsr 0#3, .closeBitSink, .closeByteSource]

/-- The first 32 bits of a file are the magic number (R287). -/
def magicMatches (file : List Byte) (magic : BitVec 32 := Config.magic) : Bool :=
  4 ≤ file.length && msbValue (unpackBytes (file.take 4)) == magic.toNat

/-- The decompression session of R287 for a file and a magic number (R121, a parameter): the host reads 32 bits itself; on a
mismatch it presents no command. -/
def decompressSession (file : List Byte) (magic : BitVec 32 := Config.magic) : List HostMove :=
  if magicMatches file magic then
    [.attachBitSource ⟨unpackBytes file, .endOfData⟩, .readBits 32, .attachByteSink none .silent,
      presentWord 0x06#8, presentWord 0x07#8, .readCsr 0#3, .closeBitSource, .closeByteSink]
  else [.attachBitSource ⟨unpackBytes file, .endOfData⟩, .readBits 32, .closeBitSource]

end Sys2Proof.Machine
end

