-- ==== Sys2Proof/Machine/Step.lean ====
section
/-! DEFINITION. One step of the machine (spec 10_state.md rule R21; 60_exceptions.md rule R253; 70_reset_and_hazards.md rules
R290, R294, R297; log entries 2 and 13). -/

namespace Sys2Proof.Machine

/-- One step. While a command runs: a move of the host that can happen then (R294), else the command goes on. While idle: the
word on the command port is accepted and its instruction executed (R290), else the host's next move, else nothing (R253). -/
def step (s : State) : Host.Outcome State Fault Refusal :=
  if s.busy then
    match hostAct s with
    | some t => .next t
    | none => resume s
  else
    match s.cmd with
    | some p => issue p { s with cmd := none }
    | none => .next ((hostAct s).getD s)

/-- `s` with an instruction's code where the next step takes it (log entry 22): a command word on the command port of the idle
block; a record on the bit source of a DESER that stands at its first node. -/
def State.withFetchWord (s : State) (nbits w : Nat) : State :=
  match tableCode nbits w with
  | none => s
  | some (.command word) => { s with phase := .idle, cmd := some ⟨word, []⟩ }
  | some (.record bits) =>
    { s with
      phase := .deser, loop := .top, treeV := false, cwtV := false, alloc := 0, stack := []
      bitin := ⟨bits, .silent⟩, host := [] }

end Sys2Proof.Machine
end

