-- ==== Sys2Proof/Machine/Tree.lean ====
section
/-! DEFINITION. The abstract tree of the arena, its serialized form and its codewords, in the terms of which the rules speak
of the memories (spec 10_state.md rule R35; 30_encoding.md rules R112, R113, R115; 43_derive.md rules R190 to R195). No
instruction's meaning uses this file. -/

namespace Sys2Proof.Machine

/-- The abstract tree (R35). -/
inductive Tree where
  | leaf (s : Sym)
  | node (l r : Tree)
  deriving DecidableEq, Repr

/-- The number of nodes. -/
def Tree.size : Tree → Nat
  | .leaf _ => 1
  | .node l r => 1 + l.size + r.size

/-- The number of leaves, `L` of R112. -/
def Tree.leafCount : Tree → Nat
  | .leaf _ => 1
  | .node l r => l.leafCount + r.leafCount

/-- `T(i) = t` (R35): the arena's record `i` and the records below it are the tree. -/
def Tree.isAt (arena : Memory Node) : Tree → NodeIdx → Bool
  | .leaf s, i =>
    match arena.read i.toNat with
    | some (.leaf s' _) => s' == s
    | _ => false
  | .node l r, i =>
    match arena.read i.toNat with
    | some (.internal a b _) => l.isAt arena a && r.isAt arena b
    | _ => false

/-- The arena indices of the tree's nodes, from the root's index on (R35). -/
def Tree.indices (arena : Memory Node) : Tree → NodeIdx → List Nat
  | .leaf _, i => [i.toNat]
  | .node l r, i =>
    match arena.read i.toNat with
    | some (.internal a b _) => i.toNat :: (l.indices arena a ++ r.indices arena b)
    | _ => [i.toNat]

/-- `ser` (R113): the serialized tree. -/
def Tree.ser : Tree → Bits
  | .leaf s => false :: msbBits Config.symW s.toNat
  | .node l r => true :: (l.ser ++ r.ser)

/-- Every leaf with its path from the root, in pre-order (R115, R191). -/
def Tree.paths : Tree → List (Sym × Bits)
  | .leaf s => [(s, [])]
  | .node l r => l.paths.map (fun p => (p.1, false :: p.2)) ++ r.paths.map (fun p => (p.1, true :: p.2))

/-- The entry DERIVE leaves for a symbol: the path of the last leaf that holds it, in pre-order (R190, R193). -/
def Tree.codeword (s : Sym) : Tree → Option Bits
  | .leaf x => if x = s then some [] else none
  | .node l r =>
    match r.codeword s with
    | some p => some (true :: p)
    | none => (l.codeword s).map fun p => false :: p

/-- The root of the present tree is `T(ROOT) = t`, a tree the arena can hold without sharing (R35). -/
def State.hasTree (s : State) (t : Tree) : Prop :=
  t.isAt s.arena s.root = true ∧ t.size ≤ Config.nodeMax

/-- The bits of a sink's transactions fit: it takes at least `n` more (R65). -/
def Sink.takes {α : Type} (snk : Sink α) (n : Nat) : Prop := ∀ k, snk.room = some k → n ≤ k

/-- A sink after `n` transactions that append `xs` in all (R66). -/
def Sink.after {α : Type} (snk : Sink α) (n : Nat) (xs : List α) : Sink α :=
  { snk with written := snk.written ++ xs, room := snk.room.map fun k => k - n }

/-- The bits of SER's transactions on the bit sink, one after another (R171): for a leaf the tag and the nine bits of its
symbol, for an internal node the tag and then the two subtrees. -/
def Tree.transactions : Tree → List Bits
  | .leaf s => [[false], msbBits Config.symW s.toNat]
  | .node l r => [true] :: (l.transactions ++ r.transactions)

/-- How many transactions SER makes (R78): two for a leaf, one for an internal node. -/
def Tree.serWrites : Tree → Nat
  | .leaf _ => 2
  | .node l r => 1 + l.serWrites + r.serWrites

/-- The entry of a symbol in the table as the sequence it stands for (R34): none if the entry has no value, `some none` if it
is not valid. -/
def State.entry (s : State) (sym : Sym) : Option (Option Bits) :=
  (s.cwt.read sym.toNat).map (Option.map Codeword.seq)

/-- The path DERIVE has taken from the root: the first `PLEN` bits of `PATH` (R33). -/
def State.pathBits (s : State) : Bits := Codeword.seq ⟨s.plen, s.path⟩

/-- The codeword of a symbol in the table, empty where there is none (R34). -/
def State.cw (s : State) (sym : Sym) : Bits :=
  match s.entry sym with
  | some (some bits) => bits
  | _ => []

/-- The symbol has a valid entry in the table (R34). -/
def State.hasCw (s : State) (sym : Sym) : Prop := ∃ bits, s.entry sym = some (some bits)

/-- The payload of R118: the codewords of the bytes, then that of the EOF symbol. -/
def State.payload (s : State) (bytes : List Byte) : Bits :=
  (bytes.map fun b => s.cw b.sym).flatten ++ s.cw eof

/-- The low eight bits of a leaf's value (R217). -/
def lowByte (sym : Sym) : Byte := sym.setWidth Config.byteW

/-- The count of a symbol in a frequency table (R30). -/
def countOf (ft : Memory Freq) (sym : Sym) : Nat := ((ft.read sym.toNat).getD 0).toNat

/-- The weighted path length (R158): the sum over the leaves of the symbol's count times the leaf's depth. -/
def Tree.cost (ft : Memory Freq) (t : Tree) : Nat := (t.paths.map fun p => countOf ft p.1 * p.2.length).sum

/-- Node `i` is extracted before node `j` (R153): by frequency, then by index. -/
def extractedBefore (arena : Memory Node) (i j : Nat) : Prop :=
  ∃ a b, arena.read i = some a ∧ arena.read j = some b ∧ (a.freq < b.freq ∨ (a.freq = b.freq ∧ i < j))

/-- Node `j` is a child of a node below `i`: it has left the collection before node `i` is made (R152). -/
def childBelow (arena : Memory Node) (i j : Nat) : Prop :=
  ∃ (m : Nat) (a b : NodeIdx) (f : NodeFreq), m < i ∧ arena.read m = some (.internal a b f) ∧
    (a.toNat = j ∨ b.toNat = j)

/-- The symbols that have an entry in the frequency table, in ascending order (R30, R151). -/
def tableSymbols (ft : Memory Freq) : List Nat :=
  (List.range Config.nsym).filter fun a => (ft.read a).any fun f => f ≠ 0

end Sys2Proof.Machine
end

