-- ==== Sys2Proof/Safety.lean ====
section
/-! DEFINITION. What holds in every state a run can reach, in the terms the statements use (spec 10_state.md rules R22, R23,
R30, R35; 60_exceptions.md rule R241; 70_reset_and_hazards.md rules R291, R292). -/

namespace Sys2Proof.Machine

/-- The block accepts a command and will not discard it: idle, no fault recorded (R247, R290). -/
def State.accepting (s : State) : Prop := s.phase = .idle ∧ s.err = 0#8

/-- A source answers `End` or `Err` in the end (R88): it is neither silent nor endless. -/
def SourceEnd.ends (e : SourceEnd) : Prop := e = .endOfData ∨ e = .failure

/-- A source gives items for ever (R88). -/
def SourceEnd.goesOn (e : SourceEnd) : Prop := ∃ k, e = .endless k

/-- Every port answers in the end (R88): the sources end or fail, and a sink that takes no more says so. -/
def State.portsAnswer (s : State) : Prop :=
  s.bsrc.ending.ends ∧ s.bitin.ending.ends ∧
  (s.bsnk.room = none ∨ s.bsnk.whenFull = .failure) ∧ (s.bitout.room = none ∨ s.bitout.whenFull = .failure)

/-- A command runs and waits for a port that does not answer (R88): its next engine step changes nothing. -/
def State.waiting (s : State) : Prop := s.phase ≠ .idle ∧ engineTick s = .next s

/-- A command runs on a source that never ends (R88, R297): COUNT or ENCODE on the byte source, DECODE on the bit source. -/
def State.runsOnEndless (s : State) : Prop :=
  ((s.phase = .count ∨ s.phase = .encode) ∧ s.bsrc.ending.goesOn) ∨ (s.phase = .decode ∧ s.bitin.ending.goesOn)

/-- A source has moved forward from `src` to `src'` (R67, R79): it holds an end part of its data, and what comes after them is
the same; an endless source has brought in further items only when its data were used up. -/
def Source.Forward {α : Type} (src src' : Source α) : Prop :=
  src'.data <:+ src.data ∧
    (src'.ending = src.ending ∨
      src'.data = [] ∧ ∃ k k', src.ending = .endless k ∧ src'.ending = .endless k' ∧ k ≤ k')

/-- `n` steps. -/
def steps : Nat → State → Result
  | 0, s => .next s
  | n + 1, s => andThen (step s) (steps n)

/-- The flags, `ERR` and `PHASE` agree with one another (R21 to R24, R26, R241, R291, R292). -/
structure State.StatusSound (s : State) : Prop where
  /-- Codes 9 to 255 are never produced (R241). -/
  errRange : s.err.toNat ≤ 8
  /-- No fault, no fault information (R241). -/
  errinfoOfNoFault : s.err = 0#8 → s.errinfo = 0#16
  /-- A fault ends the command, and no command runs after it (R246, R247). -/
  busyNoFault : s.phase ≠ .idle → s.err = 0#8
  /-- `CWT_V = 1` implies `TREE_V = 1` (R292). -/
  tableOfTree : s.cwtV = true → s.treeV = true
  /-- At most one of `EOS` and `TRUNC` (R211). -/
  oneEnd : ¬(s.eos = true ∧ s.trunc = true)
  /-- Past its check and before its stop, a running DECODE has neither (R211, R222). -/
  decodeOpen : s.phase = .decode → s.loop ≠ .start → s.loop ≠ .stop → s.eos = false ∧ s.trunc = false
  /-- In the control state STOP it has one of them (R222). -/
  decodeStopped : s.phase = .decode → s.loop = .stop → s.eos = !s.trunc
  /-- A running BUILD that has not started its work still has its table (R291). -/
  buildReady : s.phase = .build → s.ftV = true
  /-- A running DERIVE, SER or DECODE has a tree (R291). -/
  treeReady : s.phase = .derive ∨ s.phase = .ser ∨ s.phase = .decode → s.treeV = true
  /-- A running ENCODE has a codeword table (R291). -/
  encodeReady : s.phase = .encode → s.cwtV = true

/-- The internal memories are in canonical form (R30 to R32, R34). -/
structure State.MemoriesCanonical (s : State) : Prop where
  ft : Memory.wf Config.nsym s.ft
  arena : Memory.wf Config.nodeMax s.arena
  pq : Memory.wf Config.nodeMax s.pq
  cwt : Memory.wf Config.nsym s.cwt

/-- Every cell `0 .. n-1` of a memory has a value. -/
def Memory.full {α : Type} (n : Nat) (m : Memory α) : Prop := ∀ a, a < n → (m.read a).isSome = true

/-- The frequency table (R30): while `FT_V = 1` every counter has a value and that of symbol 256 is 1; a running COUNT has
cleared every counter. -/
structure State.FrequencySound (s : State) : Prop where
  full : s.ftV = true → Memory.full Config.nsym s.ft
  eofOne : s.ftV = true → s.ft.read Config.eofSym = some 1
  counting : s.phase = .count → s.loop ≠ .start → Memory.full Config.nsym s.ft

/-- A tree stands at record `i`, on records of its own within `lo .. hi-1` (R35: no sharing, no cycles). -/
def TreeWithin (arena : Memory Node) (i : NodeIdx) (lo hi : Nat) (t : Tree) : Prop :=
  t.isAt arena i = true ∧ (t.indices arena i).Nodup ∧ ∀ j ∈ t.indices arena i, lo ≤ j ∧ j < hi

/-- The tree and the codeword table (R35, R292): while `TREE_V = 1` the tree at `ROOT` stands on records of its own below
`NNODE`; while `CWT_V = 1` every entry of the table has a value. -/
structure State.TreeSound (s : State) : Prop where
  tree : s.treeV = true → ∃ t, TreeWithin s.arena s.root 0 s.nnode.toNat t
  nnode : s.nnode.toNat ≤ Config.nodeMax
  table : s.cwtV = true → Memory.full Config.nsym s.cwt

/-- The codeword table is that of the present tree while `CWT_V = 1` (R22, R85, R292). -/
def State.TableOfTree (s : State) : Prop :=
  s.cwtV = true → ∃ tr, s.hasTree tr ∧
    ∀ sym : Sym, sym.toNat < Config.nsym → s.entry sym = some (tr.codeword sym)

/-- A node of the tree below which SER or DERIVE works: a tree stands at it, and it is internal once its subtrees are under
way (R33, R171, R190). -/
def FrameSound (arena : Memory Node) (f : Frame) : Prop :=
  ∃ t : Tree, t.isAt arena f.node = true ∧ (f.visit ≠ .enter → ∃ l r, t = .node l r)

/-- DESER's stack (R175): `hi` is the record where the subtree that is being read starts. Below a frame whose left subtree it
is, it starts right after the node; below one whose right subtree it is, the left subtree stands complete between the two. -/
def DeserStack (arena : Memory Node) : Nat → List Frame → Prop
  | hi, [] => hi = 0
  | _, ⟨_, .enter⟩ :: _ => False
  | hi, ⟨i, .left⟩ :: rest => hi = i.toNat + 1 ∧ DeserStack arena i.toNat rest
  | hi, ⟨i, .right⟩ :: rest =>
    i.toNat < hi ∧ (∃ t, TreeWithin arena (i + 1) (i.toNat + 1) hi t) ∧ DeserStack arena i.toNat rest

/-- BUILD's collection between two merges (R152, R154): it is not empty, its members are roots of trees on records of their
own below `n`, no two of them share a record, and the merges still to come fit the arena (R156). -/
structure State.CollectionSound (s : State) : Prop where
  nonempty : s.members ≠ []
  fits : s.alloc.toNat + s.members.length ≤ Config.nodeMax + 1
  below : ∀ i ∈ s.members, i < s.alloc.toNat
  trees : ∃ f : Nat → Tree,
    (∀ i ∈ s.members, TreeWithin s.arena (BitVec.ofNat Config.idxW i) 0 s.alloc.toNat (f i)) ∧
    ∀ i ∈ s.members, ∀ j ∈ s.members, i ≠ j →
      List.Disjoint ((f i).indices s.arena (BitVec.ofNat Config.idxW i))
        ((f j).indices s.arena (BitVec.ofNat Config.idxW j))

/-- What the working storage of a running command holds once it has started (R33, R150, R171, R175, R190, R201, R213). -/
structure State.RunSound (s : State) : Prop where
  build : s.phase = .build → s.loop ≠ .start → s.treeV = false ∧ s.cwtV = false ∧ s.CollectionSound
  derive : s.phase = .derive → s.loop ≠ .start →
    (∀ f ∈ s.stack, FrameSound s.arena f) ∧ Memory.full Config.nsym s.cwt
  ser : s.phase = .ser → s.loop ≠ .start →
    (∀ f ∈ s.stack, FrameSound s.arena f) ∧
    ∀ i, s.loop = .symbol i → ∃ x, (Tree.leaf x).isAt s.arena i = true
  encode : s.phase = .encode → ∀ sym j, s.loop = .emit sym j → sym.toNat < Config.nsym
  deser : s.phase = .deser → s.loop ≠ .start → s.treeV = false ∧ s.cwtV = false ∧
    match s.loop with
    | .symbol i => s.alloc.toNat = i.toNat + 1 ∧ s.alloc.toNat ≤ Config.nodeMax ∧ DeserStack s.arena i.toNat s.stack
    | _ => s.alloc.toNat ≤ Config.nodeMax ∧ DeserStack s.arena s.alloc.toNat s.stack
  decode : s.phase = .decode → s.loop ≠ .start → s.loop ≠ .stop →
    (∃ l r, (Tree.node l r).isAt s.arena s.root = true) ∧
    if s.loop = .write then ∃ x, (Tree.leaf x).isAt s.arena s.cur = true
    else ∃ l r, (Tree.node l r).isAt s.arena s.cur = true

/-- The invariant of a run: what every reachable state satisfies. -/
structure State.Inv (s : State) : Prop where
  status : s.StatusSound
  memories : s.MemoriesCanonical
  frequencies : s.FrequencySound
  trees : s.TreeSound
  run : s.RunSound

end Sys2Proof.Machine
end

