-- ==== Sys2Proof/Certificates/Slice0/Obligations.lean ====
section
/-! DEFINITION. The statements about the machine, for the provers. A frame is written as an equation
`t = { s with f := .., g := .. }`: every field that is not named is unchanged. Where a frame names the loop position or the
working storage as `loop := t.loop`, `stack := t.stack`, `path := t.path`, `plen := t.plen`, `alloc := t.alloc`, it says
nothing about them: no rule fixes what they hold between commands (R33; log entries 9 and 17). -/

open Sys2Proof Sys2Proof.Machine

/-! ## Encoding -/

/-- Words written out bit by bit from R100, R101, R111, R112 decode to the instructions they stand for. -/
def Obligations.SpecWordsDecodeToTheirInstructions : Prop :=
  decode (.command 0b0000_0000#8) = .ok .nop ∧
  decode (.command 0b0000_0001#8) = .ok .count ∧
  decode (.command 0b0000_0010#8) = .ok .build ∧
  decode (.command 0b0000_0011#8) = .ok .derive ∧
  decode (.command 0b0000_0100#8) = .ok .ser ∧
  decode (.command 0b0000_0101#8) = .ok .encode ∧
  decode (.command 0b0000_0110#8) = .ok .deser ∧
  decode (.command 0b0000_0111#8) = .ok .decode ∧
  decode (.command 0b0000_1111#8) = .ok .rst ∧
  decode (.command 0b0000_1000#8) = .ok .reserved8 ∧
  decode (.command 0b0001_0001#8) = .ok (.reservedRsv 0b0001#4 0b0001#4) ∧
  decode (.record [false, true, false, false, false, false, false, false, false, false]) = .ok (.treeLeaf 256#9) ∧
  decode (.record [false, false, false, true, false, false, false, false, false, true]) = .ok (.treeLeaf 0x41#9) ∧
  decode (.record [true]) = .ok .treeInternal

/-- Decoding the code of a well-formed instruction gives the instruction back, every operand at every value (R101, R102, R111,
R112). -/
def Obligations.DecodeInvertsEncode : Prop :=
  ∀ i : Instr, i.wf = true → decode (encode i) = .ok i

/-- Whatever decodes is the code of the well-formed instruction it decodes to: no code has two readings and no instruction two
codes (R102, R112). -/
def Obligations.EncodeInvertsDecode : Prop :=
  ∀ (c : Code) (i : Instr), decode c = .ok i → i.wf = true ∧ encode i = c

/-- R112: a serialized tree with `L` leaves has `L - 1` internal nodes and `11*L - 1` bits, and no serialized tree is the
beginning of another. -/
def Obligations.SerializedTreeIsSelfDelimiting : Prop :=
  (∀ t : Tree, t.size = t.leafCount + (t.leafCount - 1) ∧ t.ser.length = 10 * t.leafCount + (t.leafCount - 1) ∧
    t.ser.length = 11 * t.leafCount - 1) ∧
  ∀ (t u : Tree) (rest : Bits), t.ser ++ rest = u.ser → t = u ∧ rest = []

/-! ## Steps -/

/-- A step of the idle block executes the instruction that the word on its command port decodes to, the word taken from the
port (R101, R290). -/
def Obligations.StepExecutesThePresentedWord : Prop :=
  ∀ (s : State) (w : Byte) (i : Instr), s.phase = .idle → s.cmd = some ⟨w, []⟩ → decode (.command w) = .ok i →
    step s = exec i { s with cmd := none }

/-- Execution is acceptance and then the run of what was accepted: where the host acts during the run (R283, R295), the step
takes the same path in pieces. -/
def Obligations.ExecutionIsAcceptanceThenRun : Prop :=
  (∀ (i : Instr) (s : State), s.phase = .idle → exec i s = andThen (acceptOnly i s) resume) ∧
  ∀ (s : State) (w : Byte) (i : Instr) (m : BusyMove) (ms : List BusyMove),
    s.phase = .idle → s.cmd = some ⟨w, m :: ms⟩ → decode (.command w) = .ok i →
    step s = andThen (acceptOnly i { s with cmd := none }) fun t =>
      andThen (drive engineTick m.after t) fun u => runDuring ms (m.act u)

/-- A step of a DESER at a node boundary decodes the record at the front of the bit source, executes it, its bits consumed, and
goes on with what DESER has left to do (R111, R112, R175). -/
def Obligations.StepExecutesTheRecordAtANodeBoundary : Prop :=
  ∀ (s : State) (r : Instr) (rest : Bits),
    s.phase = .deser → s.loop = .top → s.host = [] → s.alloc.toNat < Config.nodeMax →
    decodeRecord s.bitin.data = .ok (r, rest) →
    step s = andThen (exec r { s with bitin := { s.bitin with data := rest } })
      (drive deserTick (deserFuel - if r = .treeInternal then 1 else 2))

/-- R290: a word on the command port stays there while a command runs, and has no effect on it. That it stays there also in the
step that carries out a hardware reset of the host is the model's (log entry 19, DEDUCED). -/
def Obligations.BusyBlockLeavesTheWordOnThePort : Prop :=
  (∀ (s t : State) (p : PortWord), s.phase ≠ .idle → s.cmd = some p → step s = .next t → t.cmd = some p) ∧
  ∀ (s : State) (p : PortWord), s.phase ≠ .idle → s.host = [] →
    step { s with cmd := some p } = andThen (step { s with cmd := none }) fun t => .next { t with cmd := some p }

/-! ## Reset, control commands, faults -/

/-- R41, R280, R281: what reset leaves in every register; the memories have no value; the streams are as they were. That the
word on the command port (`cmd`), the host's pending moves (`host`) and what the model keeps for itself (`seen`, `draws`) are
as they were too is the model's (log entries 10 and 19). The idle block waits for a command word: with none on its port, and
no move of the host, a step changes nothing (R253). -/
def Obligations.HardwareResetLeavesTheResetValues : Prop :=
  (∀ s : State,
    hardwareReset s = { s with
      phase := .idle, loop := (hardwareReset s).loop
      ftV := false, treeV := false, cwtV := false, eos := false, trunc := false
      err := 0#8, errinfo := 0#16, root := 0#10, nnode := 0#10, cur := 0#10
      ft := (hardwareReset s).ft, arena := (hardwareReset s).arena, pq := (hardwareReset s).pq
      cwt := (hardwareReset s).cwt, stack := (hardwareReset s).stack, path := (hardwareReset s).path
      plen := (hardwareReset s).plen, alloc := (hardwareReset s).alloc } ∧
    (hardwareReset s).status = 0x00#8 ∧
    ∀ a, (hardwareReset s).ft.read a = none ∧ (hardwareReset s).arena.read a = none ∧
      (hardwareReset s).pq.read a = none ∧ (hardwareReset s).cwt.read a = none) ∧
  State.reset.phase = .idle ∧ State.reset.status = 0x00#8 ∧ State.reset.err = 0#8 ∧ State.reset.errinfo = 0#16 ∧
  State.reset.root = 0#10 ∧ State.reset.nnode = 0#10 ∧ State.reset.cur = 0#10 ∧
  (∀ a, State.reset.ft.read a = none ∧ State.reset.arena.read a = none ∧ State.reset.pq.read a = none ∧
    State.reset.cwt.read a = none) ∧
  ∀ s : State, s.phase = .idle → s.cmd = none → s.host = [] → step s = .next s

/-- R230: NOP, command word 0x00, touches nothing, with a fault recorded or without. -/
def Obligations.NopChangesNothing : Prop :=
  decode (.command 0x00#8) = .ok .nop ∧ ∀ s : State, exec .nop s = .next s

/-- R231: RST, command word 0x0F, faulted or not, puts the registers at their reset values and leaves memories, working
storage and streams as they are. -/
def Obligations.RstClearsTheRegistersOnly : Prop :=
  decode (.command 0x0F#8) = .ok .rst ∧
  ∀ s : State, ∃ t, exec .rst s = .next t ∧
    t = { s with
      phase := .idle, loop := t.loop, ftV := false, treeV := false, cwtV := false, eos := false, trunc := false
      err := 0#8, errinfo := 0#16, root := 0#10, nnode := 0#10, cur := 0#10 } ∧
    t.status = 0x00#8

/-- R102: an illegal word raises IllegalCommand with the word and changes nothing else; with a fault recorded it is discarded.
The frame's `loop := t.loop` is the model's loop position (log entry 17). -/
def Obligations.IllegalWordsRaiseIllegalCommand : Prop :=
  ∀ s : State, s.phase = .idle →
    let raises (i : Instr) (w : Byte) : Prop :=
      (s.err = 0#8 → ∃ t, exec i s = .next t ∧
        t = { s with err := 1#8, errinfo := w.setWidth 16, phase := .idle, loop := t.loop }) ∧
      (s.err ≠ 0#8 → exec i s = .next s)
    raises .reserved8 0x08#8 ∧ raises .reserved9 0x09#8 ∧ raises .reservedA 0x0A#8 ∧ raises .reservedB 0x0B#8 ∧
    raises .reservedC 0x0C#8 ∧ raises .reservedD 0x0D#8 ∧ raises .reservedE 0x0E#8 ∧
    (∀ rsv op : BitVec 4, rsv ≠ 0#4 → raises (.reservedRsv rsv op) (rsv ++ op)) ∧
    ∀ (w : Byte) (i : Instr), decode (.command w) = .ok i →
      (w.extractLsb' 4 4 ≠ 0#4 ∨ (8 ≤ (w.extractLsb' 0 4).toNat ∧ (w.extractLsb' 0 4).toNat ≤ 14)) →
      raises i w

/-- R247: while FAULT = 1 every command word other than RST is discarded: it is taken from the port, nothing is executed, no
state changes and no new fault is recorded. -/
def Obligations.FaultedBlockDiscardsEveryWordButRst : Prop :=
  ∀ (s : State) (w : Byte) (i : Instr), s.phase = .idle → s.err ≠ 0#8 → decode (.command w) = .ok i → w ≠ 0x0F#8 →
    exec i s = .next s ∧ (s.cmd = some ⟨w, []⟩ → step s = .next { s with cmd := none })

/-- R291: a command whose table is absent raises NotReady with its opcode and nothing else happens; with its table, and COUNT
and DESER in any case, it is accepted, and PHASE takes its opcode (R21). The loop position of `clearRegisters` is the model's (log
entry 17). -/
def Obligations.MissingTableRaisesNotReady : Prop :=
  ∀ s : State, s.accepting →
    let refused (i : Instr) (op : BitVec 4) : Prop := ∃ t, exec i s = .next t ∧
      t = { s with err := 2#8, errinfo := op.setWidth 16, phase := .idle, loop := t.loop }
    let accepted (i : Instr) (op : BitVec 4) : Prop := ∃ t, acceptOnly i s = .next t ∧ t.phase.code = op ∧
      t.busy = true ∧ t = { s with phase := t.phase, loop := t.loop }
    (s.ftV = false → refused .build 2#4) ∧ (s.ftV = true → accepted .build 2#4) ∧
    (s.treeV = false → refused .derive 3#4) ∧ (s.treeV = true → accepted .derive 3#4) ∧
    (s.treeV = false → refused .ser 4#4) ∧ (s.treeV = true → accepted .ser 4#4) ∧
    (s.cwtV = false → refused .encode 5#4) ∧ (s.cwtV = true → accepted .encode 5#4) ∧
    (s.treeV = false → refused .decode 7#4) ∧ (s.treeV = true → accepted .decode 7#4) ∧
    accepted .count 1#4 ∧ accepted .deser 6#4 ∧
    exec .nop s = .next s ∧ exec .rst s = .next s.clearRegisters

/-- R246, R241: fault entry records the first fault's code and value, ends the command, and changes nothing else.
That a partly written table keeps its cells is the model's (log entry 28, DESIGN CHOICE). -/
def Obligations.FaultEntryRecordsTheFirstFault : Prop :=
  ∀ (s : State) (e : Err),
    (s.err = 0#8 → raise e s = { s with
      err := e.code, errinfo := e.info, phase := .idle, loop := (raise e s).loop }) ∧
    (s.err ≠ 0#8 → raise e s = { s with phase := .idle, loop := (raise e s).loop }) ∧
    (raise e s).fault = true ∧ (raise e s).busy = false ∧
    (e.code, e.info) = match e with
      | .illegalCommand w => (1#8, w.setWidth 16)
      | .notReady op => (2#8, op.setWidth 16)
      | .formatError => (3#8, 0#16)
      | .ioError port => (4#8, port.setWidth 16)
      | .missingCodeword x => (5#8, x.setWidth 16)
      | .degenerateTree x => (6#8, x.setWidth 16)
      | .arenaOverflow => (7#8, 0#16)
      | .freqOverflow b => (8#8, b.setWidth 16)

/-- R248, R23: once a fault is recorded, a step leaves ERR and ERRINFO as they are, unless the word it takes is RST or the
hardware is reset; then both are 0 and no table is valid. -/
def Obligations.RecordedFaultStaysUntilCleared : Prop :=
  ∀ s t : State, s.phase = .idle → s.err ≠ 0#8 → step s = .next t →
    (t.err = s.err ∧ t.errinfo = s.errinfo) ∨
    (t.err = 0#8 ∧ t.errinfo = 0#16 ∧ t.ftV = false ∧ t.treeV = false ∧ t.cwtV = false ∧
      ((∃ p, s.cmd = some p ∧ (p.word = 0x0F#8 ∨ ∃ k, .reset k ∈ p.during)) ∨
        (s.cmd = none ∧ ∃ ms, s.host = .hardwareReset :: ms)))

/-- R22, R25: the fields of STATUS, the five CSRs and the reserved numbers; a read changes nothing of the block (`seen` and
`draws` are the host's and the model's own). A read shows the value, but for NNODE and ROOT while BUILD or DESER runs (R295)
and after a DESER that faulted (`deserFaulted`): there U14 allows any value, and nothing is said of it (log entry 7). -/
def Obligations.CsrReadShowsTheRegisterAndChangesNothing : Prop :=
  ∀ s : State,
    (s.status.getLsbD 0 = decide (s.phase ≠ .idle) ∧ s.status.getLsbD 1 = decide (s.err ≠ 0#8) ∧
      s.status.getLsbD 2 = s.ftV ∧ s.status.getLsbD 3 = s.treeV ∧ s.status.getLsbD 4 = s.cwtV ∧
      s.status.getLsbD 5 = s.eos ∧ s.status.getLsbD 6 = s.trunc ∧ s.status.getLsbD 7 = false) ∧
    s.csr 0#3 = s.status.setWidth 16 ∧ s.csr 1#3 = s.err.setWidth 16 ∧ s.csr 2#3 = s.errinfo ∧
    s.csr 3#3 = s.nnode.setWidth 16 ∧ s.csr 4#3 = s.root.setWidth 16 ∧
    s.csr 5#3 = 0#16 ∧ s.csr 6#3 = 0#16 ∧ s.csr 7#3 = 0#16 ∧
    ∀ n : BitVec 3,
      hostReadCsr n s = { s with seen := (hostReadCsr n s).seen, draws := (hostReadCsr n s).draws } ∧
      (n ≠ 3#3 → n ≠ 4#3 → (hostReadCsr n s).seen = s.seen ++ [.csr n (s.csr n)]) ∧
      (s.phase ≠ .build → s.phase ≠ .deser →
        ¬(s.treeV = false ∧ (s.err = 3#8 ∨ s.err = 7#8 ∨ (s.err = 4#8 ∧ s.errinfo = 3#16))) →
        (hostReadCsr n s).seen = s.seen ++ [.csr n (s.csr n)])

/-- R283, R281: a hardware reset after `k` engine steps of the command of a word ends it: the registers are at their reset
values, no memory has a value, and every stream stands exactly where those engine steps had brought it (`u`): what the command
had consumed stays consumed, what it had delivered stays delivered, and the streams it does not use (R60) are as they were. -/
def Obligations.ResetDuringACommandSpoilsItsStreamsOnly : Prop :=
  ∀ (s u : State) (w : Byte) (i : Instr) (k : Nat), s.phase = .idle → s.cmd = some ⟨w, [.reset k]⟩ →
    decode (.command w) = .ok i →
    andThen (acceptOnly i { s with cmd := none }) (drive engineTick k) = .next u →
    ∃ t, step s = .next t ∧ t.phase = .idle ∧ t.status = 0x00#8 ∧ t.err = 0#8 ∧ t.errinfo = 0#16 ∧
      t.root = 0#10 ∧ t.nnode = 0#10 ∧ t.cur = 0#10 ∧
      (∀ a, t.ft.read a = none ∧ t.arena.read a = none ∧ t.pq.read a = none ∧ t.cwt.read a = none) ∧
      t.bsrc = u.bsrc ∧ t.bsnk = u.bsnk ∧ t.bitin = u.bitin ∧ t.bitout = u.bitout ∧
      s.bsrc.Forward t.bsrc ∧ s.bitin.Forward t.bitin ∧
      s.bsnk.written <+: t.bsnk.written ∧ s.bitout.written <+: t.bitout.written ∧
      (i ≠ .count → i ≠ .encode → t.bsrc = s.bsrc) ∧ (i ≠ .decode → t.bsnk = s.bsnk) ∧
      (i ≠ .deser → i ≠ .decode → t.bitin = s.bitin) ∧ (i ≠ .ser → i ≠ .encode → t.bitout = s.bitout)

/-! ## COUNT -/

/-- R142, R145: COUNT reads the source through its first End; every byte's counter is the number of times it occurred, that of
symbol 256 is 1; the sum of all counters is the number of bytes and one. -/
def Obligations.CountTabulatesTheSource : Prop :=
  ∀ (s : State) (data : List Byte), s.accepting → s.bsrc = ⟨data, .endOfData⟩ →
    (∀ b : Byte, data.count b < 2 ^ Config.freqW) →
    ∃ t, exec .count s = .next t ∧
      (∀ b : Byte, t.ft.read b.toNat = some (BitVec.ofNat Config.freqW (data.count b))) ∧
      t.ft.read 256 = some 1 ∧
      ((List.range Config.nsym).map fun a => ((t.ft.read a).getD 0).toNat).sum = data.length + 1 ∧
      t = { s with ft := t.ft, ftV := true, bsrc := ⟨[], .endOfData⟩, loop := t.loop }

/-- R143: the increment that would pass the counter's bound raises FreqOverflow with the byte, before any further byte is
read. That the counter still holds its greatest value after the fault is the model's (log entry 28, DESIGN CHOICE). -/
def Obligations.CountRaisesFreqOverflow : Prop :=
  ∀ (s : State) (before after : List Byte) (b : Byte) (e : SourceEnd), s.accepting →
    s.bsrc = ⟨before ++ b :: after, e⟩ →
    (∀ c : Byte, before.count c < 2 ^ Config.freqW) → before.count b = 2 ^ Config.freqW - 1 →
    ∃ t, exec .count s = .next t ∧ t.ft.read b.toNat = some (BitVec.allOnes Config.freqW) ∧
      t = { s with
        ft := t.ft, ftV := false, bsrc := ⟨after, e⟩, err := 8#8, errinfo := b.setWidth 16, loop := t.loop }

/-- R243, R141: a byte source that answers Err ends COUNT with IOError(1) and no valid table. -/
def Obligations.CountRaisesIoErrorOnTheByteSource : Prop :=
  ∀ (s : State) (data : List Byte), s.accepting → s.bsrc = ⟨data, .failure⟩ →
    (∀ b : Byte, data.count b < 2 ^ Config.freqW) →
    ∃ t, exec .count s = .next t ∧
      t = { s with
        ft := t.ft, ftV := false, bsrc := ⟨[], .failure⟩, err := 4#8, errinfo := 1#16, loop := t.loop }

/-! ## BUILD -/

/-- R153: the extraction removes and hands on the member with the smallest frequency, and among those the one with the
smallest index; the order is strict, so there is one. -/
def Obligations.ExtractionTakesTheLeastKey : Prop :=
  ∀ s : State, s.members ≠ [] → Memory.wf Config.nodeMax s.pq → (∀ j ∈ s.members, (s.arena.read j).isSome = true) →
    ∃ i nd, i ∈ s.members ∧ s.arena.read i = some nd ∧
      (∀ j ∈ s.members, j ≠ i → extractedBefore s.arena i j ∧ ¬ extractedBefore s.arena j i) ∧
      (∀ j, j ∈ ({ s with pq := s.pq.write i false } : State).members ↔ j ∈ s.members ∧ j ≠ i) ∧
      ∀ k : Nat → NodeFreq → State → Result,
        extractMin s k = k i nd.freq { s with pq := s.pq.write i false }

/-- R151: the leaves stand at the indices 0 to k-1, one for each entry, in ascending order of symbol, with its count; that of
symbol 256 is the last. -/
def Obligations.BuildPlacesTheLeavesInSymbolOrder : Prop :=
  ∀ s : State, s.accepting → s.ftV = true → s.FrequencySound →
    ∃ t, exec .build s = .next t ∧
      (∀ (i a : Nat) (f : Freq), (tableSymbols s.ft)[i]? = some a → s.ft.read a = some f →
        t.arena.read i = some (.leaf (BitVec.ofNat Config.symW a) (f.setWidth Config.nfreqW))) ∧
      0 < (tableSymbols s.ft).length ∧
      t.arena.read ((tableSymbols s.ft).length - 1) = some (.leaf eof 1)

/-- R154: the internal nodes take the indices k to 2k-2; each one's children are the two nodes that come first in the
extraction order of those that have no parent yet, the first of them on the left; its frequency is the sum of theirs. -/
def Obligations.BuildMergesTheTwoLeastNodes : Prop :=
  ∀ s : State, s.accepting → s.ftV = true → s.FrequencySound →
    ∃ t, exec .build s = .next t ∧
      ∀ i : Nat, (tableSymbols s.ft).length ≤ i → i < 2 * (tableSymbols s.ft).length - 1 →
        ∃ (a b : NodeIdx) (f : NodeFreq) (nda ndb : Node), t.arena.read i = some (.internal a b f) ∧
          t.arena.read a.toNat = some nda ∧ t.arena.read b.toNat = some ndb ∧
          a.toNat < i ∧ b.toNat < i ∧ f.toNat = nda.freq.toNat + ndb.freq.toNat ∧
          ¬ childBelow t.arena i a.toNat ∧ ¬ childBelow t.arena i b.toNat ∧
          extractedBefore t.arena a.toNat b.toNat ∧
          ∀ j, j < i → j ≠ a.toNat → j ≠ b.toNat → ¬ childBelow t.arena i j → extractedBefore t.arena b.toNat j

/-- R155, R158(a): BUILD makes one tree, with exactly one leaf for each entry's symbol; ROOT is its last node, NNODE the number
of its nodes; the table is consumed and the codeword table invalidated. -/
def Obligations.BuildMakesOneTreeOfTheTable : Prop :=
  ∀ s : State, s.accepting → s.ftV = true → s.FrequencySound →
    ∃ t tr, exec .build s = .next t ∧
      TreeWithin t.arena t.root 0 t.nnode.toNat tr ∧
      (tr.paths.map Prod.fst).Perm ((tableSymbols s.ft).map (BitVec.ofNat Config.symW)) ∧
      t.nnode.toNat = 2 * (tableSymbols s.ft).length - 1 ∧ t.root.toNat = 2 * (tableSymbols s.ft).length - 2 ∧
      (∀ i, i < Config.nodeMax → t.pq.read i = some false) ∧
      t = { s with
        arena := t.arena, pq := t.pq, root := t.root, nnode := t.nnode, alloc := t.alloc
        treeV := true, cwtV := false, ftV := false, loop := t.loop }

/-- R158(c): no tree with the same leaves has a smaller weighted path length than the tree BUILD makes. -/
def Obligations.BuildMinimisesTheWeightedPathLength : Prop :=
  ∀ s : State, s.accepting → s.ftV = true → s.FrequencySound →
    ∃ t tr, exec .build s = .next t ∧ t.hasTree tr ∧
      ∀ u : Tree, (u.paths.map Prod.fst).Perm (tr.paths.map Prod.fst) → tr.cost s.ft ≤ u.cost s.ft

/-! ## SER and DESER -/

/-- R170, R171: SER appends exactly the serialized tree to the bit sink and leaves every register, memory and flag
unchanged. -/
def Obligations.SerAppendsTheSerializedTree : Prop :=
  ∀ (s : State) (tr : Tree), s.accepting → s.treeV = true → s.hasTree tr → s.bitout.takes tr.serWrites →
    ∃ t, exec .ser s = .next t ∧
      t = { s with bitout := s.bitout.after tr.serWrites tr.ser, stack := t.stack, loop := t.loop }

/-- R171, R173, R243, R66: a bit sink that takes `k` transactions and then answers Err ends SER with IOError(4); it holds the
bits of the first `k` transactions of SER, and the tree stays valid. That the transaction answered with Err appends nothing is
log entry 5. -/
def Obligations.SerRaisesIoErrorOnTheBitSink : Prop :=
  ∀ (s : State) (tr : Tree) (k : Nat), s.accepting → s.treeV = true → s.hasTree tr →
    s.bitout.room = some k → s.bitout.whenFull = .failure → k < tr.serWrites →
    let sent := (tr.transactions.take k).flatten
    ∃ t, exec .ser s = .next t ∧ sent <+: tr.ser ∧
      t = { s with
        bitout := s.bitout.after k sent
        stack := t.stack, err := 4#8, errinfo := 4#16, loop := t.loop }

/-- R180, R181: DESER reads back a serialized tree, consumes exactly its bits, and ends with that tree at ROOT = 0. -/
def Obligations.DeserReadsBackTheSerializedTree : Prop :=
  ∀ (s : State) (tr : Tree) (rest : Bits) (e : SourceEnd), s.accepting → s.bitin = ⟨tr.ser ++ rest, e⟩ →
    tr.size ≤ Config.nodeMax →
    ∃ t, exec .deser s = .next t ∧ TreeWithin t.arena 0#10 0 tr.size tr ∧
      t = { s with
        arena := t.arena, root := 0#10, nnode := BitVec.ofNat Config.cntW tr.size, treeV := true, cwtV := false
        bitin := ⟨rest, e⟩, alloc := t.alloc, stack := t.stack, loop := t.loop }

/-- R176: FormatError is raised when, and only when, the bit source ends at the read of a tag or of the nine bits of a symbol;
so a bit source that ends inside a serialized tree gives FormatError, no valid tree and no output. -/
def Obligations.DeserRaisesFormatErrorOnAShortTree : Prop :=
  (∀ s : State, s.phase = .deser → s.err = 0#8 → s.loop ≠ .start →
    ((∃ t, engineTick s = .next t ∧ t.err = 3#8) ↔
      s.bitin.ending = .endOfData ∧
        (s.bitin.data = [] ∨ (∃ i, s.loop = .symbol i) ∧ s.bitin.data.length < 9))) ∧
  ∀ (s : State) (tr : Tree) (data missing : Bits), s.accepting → s.bitin = ⟨data, .endOfData⟩ →
    data ++ missing = tr.ser → missing ≠ [] → tr.size ≤ Config.nodeMax →
    ∃ t, exec .deser s = .next t ∧
      t = { s with
        arena := t.arena, treeV := false, cwtV := false, bitin := t.bitin, alloc := t.alloc, stack := t.stack
        draws := t.draws, err := 3#8, errinfo := 0#16, loop := t.loop } ∧
      t.bitin.data <:+ data

/-- R243, R175: a bit source that answers Err inside a serialized tree ends DESER with IOError(3) and no valid tree. -/
def Obligations.DeserRaisesIoErrorOnTheBitSource : Prop :=
  ∀ (s : State) (tr : Tree) (data missing : Bits), s.accepting → s.bitin = ⟨data, .failure⟩ →
    data ++ missing = tr.ser → missing ≠ [] → tr.size ≤ Config.nodeMax →
    ∃ t, exec .deser s = .next t ∧
      t = { s with
        arena := t.arena, treeV := false, cwtV := false, bitin := t.bitin, alloc := t.alloc, stack := t.stack
        draws := t.draws, err := 4#8, errinfo := 3#16, loop := t.loop }

/-- R177: a tag read when NODE_MAX records are allocated raises ArenaOverflow: for a stream of tags 1, the 514th; a stream that
ends after exactly NODE_MAX tags 1 gives FormatError. That the fault leaves the partly written arena as it is (the last clause)
is the model's (log entry 28, DESIGN CHOICE). -/
def Obligations.DeserRaisesArenaOverflow : Prop :=
  (∀ (s : State) (rest : Bits) (e : SourceEnd), s.accepting →
    s.bitin = ⟨List.replicate Config.nodeMax true ++ true :: rest, e⟩ →
    ∃ t, exec .deser s = .next t ∧
      t = { s with
        arena := t.arena, treeV := false, cwtV := false, bitin := ⟨rest, e⟩, alloc := t.alloc, stack := t.stack
        err := 7#8, errinfo := 0#16, loop := t.loop }) ∧
  (∀ s : State, s.accepting → s.bitin = ⟨List.replicate Config.nodeMax true, .endOfData⟩ →
    ∃ t, exec .deser s = .next t ∧
      t = { s with
        arena := t.arena, treeV := false, cwtV := false, bitin := ⟨[], .endOfData⟩, alloc := t.alloc, stack := t.stack
        err := 3#8, errinfo := 0#16, loop := t.loop }) ∧
  ∀ s : State, s.phase = .deser → s.loop = .top → s.err = 0#8 → Config.nodeMax ≤ s.alloc.toNat →
    (∀ sym, ∃ t, exec (.treeLeaf sym) s = .next t ∧
      t = { s with err := 7#8, errinfo := 0#16, phase := .idle, loop := t.loop }) ∧
    ∃ t, exec .treeInternal s = .next t ∧
      t = { s with err := 7#8, errinfo := 0#16, phase := .idle, loop := t.loop }

/-- R175: an internal tag allocates the next record and its left subtree comes next. Where no DESER stands at a node boundary
exec refuses the tag by name (the model's choice, log entry 12). -/
def Obligations.InternalTagOpensANode : Prop :=
  (∀ s : State, s.phase = .deser → s.loop = .top → s.alloc.toNat < Config.nodeMax →
    exec .treeInternal s = .next { s with
      alloc := s.alloc + 1, stack := ⟨s.alloc, .left⟩ :: s.stack, loop := .top }) ∧
  ∀ s : State, s.phase ≠ .deser ∨ s.loop ≠ .top → exec .treeInternal s = .refused .recordOutsideDeser

/-- R175, R178: a leaf record is stored as read in the next record; then the right subtree of the node above it comes next, or
the node above it is complete too, or the whole tree is. The model's are: the loop position `start` and the working storage at
the end of the command (log entry 17, DESIGN CHOICE); the left child of record `i` written as `i + 1` (log entry 15, DEDUCED);
and the refusal by name where no DESER stands at a node boundary (log entry 12, DESIGN CHOICE). -/
def Obligations.LeafRecordIsStoredAsRead : Prop :=
  (∀ (s : State) (sym : Sym), s.phase = .deser → s.loop = .top → s.alloc.toNat < Config.nodeMax →
    (s.stack = [] → exec (.treeLeaf sym) s = .next { s with
      arena := s.arena.write s.alloc.toNat (.leaf sym 0), alloc := s.alloc + 1
      root := s.alloc, nnode := s.alloc + 1, treeV := true, phase := .idle, loop := .start }) ∧
    (∀ i rest, s.stack = ⟨i, .left⟩ :: rest → exec (.treeLeaf sym) s = .next { s with
      arena := s.arena.write s.alloc.toNat (.leaf sym 0), alloc := s.alloc + 1
      stack := ⟨i, .right⟩ :: rest, loop := .top }) ∧
    (DeserStack s.arena s.alloc.toNat s.stack → ∃ t, exec (.treeLeaf sym) s = .next t ∧
      t.arena.read s.alloc.toNat = some (.leaf sym 0) ∧
      (∀ i rest, s.stack = ⟨i, .right⟩ :: rest → t.arena.read i.toNat = some (.internal (i + 1) s.alloc 0)) ∧
      (if t.stack = [] then t.phase = .idle ∧ t.treeV = true ∧ ∃ tr, TreeWithin t.arena t.root 0 t.nnode.toNat tr
      else t.phase = .deser ∧ t.loop = .top ∧ t.treeV = s.treeV ∧ DeserStack t.arena t.alloc.toNat t.stack) ∧
      t = { s with
        arena := t.arena, alloc := s.alloc + 1, stack := t.stack, root := t.root, nnode := t.nnode
        treeV := t.treeV, phase := t.phase, loop := t.loop })) ∧
  ∀ (s : State) (sym : Sym), s.phase ≠ .deser ∨ s.loop ≠ .top →
    exec (.treeLeaf sym) s = .refused .recordOutsideDeser

/-! ## DERIVE -/

/-- R190, R192, R193: DERIVE gives every symbol the path of the last leaf that holds it, and none to the others; nothing but
the table, its flag and the working storage changes. -/
def Obligations.DeriveGivesEverySymbolItsPath : Prop :=
  ∀ (s : State) (tr : Tree), s.accepting → s.treeV = true → s.hasTree tr →
    ∃ t, exec .derive s = .next t ∧
      (∀ sym : Sym, sym.toNat < Config.nsym → t.entry sym = some (tr.codeword sym)) ∧
      t = { s with cwt := t.cwt, cwtV := true, stack := t.stack, path := t.path, plen := t.plen, loop := t.loop }

/-- R195(c): in the table DERIVE makes, no codeword is a prefix of another symbol's. -/
def Obligations.DerivedTableIsPrefixFree : Prop :=
  ∀ (s t : State) (tr : Tree) (x y : Sym) (p q : Bits), s.accepting → s.treeV = true → s.hasTree tr →
    exec .derive s = .next t → t.entry x = some (some p) → t.entry y = some (some q) → x ≠ y →
    ¬ p <+: q

/-! ## ENCODE -/

/-- R206, R200: ENCODE appends the codewords of the bytes in order, then that of symbol 256, and changes nothing else; as many
bits as the lengths add up to. -/
def Obligations.EncodeAppendsThePayload : Prop :=
  ∀ (s : State) (bytes : List Byte), s.accepting → s.cwtV = true → s.bsrc = ⟨bytes, .endOfData⟩ →
    (∀ b ∈ bytes, s.hasCw b.sym) → s.hasCw eof → s.bitout.takes (s.payload bytes).length →
    (∃ t, exec .encode s = .next t ∧
      t = { s with
        bsrc := ⟨[], .endOfData⟩, bitout := s.bitout.after (s.payload bytes).length (s.payload bytes)
        loop := t.loop }) ∧
    (s.payload bytes).length = (bytes.map fun b => (s.cw b.sym).length).sum + (s.cw eof).length

/-- R202, R203: a byte, or the EOF symbol at the end, that has no entry raises MissingCodeword at its lookup: no bit of it is
written, no further byte is read, and the bits of earlier bytes stay. -/
def Obligations.EncodeRaisesMissingCodeword : Prop :=
  ∀ (s : State) (bytes : List Byte), s.accepting → s.cwtV = true → (∀ b ∈ bytes, s.hasCw b.sym) →
    let sent := (bytes.map fun b => s.cw b.sym).flatten
    s.bitout.takes sent.length →
    (∀ (b : Byte) (after : List Byte) (e : SourceEnd), s.bsrc = ⟨bytes ++ b :: after, e⟩ →
      s.cwt.read b.toNat = some none →
      ∃ t, exec .encode s = .next t ∧
        t = { s with
          bsrc := ⟨after, e⟩, bitout := s.bitout.after sent.length sent
          err := 5#8, errinfo := b.setWidth 16, loop := t.loop }) ∧
    (s.bsrc = ⟨bytes, .endOfData⟩ → s.cwt.read 256 = some none →
      ∃ t, exec .encode s = .next t ∧
        t = { s with
          bsrc := ⟨[], .endOfData⟩, bitout := s.bitout.after sent.length sent
          err := 5#8, errinfo := 256#16, loop := t.loop })

/-- R243, R201, R66: a byte source that answers Err ends ENCODE with IOError(1), a bit sink that does with IOError(4); the bits
the sink had taken stay, and it holds no others: the transaction answered with Err appends nothing (log entry 5). -/
def Obligations.EncodeRaisesIoErrorOnItsPorts : Prop :=
  ∀ (s : State) (bytes : List Byte), s.accepting → s.cwtV = true → (∀ b ∈ bytes, s.hasCw b.sym) →
    let sent := (bytes.map fun b => s.cw b.sym).flatten
    (s.bsrc = ⟨bytes, .failure⟩ → s.bitout.takes sent.length →
      ∃ t, exec .encode s = .next t ∧
        t = { s with
          bsrc := ⟨[], .failure⟩, bitout := s.bitout.after sent.length sent
          err := 4#8, errinfo := 1#16, loop := t.loop }) ∧
    ∀ k, s.bsrc = ⟨bytes, .endOfData⟩ → s.hasCw eof → s.bitout.room = some k → s.bitout.whenFull = .failure →
      k < (s.payload bytes).length →
      ∃ t, exec .encode s = .next t ∧
        t = { s with
          bsrc := t.bsrc, bitout := s.bitout.after k ((s.payload bytes).take k)
          err := 4#8, errinfo := 4#16, loop := t.loop } ∧
        t.bsrc.data <:+ bytes

/-! ## DECODE -/

/-- R215, R220: with a prefix of complete non-EOF codewords and then the EOF codeword, DECODE writes their bytes, consumes
exactly those bits and ends with EOS, CUR at the EOF leaf. -/
def Obligations.DecodeStopsAtTheEofLeaf : Prop :=
  ∀ (s : State) (tr : Tree) (ws : List (Sym × Bits)) (q rest : Bits) (e : SourceEnd),
    s.accepting → s.treeV = true → s.hasTree tr → 1 < tr.size →
    (∀ w ∈ ws, w ∈ tr.paths ∧ w.1 ≠ eof) → (eof, q) ∈ tr.paths →
    s.bitin = ⟨(ws.map Prod.snd).flatten ++ q ++ rest, e⟩ → s.bsnk.takes ws.length →
    ∃ t, exec .decode s = .next t ∧ (Tree.leaf eof).isAt t.arena t.cur = true ∧
      t = { s with
        bitin := ⟨rest, e⟩, bsnk := s.bsnk.after ws.length (ws.map fun w => lowByte w.1)
        eos := true, trunc := false, cur := t.cur, loop := t.loop }

/-- R214, R220: without the EOF codeword DECODE consumes all the bits, writes the bytes of the complete codewords, and ends
with TRUNC and no fault. CUR moves and is left open (`cur := t.cur`; R219 gives its value). -/
def Obligations.DecodeStopsSoftlyOnATruncatedStream : Prop :=
  ∀ (s : State) (tr : Tree) (ws : List (Sym × Bits)) (p : Bits),
    s.accepting → s.treeV = true → s.hasTree tr → 1 < tr.size →
    (∀ w ∈ ws, w ∈ tr.paths ∧ w.1 ≠ eof) → (∃ w ∈ tr.paths, p <+: w.2 ∧ p ≠ w.2) →
    s.bitin = ⟨(ws.map Prod.snd).flatten ++ p, .endOfData⟩ → s.bsnk.takes ws.length →
    ∃ t, exec .decode s = .next t ∧
      t = { s with
        bitin := ⟨[], .endOfData⟩, bsnk := s.bsnk.after ws.length (ws.map fun w => lowByte w.1)
        eos := false, trunc := true, cur := t.cur, loop := t.loop }

/-- R212: the degenerate tree ends DECODE at once, with EOS for the EOF leaf and DegenerateTree for any other; no bit is read
and no byte written. -/
def Obligations.DecodeOfASingleLeafReadsNoBit : Prop :=
  ∀ (s : State) (x : Sym), s.accepting → s.treeV = true → s.hasTree (.leaf x) →
    (x = eof → ∃ t, exec .decode s = .next t ∧
      t = { s with eos := true, trunc := false, cur := s.root, loop := t.loop }) ∧
    (x ≠ eof → ∃ t, exec .decode s = .next t ∧
      t = { s with eos := false, trunc := false, cur := s.root, err := 6#8, errinfo := x.setWidth 16, loop := t.loop })

/-- R243, R218, R63: a bit source that answers Err, or a byte sink that does, ends DECODE with IOError(3) or IOError(2); neither
EOS nor TRUNC is set. CUR moves and is left open (`cur := t.cur`). The byte answered with Err is not in the sink (log entry 5). -/
def Obligations.DecodeRaisesIoErrorOnItsPorts : Prop :=
  ∀ (s : State) (tr : Tree) (ws : List (Sym × Bits)),
    s.accepting → s.treeV = true → s.hasTree tr → 1 < tr.size →
    (∀ w ∈ ws, w ∈ tr.paths ∧ w.1 ≠ eof) →
    (∀ p, (∃ w ∈ tr.paths, p <+: w.2 ∧ p ≠ w.2) → s.bitin = ⟨(ws.map Prod.snd).flatten ++ p, .failure⟩ →
      s.bsnk.takes ws.length →
      ∃ t, exec .decode s = .next t ∧
        t = { s with
          bitin := ⟨[], .failure⟩, bsnk := s.bsnk.after ws.length (ws.map fun w => lowByte w.1)
          eos := false, trunc := false, cur := t.cur, err := 4#8, errinfo := 3#16, loop := t.loop }) ∧
    ∀ w rest e, w ∈ tr.paths → w.1 ≠ eof → s.bitin = ⟨(ws.map Prod.snd).flatten ++ w.2 ++ rest, e⟩ →
      s.bsnk.room = some ws.length → s.bsnk.whenFull = .failure →
      ∃ t, exec .decode s = .next t ∧
        t = { s with
          bitin := ⟨rest, e⟩, bsnk := s.bsnk.after ws.length (ws.map fun w => lowByte w.1)
          eos := false, trunc := false, cur := t.cur, err := 4#8, errinfo := 2#16, loop := t.loop }

/-! ## Whole-machine rules -/

/-- R79, R82: whatever instruction is executed, a source only moves forward (`Source.Forward`) and a sink only grows. -/
def Obligations.StreamsOnlyMoveForward : Prop :=
  ∀ (i : Instr) (s t : State), exec i s = .next t →
    s.bsrc.Forward t.bsrc ∧ s.bitin.Forward t.bitin ∧
    s.bsnk.written <+: t.bsnk.written ∧ s.bitout.written <+: t.bitout.written

/-- R60, R78: each stream is reached only by the commands the table of R60 names. -/
def Obligations.EachStreamIsReachedByItsCommandsOnly : Prop :=
  ∀ (i : Instr) (s t : State), exec i s = .next t →
    (i ≠ .count → i ≠ .encode → t.bsrc = s.bsrc) ∧
    (i ≠ .decode → t.bsnk = s.bsnk) ∧
    (i ≠ .deser → i ≠ .decode → t.bitin = s.bitin) ∧
    (i ≠ .ser → i ≠ .encode → t.bitout = s.bitout)

/-- R88: from a state that meets the invariant every command word's instruction runs to its end, or until it waits for a port
that does not answer, or it runs on a source that never ends; if every port answers and the sources end, it ends. A COUNT on a
source that never ends goes on with every step, BUSY = 1, unless a counter passes its bound (R143). -/
def Obligations.EveryCommandEndsIfItsPortsAnswer : Prop :=
  (∀ (s : State) (w : Byte) (i : Instr), s.Inv → s.phase = .idle → decode (.command w) = .ok i →
    ∃ t, exec i s = .next t ∧ (t.phase = .idle ∨ t.waiting ∨ t.runsOnEndless) ∧ (s.portsAnswer → t.phase = .idle)) ∧
  ∀ s : State, s.Inv → s.phase = .count → s.host = [] → s.bsrc.ending.goesOn →
    ∃ t, step s = .next t ∧ (t.err = 0#8 → t.phase = .count ∧ t.busy = true ∧ t.bsrc.ending.goesOn ∧ t ≠ s) ∧
      (t.err ≠ 0#8 → t.phase = .idle ∧ t.err = 8#8)

/-- R36: no command but BUILD and DESER (whose records are the two data rows) writes the arena, and none but these and RST
writes ROOT or NNODE; none but DERIVE writes CWT; none but COUNT writes FT; ENCODE writes no register or memory but PHASE, ERR
and ERRINFO, and DECODE only CUR, EOS and TRUNC beside these (and their streams). -/
def Obligations.TablesAreWrittenByTheirCommandsOnly : Prop :=
  ∀ (i : Instr) (s t : State), exec i s = .next t →
    (i ≠ .build → i ≠ .deser → i ≠ .treeInternal → (∀ sym, i ≠ .treeLeaf sym) →
      t.arena = s.arena ∧ (i ≠ .rst → t.root = s.root ∧ t.nnode = s.nnode)) ∧
    (i ≠ .derive → t.cwt = s.cwt) ∧ (i ≠ .count → t.ft = s.ft) ∧
    (i = .encode → t = { s with
      phase := t.phase, loop := t.loop, err := t.err, errinfo := t.errinfo, bsrc := t.bsrc, bitout := t.bitout }) ∧
    (i = .decode → t = { s with
      phase := t.phase, loop := t.loop, err := t.err, errinfo := t.errinfo, cur := t.cur, eos := t.eos
      trunc := t.trunc, bitin := t.bitin, bsnk := t.bsnk })

/-- R70: the k-th bit written stands in byte k/8 of the file, at bit 7 - (k mod 8); reading inverts it; the magic number appears
as the bytes 00 00 07 36. -/
def Obligations.FileBitsStandMostSignificantFirst : Prop :=
  (∀ (bits : Bits) (k : Nat), bits.length % 8 = 0 → k < bits.length →
    ∃ b, (packBytes bits)[k / 8]? = some b ∧ bits[k]? = some (b.getLsbD (7 - k % 8))) ∧
  (∀ (bytes : List Byte) (k : Nat) (b : Byte), bytes[k / 8]? = some b →
    (unpackBytes bytes)[k]? = some (b.getLsbD (7 - k % 8))) ∧
  (∀ bytes : List Byte, packBytes (unpackBytes bytes) = bytes) ∧
  packBytes (msbBits 32 0x736) = [0x00#8, 0x00#8, 0x07#8, 0x36#8]

/-- R75: closing the channel gives a file of ceil(k/8) bytes whose first k bits are the bits written; the rest, fewer than
eight, are padding. -/
def Obligations.ClosingPadsTheLastByte : Prop :=
  ∀ s : State, ∃ bytes, (hostCloseBitSink s).seen = s.seen ++ [.file bytes] ∧
    bytes.length = (s.bitout.written.length + 7) / 8 ∧
    ∃ pad : Bits, pad.length < 8 ∧ unpackBytes bytes = s.bitout.written ++ pad

/-- R287, R121: on a magic number mismatch the host presents no command, whatever the magic number is; its default is
0x00000736. -/
def Obligations.MagicMismatchPresentsNoCommand : Prop :=
  (∀ (file : List Byte) (magic : BitVec 32), (unpackBytes file).take 32 ≠ msbBits 32 magic.toNat →
    ∀ p, HostMove.present p ∉ decompressSession file magic) ∧
  ∀ file : List Byte, decompressSession file = decompressSession file 0x00000736#32

/-! ## Round trips -/

/-- R221: COUNT, BUILD, DERIVE, SER and ENCODE of any bytes, then DESER and DECODE of the bits so written, followed by any
padding, give the bytes back. -/
def Obligations.CompressThenDecompressGivesTheInputBack : Prop :=
  ∀ (s : State) (bytes : List Byte) (padding : Bits) (e : SourceEnd),
    s.accepting → s.bsrc = ⟨bytes, .endOfData⟩ → bytes.length < 2 ^ Config.freqW →
    s.bitout = ⟨[], none, .silent⟩ → s.bsnk = ⟨[], none, .silent⟩ →
    ∃ s1 s2 s3 s4 s5 s6 s7, exec .count s = .next s1 ∧ exec .build s1 = .next s2 ∧ exec .derive s2 = .next s3 ∧
      exec .ser s3 = .next s4 ∧ exec .encode { s4 with bsrc := ⟨bytes, .endOfData⟩ } = .next s5 ∧
      exec .deser { s5 with bitin := ⟨s5.bitout.written ++ padding, e⟩ } = .next s6 ∧
      exec .decode s6 = .next s7 ∧
      s7.bsnk.written = bytes ∧ s7.eos = true ∧ s7.trunc = false ∧ s7.err = 0#8

/-- R286, R120, R121: the host's compression session, with any magic number, leaves a file whose bits are the magic number,
MSB-first, the serialized tree, the payload and fewer than eight bits of padding. That the session's moves come one a step is
the model's choice (log entries 2 and 13). -/
def Obligations.CompressionSessionWritesTheContainer : Prop :=
  ∀ (s : State) (input : List Byte) (magic : BitVec 32), s.accepting → s.cmd = none →
    s.host = compressSession input magic → input.length < 2 ^ Config.freqW →
    ∃ t tr file pad, steps 17 s = .next t ∧ t.host = [] ∧ t.accepting ∧ t.hasTree tr ∧
      t.seen = s.seen ++ [.bitsWritten, .csr 0#3 (t.status.setWidth 16), .file file] ∧
      (∀ b ∈ input, (tr.codeword b.sym).isSome = true) ∧ (tr.codeword eof).isSome = true ∧ pad.length < 8 ∧
      unpackBytes file = msbBits 32 magic.toNat ++ tr.ser ++
        ((input.map fun b => (tr.codeword b.sym).getD []).flatten ++ (tr.codeword eof).getD []) ++ pad

/-- R286, R287, R221, R121: the decompression session on the file of a compression session with the same magic number, on a
block in any accepting state, gives the input back and ends with EOS. -/
def Obligations.SessionsGiveTheInputBack : Prop :=
  ∀ (s u : State) (input : List Byte) (magic : BitVec 32), s.accepting → s.cmd = none →
    s.host = compressSession input magic → input.length < 2 ^ Config.freqW → u.accepting → u.cmd = none →
    ∃ t file v, steps 17 s = .next t ∧ t.seen.getLast? = some (.file file) ∧
      steps 10 { u with host := decompressSession file magic } = .next v ∧ v.host = [] ∧
      v.bsnk.written = input ∧ v.eos = true ∧ v.trunc = false ∧ v.accepting

/-! ## Invariants -/

/-- The state after reset meets the invariant. -/
def Obligations.ResetMeetsTheInvariant : Prop := State.reset.Inv

/-- Every step keeps the flags, ERR and PHASE in agreement (R22, R241, R247, R292). -/
def Obligations.StepKeepsTheStatusSound : Prop :=
  ∀ s t : State, s.StatusSound → step s = .next t → t.StatusSound

/-- Every step keeps the internal memories in canonical form. -/
def Obligations.StepKeepsTheMemoriesCanonical : Prop :=
  ∀ s t : State, s.MemoriesCanonical → step s = .next t → t.MemoriesCanonical

/-- Every step keeps the frequency table as R30 has it. -/
def Obligations.StepKeepsTheFrequencyTableSound : Prop :=
  ∀ s t : State, s.FrequencySound → step s = .next t → t.FrequencySound

/-- Every step keeps the whole invariant: among it, that the tree at ROOT stands on records of its own (R35). -/
def Obligations.StepKeepsTheInvariant : Prop :=
  ∀ s t : State, s.Inv → step s = .next t → t.Inv

/-- R292: from a state that meets the invariant a step keeps the codeword table that of the present tree while CWT_V = 1, and
leaves no DERIVE running. -/
def Obligations.StepKeepsTheTableOfTheTree : Prop :=
  ∀ s t : State, s.Inv → s.phase ≠ .derive → s.TableOfTree → step s = .next t → t.phase ≠ .derive ∧ t.TableOfTree

/-- R41: from a state that meets the invariant no step reads a cell without a value: every step answers a next state. -/
def Obligations.NoStepFromTheInvariantStops : Prop :=
  ∀ s : State, s.Inv → ∃ t, step s = .next t
end

