-- ==== Sys2Proof/Laws/Memory.lean ====
section
/-! SUPPORT. The laws of an internal memory: read after write, and the canonical form is kept. -/

namespace Sys2Proof.Machine

variable {α : Type}

@[simp] theorem Memory.read_nil (a : Nat) : Memory.read ([] : Memory α) a = none := rfl

theorem Memory.read_cons (k : Nat) (v : α) (m : Memory α) (a : Nat) :
    Memory.read ((k, v) :: m) a = if k = a then some v else Memory.read m a := rfl

/-- A read after a write to the same cell gives the value written. -/
@[simp] theorem Memory.read_write_self (m : Memory α) (a : Nat) (v : α) : (m.write a v).read a = some v := by
  induction m with
  | nil => simp [Memory.write, Memory.read]
  | cons p m ih =>
    obtain ⟨k, x⟩ := p
    unfold Memory.write
    split_ifs with h1 h2
    · simp [Memory.read]
    · simp [Memory.read]
    · simp [Memory.read, ih, Ne.symm h2]

/-- A write leaves every other cell alone. -/
theorem Memory.read_write_of_ne (m : Memory α) {a b : Nat} (v : α) (h : b ≠ a) :
    (m.write a v).read b = m.read b := by
  induction m with
  | nil => simp [Memory.write, Memory.read, Ne.symm h]
  | cons p m ih =>
    obtain ⟨k, x⟩ := p
    unfold Memory.write
    split_ifs with h1 h2
    · simp [Memory.read, Ne.symm h]
    · subst h2; simp [Memory.read, Ne.symm h]
    · simp only [Memory.read, ih]

/-- Reads after a write, in one equation. -/
theorem Memory.read_write (m : Memory α) (a b : Nat) (v : α) :
    (m.write a v).read b = if b = a then some v else m.read b := by
  split_ifs with h
  · subst h; exact m.read_write_self b v
  · exact m.read_write_of_ne v h

/-- The cells of a written memory are the new one and old ones. -/
theorem Memory.mem_write {m : Memory α} {a : Nat} {v : α} {p : Nat × α} (h : p ∈ m.write a v) :
    p = (a, v) ∨ p ∈ m := by
  induction m with
  | nil => simpa [Memory.write] using h
  | cons q m ih =>
    obtain ⟨k, x⟩ := q
    unfold Memory.write at h
    split_ifs at h with h1 h2
    · simpa using h
    · simp only [List.mem_cons] at h ⊢; tauto
    · simp only [List.mem_cons] at h ⊢
      rcases h with h | h
      · exact .inr (.inl h)
      · rcases ih h with h | h <;> tauto

theorem Memory.wf_nil (size : Nat) : Memory.wf size ([] : Memory α) := by simp [Memory.wf]

/-- A write below the memory's size keeps the canonical form. -/
theorem Memory.wf_write {size a : Nat} {m : Memory α} (v : α) (h : Memory.wf size m) (ha : a < size) :
    Memory.wf size (m.write a v) := by
  obtain ⟨hp, hb⟩ := h
  refine ⟨?_, fun p hp => ?_⟩
  · clear hb ha
    induction m with
    | nil => simp [Memory.write]
    | cons q m ih =>
      obtain ⟨k, x⟩ := q
      rw [List.pairwise_cons] at hp
      unfold Memory.write
      split_ifs with h1 h2
      · refine List.pairwise_cons.2 ⟨fun p hm => ?_, List.pairwise_cons.2 hp⟩
        rcases List.mem_cons.1 hm with rfl | hm
        · exact h1
        · exact h1.trans (hp.1 p hm)
      · subst h2; exact List.pairwise_cons.2 hp
      · refine List.pairwise_cons.2 ⟨fun p hm => ?_, ih hp.2⟩
        rcases Memory.mem_write hm with rfl | hm
        · show k < a; omega
        · exact hp.1 p hm
  · rcases Memory.mem_write hp with rfl | hm
    · exact ha
    · exact hb p hm

/-- A cleared memory is in canonical form. -/
theorem Memory.wf_fill (n : Nat) (v : α) : Memory.wf n (Memory.fill n v) := by
  refine ⟨?_, fun p hp => ?_⟩
  · simpa [Memory.fill, List.pairwise_map] using List.pairwise_lt_range
  · simp only [Memory.fill, List.mem_map, List.mem_range] at hp
    obtain ⟨a, ha, rfl⟩ := hp
    exact ha

theorem Memory.read_map (l : List Nat) (v : α) (a : Nat) :
    Memory.read (l.map fun k => (k, v)) a = if a ∈ l then some v else none := by
  induction l with
  | nil => simp
  | cons k l ih =>
    rw [List.map_cons, Memory.read_cons, ih]
    by_cases h : k = a
    · simp [h]
    · simp [h, Ne.symm h]

/-- Every cell of a cleared memory reads as the value it was cleared to. -/
theorem Memory.read_fill (n a : Nat) (v : α) :
    (Memory.fill n v).read a = if a < n then some v else none := by
  simp [Memory.fill, Memory.read_map]

/-- In canonical form, the listed cells are the ones that read as a value. -/
theorem Memory.read_eq_some_iff {size : Nat} {m : Memory α} (h : Memory.wf size m) {a : Nat} {v : α} :
    m.read a = some v ↔ (a, v) ∈ m := by
  induction m with
  | nil => simp
  | cons q m ih =>
    obtain ⟨k, x⟩ := q
    obtain ⟨hp, hb⟩ := h
    rw [List.pairwise_cons] at hp
    have hw : Memory.wf size m := ⟨hp.2, fun p hm => hb p (List.mem_cons_of_mem _ hm)⟩
    rw [Memory.read_cons]
    split_ifs with hk
    · subst hk
      simp only [Option.some.injEq, List.mem_cons, Prod.mk.injEq, true_and]
      refine ⟨fun h => .inl h.symm, fun h => ?_⟩
      rcases h with h | h
      · exact h.symm
      · exact absurd (hp.1 _ h) (lt_irrefl _)
    · rw [ih hw]
      simp only [List.mem_cons, Prod.mk.injEq]
      exact ⟨.inr, fun h => h.resolve_left fun h => hk h.1.symm⟩

/-- A cell that reads as a value lies below the memory's size. -/
theorem Memory.lt_of_read {size : Nat} {m : Memory α} (h : Memory.wf size m) {a : Nat} {v : α}
    (hr : m.read a = some v) : a < size :=
  h.2 (a, v) ((Memory.read_eq_some_iff h).1 hr)

end Sys2Proof.Machine
end

