-- ==== Sys2Proof/Laws/State.lean ====
section
/-! SUPPORT. What the named updates of State leave in each field. -/

namespace Sys2Proof.Machine

variable (s : State) (e : Err) (b : Bool)

@[simp] theorem State.finish_phase : s.finish.phase = .idle := rfl
@[simp] theorem State.finish_loop : s.finish.loop = .start := rfl
@[simp] theorem State.finish_ftV : s.finish.ftV = s.ftV := rfl
@[simp] theorem State.finish_treeV : s.finish.treeV = s.treeV := rfl
@[simp] theorem State.finish_cwtV : s.finish.cwtV = s.cwtV := rfl
@[simp] theorem State.finish_eos : s.finish.eos = s.eos := rfl
@[simp] theorem State.finish_trunc : s.finish.trunc = s.trunc := rfl
@[simp] theorem State.finish_err : s.finish.err = s.err := rfl
@[simp] theorem State.finish_errinfo : s.finish.errinfo = s.errinfo := rfl
@[simp] theorem State.finish_root : s.finish.root = s.root := rfl
@[simp] theorem State.finish_nnode : s.finish.nnode = s.nnode := rfl
@[simp] theorem State.finish_cur : s.finish.cur = s.cur := rfl
@[simp] theorem State.finish_ft : s.finish.ft = s.ft := rfl
@[simp] theorem State.finish_arena : s.finish.arena = s.arena := rfl
@[simp] theorem State.finish_pq : s.finish.pq = s.pq := rfl
@[simp] theorem State.finish_cwt : s.finish.cwt = s.cwt := rfl
@[simp] theorem State.finish_stack : s.finish.stack = s.stack := rfl
@[simp] theorem State.finish_path : s.finish.path = s.path := rfl
@[simp] theorem State.finish_plen : s.finish.plen = s.plen := rfl
@[simp] theorem State.finish_alloc : s.finish.alloc = s.alloc := rfl
@[simp] theorem State.finish_cmd : s.finish.cmd = s.cmd := rfl
@[simp] theorem State.finish_bsrc : s.finish.bsrc = s.bsrc := rfl
@[simp] theorem State.finish_bsnk : s.finish.bsnk = s.bsnk := rfl
@[simp] theorem State.finish_bitin : s.finish.bitin = s.bitin := rfl
@[simp] theorem State.finish_bitout : s.finish.bitout = s.bitout := rfl
@[simp] theorem State.finish_host : s.finish.host = s.host := rfl
@[simp] theorem State.finish_seen : s.finish.seen = s.seen := rfl
@[simp] theorem State.finish_draws : s.finish.draws = s.draws := rfl

@[simp] theorem raise_phase : (raise e s).phase = .idle := rfl
@[simp] theorem raise_loop : (raise e s).loop = .start := rfl
@[simp] theorem raise_ftV : (raise e s).ftV = s.ftV := rfl
@[simp] theorem raise_treeV : (raise e s).treeV = s.treeV := rfl
@[simp] theorem raise_cwtV : (raise e s).cwtV = s.cwtV := rfl
@[simp] theorem raise_eos : (raise e s).eos = s.eos := rfl
@[simp] theorem raise_trunc : (raise e s).trunc = s.trunc := rfl
@[simp] theorem raise_root : (raise e s).root = s.root := rfl
@[simp] theorem raise_nnode : (raise e s).nnode = s.nnode := rfl
@[simp] theorem raise_cur : (raise e s).cur = s.cur := rfl
@[simp] theorem raise_ft : (raise e s).ft = s.ft := rfl
@[simp] theorem raise_arena : (raise e s).arena = s.arena := rfl
@[simp] theorem raise_pq : (raise e s).pq = s.pq := rfl
@[simp] theorem raise_cwt : (raise e s).cwt = s.cwt := rfl
@[simp] theorem raise_stack : (raise e s).stack = s.stack := rfl
@[simp] theorem raise_path : (raise e s).path = s.path := rfl
@[simp] theorem raise_plen : (raise e s).plen = s.plen := rfl
@[simp] theorem raise_alloc : (raise e s).alloc = s.alloc := rfl
@[simp] theorem raise_cmd : (raise e s).cmd = s.cmd := rfl
@[simp] theorem raise_bsrc : (raise e s).bsrc = s.bsrc := rfl
@[simp] theorem raise_bsnk : (raise e s).bsnk = s.bsnk := rfl
@[simp] theorem raise_bitin : (raise e s).bitin = s.bitin := rfl
@[simp] theorem raise_bitout : (raise e s).bitout = s.bitout := rfl
@[simp] theorem raise_host : (raise e s).host = s.host := rfl
@[simp] theorem raise_seen : (raise e s).seen = s.seen := rfl
@[simp] theorem raise_draws : (raise e s).draws = s.draws := rfl

/-- A fault raised while none is recorded is recorded (R246). -/
theorem raise_of_noFault (h : s.err = 0#8) :
    raise e s = { s with phase := .idle, loop := .start, err := e.code, errinfo := e.info } := by
  simp [raise, State.finish, h]

/-- A fault's code is one of 1 to 8 (R241). -/
theorem Err.code_range : 1 ≤ e.code.toNat ∧ e.code.toNat ≤ 8 := by
  cases e <;> simp [Err.code]

theorem Err.code_ne_zero : e.code ≠ 0#8 := by
  cases e <;> simp [Err.code]

@[simp] theorem State.pushBranch_phase : (s.pushBranch b).phase = s.phase := rfl
@[simp] theorem State.pushBranch_loop : (s.pushBranch b).loop = s.loop := rfl
@[simp] theorem State.pushBranch_ftV : (s.pushBranch b).ftV = s.ftV := rfl
@[simp] theorem State.pushBranch_treeV : (s.pushBranch b).treeV = s.treeV := rfl
@[simp] theorem State.pushBranch_cwtV : (s.pushBranch b).cwtV = s.cwtV := rfl
@[simp] theorem State.pushBranch_eos : (s.pushBranch b).eos = s.eos := rfl
@[simp] theorem State.pushBranch_trunc : (s.pushBranch b).trunc = s.trunc := rfl
@[simp] theorem State.pushBranch_err : (s.pushBranch b).err = s.err := rfl
@[simp] theorem State.pushBranch_errinfo : (s.pushBranch b).errinfo = s.errinfo := rfl
@[simp] theorem State.pushBranch_root : (s.pushBranch b).root = s.root := rfl
@[simp] theorem State.pushBranch_nnode : (s.pushBranch b).nnode = s.nnode := rfl
@[simp] theorem State.pushBranch_cur : (s.pushBranch b).cur = s.cur := rfl
@[simp] theorem State.pushBranch_ft : (s.pushBranch b).ft = s.ft := rfl
@[simp] theorem State.pushBranch_arena : (s.pushBranch b).arena = s.arena := rfl
@[simp] theorem State.pushBranch_pq : (s.pushBranch b).pq = s.pq := rfl
@[simp] theorem State.pushBranch_cwt : (s.pushBranch b).cwt = s.cwt := rfl
@[simp] theorem State.pushBranch_stack : (s.pushBranch b).stack = s.stack := rfl
@[simp] theorem State.pushBranch_alloc : (s.pushBranch b).alloc = s.alloc := rfl
@[simp] theorem State.pushBranch_cmd : (s.pushBranch b).cmd = s.cmd := rfl
@[simp] theorem State.pushBranch_bsrc : (s.pushBranch b).bsrc = s.bsrc := rfl
@[simp] theorem State.pushBranch_bsnk : (s.pushBranch b).bsnk = s.bsnk := rfl
@[simp] theorem State.pushBranch_bitin : (s.pushBranch b).bitin = s.bitin := rfl
@[simp] theorem State.pushBranch_bitout : (s.pushBranch b).bitout = s.bitout := rfl
@[simp] theorem State.pushBranch_host : (s.pushBranch b).host = s.host := rfl
@[simp] theorem State.pushBranch_seen : (s.pushBranch b).seen = s.seen := rfl
@[simp] theorem State.pushBranch_draws : (s.pushBranch b).draws = s.draws := rfl
@[simp] theorem State.popBranch_phase : s.popBranch.phase = s.phase := rfl
@[simp] theorem State.popBranch_loop : s.popBranch.loop = s.loop := rfl
@[simp] theorem State.popBranch_ftV : s.popBranch.ftV = s.ftV := rfl
@[simp] theorem State.popBranch_treeV : s.popBranch.treeV = s.treeV := rfl
@[simp] theorem State.popBranch_cwtV : s.popBranch.cwtV = s.cwtV := rfl
@[simp] theorem State.popBranch_eos : s.popBranch.eos = s.eos := rfl
@[simp] theorem State.popBranch_trunc : s.popBranch.trunc = s.trunc := rfl
@[simp] theorem State.popBranch_err : s.popBranch.err = s.err := rfl
@[simp] theorem State.popBranch_errinfo : s.popBranch.errinfo = s.errinfo := rfl
@[simp] theorem State.popBranch_root : s.popBranch.root = s.root := rfl
@[simp] theorem State.popBranch_nnode : s.popBranch.nnode = s.nnode := rfl
@[simp] theorem State.popBranch_cur : s.popBranch.cur = s.cur := rfl
@[simp] theorem State.popBranch_ft : s.popBranch.ft = s.ft := rfl
@[simp] theorem State.popBranch_arena : s.popBranch.arena = s.arena := rfl
@[simp] theorem State.popBranch_pq : s.popBranch.pq = s.pq := rfl
@[simp] theorem State.popBranch_cwt : s.popBranch.cwt = s.cwt := rfl
@[simp] theorem State.popBranch_stack : s.popBranch.stack = s.stack := rfl
@[simp] theorem State.popBranch_alloc : s.popBranch.alloc = s.alloc := rfl
@[simp] theorem State.popBranch_cmd : s.popBranch.cmd = s.cmd := rfl
@[simp] theorem State.popBranch_bsrc : s.popBranch.bsrc = s.bsrc := rfl
@[simp] theorem State.popBranch_bsnk : s.popBranch.bsnk = s.bsnk := rfl
@[simp] theorem State.popBranch_bitin : s.popBranch.bitin = s.bitin := rfl
@[simp] theorem State.popBranch_bitout : s.popBranch.bitout = s.bitout := rfl
@[simp] theorem State.popBranch_host : s.popBranch.host = s.host := rfl
@[simp] theorem State.popBranch_seen : s.popBranch.seen = s.seen := rfl
@[simp] theorem State.popBranch_draws : s.popBranch.draws = s.draws := rfl
@[simp] theorem State.popBranch_path : s.popBranch.path = s.path := rfl

@[simp] theorem hardwareReset_phase : (hardwareReset s).phase = .idle := rfl
@[simp] theorem hardwareReset_err : (hardwareReset s).err = 0#8 := rfl
@[simp] theorem hardwareReset_ftV : (hardwareReset s).ftV = false := rfl
@[simp] theorem hardwareReset_treeV : (hardwareReset s).treeV = false := rfl
@[simp] theorem hardwareReset_cwtV : (hardwareReset s).cwtV = false := rfl
@[simp] theorem hardwareReset_bsrc : (hardwareReset s).bsrc = s.bsrc := rfl
@[simp] theorem hardwareReset_bsnk : (hardwareReset s).bsnk = s.bsnk := rfl
@[simp] theorem hardwareReset_bitin : (hardwareReset s).bitin = s.bitin := rfl
@[simp] theorem hardwareReset_bitout : (hardwareReset s).bitout = s.bitout := rfl

end Sys2Proof.Machine
end

