-- ==== Sys2Proof/Laws/Ops.lean ====
section
/-! SUPPORT. What the shared operations can do, each said once. -/

namespace Sys2Proof.Machine

/-! ## Sequencing -/

@[simp] theorem andThen_next (s : State) (f : State → Result) : andThen (.next s) f = f s := rfl
@[simp] theorem andThen_fault (e : Fault) (f : State → Result) : andThen (.fault e) f = .fault e := rfl
@[simp] theorem andThen_refused (r : Refusal) (f : State → Result) : andThen (.refused r) f = .refused r := rfl

/-- A sequence answers a next state when its first part does and its second part does from there. -/
theorem andThen_eq_next {o : Result} {f : State → Result} {t : State} :
    andThen o f = .next t ↔ ∃ s, o = .next s ∧ f s = .next t := by
  cases o <;> simp

theorem andThen_assoc (o : Result) (f g : State → Result) :
    andThen (andThen o f) g = andThen o fun s => andThen (f s) g := by
  cases o <;> rfl

/-! ## Running -/

@[simp] theorem drive_zero (tick : State → Result) (s : State) : drive tick 0 s = .next s := rfl

theorem drive_idle (tick : State → Result) (n : Nat) {s : State} (h : s.phase = .idle) :
    drive tick n s = .next s := by
  cases n <;> simp [drive, h]

theorem drive_succ (tick : State → Result) (n : Nat) {s : State} (h : s.phase ≠ .idle) :
    drive tick (n + 1) s = andThen (tick s) (drive tick n) := by
  simp [drive, h]

/-- Running `m + n` engine steps is running `m`, then `n`. -/
theorem drive_add (tick : State → Result) (m n : Nat) (s : State) :
    drive tick (m + n) s = andThen (drive tick m s) (drive tick n) := by
  induction m generalizing s with
  | zero => simp
  | succ m ih =>
    by_cases h : s.phase = .idle
    · simp [drive_idle, h]
    · rw [Nat.add_right_comm, drive_succ _ _ h, drive_succ _ _ h, andThen_assoc]
      congr 1
      funext t
      exact ih t

/-- A property that every engine step keeps is kept by running. -/
theorem drive_keeps {tick : State → Result} {P : State → Prop}
    (h : ∀ s t, P s → s.phase ≠ .idle → tick s = .next t → P t) :
    ∀ (n : Nat) (s t : State), P s → drive tick n s = .next t → P t := by
  intro n
  induction n with
  | zero => intro s t hs ht; cases ht; exact hs
  | succ n ih =>
    intro s t hs ht
    by_cases hi : s.phase = .idle
    · rw [drive_idle _ _ hi] at ht; cases ht; exact hs
    · rw [drive_succ _ _ hi, andThen_eq_next] at ht
      obtain ⟨u, hu, ht⟩ := ht
      exact ih u t (h s u hs hi hu) ht

/-- An engine step that waits changes nothing, however often it is run. -/
theorem drive_waiting {tick : State → Result} {s : State} (h : tick s = .next s) (n : Nat) :
    drive tick n s = .next s := by
  induction n with
  | zero => rfl
  | succ n ih =>
    by_cases hi : s.phase = .idle
    · exact drive_idle _ _ hi
    · rw [drive_succ _ _ hi, h, andThen_next, ih]

/-! ## Acceptance -/

/-- What acceptance can do (R247, R291): discard, refuse with `NotReady`, or start the command. -/
theorem accept_cases (p : Phase) (s : State) :
    (s.err ≠ 0#8 ∧ accept p s = .next s) ∨
    (s.err = 0#8 ∧ s.ready p = false ∧ accept p s = .next (raise (.notReady p.code) s)) ∨
    (s.err = 0#8 ∧ s.ready p = true ∧ accept p s = .next { s with phase := p, loop := .start }) := by
  by_cases h : s.err = 0#8 <;> cases hr : s.ready p <;> simp [accept, State.fault, h, hr]

theorem accept_of_ready {p : Phase} {s : State} (h : s.err = 0#8) (hr : s.ready p = true) :
    accept p s = .next { s with phase := p, loop := .start } := by
  simp [accept, State.fault, h, hr]

theorem accept_of_notReady {p : Phase} {s : State} (h : s.err = 0#8) (hr : s.ready p = false) :
    accept p s = .next (raise (.notReady p.code) s) := by
  simp [accept, State.fault, h, hr]

theorem accept_of_fault {p : Phase} {s : State} (h : s.err ≠ 0#8) : accept p s = .next s := by
  simp [accept, State.fault, h]

/-- What accepting an illegal word can do (R102, R247). -/
theorem acceptIllegal_cases (w : Byte) (s : State) :
    (s.err ≠ 0#8 ∧ acceptIllegal w s = .next s) ∨
    (s.err = 0#8 ∧ acceptIllegal w s = .next (raise (.illegalCommand w) s)) := by
  by_cases h : s.err = 0#8 <;> simp [acceptIllegal, State.fault, h]

/-! ## Memories -/

theorem withCounter_eq_next {s t : State} {sym : Nat} {k : Freq → Result} :
    withCounter s sym k = .next t ↔ ∃ f, s.ft.read sym = some f ∧ k f = .next t := by
  unfold withCounter; split <;> simp_all

theorem withEntry_eq_next {s t : State} {sym : Nat} {k : CwEntry → Result} :
    withEntry s sym k = .next t ↔ ∃ e, s.cwt.read sym = some e ∧ k e = .next t := by
  unfold withEntry; split <;> simp_all

theorem withRecord_eq_next {s t : State} {i : NodeIdx} {k : Node → Result} :
    withRecord s i k = .next t ↔ ∃ nd, s.arena.read i.toNat = some nd ∧ k nd = .next t := by
  unfold withRecord; split <;> simp_all

theorem withChildren_eq_next {s t : State} {i : NodeIdx} {k : NodeIdx → NodeIdx → Result} :
    withChildren s i k = .next t ↔
      ∃ l r f, s.arena.read i.toNat = some (.internal l r f) ∧ k l r = .next t := by
  rw [withChildren, withRecord_eq_next]
  constructor
  · rintro ⟨nd, hr, hk⟩
    cases nd with
    | leaf => simp at hk
    | internal l r f => exact ⟨l, r, f, hr, hk⟩
  · rintro ⟨l, r, f, hr, hk⟩
    exact ⟨_, hr, hk⟩

theorem withSym_eq_next {s t : State} {i : NodeIdx} {k : Sym → Result} :
    withSym s i k = .next t ↔ ∃ x f, s.arena.read i.toNat = some (.leaf x f) ∧ k x = .next t := by
  rw [withSym, withRecord_eq_next]
  constructor
  · rintro ⟨nd, hr, hk⟩
    cases nd with
    | internal => simp at hk
    | leaf x f => exact ⟨x, f, hr, hk⟩
  · rintro ⟨x, f, hr, hk⟩
    exact ⟨_, hr, hk⟩

theorem withRecord_of_read {s : State} {i : NodeIdx} {nd : Node} {k : Node → Result}
    (h : s.arena.read i.toNat = some nd) : withRecord s i k = k nd := by
  simp [withRecord, h]

theorem writeRecord_eq_next {s t : State} {i : Nat} {nd : Node} :
    writeRecord i nd s = .next t ↔ i < Config.nodeMax ∧ t = { s with arena := s.arena.write i nd } := by
  unfold writeRecord; split_ifs <;> simp_all [eq_comm]

/-! ## Ports -/

@[simp] theorem Source.take_cons {α : Type} (x : α) (xs : List α) (e : SourceEnd) :
    (Source.mk (x :: xs) e).take = (.got x, ⟨xs, e⟩) := rfl

@[simp] theorem Source.take_nil {α : Type} (e : SourceEnd) :
    (Source.mk ([] : List α) e).take = (e.answer, ⟨[], e⟩) := rfl

/-- A source that is not endless, or whose data suffice, is as it is before a transaction. -/
theorem Source.supply_of_le {α : Type} (more : Nat → α) {n : Nat} {src : Source α} (h : n ≤ src.data.length) :
    src.supply more n = src := by
  obtain ⟨data, e⟩ := src
  have h0 : n - data.length = 0 := Nat.sub_eq_zero_of_le h
  cases e <;> simp [Source.supply, h0]

@[simp] theorem Source.supply_endOfData {α : Type} (more : Nat → α) (n : Nat) (xs : List α) :
    (Source.mk xs .endOfData).supply more n = ⟨xs, .endOfData⟩ := rfl
@[simp] theorem Source.supply_failure {α : Type} (more : Nat → α) (n : Nat) (xs : List α) :
    (Source.mk xs .failure).supply more n = ⟨xs, .failure⟩ := rfl
@[simp] theorem Source.supply_silent {α : Type} (more : Nat → α) (n : Nat) (xs : List α) :
    (Source.mk xs .silent).supply more n = ⟨xs, .silent⟩ := rfl
@[simp] theorem Source.supply_cons_one {α : Type} (more : Nat → α) (x : α) (xs : List α) (e : SourceEnd) :
    (Source.mk (x :: xs) e).supply more 1 = ⟨x :: xs, e⟩ := Source.supply_of_le more (by simp)
@[simp] theorem Source.supply_endless_one {α : Type} (more : Nat → α) (k : Nat) :
    (Source.mk [] (.endless k)).supply more 1 = ⟨[more k], .endless (k + 1)⟩ := rfl

/-- An endless source holds what a transaction wants (R88). -/
theorem Source.supply_endless_length {α : Type} (more : Nat → α) (n k : Nat) (xs : List α) :
    n ≤ ((Source.mk xs (.endless k)).supply more n).data.length := by
  simp only [Source.supply, List.length_append, List.length_map, List.length_range]; omega

/-- A source only ever moves forward (R67, R79). -/
theorem Source.take_suffix {α : Type} (src : Source α) :
    src.take.2.data <:+ src.data ∧ src.take.2.ending = src.ending := by
  obtain ⟨data, e⟩ := src
  cases data with
  | nil => simp
  | cons x xs => exact ⟨List.suffix_cons x xs, rfl⟩

/-- What a sink can do (R65, R66): take the items, or leave them. -/
theorem Sink.put_cases {α : Type} (snk : Sink α) (xs : List α) :
    ((snk.put xs).1 = .ok ∧ (snk.put xs).2.written = snk.written ++ xs) ∨
    ((snk.put xs).1 ≠ .ok ∧ (snk.put xs).2 = snk) := by
  obtain ⟨w, room, f⟩ := snk
  rcases room with _ | _ | k
  · simp [Sink.put]
  · cases f <;> simp [Sink.put, SinkEnd.answer]
  · simp [Sink.put]

/-- An instruction's execution is its acceptance, then the run of what it started. -/
theorem exec_count (s : State) : exec .count s = andThen (accept .count s) runCount := rfl
theorem exec_build (s : State) : exec .build s = andThen (accept .build s) runBuild := rfl
theorem exec_derive (s : State) : exec .derive s = andThen (accept .derive s) runDerive := rfl
theorem exec_ser (s : State) : exec .ser s = andThen (accept .ser s) runSer := rfl
theorem exec_encode (s : State) : exec .encode s = andThen (accept .encode s) runEncode := rfl
theorem exec_deser (s : State) : exec .deser s = andThen (accept .deser s) runDeser := rfl
theorem exec_decode (s : State) : exec .decode s = andThen (accept .decode s) runDecode := rfl

end Sys2Proof.Machine
end

