-- ==== Sys2Proof/Laws/PerInstr.lean ====
section
/-! SUPPORT. Statements about every instruction as syntax, one lemma for each constructor. -/

namespace Sys2Proof.Laws.CodeWidth

/-- The width of an instruction's code is its row's `width` in spec/opcode_table.json: 8 for a command word (R101), 10 for a
leaf record (R111), 1 for an internal tag (R112). -/
def Statement (i : Instr) : Prop :=
  (encode i).width =
    match i with
    | .treeLeaf _ => 10
    | .treeInternal => 1
    | _ => 8

theorem nop : Statement .nop := rfl
theorem count : Statement .count := rfl
theorem build : Statement .build := rfl
theorem derive : Statement .derive := rfl
theorem ser : Statement .ser := rfl
theorem encode : Statement .encode := rfl
theorem deser : Statement .deser := rfl
theorem decode : Statement .decode := rfl
theorem rst : Statement .rst := rfl
theorem reserved8 : Statement .reserved8 := rfl
theorem reserved9 : Statement .reserved9 := rfl
theorem reservedA : Statement .reservedA := rfl
theorem reservedB : Statement .reservedB := rfl
theorem reservedC : Statement .reservedC := rfl
theorem reservedD : Statement .reservedD := rfl
theorem reservedE : Statement .reservedE := rfl
theorem reservedRsv (rsv op : BitVec 4) : Statement (.reservedRsv rsv op) := rfl
theorem treeLeaf (sym : Sym) : Statement (.treeLeaf sym) := rfl
theorem treeInternal : Statement .treeInternal := rfl

end Sys2Proof.Laws.CodeWidth
end

