-- ==== Sys2Proof/Laws/Ports.lean ====
section
/-! SUPPORT. What a transaction on a port can do to the machine: it moves one stream forward and changes nothing else, but for
the count of free values drawn. -/

namespace Sys2Proof.Machine

/-! ## Sources move forward (R67, R79, R88) -/

theorem Source.Forward.refl {α : Type} (src : Source α) : src.Forward src := ⟨List.suffix_refl _, .inl rfl⟩

theorem Source.Forward.trans {α : Type} {a b c : Source α} (h : a.Forward b) (h' : b.Forward c) : a.Forward c := by
  obtain ⟨d1, e1⟩ := h
  obtain ⟨d2, e2⟩ := h'
  refine ⟨d2.trans d1, ?_⟩
  rcases e2 with e2 | ⟨n2, k, k', hb, hc, hk⟩
  · rcases e1 with e1 | ⟨n1, k, k', ha, hb, hk⟩
    · exact .inl (e2.trans e1)
    · exact .inr ⟨List.suffix_nil.1 (n1 ▸ d2), k, k', ha, e2.trans hb, hk⟩
  · rcases e1 with e1 | ⟨n1, j, j', ha, hb', hj⟩
    · exact .inr ⟨n2, k, k', e1.symm.trans hb, hc, hk⟩
    · obtain rfl : j' = k := SourceEnd.endless.inj (hb'.symm.trans hb)
      exact .inr ⟨n2, j, k', ha, hc, hj.trans hk⟩

/-- Items taken off a source, after it has brought in what it lacks, move it forward. -/
theorem Source.forward_drop {α : Type} (more : Nat → α) (src : Source α) (n m : Nat)
    (hm : src.data.length < n → n ≤ (src.supply more n).data.length → m = n) :
    src.Forward { src.supply more n with data := (src.supply more n).data.drop m } := by
  by_cases h : n ≤ src.data.length
  · rw [Source.supply_of_le more h]
    exact ⟨List.drop_suffix _ _, .inl rfl⟩
  · obtain ⟨data, e⟩ := src
    simp only [not_le] at h hm
    cases e with
    | endOfData => exact ⟨List.drop_suffix _ _, .inl rfl⟩
    | failure => exact ⟨List.drop_suffix _ _, .inl rfl⟩
    | silent => exact ⟨List.drop_suffix _ _, .inl rfl⟩
    | endless k =>
      obtain rfl := hm h (Source.supply_endless_length more n k data)
      have : ((Source.mk data (.endless k)).supply more m).data.drop m = [] := by
        simp only [Source.supply, List.drop_eq_nil_iff, List.length_append, List.length_map, List.length_range]; omega
      exact ⟨by rw [this]; exact List.nil_suffix, .inr ⟨this, k, k + (m - data.length), rfl, rfl, by omega⟩⟩

/-- Taking an item is dropping one. -/
theorem Source.take_snd {α : Type} (src : Source α) : src.take.2 = { src with data := src.data.drop 1 } := by
  obtain ⟨data, e⟩ := src
  cases data <;> rfl

/-! ## The transactions -/

/-- All that `ByteIn()` does to the machine. -/
theorem byteIn_snd (s : State) : ∃ src, (byteIn s).2 = { s with bsrc := src } ∧ s.bsrc.Forward src :=
  ⟨_, rfl, by rw [Source.take_snd]; exact Source.forward_drop _ _ _ _ fun _ _ => rfl⟩

/-- All that `BitIn()` does to the machine. -/
theorem bitIn_snd (s : State) : ∃ src, (bitIn s).2 = { s with bitin := src } ∧ s.bitin.Forward src :=
  ⟨_, rfl, by rw [Source.take_snd]; exact Source.forward_drop _ _ _ _ fun _ _ => rfl⟩

/-- All that `BitsIn(n)` does to the machine. -/
theorem bitsIn_snd (n : Nat) (s : State) :
    ∃ src d, (bitsIn n s).2 = { s with bitin := src, draws := d } ∧ s.bitin.Forward src := by
  simp only [bitsIn]
  split
  · exact ⟨_, s.draws, rfl, Source.forward_drop _ _ _ _ fun _ _ => rfl⟩
  · rename_i h
    split
    · exact ⟨s.bitin, s.draws, rfl, .refl _⟩
    · exact ⟨_, _, rfl, Source.forward_drop _ _ _ _ fun _ h' => absurd h' h⟩

end Sys2Proof.Machine
end

