-- ==== Sys2Proof/Laws/Tree.lean ====
section
/-! SUPPORT. The small lemmas of the abstract tree (Machine/Tree.lean), of BUILD's collection (Machine/Build.lean) and of the
parts of the invariant (Safety.lean). -/

namespace Sys2Proof.Machine

/-! ## Trees in the arena -/

/-- A leaf stands at a record that is a leaf with its symbol (R35). -/
theorem Tree.isAt_leaf {m : Memory Node} {x : Sym} {i : NodeIdx} :
    (Tree.leaf x).isAt m i = true ↔ ∃ f, m.read i.toNat = some (.leaf x f) := by
  unfold Tree.isAt
  split
  · rename_i s' f h
    simp only [h, beq_iff_eq, Option.some.injEq, Node.leaf.injEq]
    exact ⟨fun e => ⟨f, e, rfl⟩, fun ⟨_, e, _⟩ => e⟩
  · rename_i h
    simp only [Bool.false_eq_true, false_iff, not_exists]
    intro f hf; exact h _ _ hf

/-- A node stands at an internal record whose children are its subtrees (R35). -/
theorem Tree.isAt_node {m : Memory Node} {l r : Tree} {i : NodeIdx} :
    (Tree.node l r).isAt m i = true ↔
      ∃ a b f, m.read i.toNat = some (.internal a b f) ∧ l.isAt m a = true ∧ r.isAt m b = true := by
  rw [Tree.isAt]
  split
  · rename_i a b f h
    simp only [h, Option.some.injEq, Node.internal.injEq, Bool.and_eq_true]
    constructor
    · intro hh; exact ⟨a, b, f, ⟨rfl, rfl, rfl⟩, hh⟩
    · rintro ⟨_, _, _, ⟨rfl, rfl, rfl⟩, hh⟩; exact hh
  · rename_i h
    simp only [Bool.false_eq_true, false_iff, not_exists]
    intro a b f hf; exact h _ _ _ hf.1

/-- The indices of a node: its own, then those of its subtrees. -/
theorem Tree.indices_node {m : Memory Node} {l r : Tree} {i a b : NodeIdx} {f : NodeFreq}
    (h : m.read i.toNat = some (.internal a b f)) :
    (Tree.node l r).indices m i = i.toNat :: (l.indices m a ++ r.indices m b) := by
  simp [Tree.indices, h]

/-- A tree's own index is among its indices. -/
theorem Tree.self_mem_indices (m : Memory Node) (t : Tree) (i : NodeIdx) : i.toNat ∈ t.indices m i := by
  cases t with
  | leaf => simp [Tree.indices]
  | node l r => unfold Tree.indices; split <;> simp

/-- Records outside a tree do not matter to it. -/
theorem Tree.isAt_congr {m m' : Memory Node} : ∀ {t : Tree} {i : NodeIdx},
    (∀ j ∈ t.indices m i, m'.read j = m.read j) → t.isAt m i = true →
    t.isAt m' i = true ∧ t.indices m' i = t.indices m i := by
  intro t
  induction t with
  | leaf x =>
    intro i h ht
    refine ⟨?_, rfl⟩
    rw [Tree.isAt_leaf] at ht ⊢
    rw [h _ (Tree.self_mem_indices _ _ _)]; exact ht
  | node l r ihl ihr =>
    intro i h ht
    rw [Tree.isAt_node] at ht
    obtain ⟨a, b, f, hr, hl, hrr⟩ := ht
    rw [Tree.indices_node hr] at h ⊢
    have hr' : m'.read i.toNat = some (.internal a b f) := by rw [h _ (by simp)]; exact hr
    obtain ⟨h1, h2⟩ := ihl (fun j hj => h j (by simp [hj])) hl
    obtain ⟨h3, h4⟩ := ihr (fun j hj => h j (by simp [hj])) hrr
    exact ⟨Tree.isAt_node.2 ⟨a, b, f, hr', h1, h3⟩, by rw [Tree.indices_node hr', h2, h4]⟩

/-- A tree stands on a record that has been written. -/
theorem Tree.isAt_some {m : Memory Node} {t : Tree} {i : NodeIdx} (h : t.isAt m i = true) :
    ∃ nd, m.read i.toNat = some nd := by
  cases t with
  | leaf => obtain ⟨f, h⟩ := Tree.isAt_leaf.1 h; exact ⟨_, h⟩
  | node => obtain ⟨a, b, f, h, _⟩ := Tree.isAt_node.1 h; exact ⟨_, h⟩

/-- A write outside a tree's range leaves it as it is. -/
theorem TreeWithin.write {m : Memory Node} {i : NodeIdx} {lo hi k : Nat} {t : Tree} (h : TreeWithin m i lo hi t)
    (nd : Node) (hk : k < lo ∨ hi ≤ k) : TreeWithin (m.write k nd) i lo hi t := by
  obtain ⟨h1, h2, h3⟩ := h
  have := Tree.isAt_congr (m' := m.write k nd) (t := t) (i := i) (fun j hj => Memory.read_write_of_ne _ _ (by
    have := h3 j hj; omega)) h1
  exact ⟨this.1, this.2 ▸ h2, this.2 ▸ h3⟩

/-- A tree within a range is within every wider one. -/
theorem TreeWithin.mono {m : Memory Node} {i : NodeIdx} {lo hi lo' hi' : Nat} {t : Tree} (h : TreeWithin m i lo hi t)
    (h1 : lo' ≤ lo) (h2 : hi ≤ hi') : TreeWithin m i lo' hi' t :=
  ⟨h.1, h.2.1, fun j hj => by have := h.2.2 j hj; omega⟩

/-- A leaf record is a tree on itself. -/
theorem TreeWithin.leaf {m : Memory Node} {i : NodeIdx} {x : Sym} {f : NodeFreq} (h : m.read i.toNat = some (.leaf x f)) :
    TreeWithin m i i.toNat (i.toNat + 1) (.leaf x) :=
  ⟨Tree.isAt_leaf.2 ⟨f, h⟩, by simp [Tree.indices], by simp [Tree.indices]⟩

/-- Two trees one after another, below the record just before them, are one tree. -/
theorem TreeWithin.node {m : Memory Node} {i a b : NodeIdx} {f : NodeFreq} {l r : Tree} {mid hi : Nat}
    (hr : m.read i.toNat = some (.internal a b f)) (hl : TreeWithin m a (i.toNat + 1) mid l) (hrr : TreeWithin m b mid hi r)
    (hm : i.toNat < mid) (hh : mid ≤ hi) : TreeWithin m i i.toNat hi (.node l r) := by
  refine ⟨Tree.isAt_node.2 ⟨a, b, f, hr, hl.1, hrr.1⟩, ?_, ?_⟩
  · rw [Tree.indices_node hr, List.nodup_cons, List.nodup_append]
    refine ⟨?_, hl.2.1, hrr.2.1, ?_⟩
    · intro hmem
      rcases List.mem_append.1 hmem with h | h
      · have := hl.2.2 _ h; omega
      · have := hrr.2.2 _ h; omega
    · intro x hx y hy hxy
      have := hl.2.2 _ hx; have := hrr.2.2 _ hy; omega
  · rw [Tree.indices_node hr]
    intro j hj
    rcases List.mem_cons.1 hj with h | h
    · omega
    · rcases List.mem_append.1 h with h | h
      · have := hl.2.2 _ h; omega
      · have := hrr.2.2 _ h; omega

/-- The root of a tree is within its range. -/
theorem TreeWithin.pos {m : Memory Node} {i : NodeIdx} {lo hi : Nat} {t : Tree} (h : TreeWithin m i lo hi t) : lo ≤ i.toNat ∧ i.toNat < hi :=
  h.2.2 _ (Tree.self_mem_indices _ _ _)

/-- A write at or above the subtree that is being read leaves DESER's stack as it is. -/
theorem DeserStack.write {m : Memory Node} : ∀ {st : List Frame} {hi k : Nat} (nd : Node), hi ≤ k →
    DeserStack m hi st → DeserStack (m.write k nd) hi st := by
  intro st
  induction st with
  | nil => intro hi k nd _ h; exact h
  | cons f rest ih =>
    intro hi k nd hk h
    obtain ⟨i, v⟩ := f
    cases v with
    | enter => exact h
    | left => obtain ⟨h1, h2⟩ := h; exact ⟨h1, ih nd (by omega) h2⟩
    | right =>
      obtain ⟨h1, ⟨t, ht⟩, h2⟩ := h
      exact ⟨h1, ⟨t, ht.write nd (.inr hk)⟩, ih nd (by omega) h2⟩

/-! ## SER's transactions -/

/-- SER's transactions carry the serialized tree (R113, R171). -/
theorem Tree.transactions_flatten (t : Tree) : t.transactions.flatten = t.ser := by
  induction t with
  | leaf s => simp [Tree.transactions, Tree.ser]
  | node l r hl hr => simp [Tree.transactions, Tree.ser, hl, hr]

theorem Tree.transactions_length (t : Tree) : t.transactions.length = t.serWrites := by
  induction t with
  | leaf s => rfl
  | node l r hl hr => simp [Tree.transactions, Tree.serWrites, hl, hr]; omega

/-! ## Codewords -/

@[simp] theorem Codeword.seq_length (c : Codeword) : c.seq.length = c.len.toNat := by simp [Codeword.seq]

/-- The bits of a codeword, read one by one (R34). -/
theorem Codeword.seq_getElem? (c : Codeword) (j : Nat) :
    c.seq[j]? = if j < c.len.toNat then some (c.bits.getLsbD j) else none := by
  unfold Codeword.seq
  split <;> simp_all

/-- A bit that is set reads as set, and the others as before. -/
theorem withBit_getLsbD {w : Nat} (v : BitVec w) (j i : Nat) (b : Bool) :
    (withBit v j b).getLsbD i = if i = j ∧ j < w then b else v.getLsbD i := by
  have h1 : (1#w <<< j).getLsbD i = decide (i = j ∧ j < w) := by
    rw [BitVec.getLsbD_shiftLeft, BitVec.getLsbD_one]
    by_cases h : i = j
    · subst h; simp; omega
    · simp [h]; omega
  unfold withBit
  split
  · rw [BitVec.getLsbD_or, h1]; split <;> simp_all
  · rw [BitVec.getLsbD_and, BitVec.getLsbD_not, h1]
    by_cases hi : i < w
    · by_cases hj : i = j ∧ j < w <;> simp [hj, hi]
      simp_all
    · rw [BitVec.getLsbD_of_ge _ _ (by omega), if_neg (by omega)]; simp

/-- A branch is added at the end of the path (R33, R191). -/
theorem State.pathBits_pushBranch {s : State} {b : Bool} (h : s.plen.toNat < Config.cwMax) :
    (s.pushBranch b).pathBits = s.pathBits ++ [b] := by
  have hl : (s.plen + 1).toNat = s.plen.toNat + 1 := by
    have : Config.cwMax = 256 := rfl
    rw [BitVec.toNat_add, show (1 : BitVec Config.lenW).toNat = 1 from rfl]
    exact Nat.mod_eq_of_lt (by rw [show 2 ^ Config.lenW = 512 from rfl]; omega)
  simp only [State.pathBits, State.pushBranch, Codeword.seq, hl, List.range_succ, List.map_append, List.map_cons, List.map_nil]
  congr 1
  · apply List.map_congr_left
    intro i hi
    have := List.mem_range.1 hi
    rw [withBit_getLsbD, if_neg (by omega)]
  · rw [withBit_getLsbD, if_pos ⟨rfl, h⟩]

/-- The last branch is taken off the path (R33, R191). -/
theorem State.pathBits_popBranch {s : State} (h : s.plen ≠ 0) : s.popBranch.pathBits = s.pathBits.dropLast := by
  obtain ⟨n, hn⟩ : ∃ n, s.plen.toNat = n + 1 := Nat.exists_eq_succ_of_ne_zero fun h0 => h (BitVec.eq_of_toNat_eq h0)
  have hl : (s.plen - 1).toNat = n := by
    have hlt := s.plen.isLt
    rw [BitVec.toNat_sub, show (1 : BitVec Config.lenW).toNat = 1 from rfl, hn]
    rw [show 2 ^ Config.lenW = 512 from rfl] at hlt ⊢; omega
  show (List.range (s.plen - 1).toNat).map _ = ((List.range s.plen.toNat).map _).dropLast
  rw [hl, hn, List.range_succ]; simp

/-! ## Full memories -/

/-- A filled memory has a value in every cell. -/
theorem Memory.full_fill {α} (n : Nat) (v : α) : Memory.full n (Memory.fill n v) := by
  intro a ha; simp [Memory.read_fill, ha]

/-- A write keeps every cell that has a value. -/
theorem Memory.full_write {α} {n : Nat} {m : Memory α} (h : Memory.full n m) (a : Nat) (v : α) : Memory.full n (m.write a v) := by
  intro b hb; rw [Memory.read_write]; split <;> simp [h b hb]

/-! ## BUILD's collection -/

/-- The members of the collection are the nodes whose membership bit is 1 (R32). -/
theorem State.mem_members {s : State} (hw : Memory.wf Config.nodeMax s.pq) {j : Nat} : j ∈ s.members ↔ s.pq.read j = some true := by
  unfold State.members
  rw [Memory.read_eq_some_iff hw]
  simp

/-- No node is in the collection twice. -/
theorem State.members_nodup {s : State} (hw : Memory.wf Config.nodeMax s.pq) : s.members.Nodup := by
  unfold State.members
  rw [List.nodup_iff_pairwise_ne, List.pairwise_map]
  exact ((hw.1.filter _).imp fun h => by omega)

/-- Every member is the index of a record. -/
theorem State.members_lt {s : State} (hw : Memory.wf Config.nodeMax s.pq) {j : Nat} (h : j ∈ s.members) : j < Config.nodeMax := by
  rw [State.mem_members hw] at h; exact Memory.lt_of_read hw h

/-- The least key of a list of written records is that of one of them. -/
theorem minKey_of_written {m : Memory Node} : ∀ {l : List Nat}, l ≠ [] → (∀ j ∈ l, ∃ nd, m.read j = some nd) →
    ∃ f i nd, minKey m l = .ok (f, i) ∧ i ∈ l ∧ m.read i = some nd ∧ f = nd.freq := by
  intro l
  induction l with
  | nil => intro h; exact absurd rfl h
  | cons i is ih =>
    intro _ h
    obtain ⟨nd, hnd⟩ := h i (by simp)
    cases is with
    | nil => exact ⟨nd.freq, i, nd, by simp [minKey, nodeKey, hnd], by simp, hnd, rfl⟩
    | cons j js =>
      obtain ⟨f, k, nd', h1, h2, h3, h4⟩ := ih (by simp) (fun x hx => h x (by simp [hx]))
      have : minKey m (i :: j :: js) = .ok (lesserKey (nd.freq, i) (f, k)) := by
        simp [minKey, nodeKey, hnd, h1]
      rw [this]
      unfold lesserKey
      split
      · exact ⟨_, _, nd, rfl, by simp, hnd, rfl⟩
      · exact ⟨_, _, nd', rfl, by simp [h2], h3, h4⟩

/-- A new member is one more. -/
theorem State.members_add {s : State} (hw : Memory.wf Config.nodeMax s.pq) {n : Nat} (hn : n < Config.nodeMax) (hnot : n ∉ s.members) :
    Memory.wf Config.nodeMax (s.pq.write n true) ∧ (∀ j, j ∈ ({ s with pq := s.pq.write n true } : State).members ↔ j ∈ s.members ∨ j = n) ∧
    ({ s with pq := s.pq.write n true } : State).members.length = s.members.length + 1 := by
  have hw' := Memory.wf_write (a := n) true hw hn
  have hm : ∀ j, j ∈ ({ s with pq := s.pq.write n true } : State).members ↔ j ∈ s.members ∨ j = n := by
    intro j
    rw [State.mem_members hw', State.mem_members hw]
    show Memory.read (Memory.write _ _ _) _ = _ ↔ _
    rw [Memory.read_write]
    split <;> simp_all
  refine ⟨hw', hm, ?_⟩
  have : (n :: s.members).Perm ({ s with pq := s.pq.write n true } : State).members := by
    rw [List.perm_ext_iff_of_nodup]
    · intro a; rw [List.mem_cons, hm]; tauto
    · rw [List.nodup_cons]; exact ⟨hnot, State.members_nodup hw⟩
    · exact State.members_nodup hw'
  simpa using this.length_eq.symm

end Sys2Proof.Machine
end

