-- ==== Sys2Proof/Tests/Slice0.lean ====
section
/-! SUPPORT. Tests: expected values are the spec's own worked examples, named in each docstring; and, for every statement with
hypotheses, a named state and operands that meet them all (`witness_..`). -/

namespace Sys2Proof.Tests

open Sys2Proof Sys2Proof.Machine

/-! ## Helpers -/

/-- A property of the next state. -/
def nextIs (r : Result) (p : State → Bool) : Bool :=
  match r with
  | .next t => p t
  | .fault _ => false
  | .refused _ => false

theorem nextIs_spec {r : Result} {p : State → Bool} (h : nextIs r p = true) : ∃ t, r = .next t ∧ p t = true := by
  cases r with
  | next t => exact ⟨t, rfl, h⟩
  | fault e => exact absurd h (by simp [nextIs])
  | refused e => exact absurd h (by simp [nextIs])

/-- The bits of a string of `0` and `1` (R8). -/
def bits (text : String) : Bits := text.toList.map fun c => c == '1'

/-- The tree of the worked examples of R150, R171, R190, R211: `Node(Leaf(256), Leaf(0x41))`. -/
def exampleTree : Tree := .node (.leaf 256#9) (.leaf 0x41#9)

/-- The arena and registers of R150's worked example. -/
def withTree : State :=
  { State.reset with
    arena := [(0, .leaf 0x41#9 3), (1, .leaf 256#9 1), (2, .internal 1#10 0#10 4)]
    root := 2#10, nnode := 3#10, treeV := true }

/-- The table of R190's worked example. -/
def withTable : State :=
  { withTree with
    cwt := ((Memory.fill Config.nsym none).write 0x41 (some ⟨1#9, 1#256⟩)).write 256 (some ⟨1#9, 0#256⟩), cwtV := true }

/-- A frequency table with the given counts and that of symbol 256. -/
def withCounts (counts : List (Nat × Freq)) : State :=
  { State.reset with
    ft := counts.foldl (fun ft c => ft.write c.1 c.2) ((Memory.fill Config.nsym 0).write 256 1), ftV := true }

/-- A single leaf as the present tree. -/
def withLeaf (x : Sym) : State := { State.reset with arena := [(0, .leaf x 0)], nnode := 1#10, treeV := true }

/-- A block with a fault recorded (R231's example: FormatError). -/
def faulted : State := { State.reset with err := 3#8 }

/-- A running DESER at a node boundary. -/
def atNode (alloc : NodeCnt) (stack : List Frame) : State :=
  { State.reset with phase := .deser, loop := .top, alloc := alloc, stack := stack }

/-! ## Well-formedness -/

/-- Ill-formed: the row RESERVED_RSV with a high nibble of 0000 (R102). -/
theorem test_wf_refuses_zero_rsv : (Instr.reservedRsv 0x0#4 0x5#4).wf = false := by decide
theorem test_wf_admits_nonzero_rsv : (Instr.reservedRsv 0x1#4 0x1#4).wf = true := by decide
theorem test_wf_admits_every_leaf : ∀ sym : Sym, (Instr.treeLeaf sym).wf = true := fun _ => rfl

/-! ## Decoding: words from R100, R101 (`0000` and the opcode), R102 (`0x11`), R111, R112 -/

theorem test_decode_nop : decode (.command 0b00000000#8) = .ok .nop := by decide
theorem test_decode_count : decode (.command 0b00000001#8) = .ok .count := by decide
theorem test_decode_build : decode (.command 0b00000010#8) = .ok .build := by decide
theorem test_decode_derive : decode (.command 0b00000011#8) = .ok .derive := by decide
theorem test_decode_ser : decode (.command 0b00000100#8) = .ok .ser := by decide
theorem test_decode_encode : decode (.command 0b00000101#8) = .ok .encode := by decide
theorem test_decode_deser : decode (.command 0b00000110#8) = .ok .deser := by decide
theorem test_decode_decode : decode (.command 0b00000111#8) = .ok .decode := by decide
theorem test_decode_rst : decode (.command 0b00001111#8) = .ok .rst := by decide
theorem test_decode_reserved8 : decode (.command 0b00001000#8) = .ok .reserved8 := by decide
theorem test_decode_reserved9 : decode (.command 0b00001001#8) = .ok .reserved9 := by decide
theorem test_decode_reservedA : decode (.command 0b00001010#8) = .ok .reservedA := by decide
theorem test_decode_reservedB : decode (.command 0b00001011#8) = .ok .reservedB := by decide
theorem test_decode_reservedC : decode (.command 0b00001100#8) = .ok .reservedC := by decide
theorem test_decode_reservedD : decode (.command 0b00001101#8) = .ok .reservedD := by decide
theorem test_decode_reservedE : decode (.command 0b00001110#8) = .ok .reservedE := by decide
theorem test_decode_reservedRsv : decode (.command 0b00010001#8) = .ok (.reservedRsv 0b0001#4 0b0001#4) := by decide
/-- R111's examples: 0x41, 256, 0, 255. -/
theorem test_decode_treeLeaf :
    decode (.record (bits "0001000001")) = .ok (.treeLeaf 0x41#9) ∧
    decode (.record (bits "0100000000")) = .ok (.treeLeaf 256#9) ∧
    decode (.record (bits "0000000000")) = .ok (.treeLeaf 0#9) ∧
    decode (.record (bits "0011111111")) = .ok (.treeLeaf 255#9) := by decide
theorem test_decode_treeInternal : decode (.record [true]) = .ok .treeInternal := by decide
/-- What is no record is rejected by name (R112). -/
theorem test_decode_rejects :
    decode (.record []) = .error .noTag ∧ decode (.record (bits "000100000")) = .error .shortSymbol ∧
    decode (.record (bits "00010000011")) = .error .trailingBits := by decide
/-- A row's word in the table's numbering. -/
theorem test_tableWord :
    decodeTableWord 8 0x07 = some .decode ∧ decodeTableWord 10 0x041 = some (.treeLeaf 0x41#9) ∧
    decodeTableWord 16 0x100 = some (.treeLeaf 256#9) ∧ decodeTableWord 1 1 = some .treeInternal := by decide

/-! ## Instructions -/

/-- R230's worked example: STATUS = 0x0C stays. -/
theorem test_nop_keeps_status :
    nextIs (exec .nop { State.reset with ftV := true, treeV := true }) (fun t => t.status == 0x0C#8) = true := by decide
/-- R141's worked example: 0x41 three times. -/
theorem test_count_example :
    nextIs (exec .count { State.reset with bsrc := ⟨[0x41#8, 0x41#8, 0x41#8], .endOfData⟩ }) (fun t =>
      t.ft.read 0x41 == some 3 && t.ft.read 256 == some 1 && t.ft.read 0 == some 0 && t.ftV) = true := by decide +kernel
/-- R144(a): the empty source. -/
theorem test_count_empty :
    nextIs (exec .count { State.reset with bsrc := ⟨[], .endOfData⟩ }) (fun t =>
      tableSymbols t.ft == [256] && t.ftV) = true := by decide +kernel
/-- R150's worked example. -/
theorem test_build_example :
    nextIs (exec .build (withCounts [(0x41, 3)])) (fun t =>
      t.arena == withTree.arena && t.root == 2#10 && t.nnode == 3#10 && t.treeV && !t.ftV) = true := by decide +kernel
/-- R160(b): at equal frequency the leaf is extracted before the internal node. -/
theorem test_build_tie :
    nextIs (exec .build (withCounts [(0, 2), (255, 1)])) (fun t =>
      t.arena.read 3 == some (.internal 1#10 2#10 2) && t.arena.read 4 == some (.internal 0#10 3#10 4)) = true := by
  decide +kernel
/-- R190's worked example. -/
theorem test_derive_example :
    nextIs (exec .derive withTree) (fun t =>
      t.entry 0x41#9 == some (some [true]) && t.entry 256#9 == some (some [false]) && t.entry 0#9 == some none && t.cwtV)
      = true := by decide +kernel
/-- R194: the degenerate tree gives the empty codeword. -/
theorem test_derive_leaf :
    nextIs (exec .derive (withLeaf 256#9)) (fun t => t.entry 256#9 == some (some []) && t.entry 0#9 == some none) = true := by
  decide +kernel
/-- R171's worked example. -/
theorem test_ser_example :
    nextIs (exec .ser { withTree with bitout := ⟨[], none, .silent⟩ }) (fun t =>
      t.bitout.written == bits "101000000000001000001") = true := by decide +kernel
/-- R201's worked example. -/
theorem test_encode_example :
    nextIs (exec .encode { withTable with
      bsrc := ⟨[0x41#8, 0x41#8, 0x41#8], .endOfData⟩, bitout := ⟨[], none, .silent⟩ }) (fun t =>
      t.bitout.written == bits "1110" && t.err == 0#8) = true := by decide +kernel
/-- R202: a byte with no codeword. -/
theorem test_encode_missing :
    nextIs (exec .encode { withTable with bsrc := ⟨[0x41#8, 0x42#8], .endOfData⟩, bitout := ⟨[], none, .silent⟩ })
      (fun t => t.bitout.written == [true] && t.err == 5#8 && t.errinfo == 0x42#16) = true := by decide +kernel
/-- R175's worked example. -/
theorem test_deser_example :
    nextIs (exec .deser { State.reset with bitin := ⟨bits "10100000000000100000111", .endOfData⟩ }) (fun t =>
      t.arena == [(0, .internal 1#10 2#10 0), (1, .leaf 256#9 0), (2, .leaf 0x41#9 0)] &&
      t.root == 0#10 && t.nnode == 3#10 && t.treeV && t.bitin.data == bits "11") = true := by decide +kernel
/-- R182(c): a source that ends at the tag of the left child. -/
theorem test_deser_short :
    nextIs (exec .deser { withTree with bitin := ⟨[true], .endOfData⟩ }) (fun t =>
      t.err == 3#8 && !t.treeV && t.status == 0x02#8) = true := by decide +kernel
/-- R211's worked example. -/
theorem test_decode_example :
    nextIs (exec .decode { withTree with bitin := ⟨bits "111001", .endOfData⟩, bsnk := ⟨[], none, .silent⟩ }) (fun t =>
      t.bsnk.written == [0x41#8, 0x41#8, 0x41#8] && t.eos && !t.trunc && t.bitin.data == bits "01" && t.cur == 1#10)
      = true := by decide +kernel
/-- R222: in the control state STOP a read of STATUS shows BUSY, TREE_V and the new EOS. -/
theorem test_decode_stop :
    nextIs (step { withTree with cmd := some ⟨0x07#8, [.readCsr 2 0#3]⟩, bitin := ⟨[false], .endOfData⟩ }) (fun t =>
      t.seen == [.csr 0#3 0x0029#16] && t.status == 0x28#8) = true := by decide +kernel
/-- R217's example: a leaf that holds 300 emits 0x2C; then the source ends (R214). -/
theorem test_decode_300 :
    nextIs (exec .decode { withTree with
      arena := [(0, .leaf 300#9 0), (1, .leaf 256#9 0), (2, .internal 1#10 0#10 0)]
      bitin := ⟨[true], .endOfData⟩, bsnk := ⟨[], none, .silent⟩ }) (fun t =>
      t.bsnk.written == [0x2C#8] && t.trunc && !t.eos && t.err == 0#8) = true := by decide +kernel
/-- U14: after a DESER that faulted a read of NNODE shows no value of the register, but the free one. -/
theorem test_stale_after_deser :
    (hostReadCsr 3#3 { State.reset with err := 7#8 }).seen = [.csr 3#3 ((Config.staleCsr 0).setWidth 16)] := rfl
/-- R88: a source that never ends gives an item to every transaction, after the items it holds. -/
theorem test_endless_source :
    (byteIn { State.reset with bsrc := ⟨[], .endless 5⟩ }).1 = .got (Config.endlessByte 5) ∧
    (byteIn { State.reset with bsrc := ⟨[], .endless 5⟩ }).2.bsrc = ⟨[], .endless 6⟩ ∧
    (bitsIn 2 { State.reset with bitin := ⟨[true], .endless 0⟩ }).2.bitin = ⟨[], .endless 1⟩ := ⟨rfl, rfl, rfl⟩
/-- R231's worked example. -/
theorem test_rst_example :
    nextIs (exec .rst faulted) (fun t => t.status == 0x00#8 && t.err == 0#8 && t.errinfo == 0#16) = true := by decide
/-- R102: the word 0x11 is illegal, it is not COUNT. -/
theorem test_reservedRsv_example :
    nextIs (exec (decodeCommand 0x11#8) State.reset) (fun t => t.status == 0x02#8 && t.err == 1#8 && t.errinfo == 0x11#16)
      = true := by decide
/-- R102, R241: the reserved opcodes. -/
theorem test_reserved_opcodes :
    ([0x08#8, 0x09#8, 0x0A#8, 0x0B#8, 0x0C#8, 0x0D#8, 0x0E#8] : List Byte).all (fun w =>
      nextIs (exec (decodeCommand w) State.reset) fun t => t.err == 1#8 && t.errinfo == w.setWidth 16) = true := by decide
/-- R175: the single leaf of R182(a), as a record. -/
theorem test_treeLeaf_example :
    nextIs (exec (.treeLeaf 256#9) (atNode 0 [])) (fun t =>
      t.arena == [(0, .leaf 256#9 0)] && t.nnode == 1#10 && t.treeV && !t.busy) = true := by decide
/-- R175: an internal tag allocates a record. -/
theorem test_treeInternal_example :
    nextIs (exec .treeInternal (atNode 0 [])) (fun t => t.alloc == 1#10 && t.busy) = true := by decide
/-- R70's example: the magic number as four bytes. -/
theorem test_magic_bytes : packBytes (msbBits 32 0x736) = [0x00#8, 0x00#8, 0x07#8, 0x36#8] := by decide
/-- Log entry 22: a word placed for the next step. -/
theorem test_withFetchWord :
    nextIs (step (State.reset.withFetchWord 8 0x11)) (fun t => t.err == 1#8 && t.errinfo == 0x11#16) = true ∧
    nextIs (step (State.reset.withFetchWord 10 0x041)) (fun t => t.arena == [(0, .leaf 0x41#9 0)] && t.treeV) = true := by
  decide +kernel

/-! ## Witnesses: encoding -/

theorem witness_DecodeInvertsEncode : (Instr.reservedRsv 0xF#4 0xF#4).wf = true := by decide
theorem witness_EncodeInvertsDecode : decode (.record [true]) = .ok .treeInternal := by decide
theorem witness_SerializedTreeIsSelfDelimiting : ∃ (t u : Tree) (rest : Bits), t.ser ++ rest = u.ser :=
  ⟨exampleTree, exampleTree, [], by simp⟩

/-! ## Witnesses: steps -/

theorem witness_StepExecutesThePresentedWord : ∃ (s : State) (w : Byte) (i : Instr),
    s.phase = .idle ∧ s.cmd = some ⟨w, []⟩ ∧ decode (.command w) = .ok i :=
  ⟨{ State.reset with cmd := some ⟨0xFF#8, []⟩ }, 0xFF#8, .reservedRsv 0xF#4 0xF#4, rfl, rfl, by decide⟩
theorem witness_ExecutionIsAcceptanceThenRun : ∃ (s : State) (w : Byte) (i : Instr) (m : BusyMove) (ms : List BusyMove),
    s.phase = .idle ∧ s.cmd = some ⟨w, m :: ms⟩ ∧ decode (.command w) = .ok i :=
  ⟨{ State.reset with cmd := some ⟨0x01#8, [.reset 0]⟩ }, 0x01#8, .count, .reset 0, [], rfl, rfl, by decide⟩
theorem witness_StepExecutesTheRecordAtANodeBoundary_leaf : ∃ (s : State) (r : Instr) (rest : Bits),
    s.phase = .deser ∧ s.loop = .top ∧ s.host = [] ∧ s.alloc.toNat < Config.nodeMax ∧
    decodeRecord s.bitin.data = .ok (r, rest) :=
  ⟨{ atNode 512 [] with bitin := ⟨bits "0111111111", .endOfData⟩ }, .treeLeaf 511#9, [],
    rfl, rfl, rfl, by decide, by decide⟩
theorem witness_StepExecutesTheRecordAtANodeBoundary_internal : ∃ (s : State) (r : Instr) (rest : Bits),
    s.phase = .deser ∧ s.loop = .top ∧ s.host = [] ∧ s.alloc.toNat < Config.nodeMax ∧
    decodeRecord s.bitin.data = .ok (r, rest) :=
  ⟨{ atNode 0 [] with bitin := ⟨bits "10", .endOfData⟩ }, .treeInternal, [false], rfl, rfl, rfl, by decide, by decide⟩
theorem witness_BusyBlockLeavesTheWordOnThePort : ∃ (s t : State) (p : PortWord),
    s.phase ≠ .idle ∧ s.host = [] ∧ s.cmd = some p ∧ step s = .next t :=
  ⟨{ State.reset with phase := .count, loop := .top, cmd := some ⟨0x02#8, []⟩ }, _, ⟨0x02#8, []⟩,
    by decide, rfl, rfl, rfl⟩

/-! ## Witnesses: reset, control commands, faults -/

theorem witness_HardwareResetLeavesTheResetValues : ∃ s : State, s.phase = .idle ∧ s.cmd = none ∧ s.host = [] :=
  ⟨withTable, rfl, rfl, rfl⟩
theorem witness_IllegalWordsRaiseIllegalCommand_noFault : ∃ s : State, s.phase = .idle ∧ s.err = 0#8 :=
  ⟨withTable, rfl, rfl⟩
theorem witness_IllegalWordsRaiseIllegalCommand_faulted : ∃ s : State, s.phase = .idle ∧ s.err ≠ 0#8 :=
  ⟨faulted, rfl, by decide⟩
theorem witness_IllegalWordsRaiseIllegalCommand_words :
    (0x1#4 : BitVec 4) ≠ 0#4 ∧
    (∃ i, decode (.command 0x10#8) = .ok i ∧ (0x10#8 : Byte).extractLsb' 4 4 ≠ 0#4) ∧
    (∃ i, decode (.command 0x08#8) = .ok i ∧ 8 ≤ ((0x08#8 : Byte).extractLsb' 0 4).toNat) ∧
    (∃ i, decode (.command 0x0E#8) = .ok i ∧ ((0x0E#8 : Byte).extractLsb' 0 4).toNat ≤ 14) :=
  ⟨by decide, ⟨.reservedRsv 1#4 0#4, by decide, by decide⟩, ⟨.reserved8, by decide, by decide⟩,
    ⟨.reservedE, by decide, by decide⟩⟩
theorem witness_FaultedBlockDiscardsEveryWordButRst : ∃ (s : State) (w : Byte) (i : Instr),
    s.phase = .idle ∧ s.err ≠ 0#8 ∧ decode (.command w) = .ok i ∧ w ≠ 0x0F#8 ∧ s.cmd = some ⟨w, []⟩ :=
  ⟨{ faulted with cmd := some ⟨0x0E#8, []⟩ }, 0x0E#8, .reservedE, rfl, by decide, by decide, by decide, rfl⟩
theorem witness_MissingTableRaisesNotReady_absent : ∃ s : State,
    s.accepting ∧ s.ftV = false ∧ s.treeV = false ∧ s.cwtV = false := ⟨State.reset, ⟨rfl, rfl⟩, rfl, rfl, rfl⟩
theorem witness_MissingTableRaisesNotReady_present : ∃ s : State,
    s.accepting ∧ s.ftV = true ∧ s.treeV = true ∧ s.cwtV = true :=
  ⟨{ withTable with ftV := true }, ⟨rfl, rfl⟩, rfl, rfl, rfl⟩
theorem witness_FaultEntryRecordsTheFirstFault : (∃ s : State, s.err = 0#8) ∧ ∃ s : State, s.err ≠ 0#8 :=
  ⟨⟨withTree, rfl⟩, ⟨faulted, by decide⟩⟩
theorem witness_RecordedFaultStaysUntilCleared_stays : ∃ s t : State,
    s.phase = .idle ∧ s.err ≠ 0#8 ∧ step s = .next t :=
  ⟨{ faulted with cmd := some ⟨0x01#8, []⟩ }, _, rfl, by decide, rfl⟩
theorem witness_RecordedFaultStaysUntilCleared_rst : ∃ s t : State,
    s.phase = .idle ∧ s.err ≠ 0#8 ∧ step s = .next t ∧ t.err = 0#8 :=
  ⟨{ faulted with cmd := some ⟨0x0F#8, []⟩ }, _, rfl, by decide, rfl, rfl⟩
theorem witness_RecordedFaultStaysUntilCleared_reset : ∃ s t : State,
    s.phase = .idle ∧ s.err ≠ 0#8 ∧ step s = .next t ∧ t.err = 0#8 :=
  ⟨{ faulted with host := [.hardwareReset] }, _, rfl, by decide, rfl, rfl⟩
theorem witness_CsrReadShowsTheRegisterAndChangesNothing :
    (∃ s : State, s.phase ≠ .build ∧ s.phase ≠ .deser ∧ s.treeV = false ∧
      ¬(s.treeV = false ∧ (s.err = 3#8 ∨ s.err = 7#8 ∨ (s.err = 4#8 ∧ s.errinfo = 3#16)))) ∧
    ∃ s : State, s.phase ≠ .build ∧ s.phase ≠ .deser ∧ s.treeV = true ∧ s.err = 4#8 ∧ s.errinfo = 3#16 ∧
      ¬(s.treeV = false ∧ (s.err = 3#8 ∨ s.err = 7#8 ∨ (s.err = 4#8 ∧ s.errinfo = 3#16))) :=
  ⟨⟨{ State.reset with err := 4#8, errinfo := 1#16 }, by decide, by decide, rfl, by decide⟩,
    ⟨{ withTree with err := 4#8, errinfo := 3#16 }, by decide, by decide, rfl, rfl, rfl, by decide⟩⟩
theorem witness_ResetDuringACommandSpoilsItsStreamsOnly : ∃ (s u : State) (w : Byte) (i : Instr) (k : Nat),
    s.phase = .idle ∧ s.cmd = some ⟨w, [.reset k]⟩ ∧ decode (.command w) = .ok i ∧
    andThen (acceptOnly i { s with cmd := none }) (drive engineTick k) = .next u ∧ u.phase ≠ .idle ∧
    u.bitin.data = [true] ∧ u.bsnk.written = [0x41#8] ∧ i ≠ .count ∧ i ≠ .encode ∧ i ≠ .ser :=
  ⟨{ withTree with
      cmd := some ⟨0x07#8, [.reset 4]⟩, bitin := ⟨bits "111", .endOfData⟩, bsnk := ⟨[], none, .silent⟩ },
    _, 0x07#8, .decode, 4, rfl, rfl, by decide, rfl, by decide +kernel, by decide +kernel, by decide +kernel, by decide,
    by decide, by decide⟩

/-! ## Witnesses: COUNT and BUILD -/

theorem count_lt (l : List Byte) (h : l.length < 2 ^ Config.freqW) (b : Byte) : l.count b < 2 ^ Config.freqW :=
  lt_of_le_of_lt List.count_le_length h
theorem witness_CountTabulatesTheSource : ∃ (s : State) (data : List Byte), s.accepting ∧
    s.bsrc = ⟨data, .endOfData⟩ ∧ ∀ b : Byte, data.count b < 2 ^ Config.freqW :=
  ⟨{ State.reset with bsrc := ⟨[0xFF#8, 0x00#8], .endOfData⟩ }, _, ⟨rfl, rfl⟩, rfl, count_lt _ (by decide)⟩
theorem witness_CountRaisesFreqOverflow : ∃ (s : State) (before after : List Byte) (b : Byte) (e : SourceEnd),
    s.accepting ∧ s.bsrc = ⟨before ++ b :: after, e⟩ ∧ (∀ c : Byte, before.count c < 2 ^ Config.freqW) ∧
    before.count b = 2 ^ Config.freqW - 1 :=
  ⟨{ State.reset with bsrc := ⟨List.replicate (2 ^ Config.freqW - 1) 0x41#8 ++ 0x41#8 :: [], .endOfData⟩ }, _, [], 0x41#8,
    .endOfData, ⟨rfl, rfl⟩, rfl, count_lt _ (by rw [List.length_replicate]; decide), List.count_replicate_self⟩
theorem witness_CountRaisesIoErrorOnTheByteSource : ∃ (s : State) (data : List Byte), s.accepting ∧
    s.bsrc = ⟨data, .failure⟩ ∧ ∀ b : Byte, data.count b < 2 ^ Config.freqW :=
  ⟨{ State.reset with bsrc := ⟨[], .failure⟩ }, [], ⟨rfl, rfl⟩, rfl, count_lt _ (by decide)⟩
theorem witness_ExtractionTakesTheLeastKey : ∃ s : State, s.members ≠ [] ∧ Memory.wf Config.nodeMax s.pq ∧
    ∀ j ∈ s.members, (s.arena.read j).isSome = true :=
  ⟨{ withTree with pq := [(0, true), (1, true), (512, false)] }, by decide, by decide, by decide⟩
/-- The table of R150's worked example, as R30 wants it. -/
theorem witness_FrequencySound : (withCounts [(0x41, 3)]).FrequencySound where
  full := fun _ => by unfold Memory.full; decide +kernel
  eofOne := fun _ => by decide +kernel
  counting := fun h => absurd h (by decide)
theorem witness_BuildPlacesTheLeavesInSymbolOrder : ∃ s : State, s.accepting ∧ s.ftV = true ∧ s.FrequencySound ∧
    (tableSymbols s.ft)[1]? = some 256 ∧ s.ft.read 256 = some 1 :=
  ⟨_, ⟨rfl, rfl⟩, rfl, witness_FrequencySound, by decide +kernel, by decide +kernel⟩
theorem witness_BuildMergesTheTwoLeastNodes : ∃ s : State, s.accepting ∧ s.ftV = true ∧ s.FrequencySound ∧
    (tableSymbols s.ft).length ≤ 2 ∧ 2 < 2 * (tableSymbols s.ft).length - 1 :=
  ⟨_, ⟨rfl, rfl⟩, rfl, witness_FrequencySound, by decide +kernel, by decide +kernel⟩
theorem witness_BuildMakesOneTreeOfTheTable : ∃ s : State, s.accepting ∧ s.ftV = true ∧ s.FrequencySound :=
  ⟨_, ⟨rfl, rfl⟩, rfl, witness_FrequencySound⟩
theorem witness_BuildMinimisesTheWeightedPathLength : ∃ s : State, s.accepting ∧ s.ftV = true ∧ s.FrequencySound :=
  ⟨_, ⟨rfl, rfl⟩, rfl, witness_FrequencySound⟩

/-! ## Witnesses: SER and DESER -/

theorem exampleTree_stands (s : State) (h : s.arena = withTree.arena) (hr : s.root = 2#10) : s.hasTree exampleTree := by
  constructor
  · rw [h, hr]; decide +kernel
  · decide
theorem takes_of_none {α : Type} {snk : Sink α} (h : snk.room = none) (n : Nat) : snk.takes n := by simp [Sink.takes, h]
theorem takes_of_some {α : Type} {snk : Sink α} {k n : Nat} (h : snk.room = some k) (hn : n ≤ k) : snk.takes n := by
  simp [Sink.takes, h, hn]

theorem witness_SerAppendsTheSerializedTree : ∃ (s : State) (tr : Tree), s.accepting ∧ s.treeV = true ∧ s.hasTree tr ∧
    s.bitout.takes tr.serWrites :=
  ⟨{ withTree with bitout := ⟨[], some 5, .failure⟩ }, exampleTree, ⟨rfl, rfl⟩, rfl, exampleTree_stands _ rfl rfl,
    takes_of_some rfl (by decide)⟩
theorem witness_SerRaisesIoErrorOnTheBitSink : ∃ (s : State) (tr : Tree) (k : Nat), s.accepting ∧ s.treeV = true ∧
    s.hasTree tr ∧ s.bitout.room = some k ∧ s.bitout.whenFull = .failure ∧ k < tr.serWrites :=
  ⟨{ withTree with bitout := ⟨[], some 4, .failure⟩ }, exampleTree, 4, ⟨rfl, rfl⟩, rfl, exampleTree_stands _ rfl rfl, rfl, rfl,
    by decide⟩
theorem witness_DeserReadsBackTheSerializedTree : ∃ (s : State) (tr : Tree) (rest : Bits) (e : SourceEnd), s.accepting ∧
    s.bitin = ⟨tr.ser ++ rest, e⟩ ∧ tr.size ≤ Config.nodeMax :=
  ⟨{ withTree with bitin := ⟨exampleTree.ser ++ [true], .silent⟩ }, exampleTree, [true], .silent, ⟨rfl, rfl⟩, rfl, by decide⟩
theorem witness_DeserRaisesFormatErrorOnAShortTree_step : ∃ s : State,
    s.phase = .deser ∧ s.err = 0#8 ∧ s.loop ≠ .start ∧ s.bitin.ending = .endOfData ∧
      (∃ i, s.loop = .symbol i) ∧ s.bitin.data.length < 9 :=
  ⟨{ atNode 1 [] with loop := .symbol 0, bitin := ⟨bits "01000001", .endOfData⟩ }, rfl, rfl, by decide, rfl, ⟨0, rfl⟩,
    by decide⟩
theorem witness_DeserRaisesFormatErrorOnAShortTree_run : ∃ (s : State) (tr : Tree) (data missing : Bits), s.accepting ∧
    s.bitin = ⟨data, .endOfData⟩ ∧ data ++ missing = tr.ser ∧ missing ≠ [] ∧ tr.size ≤ Config.nodeMax :=
  ⟨{ withTree with bitin := ⟨[], .endOfData⟩ }, .leaf 0, [], (Tree.leaf 0).ser, ⟨rfl, rfl⟩, rfl, rfl, by decide, by decide⟩
theorem witness_DeserRaisesIoErrorOnTheBitSource : ∃ (s : State) (tr : Tree) (data missing : Bits), s.accepting ∧
    s.bitin = ⟨data, .failure⟩ ∧ data ++ missing = tr.ser ∧ missing ≠ [] ∧ tr.size ≤ Config.nodeMax :=
  ⟨{ withTree with bitin := ⟨exampleTree.ser.take 20, .failure⟩ }, exampleTree, _, exampleTree.ser.drop 20, ⟨rfl, rfl⟩, rfl,
    List.take_append_drop _ _, by decide, by decide⟩
theorem witness_DeserRaisesArenaOverflow_run : ∃ (s : State) (rest : Bits) (e : SourceEnd), s.accepting ∧
    s.bitin = ⟨List.replicate Config.nodeMax true ++ true :: rest, e⟩ :=
  ⟨{ State.reset with bitin := ⟨List.replicate Config.nodeMax true ++ true :: [], .endOfData⟩ }, [], _, ⟨rfl, rfl⟩, rfl⟩
theorem witness_DeserRaisesArenaOverflow_end : ∃ s : State, s.accepting ∧
    s.bitin = ⟨List.replicate Config.nodeMax true, .endOfData⟩ :=
  ⟨{ State.reset with bitin := ⟨List.replicate Config.nodeMax true, .endOfData⟩ }, ⟨rfl, rfl⟩, rfl⟩
theorem witness_DeserRaisesArenaOverflow_record : ∃ s : State,
    s.phase = .deser ∧ s.loop = .top ∧ s.err = 0#8 ∧ Config.nodeMax ≤ s.alloc.toNat :=
  ⟨atNode 513 [], rfl, rfl, rfl, by decide⟩
theorem witness_InternalTagOpensANode : ∃ s : State,
    s.phase = .deser ∧ s.loop = .top ∧ s.alloc.toNat < Config.nodeMax := ⟨atNode 512 [], rfl, rfl, by decide⟩
theorem witness_InternalTagOpensANode_refused :
    (∃ s : State, s.phase ≠ .deser) ∧ ∃ s : State, s.phase = .deser ∧ s.loop ≠ .top :=
  ⟨⟨withTree, by decide⟩, ⟨{ atNode 1 [] with loop := .symbol 0 }, rfl, by decide⟩⟩
theorem witness_LeafRecordIsStoredAsRead_root : ∃ s : State, s.phase = .deser ∧ s.loop = .top ∧
    s.alloc.toNat < Config.nodeMax ∧ s.stack = [] ∧ DeserStack s.arena s.alloc.toNat s.stack :=
  ⟨atNode 0 [], rfl, rfl, by decide, rfl, rfl⟩
theorem witness_LeafRecordIsStoredAsRead_left : ∃ s : State, s.phase = .deser ∧ s.loop = .top ∧
    s.alloc.toNat < Config.nodeMax ∧ (∃ i rest, s.stack = ⟨i, .left⟩ :: rest) ∧
    DeserStack s.arena s.alloc.toNat s.stack :=
  ⟨atNode 1 [⟨0, .left⟩], rfl, rfl, by decide, ⟨0, [], rfl⟩, rfl, rfl⟩
theorem witness_LeafRecordIsStoredAsRead_right : ∃ s : State, s.phase = .deser ∧ s.loop = .top ∧
    s.alloc.toNat < Config.nodeMax ∧ (∃ i rest, s.stack = ⟨i, .right⟩ :: rest) ∧
    DeserStack s.arena s.alloc.toNat s.stack :=
  ⟨{ atNode 2 [⟨0, .right⟩] with arena := [(1, .leaf 256#9 0)] }, rfl, rfl, by decide, ⟨0, [], rfl⟩, by decide,
    ⟨.leaf 256#9, by decide, by decide, by decide⟩, rfl⟩

/-! ## Witnesses: DERIVE, ENCODE, DECODE -/

theorem witness_DeriveGivesEverySymbolItsPath : ∃ (s : State) (tr : Tree), s.accepting ∧ s.treeV = true ∧ s.hasTree tr :=
  ⟨withTree, exampleTree, ⟨rfl, rfl⟩, rfl, exampleTree_stands _ rfl rfl⟩
theorem witness_DerivedTableIsPrefixFree : ∃ (s t : State) (tr : Tree) (x y : Sym) (p q : Bits), s.accepting ∧
    s.treeV = true ∧ s.hasTree tr ∧ exec .derive s = .next t ∧ t.entry x = some (some p) ∧ t.entry y = some (some q) ∧
    x ≠ y := by
  obtain ⟨t, ht, hc⟩ := nextIs_spec test_derive_example
  simp only [Bool.and_eq_true, beq_iff_eq] at hc
  exact ⟨withTree, t, exampleTree, 256#9, 0x41#9, [false], [true], ⟨rfl, rfl⟩, rfl, exampleTree_stands _ rfl rfl, ht,
    hc.1.1.2, hc.1.1.1, by decide⟩

theorem table_hasCw : withTable.hasCw eof ∧ ∀ b ∈ [0x41#8], withTable.hasCw (Byte.sym b) := by
  refine ⟨⟨[false], by decide +kernel⟩, ?_⟩
  intro b hb
  obtain rfl : b = 0x41#8 := by simpa using hb
  exact ⟨[true], by decide +kernel⟩
theorem witness_EncodeAppendsThePayload : ∃ (s : State) (bytes : List Byte), s.accepting ∧ s.cwtV = true ∧
    s.bsrc = ⟨bytes, .endOfData⟩ ∧ (∀ b ∈ bytes, s.hasCw b.sym) ∧ s.hasCw eof ∧
    s.bitout.takes (s.payload bytes).length :=
  ⟨{ withTable with bsrc := ⟨[0x41#8], .endOfData⟩, bitout := ⟨[], some 2, .failure⟩ }, [0x41#8], ⟨rfl, rfl⟩, rfl, rfl,
    table_hasCw.2, table_hasCw.1, takes_of_some rfl (by decide +kernel)⟩
theorem witness_EncodeRaisesMissingCodeword_byte : ∃ (s : State) (bytes : List Byte) (b : Byte) (after : List Byte)
    (e : SourceEnd), s.accepting ∧ s.cwtV = true ∧ (∀ b ∈ bytes, s.hasCw b.sym) ∧
    s.bitout.takes (bytes.map fun b => s.cw b.sym).flatten.length ∧ s.bsrc = ⟨bytes ++ b :: after, e⟩ ∧
    s.cwt.read b.toNat = some none :=
  ⟨{ withTable with bsrc := ⟨[0x41#8] ++ 0xFF#8 :: [], .silent⟩, bitout := ⟨[], some 1, .failure⟩ }, [0x41#8], 0xFF#8, [],
    .silent, ⟨rfl, rfl⟩, rfl, table_hasCw.2, takes_of_some rfl (by decide +kernel), rfl, by decide +kernel⟩
theorem witness_EncodeRaisesMissingCodeword_eof : ∃ (s : State) (bytes : List Byte), s.accepting ∧ s.cwtV = true ∧
    (∀ b ∈ bytes, s.hasCw b.sym) ∧ s.bitout.takes (bytes.map fun b => s.cw b.sym).flatten.length ∧
    s.bsrc = ⟨bytes, .endOfData⟩ ∧ s.cwt.read 256 = some none :=
  ⟨{ withTable with cwt := Memory.fill Config.nsym none, bsrc := ⟨[], .endOfData⟩ }, [], ⟨rfl, rfl⟩, rfl, by simp,
    takes_of_some rfl (by decide), rfl, by decide +kernel⟩
theorem witness_EncodeRaisesIoErrorOnItsPorts_source : ∃ (s : State) (bytes : List Byte), s.accepting ∧ s.cwtV = true ∧
    (∀ b ∈ bytes, s.hasCw b.sym) ∧ s.bsrc = ⟨bytes, .failure⟩ ∧
    s.bitout.takes (bytes.map fun b => s.cw b.sym).flatten.length :=
  ⟨{ withTable with bsrc := ⟨[0x41#8], .failure⟩, bitout := ⟨[], some 1, .silent⟩ }, [0x41#8], ⟨rfl, rfl⟩, rfl,
    table_hasCw.2, rfl, takes_of_some rfl (by decide +kernel)⟩
theorem witness_EncodeRaisesIoErrorOnItsPorts_sink : ∃ (s : State) (bytes : List Byte) (k : Nat), s.accepting ∧
    s.cwtV = true ∧ (∀ b ∈ bytes, s.hasCw b.sym) ∧ s.bsrc = ⟨bytes, .endOfData⟩ ∧ s.hasCw eof ∧ s.bitout.room = some k ∧
    s.bitout.whenFull = .failure ∧ k < (s.payload bytes).length :=
  ⟨{ withTable with bsrc := ⟨[0x41#8], .endOfData⟩, bitout := ⟨[], some 1, .failure⟩ }, [0x41#8], 1, ⟨rfl, rfl⟩, rfl,
    table_hasCw.2, rfl, table_hasCw.1, rfl, rfl, by decide +kernel⟩

theorem witness_DecodeStopsAtTheEofLeaf : ∃ (s : State) (tr : Tree) (ws : List (Sym × Bits)) (q rest : Bits) (e : SourceEnd),
    s.accepting ∧ s.treeV = true ∧ s.hasTree tr ∧ 1 < tr.size ∧ (∀ w ∈ ws, w ∈ tr.paths ∧ w.1 ≠ eof) ∧
    (eof, q) ∈ tr.paths ∧ s.bitin = ⟨(ws.map Prod.snd).flatten ++ q ++ rest, e⟩ ∧ s.bsnk.takes ws.length :=
  ⟨{ withTree with bitin := ⟨[true, false, true], .silent⟩, bsnk := ⟨[], some 1, .silent⟩ }, exampleTree, [(0x41#9, [true])],
    [false], [true], .silent, ⟨rfl, rfl⟩, rfl, exampleTree_stands _ rfl rfl, by decide, by decide, by decide, rfl,
    takes_of_some rfl (by decide)⟩
theorem witness_DecodeStopsSoftlyOnATruncatedStream : ∃ (s : State) (tr : Tree) (ws : List (Sym × Bits)) (p : Bits),
    s.accepting ∧ s.treeV = true ∧ s.hasTree tr ∧ 1 < tr.size ∧ (∀ w ∈ ws, w ∈ tr.paths ∧ w.1 ≠ eof) ∧
    (∃ w ∈ tr.paths, p <+: w.2 ∧ p ≠ w.2) ∧ s.bitin = ⟨(ws.map Prod.snd).flatten ++ p, .endOfData⟩ ∧
    s.bsnk.takes ws.length :=
  ⟨{ withTree with bitin := ⟨[true], .endOfData⟩, bsnk := ⟨[], some 1, .silent⟩ }, exampleTree, [(0x41#9, [true])], [],
    ⟨rfl, rfl⟩, rfl, exampleTree_stands _ rfl rfl, by decide, by decide,
    ⟨(256#9, [false]), by decide, by decide, by decide⟩, rfl, takes_of_some rfl (by decide)⟩
theorem leaf_stands (x : Sym) : (withLeaf x).hasTree (.leaf x) := by
  constructor
  · simp [withLeaf, Tree.isAt, Memory.read, State.reset]
  · show 1 ≤ 513
    decide
theorem witness_DecodeOfASingleLeafReadsNoBit_eof : ∃ (s : State) (x : Sym), s.accepting ∧ s.treeV = true ∧
    s.hasTree (.leaf x) ∧ x = eof := ⟨withLeaf eof, eof, ⟨rfl, rfl⟩, rfl, leaf_stands _, rfl⟩
theorem witness_DecodeOfASingleLeafReadsNoBit_other : ∃ (s : State) (x : Sym), s.accepting ∧ s.treeV = true ∧
    s.hasTree (.leaf x) ∧ x ≠ eof := ⟨withLeaf 257#9, 257#9, ⟨rfl, rfl⟩, rfl, leaf_stands _, by decide⟩
theorem witness_DecodeRaisesIoErrorOnItsPorts_source : ∃ (s : State) (tr : Tree) (ws : List (Sym × Bits)) (p : Bits),
    s.accepting ∧ s.treeV = true ∧ s.hasTree tr ∧ 1 < tr.size ∧ (∀ w ∈ ws, w ∈ tr.paths ∧ w.1 ≠ eof) ∧
    (∃ w ∈ tr.paths, p <+: w.2 ∧ p ≠ w.2) ∧ s.bitin = ⟨(ws.map Prod.snd).flatten ++ p, .failure⟩ ∧
    s.bsnk.takes ws.length :=
  ⟨{ withTree with bitin := ⟨[true], .failure⟩, bsnk := ⟨[], none, .silent⟩ }, exampleTree, [(0x41#9, [true])], [],
    ⟨rfl, rfl⟩, rfl, exampleTree_stands _ rfl rfl, by decide, by decide,
    ⟨(256#9, [false]), by decide, by decide, by decide⟩, rfl, takes_of_none rfl _⟩
theorem witness_DecodeRaisesIoErrorOnItsPorts_sink : ∃ (s : State) (tr : Tree) (ws : List (Sym × Bits)) (w : Sym × Bits)
    (rest : Bits) (e : SourceEnd), s.accepting ∧ s.treeV = true ∧ s.hasTree tr ∧ 1 < tr.size ∧
    (∀ w ∈ ws, w ∈ tr.paths ∧ w.1 ≠ eof) ∧ w ∈ tr.paths ∧ w.1 ≠ eof ∧
    s.bitin = ⟨(ws.map Prod.snd).flatten ++ w.2 ++ rest, e⟩ ∧ s.bsnk.room = some ws.length ∧
    s.bsnk.whenFull = .failure :=
  ⟨{ withTree with bitin := ⟨[true, true], .endOfData⟩, bsnk := ⟨[], some 1, .failure⟩ }, exampleTree, [(0x41#9, [true])],
    (0x41#9, [true]), [], .endOfData, ⟨rfl, rfl⟩, rfl, exampleTree_stands _ rfl rfl, by decide, by decide, by decide,
    by decide, rfl, rfl, rfl⟩

/-! ## Witnesses: whole-machine rules, round trips -/

theorem witness_StreamsOnlyMoveForward : ∃ (i : Instr) (s t : State), exec i s = .next t :=
  ⟨.rst, faulted, _, rfl⟩
theorem witness_EachStreamIsReachedByItsCommandsOnly : ∃ (i : Instr) (s t : State), exec i s = .next t ∧
    i ≠ .count ∧ i ≠ .encode ∧ i ≠ .decode ∧ i ≠ .deser ∧ i ≠ .ser :=
  ⟨.treeInternal, atNode 0 [], _, rfl, by decide, by decide, by decide, by decide, by decide⟩
theorem witness_TablesAreWrittenByTheirCommandsOnly : ∃ (i : Instr) (s t : State), exec i s = .next t ∧
    i ≠ .build ∧ i ≠ .deser ∧ i ≠ .treeInternal ∧ (∀ sym, i ≠ .treeLeaf sym) ∧ i ≠ .rst ∧ i ≠ .derive ∧ i ≠ .count :=
  ⟨.reservedE, withTree, _, rfl, by decide, by decide, by decide, by simp, by decide, by decide, by decide⟩
theorem witness_TablesAreWrittenByTheirCommandsOnly_streaming :
    (∃ s t : State, exec .encode s = .next t) ∧ ∃ s t : State, exec .decode s = .next t :=
  ⟨⟨faulted, _, rfl⟩, ⟨withLeaf eof, _, rfl⟩⟩
theorem witness_FileBitsStandMostSignificantFirst :
    (∃ (bits : Bits) (k : Nat), bits.length % 8 = 0 ∧ k < bits.length) ∧
    ∃ (bytes : List Byte) (k : Nat) (b : Byte), bytes[k / 8]? = some b :=
  ⟨⟨List.replicate 8 true, 7, by decide, by decide⟩, ⟨[0x36#8], 7, 0x36#8, by decide⟩⟩
theorem witness_MagicMismatchPresentsNoCommand : ∃ (file : List Byte) (magic : BitVec 32),
    (unpackBytes file).take 32 ≠ msbBits 32 magic.toNat :=
  ⟨[0x00#8, 0x00#8, 0x07#8, 0x37#8], 0x736#32, by decide⟩
theorem witness_CompressThenDecompressGivesTheInputBack : ∃ (s : State) (bytes : List Byte), s.accepting ∧
    s.bsrc = ⟨bytes, .endOfData⟩ ∧ bytes.length < 2 ^ Config.freqW ∧ s.bitout = ⟨[], none, .silent⟩ ∧
    s.bsnk = ⟨[], none, .silent⟩ :=
  ⟨{ State.reset with
      bsrc := ⟨[0x41#8], .endOfData⟩, bitout := ⟨[], none, .silent⟩, bsnk := ⟨[], none, .silent⟩ },
    [0x41#8], ⟨rfl, rfl⟩, rfl, by decide, rfl, rfl⟩
theorem witness_CompressionSessionWritesTheContainer : ∃ (s : State) (input : List Byte) (magic : BitVec 32),
    s.accepting ∧ s.cmd = none ∧ s.host = compressSession input magic ∧ input.length < 2 ^ Config.freqW :=
  ⟨{ State.reset with host := compressSession [] }, [], Config.magic, ⟨rfl, rfl⟩, rfl, rfl, by decide⟩
theorem witness_SessionsGiveTheInputBack : ∃ (s u : State) (input : List Byte) (magic : BitVec 32), s.accepting ∧
    s.cmd = none ∧ s.host = compressSession input magic ∧ input.length < 2 ^ Config.freqW ∧ u.accepting ∧ u.cmd = none :=
  ⟨{ State.reset with host := compressSession [0x41#8] 0xFFFFFFFF#32 }, withTable, [0x41#8], 0xFFFFFFFF#32, ⟨rfl, rfl⟩,
    rfl, rfl, by decide, ⟨rfl, rfl⟩, rfl⟩

/-! ## Witnesses: invariants -/

/-- A block with a tree, whose ports answer and whose next word is DECODE. -/
def beforeDecode : State :=
  { withTree with
    cmd := some ⟨0x07#8, []⟩, bsrc := ⟨[], .endOfData⟩, bitin := ⟨[false], .endOfData⟩, bsnk := ⟨[], none, .silent⟩
    bitout := ⟨[], none, .silent⟩ }

theorem beforeDecode_tree : ∃ t, TreeWithin beforeDecode.arena beforeDecode.root 0 beforeDecode.nnode.toNat t :=
  ⟨exampleTree, by decide +kernel, by decide +kernel, by decide +kernel⟩
theorem beforeDecode_inv : beforeDecode.Inv where
  status := by constructor <;> decide
  memories := by constructor <;> decide
  frequencies := ⟨fun h => absurd h (by decide), fun h => absurd h (by decide), fun h => absurd h (by decide)⟩
  trees := ⟨fun _ => beforeDecode_tree, by decide, fun h => absurd h (by decide)⟩
  run := ⟨fun h => absurd h (by decide), fun h => absurd h (by decide), fun h => absurd h (by decide),
    fun h => absurd h (by decide), fun h => absurd h (by decide), fun h => absurd h (by decide)⟩
theorem beforeDecode_steps : ∃ t, step beforeDecode = .next t := ⟨_, rfl⟩
theorem witness_EveryCommandEndsIfItsPortsAnswer : ∃ (s : State) (w : Byte) (i : Instr), s.Inv ∧ s.phase = .idle ∧
    decode (.command w) = .ok i ∧ s.portsAnswer :=
  ⟨beforeDecode, 0x07#8, .decode, beforeDecode_inv, rfl, by decide, .inl rfl, .inl rfl, .inl rfl, .inl rfl⟩
/-- A COUNT that has been accepted, on a source that never ends. -/
theorem witness_EveryCommandEndsIfItsPortsAnswer_endless : ∃ s : State, s.Inv ∧ s.phase = .count ∧ s.host = [] ∧
    s.bsrc.ending.goesOn :=
  ⟨{ State.reset with phase := .count, bsrc := ⟨[], .endless 0⟩ },
    { status := by constructor <;> decide
      memories := by constructor <;> decide
      frequencies := ⟨fun h => absurd h (by decide), fun h => absurd h (by decide), fun _ h => absurd rfl h⟩
      trees := ⟨fun h => absurd h (by decide), by decide, fun h => absurd h (by decide)⟩
      run := ⟨fun h => absurd h (by decide), fun h => absurd h (by decide), fun h => absurd h (by decide),
        fun h => absurd h (by decide), fun h => absurd h (by decide), fun h => absurd h (by decide)⟩ },
    rfl, rfl, 0, rfl⟩
theorem witness_StepKeepsTheStatusSound : ∃ s t : State, s.StatusSound ∧ step s = .next t :=
  ⟨_, _, beforeDecode_inv.status, beforeDecode_steps.choose_spec⟩
theorem witness_StepKeepsTheMemoriesCanonical : ∃ s t : State, s.MemoriesCanonical ∧ step s = .next t :=
  ⟨_, _, beforeDecode_inv.memories, beforeDecode_steps.choose_spec⟩
theorem witness_StepKeepsTheFrequencyTableSound : ∃ s t : State, s.FrequencySound ∧ step s = .next t :=
  ⟨_, _, beforeDecode_inv.frequencies, beforeDecode_steps.choose_spec⟩
theorem witness_StepKeepsTheInvariant : ∃ s t : State, s.Inv ∧ step s = .next t :=
  ⟨_, _, beforeDecode_inv, beforeDecode_steps.choose_spec⟩
theorem witness_StepKeepsTheTableOfTheTree : ∃ s t : State, s.Inv ∧ s.phase ≠ .derive ∧ s.TableOfTree ∧ step s = .next t :=
  ⟨_, _, beforeDecode_inv, by decide, fun h => absurd h (by decide), beforeDecode_steps.choose_spec⟩
theorem witness_NoStepFromTheInvariantStops : ∃ s : State, s.Inv := ⟨_, beforeDecode_inv⟩

end Sys2Proof.Tests
end

section
/-! ## The moves of the engine

What an engine step can do, said once. It makes at most one transaction on a port (`PortMove`), and then changes the block
(`EngineMove`); both relations name the command `p` whose step it is. -/

namespace Sys2Proof.Machine

/-- `t` is `s` but for what stands outside the block: the command port, the streams, the host, the model's counter. -/
inductive SameBlock (s : State) : State → Prop where
  | mk (cmd : Option PortWord) (bsrc : Source Byte) (bsnk : Sink Byte) (bitin : Source Bool) (bitout : Sink Bool)
      (host : List HostMove) (seen : List HostSeen) (draws : Nat) :
    SameBlock s { s with
      cmd := cmd, bsrc := bsrc, bsnk := bsnk, bitin := bitin, bitout := bitout, host := host, seen := seen, draws := draws }

theorem SameBlock.refl (s : State) : SameBlock s s := ⟨_, _, _, _, _, _, _, _⟩

theorem SameBlock.trans {s t u : State} (h : SameBlock s t) (h' : SameBlock t u) : SameBlock s u := by
  obtain ⟨⟩ := h
  obtain ⟨⟩ := h'
  exact ⟨_, _, _, _, _, _, _, _⟩

/-- The transaction of an engine step of command `p`, on a port that `p` uses (R60). -/
inductive PortMove (s : State) : Phase → State → Prop where
  | none {p : Phase} : PortMove s p s
  | byteIn {p : Phase} (hp : p = .count ∨ p = .encode) : PortMove s p (byteIn s).2
  | byteOut (b : Byte) : PortMove s .decode (byteOut b s).2
  | bitIn {p : Phase} (hp : p = .deser ∨ p = .decode) : PortMove s p (bitIn s).2
  | bitsIn (n : Nat) : PortMove s .deser (bitsIn n s).2
  | bitOut {p : Phase} (hp : p = .ser ∨ p = .encode) (b : Bool) : PortMove s p (bitOut b s).2
  | bitsOut (v n : Nat) : PortMove s .ser (bitsOut v n s).2

theorem PortMove.sameBlock {s t : State} {p : Phase} (h : PortMove s p t) : SameBlock s t := by
  cases h with
  | none => exact .refl s
  | bitsIn n =>
    obtain ⟨src, d, h, -⟩ := bitsIn_snd n s
    rw [h]; exact ⟨_, _, _, _, _, _, _, _⟩
  | _ => exact ⟨_, _, _, _, _, _, _, _⟩

/-- What an engine step of command `p` does to the block, its transaction done. -/
inductive EngineMove (s : State) : Phase → State → Prop where
  /-- The port does not answer (R88), or no command runs. BUILD and DERIVE use no port: they neither wait nor raise. -/
  | stay {p : Phase} (hp : p ≠ .build ∧ p ≠ .derive := by decide) : EngineMove s p s
  | raise {p : Phase} (e : Err) (hp : p ≠ .build ∧ p ≠ .derive := by decide) : EngineMove s p (raise e s)
  | countStart (hl : s.loop = .start) :
    EngineMove s .count { s with ftV := false, ft := Memory.fill Config.nsym 0, loop := .top }
  | countByte {b : Byte} {f : Freq} (hl : s.loop ≠ .start) (hr : s.ft.read b.toNat = some f) :
    EngineMove s .count { s with ft := s.ft.write b.toNat (f + 1) }
  | countEnd (hl : s.loop ≠ .start) : EngineMove s .count (countEnd s)
  | buildStart {t : State} (hl : s.loop = .start) (h : buildStart s = .next t) : EngineMove s .build t
  | buildMerge {t : State} (hl : s.loop ≠ .start) (hm : 2 ≤ s.members.length) (h : buildMerge s = .next t) :
    EngineMove s .build t
  | buildEnd {r : Nat} (hl : s.loop ≠ .start) (hm : s.members = [r]) : EngineMove s .build (buildEnd r s)
  | deriveStart (hl : s.loop = .start) : EngineMove s .derive (deriveStart s)
  | deriveLeaf {i : NodeIdx} {rest : List Frame} {x : Sym} {f : NodeFreq} (hl : s.loop ≠ .start)
      (hs : s.stack = ⟨i, .enter⟩ :: rest) (hr : s.arena.read i.toNat = some (.leaf x f)) :
    EngineMove s .derive { recordCodeword x s with stack := rest }
  | deriveNode {i l r : NodeIdx} {rest : List Frame} {f : NodeFreq} (hl : s.loop ≠ .start)
      (hs : s.stack = ⟨i, .enter⟩ :: rest) (hr : s.arena.read i.toNat = some (.internal l r f)) :
    EngineMove s .derive { s.pushBranch false with stack := ⟨l, .enter⟩ :: ⟨i, .left⟩ :: rest }
  | deriveLeft {i l r : NodeIdx} {rest : List Frame} {f : NodeFreq} (hl : s.loop ≠ .start)
      (hs : s.stack = ⟨i, .left⟩ :: rest) (hr : s.arena.read i.toNat = some (.internal l r f)) :
    EngineMove s .derive { s.popBranch.pushBranch true with stack := ⟨r, .enter⟩ :: ⟨i, .right⟩ :: rest }
  | deriveRight {i : NodeIdx} {rest : List Frame} (hl : s.loop ≠ .start) (hs : s.stack = ⟨i, .right⟩ :: rest) :
    EngineMove s .derive { s.popBranch with stack := rest }
  | deriveEnd (hl : s.loop ≠ .start) (hs : s.stack = []) : EngineMove s .derive (deriveEnd s)
  | serStart (hl : s.loop = .start) : EngineMove s .ser { s with stack := [⟨s.root, .enter⟩], loop := .top }
  | serSymbol {i : NodeIdx} (hl : s.loop = .symbol i) :
    EngineMove s .ser { s with stack := s.stack.tail, loop := .top }
  | serLeaf {i : NodeIdx} {x : Sym} {f : NodeFreq} (hl : s.loop ≠ .start)
      (hr : s.arena.read i.toNat = some (.leaf x f)) : EngineMove s .ser { s with loop := .symbol i }
  | serNode {i l r : NodeIdx} {rest : List Frame} {f : NodeFreq} (hl : s.loop ≠ .start)
      (hs : s.stack = ⟨i, .enter⟩ :: rest) (hr : s.arena.read i.toNat = some (.internal l r f)) :
    EngineMove s .ser { s with stack := ⟨l, .enter⟩ :: ⟨i, .left⟩ :: rest }
  | serLeft {i l r : NodeIdx} {rest : List Frame} {f : NodeFreq} (hl : s.loop ≠ .start)
      (hs : s.stack = ⟨i, .left⟩ :: rest) (hr : s.arena.read i.toNat = some (.internal l r f)) :
    EngineMove s .ser { s with stack := ⟨r, .enter⟩ :: ⟨i, .right⟩ :: rest }
  | serRight {i : NodeIdx} {rest : List Frame} (hl : s.loop ≠ .start) (hs : s.stack = ⟨i, .right⟩ :: rest) :
    EngineMove s .ser { s with stack := rest }
  | serEnd (hl : s.loop ≠ .start) (hs : s.stack = []) : EngineMove s .ser s.finish
  | encodeTop : EngineMove s .encode { s with loop := .top }
  | encodeEmit {x : Sym} (j : Nat) (hx : x.toNat < Config.nsym ∨ ∃ k, s.loop = .emit x k) :
    EngineMove s .encode { s with loop := .emit x j }
  | encodeEnd : EngineMove s .encode s.finish
  | deserStart (hl : s.loop = .start) : EngineMove s .deser (deserStart s)
  | deserLeafTag (hl : s.loop ≠ .start) (hs : ∀ i, s.loop ≠ .symbol i) (ha : s.alloc.toNat < Config.nodeMax) :
    EngineMove s .deser { s with alloc := s.alloc + 1, loop := .symbol s.alloc }
  | deserInternalTag (hl : s.loop ≠ .start) (hs : ∀ i, s.loop ≠ .symbol i) (ha : s.alloc.toNat < Config.nodeMax) :
    EngineMove s .deser { s with alloc := s.alloc + 1, stack := ⟨s.alloc, .left⟩ :: s.stack, loop := .top }
  | deserSymbol {i : NodeIdx} {x : Sym} {t : State} (hl : s.loop = .symbol i) (h : deserSymbol i x s = .next t) :
    EngineMove s .deser t
  | decodeCheck {l r : NodeIdx} {f : NodeFreq} (hl : s.loop = .start)
      (hr : s.arena.read s.root.toNat = some (.internal l r f)) :
    EngineMove s .decode { s with eos := false, trunc := false, cur := s.root, loop := .top }
  | decodeCheckEof (hl : s.loop = .start) :
    EngineMove s .decode { s with eos := true, trunc := false, cur := s.root, loop := .stop }
  | decodeDegenerate (hl : s.loop = .start) (x : Sym) :
    EngineMove s .decode (Machine.raise (.degenerateTree x) { s with eos := false, trunc := false, cur := s.root })
  | decodeToNode {i a b l r : NodeIdx} {f g : NodeFreq} (hl : s.loop ≠ .start ∧ s.loop ≠ .stop ∧ s.loop ≠ .write)
      (hc : s.arena.read s.cur.toNat = some (.internal a b f)) (hi : i = a ∨ i = b)
      (hr : s.arena.read i.toNat = some (.internal l r g)) : EngineMove s .decode { s with cur := i }
  | decodeToEof (i : NodeIdx) (hl : s.loop ≠ .start ∧ s.loop ≠ .stop ∧ s.loop ≠ .write) :
    EngineMove s .decode { s with cur := i, eos := true, loop := .stop }
  | decodeToLeaf {i : NodeIdx} {x : Sym} {f : NodeFreq} (hl : s.loop ≠ .start ∧ s.loop ≠ .stop ∧ s.loop ≠ .write)
      (hr : s.arena.read i.toNat = some (.leaf x f)) : EngineMove s .decode { s with cur := i, loop := .write }
  | decodeTruncated (hl : s.loop ≠ .start ∧ s.loop ≠ .stop ∧ s.loop ≠ .write) :
    EngineMove s .decode { s with trunc := true, loop := .stop }
  | decodeEmitted (hl : s.loop = .write) : EngineMove s .decode { s with cur := s.root, loop := .top }
  | decodeEnd (hl : s.loop = .stop) : EngineMove s .decode s.finish

/-- One transaction and then one move. -/
def EngineStep (p : Phase) (s t : State) : Prop := ∃ u, PortMove s p u ∧ EngineMove u p t

theorem EngineStep.stay {p : Phase} (s : State) (hp : p ≠ .build ∧ p ≠ .derive := by decide) : EngineStep p s s :=
  ⟨s, .none, .stay hp⟩

/-- A step that makes no transaction. -/
theorem EngineMove.step {p : Phase} {s t : State} (h : EngineMove s p t) : EngineStep p s t := ⟨s, .none, h⟩

/-! ### Each command's engine step is one of its moves -/

theorem countTick_step {s t : State} (h : countTick s = .next t) : EngineStep .count s t := by
  unfold countTick at h
  split at h
  · next hl => cases h; exact (EngineMove.countStart hl).step
  · next hl =>
    have hu : (byteIn s).2.loop ≠ .start := hl
    generalize hb : byteIn s = r at h hu
    have hport : PortMove s .count r.2 := hb ▸ .byteIn (.inl rfl)
    obtain ⟨a, u⟩ := r
    cases a with
    | got b =>
      obtain ⟨f, hr, h⟩ := withCounter_eq_next.1 h
      split at h <;> cases h
      · exact ⟨u, hport, .raise _⟩
      · exact ⟨u, hport, .countByte hu hr⟩
    | ended => cases h; exact ⟨u, hport, .countEnd hu⟩
    | failed => cases h; exact ⟨u, hport, .raise _⟩
    | waiting => cases h; exact .stay _

theorem buildTick_step {s t : State} (h : buildTick s = .next t) : EngineStep .build s t := by
  unfold buildTick at h
  split at h
  · next hl => exact (EngineMove.buildStart hl h).step
  · next hl =>
    split at h
    · cases h
    · next r hm => cases h; exact (EngineMove.buildEnd hl hm).step
    · next hm => exact (EngineMove.buildMerge hl (by simp [hm]) h).step

theorem deriveTick_step {s t : State} (h : deriveTick s = .next t) : EngineStep .derive s t := by
  unfold deriveTick at h
  split at h
  · next hl => cases h; exact (EngineMove.deriveStart hl).step
  · next hl =>
    split at h
    · next hs => cases h; exact (EngineMove.deriveEnd hl hs).step
    · next hs =>
      obtain ⟨nd, hr, h⟩ := withRecord_eq_next.1 h
      cases nd with
      | leaf x f => cases h; exact (EngineMove.deriveLeaf hl hs hr).step
      | internal l r f => cases h; exact (EngineMove.deriveNode hl hs hr).step
    · next hs =>
      obtain ⟨l, r, f, hr, h⟩ := withChildren_eq_next.1 h
      cases h; exact (EngineMove.deriveLeft hl hs hr).step
    · next hs => cases h; exact (EngineMove.deriveRight hl hs).step

/-- What a bit sink's answer makes of a step of SER. -/
theorem serPut_step {s t : State} {r : PutAnswer × State} {k : State → State} (hport : PortMove s .ser r.2)
    (hk : EngineMove r.2 .ser (k r.2)) (h : serPut s r k = .next t) : EngineStep .ser s t := by
  obtain ⟨a, u⟩ := r
  cases a with
  | ok => cases h; exact ⟨u, hport, hk⟩
  | failed => cases h; exact ⟨u, hport, .raise _⟩
  | waiting => cases h; exact .stay _

theorem serTick_step {s t : State} (h : serTick s = .next t) : EngineStep .ser s t := by
  unfold serTick at h
  split at h
  · next hl => cases h; exact (EngineMove.serStart hl).step
  · next i hl =>
    obtain ⟨x, f, -, h⟩ := withSym_eq_next.1 h
    have hu : (bitsOut x.toNat Config.symW s).2.loop = .symbol i := hl
    exact serPut_step (.bitsOut _ _) (.serSymbol hu) h
  · next hl _ =>
    split at h
    · next hs => cases h; exact (EngineMove.serEnd hl hs).step
    · next hs =>
      obtain ⟨nd, hr, h⟩ := withRecord_eq_next.1 h
      cases nd with
      | leaf x f => exact serPut_step (.bitOut (.inl rfl) _) (.serLeaf (s := (bitOut false s).2) hl hr) h
      | internal l r f => exact serPut_step (.bitOut (.inl rfl) _) (.serNode (s := (bitOut true s).2) hl hs hr) h
    · next hs =>
      obtain ⟨l, r, f, hr, h⟩ := withChildren_eq_next.1 h
      cases h; exact (EngineMove.serLeft hl hs hr).step
    · next hs => cases h; exact (EngineMove.serRight hl hs).step

theorem encodeLookup_move {s t : State} {x : Sym} (hx : x.toNat < Config.nsym) (h : encodeLookup x s = .next t) :
    EngineMove s .encode t := by
  obtain ⟨e, -, h⟩ := withEntry_eq_next.1 h
  cases e with
  | none => cases h; exact .raise _
  | some c => cases h; exact .encodeEmit 0 (.inl hx)

theorem encodeBit_step {s t : State} {x : Sym} {j : Nat} (hl : s.loop = .emit x j) (h : encodeBit x j s = .next t) :
    EngineStep .encode s t := by
  obtain ⟨e, -, h⟩ := withEntry_eq_next.1 h
  cases e with
  | none => cases h; exact (EngineMove.raise _).step
  | some c =>
    dsimp only at h
    split at h
    · have hu : (bitOut (c.bits.getLsbD j) s).2.loop = .emit x j := hl
      generalize hb : bitOut (c.bits.getLsbD j) s = r at h hu
      have hport : PortMove s .encode r.2 := hb ▸ .bitOut (.inr rfl) _
      obtain ⟨a, u⟩ := r
      cases a with
      | ok => cases h; exact ⟨u, hport, .encodeEmit _ (.inr ⟨j, hu⟩)⟩
      | failed => cases h; exact ⟨u, hport, .raise _⟩
      | waiting => cases h; exact .stay _
    · cases h
      unfold encodeNext
      split
      · exact EngineMove.encodeEnd.step
      · exact EngineMove.encodeTop.step

theorem byteSym_lt (b : Byte) : (Byte.sym b).toNat < Config.nsym := by
  have hb : b.toNat < 256 := b.isLt
  rw [BitVec.toNat_setWidth]
  exact lt_of_le_of_lt (Nat.mod_le _ _) (hb.trans (by decide))

theorem encodeTick_step {s t : State} (h : encodeTick s = .next t) : EngineStep .encode s t := by
  unfold encodeTick at h
  split at h
  · cases h; exact EngineMove.encodeTop.step
  · next hl => exact encodeBit_step hl h
  · generalize hb : byteIn s = r at h
    have hport : PortMove s .encode r.2 := hb ▸ .byteIn (.inr rfl)
    obtain ⟨a, u⟩ := r
    cases a with
    | got b => exact ⟨u, hport, encodeLookup_move (byteSym_lt b) h⟩
    | ended => exact ⟨u, hport, encodeLookup_move (by decide) h⟩
    | failed => cases h; exact ⟨u, hport, .raise _⟩
    | waiting => cases h; exact .stay _

/-- A record is allocated, or the arena overflows (R177). -/
theorem deserAlloc_cases {s t : State} {k : NodeIdx → State → Result} (h : deserAlloc s k = .next t) :
    (s.alloc.toNat < Config.nodeMax ∧ k s.alloc { s with alloc := s.alloc + 1 } = .next t) ∨
      t = raise .arenaOverflow s := by
  unfold deserAlloc at h
  split at h
  · next ha => exact .inl ⟨ha, h⟩
  · cases h; exact .inr rfl

theorem deserLeafTag_move {s t : State} (hl : s.loop ≠ .start) (hs : ∀ i, s.loop ≠ .symbol i)
    (h : deserLeafTag s = .next t) : EngineMove s .deser t := by
  obtain ⟨ha, h⟩ | rfl := deserAlloc_cases h
  · cases h; exact .deserLeafTag hl hs ha
  · exact .raise _

theorem deserInternalTag_move {s t : State} (hl : s.loop ≠ .start) (hs : ∀ i, s.loop ≠ .symbol i)
    (h : deserInternalTag s = .next t) : EngineMove s .deser t := by
  obtain ⟨ha, h⟩ | rfl := deserAlloc_cases h
  · cases h; exact .deserInternalTag hl hs ha
  · exact .raise _

theorem deserTick_step {s t : State} (h : deserTick s = .next t) : EngineStep .deser s t := by
  unfold deserTick at h
  split at h
  · next hl => cases h; exact (EngineMove.deserStart hl).step
  · next i hl =>
    have hu : (bitsIn Config.symW s).2.loop = .symbol i := by
      obtain ⟨src, d, hb, -⟩ := bitsIn_snd Config.symW s
      rw [hb]; exact hl
    generalize hb : bitsIn Config.symW s = r at h hu
    have hport : PortMove s .deser r.2 := hb ▸ .bitsIn _
    obtain ⟨a, u⟩ := r
    cases a with
    | got v => exact ⟨u, hport, .deserSymbol hu h⟩
    | ended => cases h; exact ⟨u, hport, .raise _⟩
    | failed => cases h; exact ⟨u, hport, .raise _⟩
    | waiting => cases h; exact .stay _
  · next hl hs =>
    have hu : (bitIn s).2.loop ≠ .start := hl
    have hv : ∀ i, (bitIn s).2.loop ≠ .symbol i := hs
    generalize hb : bitIn s = r at h hu hv
    have hport : PortMove s .deser r.2 := hb ▸ .bitIn (.inl rfl)
    obtain ⟨a, u⟩ := r
    cases a with
    | got b =>
      cases b with
      | false => exact ⟨u, hport, deserLeafTag_move hu hv h⟩
      | true => exact ⟨u, hport, deserInternalTag_move hu hv h⟩
    | ended => cases h; exact ⟨u, hport, .raise _⟩
    | failed => cases h; exact ⟨u, hport, .raise _⟩
    | waiting => cases h; exact .stay _

theorem decodeCheck_move {s t : State} (hl : s.loop = .start) (h : decodeCheck s = .next t) : EngineMove s .decode t := by
  obtain ⟨nd, hr, h⟩ := withRecord_eq_next.1 h
  cases nd with
  | internal l r f => cases h; exact .decodeCheck hl hr
  | leaf x f =>
    dsimp only at h
    split at h <;> cases h
    · exact .decodeCheckEof hl
    · exact .decodeDegenerate hl x

theorem decodeArrive_move {s t : State} {i a b : NodeIdx} {f : NodeFreq}
    (hl : s.loop ≠ .start ∧ s.loop ≠ .stop ∧ s.loop ≠ .write)
    (hc : s.arena.read s.cur.toNat = some (.internal a b f)) (hi : i = a ∨ i = b) (h : decodeArrive i s = .next t) :
    EngineMove s .decode t := by
  obtain ⟨nd, hr, h⟩ := withRecord_eq_next.1 h
  cases nd with
  | internal l r f => cases h; exact .decodeToNode hl hc hi hr
  | leaf x f =>
    dsimp only at h
    split at h <;> cases h
    · exact .decodeToEof i hl
    · exact .decodeToLeaf hl hr

theorem decodeWalk_step {s t : State} (hl : s.loop ≠ .start ∧ s.loop ≠ .stop ∧ s.loop ≠ .write)
    (h : decodeWalk s = .next t) : EngineStep .decode s t := by
  unfold decodeWalk at h
  have hu : (bitIn s).2.loop ≠ .start ∧ (bitIn s).2.loop ≠ .stop ∧ (bitIn s).2.loop ≠ .write := hl
  generalize hb : bitIn s = r at h hu
  have hport : PortMove s .decode r.2 := hb ▸ .bitIn (.inr rfl)
  obtain ⟨a, u⟩ := r
  cases a with
  | got b =>
    obtain ⟨l, r, f, hc, h⟩ := withChildren_eq_next.1 h
    exact ⟨u, hport, decodeArrive_move hu hc (by cases b <;> simp) h⟩
  | ended => cases h; exact ⟨u, hport, .decodeTruncated hu⟩
  | failed => cases h; exact ⟨u, hport, .raise _⟩
  | waiting => cases h; exact .stay _

theorem decodeEmit_step {s t : State} (hl : s.loop = .write) (h : decodeEmit s = .next t) : EngineStep .decode s t := by
  obtain ⟨x, f, -, h⟩ := withSym_eq_next.1 h
  have hu : (byteOut (x.setWidth Config.byteW) s).2.loop = .write := hl
  generalize hb : byteOut (x.setWidth Config.byteW) s = r at h hu
  have hport : PortMove s .decode r.2 := hb ▸ .byteOut _
  obtain ⟨a, u⟩ := r
  cases a with
  | ok => cases h; exact ⟨u, hport, .decodeEmitted hu⟩
  | failed => cases h; exact ⟨u, hport, .raise _⟩
  | waiting => cases h; exact .stay _

theorem decodeTick_step {s t : State} (h : decodeTick s = .next t) : EngineStep .decode s t := by
  unfold decodeTick at h
  split at h
  · next hl => exact (decodeCheck_move hl h).step
  · next hl => exact decodeEmit_step hl h
  · next hl => cases h; exact (EngineMove.decodeEnd hl).step
  · next h1 h2 h3 => exact decodeWalk_step ⟨h1, h3, h2⟩ h

/-- The engine step of command `p`. -/
def tickOf : Phase → State → Result
  | .idle => .next
  | .count => countTick
  | .build => buildTick
  | .derive => deriveTick
  | .ser => serTick
  | .encode => encodeTick
  | .deser => deserTick
  | .decode => decodeTick

theorem engineTick_eq_tickOf (s : State) : engineTick s = tickOf s.phase s := by
  unfold engineTick; cases s.phase <;> rfl

/-- Every engine step is a transaction and then a move of its command. -/
theorem tickOf_step {p : Phase} {s t : State} (h : tickOf p s = .next t) : EngineStep p s t := by
  cases p with
  | idle => cases h; exact .stay _
  | count => exact countTick_step h
  | build => exact buildTick_step h
  | derive => exact deriveTick_step h
  | ser => exact serTick_step h
  | encode => exact encodeTick_step h
  | deser => exact deserTick_step h
  | decode => exact decodeTick_step h

/-! ### The moves that are runs of their own -/

/-- A new node is written at the next free record, which becomes a member (R150). -/
theorem addNode_eq_next {nd : Node} {s t : State} :
    addNode nd s = .next t ↔ s.alloc.toNat < Config.nodeMax ∧ t = { s with
      arena := s.arena.write s.alloc.toNat nd, pq := s.pq.write s.alloc.toNat true, alloc := s.alloc + 1 } := by
  simp only [addNode, andThen_eq_next, writeRecord_eq_next]
  constructor
  · rintro ⟨u, ⟨hk, rfl⟩, h⟩
    cases h; exact ⟨hk, rfl⟩
  · rintro ⟨hk, rfl⟩
    exact ⟨_, ⟨hk, rfl⟩, rfl⟩

/-- All that BUILD changes before its end: the arena, the collection and the count, and both memories stay canonical. -/
inductive BuildWrites (s : State) : State → Prop where
  | mk (arena : Memory Node) (pq : Memory Bool) (alloc : NodeCnt)
      (ha : Memory.wf Config.nodeMax s.arena → Memory.wf Config.nodeMax arena)
      (hp : Memory.wf Config.nodeMax s.pq → Memory.wf Config.nodeMax pq) :
    BuildWrites s { s with arena := arena, pq := pq, alloc := alloc }

theorem BuildWrites.trans {s t u : State} (h : BuildWrites s t) (h' : BuildWrites t u) : BuildWrites s u := by
  obtain ⟨a, p, n, ha, hp⟩ := h
  obtain ⟨a', p', n', ha', hp'⟩ := h'
  exact ⟨a', p', n', ha' ∘ ha, hp' ∘ hp⟩

theorem addNode_writes {nd : Node} {s t : State} (h : addNode nd s = .next t) : BuildWrites s t := by
  obtain ⟨hk, rfl⟩ := addNode_eq_next.1 h
  exact ⟨_, _, _, fun hw => Memory.wf_write _ hw hk, fun hw => Memory.wf_write _ hw hk⟩

theorem addLeaves_writes {t : State} : ∀ {syms : List Nat} {s : State}, addLeaves syms s = .next t → BuildWrites s t := by
  intro syms
  induction syms with
  | nil => intro s h; cases h; exact ⟨_, _, _, id, id⟩
  | cons x syms ih =>
    intro s h
    obtain ⟨f, -, h⟩ := withCounter_eq_next.1 h
    split at h
    · exact ih h
    · obtain ⟨u, hu, h⟩ := andThen_eq_next.1 h
      exact (addNode_writes hu).trans (ih h)

theorem buildStart_writes {s t : State} (h : buildStart s = .next t) :
    BuildWrites { s with
      treeV := false, cwtV := false, pq := Memory.fill Config.nodeMax false, alloc := 0, loop := .top } t :=
  addLeaves_writes h

/-- The node extracted leaves the collection (R153). -/
theorem extractMin_eq_next {s t : State} {k : Nat → NodeFreq → State → Result} :
    extractMin s k = .next t ↔
      ∃ f i, minKey s.arena s.members = .ok (f, i) ∧ k i f { s with pq := s.pq.write i false } = .next t := by
  unfold extractMin
  split
  · next f i hm => simp [hm]
  · next e hm => simp [hm]

theorem nodeKey_index {m : Memory Node} {i j : Nat} {f : NodeFreq} (h : nodeKey m i = .ok (f, j)) : j = i := by
  unfold nodeKey at h
  split at h <;> cases h
  rfl

/-- The least key is that of a listed node. -/
theorem minKey_mem {m : Memory Node} {l : List Nat} {f : NodeFreq} {i : Nat} : minKey m l = .ok (f, i) → i ∈ l := by
  induction l generalizing f i with
  | nil => intro h; cases h
  | cons a as ih =>
    intro h
    cases as with
    | nil => simp [nodeKey_index h]
    | cons b bs =>
      unfold minKey at h
      split at h
      · next x y hx hy =>
        obtain ⟨x1, x2⟩ := x
        obtain ⟨y1, y2⟩ := y
        unfold lesserKey at h
        split at h <;> cases h
        · simp [nodeKey_index hx]
        · exact List.mem_cons_of_mem _ (ih hy)
      · cases h
      · cases h

theorem extractMin_writes {s t : State} {k : Nat → NodeFreq → State → Result}
    (hk : ∀ i f u, k i f u = .next t → BuildWrites u t) (h : extractMin s k = .next t) : BuildWrites s t := by
  obtain ⟨f, i, hm, h⟩ := extractMin_eq_next.1 h
  refine BuildWrites.trans (t := { s with pq := s.pq.write i false }) ⟨_, _, _, id, fun hw => ?_⟩ (hk i f _ h)
  exact Memory.wf_write _ hw (State.members_lt hw (minKey_mem hm))

theorem buildMerge_writes {s t : State} (h : buildMerge s = .next t) : BuildWrites s t :=
  extractMin_writes (fun _ _ _ h => extractMin_writes (fun _ _ _ h => addNode_writes h) h) h

/-- All that DESER changes where a subtree is complete: the arena, which stays canonical, and then it goes on at a node
boundary or ends. -/
inductive DeserWrites (s : State) : State → Prop where
  | goOn (arena : Memory Node) (stack : List Frame)
      (ha : Memory.wf Config.nodeMax s.arena → Memory.wf Config.nodeMax arena) :
    DeserWrites s { s with arena := arena, stack := stack, loop := .top }
  | finish (arena : Memory Node) (r : NodeIdx)
      (ha : Memory.wf Config.nodeMax s.arena → Memory.wf Config.nodeMax arena) :
    DeserWrites s (deserEnd r { s with arena := arena, stack := [] })

theorem DeserWrites.write {s t : State} {k : Nat} {nd : Node} (hk : k < Config.nodeMax)
    (h : DeserWrites { s with arena := s.arena.write k nd } t) : DeserWrites s t := by
  have hw : Memory.wf Config.nodeMax s.arena → Memory.wf Config.nodeMax (s.arena.write k nd) :=
    fun hw => Memory.wf_write _ hw hk
  cases h with
  | goOn arena stack ha => exact .goOn arena stack (ha ∘ hw)
  | finish arena r ha => exact .finish arena r (ha ∘ hw)

theorem deserReturn_writes {t : State} : ∀ {st : List Frame} {s : State} {c : NodeIdx},
    deserReturn s c st = .next t → DeserWrites s t := by
  intro st
  induction st with
  | nil => intro s c h; cases h; exact .finish _ c id
  | cons f rest ih =>
    intro s c h
    obtain ⟨i, v⟩ := f
    cases v with
    | enter => cases h; exact .goOn _ _ id
    | left => cases h; exact .goOn _ _ id
    | right =>
      obtain ⟨u, hu, h⟩ := andThen_eq_next.1 h
      obtain ⟨hk, rfl⟩ := writeRecord_eq_next.1 hu
      exact (ih h).write hk

theorem deserSymbol_writes {s t : State} {i : NodeIdx} {x : Sym} (h : deserSymbol i x s = .next t) : DeserWrites s t := by
  obtain ⟨u, hu, h⟩ := andThen_eq_next.1 h
  obtain ⟨hk, rfl⟩ := writeRecord_eq_next.1 hu
  exact (deserReturn_writes h).write hk

/-- At a leaf DERIVE writes the table alone (R190). -/
theorem recordCodeword_eq (x : Sym) (s : State) : recordCodeword x s = { s with
    cwt := if x.toNat < Config.nsym then s.cwt.write x.toNat (some ⟨s.plen, s.path⟩) else s.cwt } := by
  unfold recordCodeword
  split <;> rfl

/-- A move leaves its command running or ends it (R21, R297). -/
theorem EngineMove.phase {s t : State} {p : Phase} (h : EngineMove s p t) : t.phase = s.phase ∨ t.phase = .idle := by
  cases h with
  | buildStart _ h => obtain ⟨⟩ := buildStart_writes h; exact .inl rfl
  | buildMerge _ _ h => obtain ⟨⟩ := buildMerge_writes h; exact .inl rfl
  | deserSymbol _ h =>
    cases deserSymbol_writes h with
    | goOn => exact .inl rfl
    | finish => exact .inr rfl
  | deriveLeaf => rw [recordCodeword_eq]; exact .inl rfl
  | raise | countEnd | buildEnd | deriveEnd | serEnd | encodeEnd | decodeDegenerate | decodeEnd => exact .inr rfl
  | _ => exact .inl rfl

theorem PortMove.phase {s t : State} {p : Phase} (h : PortMove s p t) : t.phase = s.phase := by
  obtain ⟨⟩ := h.sameBlock; rfl

end Sys2Proof.Machine
end

section
/-! ## Runs and steps, taken apart once

A step of the machine is made of acceptances, engine steps, moves of the host and resets; what all of these keep, every step
keeps (`KeptByMoves.step`). -/

namespace Sys2Proof.Machine

/-- How many engine steps command `p` is given to end. -/
def fuelOf : Phase → State → Nat
  | .idle, _ => 0
  | .count, s => countFuel s
  | .build, _ => buildFuel
  | .derive, _ => deriveFuel
  | .ser, _ => serFuel
  | .encode, s => encodeFuel s
  | .deser, _ => deserFuel
  | .decode, s => decodeFuel s

theorem engineTick_phase {s t : State} (h : engineTick s = .next t) : t.phase = s.phase ∨ t.phase = .idle := by
  rw [engineTick_eq_tickOf] at h
  obtain ⟨u, hu, hm⟩ := tickOf_step h
  exact hu.phase ▸ hm.phase

/-- While command `p` runs, its own engine steps are those of the engine. -/
theorem drive_tickOf {p : Phase} : ∀ (n : Nat) {s : State}, s.phase = p ∨ s.phase = .idle →
    drive (tickOf p) n s = drive engineTick n s := by
  intro n
  induction n with
  | zero => intros; rfl
  | succ n ih =>
    intro s hs
    by_cases hi : s.phase = .idle
    · rw [drive_idle _ _ hi, drive_idle _ _ hi]
    · have hp : s.phase = p := hs.resolve_right hi
      rw [drive_succ _ _ hi, drive_succ _ _ hi, engineTick_eq_tickOf, hp]
      cases ht : tickOf p s with
      | next t =>
        have := engineTick_phase (s := s) (t := t) (by rw [engineTick_eq_tickOf, hp, ht])
        exact ih (hp ▸ this)
      | fault => rfl
      | refused => rfl

/-- Carrying a command on is running the engine. -/
theorem resume_eq_drive (s : State) : resume s = drive engineTick (fuelOf s.phase s) s := by
  rw [← drive_tickOf _ (.inl rfl)]
  unfold resume
  cases s.phase <;> rfl


/-! ### Acceptance -/

/-- What the acceptance of a command word can do (R102, R230, R231, R247, R291). -/
inductive Accepted (s : State) : State → Prop where
  | discarded : Accepted s s
  | refused (e : Err) : Accepted s (raise e s)
  | cleared : Accepted s s.clearRegisters
  | started (p : Phase) (he : s.err = 0#8) (hr : s.ready p = true) : Accepted s { s with phase := p, loop := .start }

theorem accept_accepted (p : Phase) (s : State) : ∃ t, accept p s = .next t ∧ Accepted s t := by
  obtain ⟨-, h⟩ | ⟨-, -, h⟩ | ⟨he, hr, h⟩ := accept_cases p s
  · exact ⟨_, h, .discarded⟩
  · exact ⟨_, h, .refused _⟩
  · exact ⟨_, h, .started p he hr⟩

theorem acceptIllegal_accepted (w : Byte) (s : State) : ∃ t, acceptIllegal w s = .next t ∧ Accepted s t := by
  obtain ⟨-, h⟩ | ⟨-, h⟩ := acceptIllegal_cases w s
  · exact ⟨_, h, .discarded⟩
  · exact ⟨_, h, .refused _⟩

/-- No command word is a data record (R101). -/
theorem decodeCommand_not_record (w : Byte) :
    decodeCommand w ≠ .treeInternal ∧ ∀ x, decodeCommand w ≠ .treeLeaf x := by
  unfold decodeCommand
  dsimp only
  split
  · exact ⟨nofun, fun _ => nofun⟩
  · split <;> exact ⟨nofun, fun _ => nofun⟩

/-- The acceptance of a command word always answers a next state. -/
theorem acceptOnly_accepted (w : Byte) (s : State) : ∃ t, acceptOnly (decodeCommand w) s = .next t ∧ Accepted s t := by
  obtain ⟨hi, hl⟩ := decodeCommand_not_record w
  cases h : decodeCommand w with
  | nop => exact ⟨_, rfl, .discarded⟩
  | rst => exact ⟨_, rfl, .cleared⟩
  | treeLeaf x => exact absurd h (hl x)
  | treeInternal => exact absurd h hi
  | count | build | derive | ser | encode | deser | decode => exact accept_accepted _ s
  | _ => exact acceptIllegal_accepted _ s

theorem resume_idle {s : State} (h : s.phase = .idle) : resume s = .next s := by
  rw [resume_eq_drive, drive_idle _ _ h]

/-- A command's own run, after its acceptance on the idle block, is the run of the engine. -/
theorem accept_run {p : Phase} {s : State} (h : s.phase = .idle) :
    (andThen (accept p s) fun t => drive (tickOf p) (fuelOf p t) t) = andThen (accept p s) resume := by
  obtain ⟨-, ha⟩ | ⟨-, -, ha⟩ | ⟨-, -, ha⟩ := accept_cases p s
  · rw [ha, andThen_next, andThen_next, drive_idle _ _ h, resume_idle h]
  · rw [ha, andThen_next, andThen_next, drive_idle _ _ rfl, resume_idle rfl]
  · rw [ha, andThen_next, andThen_next]
    generalize hu : ({ s with phase := p, loop := .start } : State) = u
    have hup : u.phase = p := hu ▸ rfl
    rw [drive_tickOf _ (.inl hup), resume_eq_drive, hup]

theorem acceptIllegal_run {w : Byte} {s : State} (h : s.phase = .idle) :
    acceptIllegal w s = andThen (acceptIllegal w s) resume := by
  obtain ⟨-, ha⟩ | ⟨-, ha⟩ := acceptIllegal_cases w s
  · rw [ha, andThen_next, resume_idle h]
  · rw [ha, andThen_next, resume_idle rfl]

/-- On the idle block the execution of an instruction is its acceptance and then the run of what it started. -/
theorem exec_eq_acceptOnly_resume (i : Instr) {s : State} (h : s.phase = .idle) :
    exec i s = andThen (acceptOnly i s) resume := by
  have hn : s.atNode = false := by simp [State.atNode, h]
  cases i with
  | nop => exact (resume_idle h).symm
  | rst => exact (resume_idle (s := s.clearRegisters) rfl).symm
  | treeLeaf x => simp [exec, acceptOnly, execTreeLeaf, hn]
  | treeInternal => simp [exec, acceptOnly, execTreeInternal, hn]
  | count | build | derive | ser | encode | deser | decode => exact accept_run h
  | _ => exact acceptIllegal_run h

/-- A word is accepted, and then its run goes with the host's moves in it. -/
theorem issue_eq (p : PortWord) {s : State} (h : s.phase = .idle) :
    issue p s = andThen (acceptOnly (decodeCommand p.word) s) (runDuring p.during) := by
  obtain ⟨w, ms⟩ := p
  cases ms with
  | nil => exact exec_eq_acceptOnly_resume _ h
  | cons m ms => rfl

/-! ### The host -/

theorem hostReadCsr_sameBlock (n : BitVec 3) (s : State) : SameBlock s (hostReadCsr n s) := by
  unfold hostReadCsr
  split <;> exact ⟨_, _, _, _, _, _, _, _⟩

theorem hostWriteBits_sameBlock {v n : Nat} {s t : State} (h : hostWriteBits v n s = some t) : SameBlock s t := by
  unfold hostWriteBits at h
  generalize hb : bitsOut v n s = r at h
  have hs : SameBlock s r.2 := hb ▸ ⟨_, _, _, _, _, _, _, _⟩
  obtain ⟨a, u⟩ := r
  cases a <;> cases h <;> exact hs.trans ⟨_, _, _, _, _, _, _, _⟩

theorem hostReadBits_sameBlock {n : Nat} {s t : State} (h : hostReadBits n s = some t) : SameBlock s t := by
  unfold hostReadBits at h
  have hs : SameBlock s (bitsIn n s).2 := (PortMove.bitsIn n).sameBlock
  generalize bitsIn n s = r at h hs
  obtain ⟨a, u⟩ := r
  cases a <;> cases h <;> exact hs.trans ⟨_, _, _, _, _, _, _, _⟩

theorem whileIdle_eq_some {s t : State} {o : Option State} (h : whileIdle s o = some t) : o = some t := by
  unfold whileIdle at h
  split at h
  · cases h
  · exact h

/-- What a move of the host does to the block: nothing, or a hardware reset (R281, R295). -/
theorem hostMove_cases {s t : State} {m : HostMove} (h : hostMove s m = some t) :
    SameBlock s t ∨ t = hardwareReset s := by
  cases m with
  | present p =>
    simp only [hostMove] at h
    split at h <;> cases h
    exact .inl ⟨_, _, _, _, _, _, _, _⟩
  | hardwareReset => cases h; exact .inr rfl
  | readCsr n => cases h; exact .inl (hostReadCsr_sameBlock n s)
  | writeBits v n => exact .inl (hostWriteBits_sameBlock (whileIdle_eq_some h))
  | readBits n => exact .inl (hostReadBits_sameBlock (whileIdle_eq_some h))
  | _ =>
    simp only [hostMove] at h
    cases whileIdle_eq_some h
    exact .inl ⟨_, _, _, _, _, _, _, _⟩

theorem hostAct_cases {s t : State} (h : hostAct s = some t) :
    ∃ u, SameBlock s u ∧ (SameBlock u t ∨ t = hardwareReset u) := by
  unfold hostAct at h
  split at h
  · cases h
  · next m ms _ => exact ⟨{ s with host := ms }, ⟨_, _, _, _, _, _, _, _⟩, hostMove_cases h⟩

/-! ### Steps -/

/-- What a step can be (R253, R290, R294). -/
theorem step_cases {s t : State} (h : step s = .next t) :
    hostAct s = some t ∨ t = s ∨ resume s = .next t ∨
      ∃ p : PortWord, s.phase = .idle ∧
        andThen (acceptOnly (decodeCommand p.word) { s with cmd := none }) (runDuring p.during) = .next t := by
  unfold step at h
  split at h
  · split at h
    · next ha => cases h; exact .inl ha
    · exact .inr (.inr (.inl h))
  · next hb =>
    have hi : s.phase = .idle := by simpa [State.busy] using hb
    split at h
    · next p _ => exact .inr (.inr (.inr ⟨p, hi, issue_eq p (s := { s with cmd := none }) hi ▸ h⟩))
    · cases ha : hostAct s with
      | none => rw [ha] at h; cases h; exact .inr (.inl rfl)
      | some u => rw [ha] at h; cases h; exact .inl rfl

/-- What every part of a step keeps. -/
structure KeptByMoves (P : State → Prop) : Prop where
  sameBlock : ∀ {s t}, P s → SameBlock s t → P t
  hardwareReset : ∀ {s}, P s → P (hardwareReset s)
  clearRegisters : ∀ {s}, P s → P s.clearRegisters
  start : ∀ {s p}, P s → s.phase = .idle → s.err = 0#8 → s.ready p = true → P { s with phase := p, loop := .start }
  move : ∀ {s p t}, P s → p = s.phase → EngineMove s p t → P t

section
variable {P : State → Prop} (hP : KeptByMoves P)
include hP

theorem KeptByMoves.accepted {s t : State} (hs : P s) (hi : s.phase = .idle) (h : Accepted s t) : P t := by
  cases h with
  | discarded => exact hs
  | refused e => exact hP.move hs hi.symm (.raise e)
  | cleared => exact hP.clearRegisters hs
  | started p he hr => exact hP.start hs hi he hr

theorem KeptByMoves.engineTick {s t : State} (hs : P s) (h : engineTick s = .next t) : P t := by
  rw [engineTick_eq_tickOf] at h
  obtain ⟨u, hu, hm⟩ := tickOf_step h
  exact hP.move (hP.sameBlock hs hu.sameBlock) hu.phase.symm hm

theorem KeptByMoves.drive {n : Nat} {s t : State} (hs : P s) (h : drive Machine.engineTick n s = .next t) : P t :=
  drive_keeps (fun _ _ hs _ h => hP.engineTick hs h) n s t hs h

theorem KeptByMoves.resume {s t : State} (hs : P s) (h : resume s = .next t) : P t :=
  hP.drive hs (resume_eq_drive s ▸ h)

theorem KeptByMoves.act {s : State} (hs : P s) (m : BusyMove) : P (m.act s) := by
  cases m with
  | readCsr k n => exact hP.sameBlock hs (hostReadCsr_sameBlock n s)
  | reset k => exact hP.hardwareReset hs

theorem KeptByMoves.hostAct {s t : State} (hs : P s) (h : hostAct s = some t) : P t := by
  obtain ⟨u, hu, h | rfl⟩ := hostAct_cases h
  · exact hP.sameBlock (hP.sameBlock hs hu) h
  · exact hP.hardwareReset (hP.sameBlock hs hu)

theorem KeptByMoves.runDuring {t : State} : ∀ {ms : List BusyMove} {s : State}, P s → runDuring ms s = .next t → P t := by
  intro ms
  induction ms with
  | nil => intro s hs h; exact hP.resume hs h
  | cons m ms ih =>
    intro s hs h
    obtain ⟨u, hu, h⟩ := andThen_eq_next.1 h
    exact ih (hP.act (hP.drive hs hu) m) h

/-- After the acceptance of the word on the port: what is kept holds. -/
theorem KeptByMoves.acceptOnly {s t : State} {w : Byte} (hs : P s) (hi : s.phase = .idle)
    (h : acceptOnly (decodeCommand w) { s with cmd := none } = .next t) : P t := by
  obtain ⟨u, hu, ha⟩ := acceptOnly_accepted w { s with cmd := none }
  cases hu.symm.trans h
  exact hP.accepted (s := { s with cmd := none }) (hP.sameBlock hs ⟨_, _, _, _, _, _, _, _⟩) hi ha

/-- What every part of a step keeps, every step keeps. -/
theorem KeptByMoves.step {s t : State} (hs : P s) (h : step s = .next t) : P t := by
  obtain h | rfl | h | ⟨p, hi, h⟩ := step_cases h
  · exact hP.hostAct hs h
  · exact hs
  · exact hP.resume hs h
  · obtain ⟨u, hu, h⟩ := andThen_eq_next.1 h
    exact hP.runDuring (hP.acceptOnly hs hi hu) h

/-! ### Steps that answer a next state -/

variable (hT : ∀ s, P s → ∃ t, Machine.engineTick s = .next t)
include hT

theorem KeptByMoves.drive_total {n : Nat} : ∀ {s : State}, P s → ∃ t, Machine.drive Machine.engineTick n s = .next t := by
  induction n with
  | zero => intro s _; exact ⟨s, rfl⟩
  | succ n ih =>
    intro s hs
    by_cases hi : s.phase = .idle
    · exact ⟨s, drive_idle _ _ hi⟩
    · obtain ⟨u, hu⟩ := hT s hs
      rw [drive_succ _ _ hi, hu]
      exact ih (hP.engineTick hs hu)

theorem KeptByMoves.resume_total {s : State} (hs : P s) : ∃ t, Machine.resume s = .next t :=
  resume_eq_drive s ▸ hP.drive_total hT hs

theorem KeptByMoves.runDuring_total : ∀ {ms : List BusyMove} {s : State}, P s → ∃ t, Machine.runDuring ms s = .next t := by
  intro ms
  induction ms with
  | nil => intro s hs; exact hP.resume_total hT hs
  | cons m ms ih =>
    intro s hs
    obtain ⟨u, hu⟩ := hP.drive_total hT (n := m.after) hs
    obtain ⟨t, ht⟩ := ih (hP.act (hP.drive hs hu) m)
    exact ⟨t, andThen_eq_next.2 ⟨u, hu, ht⟩⟩

/-- Where no engine step stops the machine, no step does. -/
theorem KeptByMoves.step_total {s : State} (hs : P s) : ∃ t, Machine.step s = .next t := by
  unfold Machine.step
  split
  · split
    · exact ⟨_, rfl⟩
    · exact hP.resume_total hT hs
  · next hb =>
    have hi : s.phase = .idle := by simpa [State.busy] using hb
    split
    · next p _ =>
      rw [issue_eq p (s := { s with cmd := none }) hi]
      obtain ⟨u, hu, -⟩ := acceptOnly_accepted p.word { s with cmd := none }
      obtain ⟨t, ht⟩ := hP.runDuring_total hT (hP.acceptOnly hs hi hu)
      exact ⟨t, andThen_eq_next.2 ⟨u, hu, ht⟩⟩
    · exact ⟨_, rfl⟩

end

end Sys2Proof.Machine
end

section
/-! ## The flags, the memories and the frequency table -/

namespace Sys2Proof.Machine

/-! ### PHASE, the flags and ERR agree -/

/-- An idle block's flags agree already if these four do. -/
theorem State.StatusSound.of_idle {s : State} (hi : s.phase = .idle) (hr : s.err.toNat ≤ 8)
    (hn : s.err = 0#8 → s.errinfo = 0#16) (ht : s.cwtV = true → s.treeV = true) (he : ¬(s.eos = true ∧ s.trunc = true)) :
    s.StatusSound where
  errRange := hr
  errinfoOfNoFault := hn
  busyNoFault h := absurd hi h
  tableOfTree := ht
  oneEnd := he
  decodeOpen h := by simp [hi] at h
  decodeStopped h := by simp [hi] at h
  buildReady h := by simp [hi] at h
  treeReady h := by simp [hi] at h
  encodeReady h := by simp [hi] at h

/-- The end of a command keeps the flags in agreement. -/
theorem State.StatusSound.finish {s : State} (hr : s.err.toNat ≤ 8) (hn : s.err = 0#8 → s.errinfo = 0#16)
    (ht : s.cwtV = true → s.treeV = true) (he : ¬(s.eos = true ∧ s.trunc = true)) : s.finish.StatusSound :=
  .of_idle rfl hr hn ht he

/-- A fault is recorded with its information (R246). -/
theorem State.StatusSound.raise {s : State} (e : Err) (hr : s.err.toNat ≤ 8) (hn : s.err = 0#8 → s.errinfo = 0#16)
    (ht : s.cwtV = true → s.treeV = true) (he : ¬(s.eos = true ∧ s.trunc = true)) : (raise e s).StatusSound := by
  refine .of_idle rfl ?_ ?_ ht he
  · show (if s.err = 0#8 then e.code else s.err).toNat ≤ 8
    split
    · exact e.code_range.2
    · exact hr
  · show (if s.err = 0#8 then e.code else s.err) = 0#8 → (if s.err = 0#8 then e.info else s.errinfo) = 0#16
    split
    · exact fun h => absurd h e.code_ne_zero
    · exact fun h => hn h

/-- While a command other than DECODE runs, the agreement rests on the valid flags alone. -/
theorem State.StatusSound.running {s t : State} (hs : s.StatusSound) (hd : s.phase ≠ .decode)
    (h : (t.phase, t.eos, t.trunc, t.err, t.errinfo) = (s.phase, s.eos, s.trunc, s.err, s.errinfo))
    (hb : s.phase = .build → t.ftV = true) (hc : t.cwtV = true → t.treeV = true)
    (ht : s.phase = .derive ∨ s.phase = .ser → t.treeV = true) (he : s.phase = .encode → t.cwtV = true) :
    t.StatusSound := by
  simp only [Prod.mk.injEq] at h
  obtain ⟨hp, heo, htr, her, hi⟩ := h
  exact
    { errRange := her ▸ hs.errRange
      errinfoOfNoFault := fun h => hi ▸ hs.errinfoOfNoFault (her ▸ h)
      busyNoFault := fun h => her ▸ hs.busyNoFault (hp ▸ h)
      tableOfTree := hc
      oneEnd := by rw [heo, htr]; exact hs.oneEnd
      decodeOpen := fun h => absurd (hp ▸ h) hd
      decodeStopped := fun h => absurd (hp ▸ h) hd
      buildReady := fun h => hb (hp ▸ h)
      treeReady := by
        rw [hp]
        rintro (h | h | h)
        · exact ht (.inl h)
        · exact ht (.inr h)
        · exact absurd h hd
      encodeReady := fun h => he (hp ▸ h) }

/-- It rests neither on the loop position of such a command nor on the memories and the working storage. -/
theorem State.StatusSound.congr {s t : State} (hs : s.StatusSound) (hd : s.phase ≠ .decode)
    (h : (t.phase, t.eos, t.trunc, t.err, t.errinfo) = (s.phase, s.eos, s.trunc, s.err, s.errinfo))
    (hv : (t.ftV, t.treeV, t.cwtV) = (s.ftV, s.treeV, s.cwtV)) : t.StatusSound := by
  simp only [Prod.mk.injEq] at hv
  obtain ⟨hf, ht, hc⟩ := hv
  exact hs.running hd h (fun h => hf ▸ hs.buildReady h) (by rw [hc, ht]; exact hs.tableOfTree)
    (fun h => ht ▸ hs.treeReady (h.imp_right .inl)) (fun h => hc ▸ hs.encodeReady h)

/-- In DECODE the agreement depends on the flags of the end, the loop position and the rest as it was. -/
theorem State.StatusSound.decoding {s : State} (hs : s.StatusSound) {eos trunc : Bool}
    {loop : LoopPos} (cur : NodeIdx) (hl : if loop = .stop then eos = !trunc else eos = false ∧ trunc = false) :
    ({ s with eos := eos, trunc := trunc, cur := cur, loop := loop } : State).StatusSound :=
  { hs with
    oneEnd := by
      rintro ⟨h1, h2⟩
      subst h1 h2
      split at hl <;> simp at hl
    decodeOpen := fun _ _ hstop => by rwa [if_neg hstop] at hl
    decodeStopped := fun _ hstop => by rwa [if_pos hstop] at hl }

theorem State.StatusSound.move {s t : State} {p : Phase} (hs : s.StatusSound) (hp : p = s.phase) (h : EngineMove s p t) :
    t.StatusSound := by
  have ⟨hr, hn, _, ht, he, hopen, _, _, htree, hencode⟩ := hs
  cases h with
  | stay => exact hs
  | raise e => exact .raise e hr hn ht he
  | countStart =>
    exact hs.running (by simp [← hp]) rfl (fun h => nomatch hp.trans h) ht (fun h => htree (h.imp_right .inl)) hencode
  | countEnd | serEnd | encodeEnd | decodeEnd => exact .of_idle rfl hr hn ht he
  | buildStart _ h =>
    obtain ⟨⟩ := buildStart_writes h
    exact hs.running (by simp [← hp]) rfl hs.buildReady id (by simp [← hp]) (by simp [← hp])
  | buildMerge _ _ h => obtain ⟨⟩ := buildMerge_writes h; exact hs.congr (by simp [← hp]) rfl rfl
  | buildEnd => exact .of_idle rfl hr hn (fun _ => rfl) he
  | deriveStart =>
    exact hs.running (by simp [← hp]) rfl (by simp [← hp]) nofun (fun h => htree (h.imp_right .inl)) (by simp [← hp])
  | deriveLeaf => rw [recordCodeword_eq]; exact hs.congr (by simp [← hp]) rfl rfl
  | deriveEnd => exact .of_idle rfl hr hn (fun _ => htree (.inl hp.symm)) he
  | deserStart => exact hs.running (by simp [← hp]) rfl (by simp [← hp]) id (by simp [← hp]) (by simp [← hp])
  | deserSymbol _ h =>
    cases deserSymbol_writes h with
    | goOn => exact hs.congr (by simp [← hp]) rfl rfl
    | finish => exact .of_idle rfl hr hn (fun _ => rfl) he
  | decodeCheck => exact hs.decoding _ (by simp)
  | decodeCheckEof => exact hs.decoding _ (by simp)
  | decodeDegenerate => exact .raise _ hr hn ht (by simp)
  | decodeToNode hl =>
    exact hs.decoding _ (by simpa [hl.2.1] using hopen hp.symm hl.1 hl.2.1)
  | decodeToEof _ hl => exact hs.decoding _ (by simp [(hopen hp.symm hl.1 hl.2.1).2])
  | decodeToLeaf hl => exact hs.decoding _ (by simpa using hopen hp.symm hl.1 hl.2.1)
  | decodeTruncated hl => exact hs.decoding _ (by simp [(hopen hp.symm hl.1 hl.2.1).1])
  | decodeEmitted hl => exact hs.decoding _ (by simpa [hl] using hopen hp.symm (by simp [hl]) (by simp [hl]))
  | _ => exact hs.congr (by simp [← hp]) rfl rfl

/-- What acceptance wants of its flag is what the running command needs (R291). -/
theorem State.StatusSound.start {s : State} {p : Phase} (hs : s.StatusSound) (he : s.err = 0#8) (hr : s.ready p = true) :
    ({ s with phase := p, loop := .start } : State).StatusSound :=
  { hs with
    busyNoFault := fun _ => he
    decodeOpen := fun _ h => absurd rfl h
    decodeStopped := fun _ => nofun
    buildReady := by rintro rfl; exact hr
    treeReady := by rintro (rfl | rfl | rfl) <;> exact hr
    encodeReady := by rintro rfl; exact hr }

theorem State.StatusSound.clearRegisters (s : State) : s.clearRegisters.StatusSound :=
  .of_idle rfl (by simp [State.clearRegisters]) (fun _ => rfl) nofun nofun

theorem State.StatusSound.keptByMoves : KeptByMoves State.StatusSound where
  sameBlock hs h := by obtain ⟨⟩ := h; exact { hs with }
  hardwareReset {s} _ := { State.StatusSound.clearRegisters s with }
  clearRegisters {s} _ := .clearRegisters s
  start hs _ he hr := hs.start he hr
  move hs hp h := hs.move hp h

/-! ### The memories stay canonical -/

theorem State.MemoriesCanonical.move {s t : State} {p : Phase} (hs : s.MemoriesCanonical) (h : EngineMove s p t) :
    t.MemoriesCanonical := by
  cases h with
  | countStart => exact { hs with ft := Memory.wf_fill Config.nsym 0 }
  | @countByte b f _ _ =>
    have hb : b.toNat < 257 := lt_trans (b := 256) b.isLt (by decide)
    exact { hs with ft := Memory.wf_write _ hs.ft hb }
  | countEnd => exact { hs with ft := Memory.wf_write _ hs.ft (Nat.lt_succ_self 256) }
  | buildStart _ h =>
    obtain ⟨a, q, n, ha, hq⟩ := buildStart_writes h
    dsimp only at ha hq
    exact { hs with arena := ha hs.arena, pq := hq (Memory.wf_fill Config.nodeMax false) }
  | buildMerge _ _ h =>
    obtain ⟨a, q, n, ha, hq⟩ := buildMerge_writes h
    exact { hs with arena := ha hs.arena, pq := hq hs.pq }
  | buildEnd _ hm =>
    exact { hs with pq := Memory.wf_write _ hs.pq (State.members_lt hs.pq (by simp [hm])) }
  | deriveStart => exact { hs with cwt := Memory.wf_fill Config.nsym none }
  | deriveLeaf =>
    unfold recordCodeword
    split
    · next hx => exact { hs with cwt := Memory.wf_write _ hs.cwt hx }
    · exact { hs with }
  | deserSymbol _ h =>
    cases deserSymbol_writes h with
    | goOn a st ha => exact { hs with arena := ha hs.arena }
    | finish a r ha => exact { hs with arena := ha hs.arena }
  | _ => exact { hs with }

theorem State.MemoriesCanonical.keptByMoves : KeptByMoves State.MemoriesCanonical where
  sameBlock hs h := by obtain ⟨⟩ := h; exact { hs with }
  hardwareReset _ := ⟨Memory.wf_nil _, Memory.wf_nil _, Memory.wf_nil _, Memory.wf_nil _⟩
  clearRegisters hs := { hs with }
  start hs _ _ _ := { hs with }
  move hs _ h := hs.move h

/-! ### The frequency table -/

/-- While no COUNT runs the frequency table is sound if it is the one that was, or is not valid. -/
theorem State.FrequencySound.of_not_count {s t : State} (hs : s.FrequencySound) (hp : t.phase ≠ .count) (hf : t.ft = s.ft)
    (hv : t.ftV = true → s.ftV = true) : t.FrequencySound where
  full h := hf ▸ hs.full (hv h)
  eofOne h := hf ▸ hs.eofOne (hv h)
  counting h := absurd h hp

theorem State.FrequencySound.move {s t : State} {p : Phase} (hs : s.FrequencySound) (hp : p = s.phase)
    (h : EngineMove s p t) : t.FrequencySound := by
  cases h with
  | stay => exact hs
  | countStart =>
    exact { full := nofun, eofOne := nofun, counting := fun _ _ => Memory.full_fill _ _ }
  | @countByte b f hl _ =>
    have hne : Config.eofSym ≠ b.toNat := Nat.ne_of_gt b.isLt
    exact
      { full := fun h => Memory.full_write (hs.full h) _ _
        eofOne := fun h => (Memory.read_write_of_ne _ _ hne).trans (hs.eofOne h)
        counting := fun _ _ => Memory.full_write (hs.counting hp.symm hl) _ _ }
  | countEnd hl =>
    exact
      { full := fun _ => Memory.full_write (hs.counting hp.symm hl) _ _
        eofOne := fun _ => Memory.read_write_self _ _ _
        counting := nofun }
  | buildStart _ h => obtain ⟨⟩ := buildStart_writes h; exact hs.of_not_count (fun h => nomatch hp.trans h) rfl id
  | buildMerge _ _ h => obtain ⟨⟩ := buildMerge_writes h; exact hs.of_not_count (fun h => nomatch hp.trans h) rfl id
  | deriveLeaf => rw [recordCodeword_eq]; exact hs.of_not_count (fun h => nomatch hp.trans h) rfl id
  | deserSymbol _ h =>
    cases deserSymbol_writes h with
    | goOn => exact hs.of_not_count (fun h => nomatch hp.trans h) rfl id
    | finish => exact hs.of_not_count nofun rfl id
  | buildEnd => exact hs.of_not_count nofun rfl nofun
  | raise | deriveEnd | serEnd | encodeEnd | decodeDegenerate | decodeEnd => exact hs.of_not_count nofun rfl id
  | _ => exact hs.of_not_count (fun h => nomatch hp.trans h) rfl id

theorem State.FrequencySound.keptByMoves : KeptByMoves State.FrequencySound where
  sameBlock hs h := by obtain ⟨⟩ := h; exact { hs with }
  hardwareReset _ := ⟨nofun, nofun, nofun⟩
  clearRegisters hs := hs.of_not_count nofun rfl nofun
  start hs _ _ _ := { hs with counting := fun _ h => absurd rfl h }
  move hs hp h := hs.move hp h

end Sys2Proof.Machine

namespace Sys2Proof.Proofs

open Sys2Proof.Machine

/-- Settles O55: the agreement is kept by every move of a step. -/
theorem stepKeepsTheStatusSound : Obligations.StepKeepsTheStatusSound :=
  fun _ _ => State.StatusSound.keptByMoves.step

/-- Settles O56: the canonical form is kept by every move of a step. -/
theorem stepKeepsTheMemoriesCanonical : Obligations.StepKeepsTheMemoriesCanonical :=
  fun _ _ => State.MemoriesCanonical.keptByMoves.step

/-- Settles O57: the completeness of the table, and of COUNT's working table, is kept by every move of a step. -/
theorem stepKeepsTheFrequencyTableSound : Obligations.StepKeepsTheFrequencyTableSound :=
  fun _ _ => State.FrequencySound.keptByMoves.step

end Sys2Proof.Proofs
end

section
/-! ## Reset, acceptance, CSR reads, and what each command writes -/

namespace Sys2Proof.Machine

/-! ### The status word (R22) -/

/-- The bits of STATUS, bit 0 first (R22). -/
theorem State.status_getLsbD (s : State) (k : Nat) :
    s.status.getLsbD k = [s.busy, s.fault, s.ftV, s.treeV, s.cwtV, s.eos, s.trunc, false].getD k false := by
  unfold State.status
  iterate 7 rw [BitVec.getLsbD_append]
  rcases k with _ | _ | _ | _ | _ | _ | _ | _ | k <;> simp

/-- After a hardware reset STATUS reads 0x00 (R41). -/
theorem hardwareReset_status (s : State) : (hardwareReset s).status = 0x00#8 := by
  simp [State.status, State.busy, State.fault, hardwareReset, State.clearRegisters]

/-! ### CSR reads (R25) -/

/-- Where the read is not stale the host sees the register. -/
theorem hostReadCsr_seen {n : BitVec 3} {s : State} (h : s.csrStale n = false) :
    (hostReadCsr n s).seen = s.seen ++ [.csr n (s.csr n)] := by
  simp [hostReadCsr, h]

/-- Only reads of NNODE and ROOT can be stale. -/
theorem State.csrStale_of_number {n : BitVec 3} (s : State) (h3 : n ≠ 3#3) (h4 : n ≠ 4#3) : s.csrStale n = false := by
  have h3 : n.toNat ≠ 3 := fun h => h3 (BitVec.eq_of_toNat_eq h)
  have h4 : n.toNat ≠ 4 := fun h => h4 (BitVec.eq_of_toNat_eq h)
  simp [State.csrStale, h3, h4]

/-- None is stale while neither BUILD nor DESER runs and no DESER has faulted. -/
theorem State.csrStale_of_phase (n : BitVec 3) {s : State} (hb : s.phase ≠ .build) (hd : s.phase ≠ .deser)
    (hf : ¬(s.treeV = false ∧ (s.err = 3#8 ∨ s.err = 7#8 ∨ (s.err = 4#8 ∧ s.errinfo = 3#16)))) :
    s.csrStale n = false := by
  have hf : s.deserFaulted = false := by
    rw [Bool.eq_false_iff]
    intro h
    simp only [State.deserFaulted, Bool.and_eq_true, Bool.or_eq_true, Bool.not_eq_true', beq_iff_eq, or_assoc] at h
    exact hf h
  simp [State.csrStale, hb, hd, hf]

/-! ### Acceptance (R291) -/

/-- A command whose flag is 0 raises NotReady, and its run does nothing (R291). -/
theorem exec_of_notReady {i : Instr} {p : Phase} {s : State} (hi : s.accepting) (ha : acceptOnly i s = accept p s)
    (hr : s.ready p = false) : exec i s = .next (raise (.notReady p.code) s) := by
  rw [exec_eq_acceptOnly_resume i hi.1, ha, accept_of_notReady hi.2 hr, andThen_next, resume_idle rfl]

/-! ### What each command writes (R36) -/

/-- `t` differs from `s` only in what command `p` writes and in the streams it uses (R36, R60). -/
inductive Writes (s : State) : Phase → State → Prop where
  | idle (phase : Phase) (loop : LoopPos) (err : BitVec 8) (errinfo : BitVec 16) :
    Writes s .idle { s with phase := phase, loop := loop, err := err, errinfo := errinfo }
  | count (phase : Phase) (loop : LoopPos) (err : BitVec 8) (errinfo : BitVec 16) (ftV : Bool) (ft : Memory Freq)
      (bsrc : Source Byte) :
    Writes s .count { s with
      phase := phase, loop := loop, err := err, errinfo := errinfo, ftV := ftV, ft := ft, bsrc := bsrc }
  | build (phase : Phase) (loop : LoopPos) (err : BitVec 8) (errinfo : BitVec 16) (ftV treeV cwtV : Bool)
      (root : NodeIdx) (nnode : NodeCnt) (arena : Memory Node) (pq : Memory Bool) (alloc : NodeCnt) :
    Writes s .build { s with
      phase := phase, loop := loop, err := err, errinfo := errinfo, ftV := ftV, treeV := treeV, cwtV := cwtV
      root := root, nnode := nnode, arena := arena, pq := pq, alloc := alloc }
  | derive (phase : Phase) (loop : LoopPos) (err : BitVec 8) (errinfo : BitVec 16) (cwtV : Bool) (cwt : Memory CwEntry)
      (stack : List Frame) (path : BitVec Config.cwMax) (plen : BitVec Config.lenW) :
    Writes s .derive { s with
      phase := phase, loop := loop, err := err, errinfo := errinfo, cwtV := cwtV, cwt := cwt, stack := stack
      path := path, plen := plen }
  | ser (phase : Phase) (loop : LoopPos) (err : BitVec 8) (errinfo : BitVec 16) (stack : List Frame) (bitout : Sink Bool) :
    Writes s .ser { s with phase := phase, loop := loop, err := err, errinfo := errinfo, stack := stack, bitout := bitout }
  | encode (phase : Phase) (loop : LoopPos) (err : BitVec 8) (errinfo : BitVec 16) (bsrc : Source Byte)
      (bitout : Sink Bool) :
    Writes s .encode { s with phase := phase, loop := loop, err := err, errinfo := errinfo, bsrc := bsrc, bitout := bitout }
  | deser (phase : Phase) (loop : LoopPos) (err : BitVec 8) (errinfo : BitVec 16) (treeV cwtV : Bool)
      (root : NodeIdx) (nnode : NodeCnt) (arena : Memory Node) (stack : List Frame) (alloc : NodeCnt)
      (bitin : Source Bool) (draws : Nat) :
    Writes s .deser { s with
      phase := phase, loop := loop, err := err, errinfo := errinfo, treeV := treeV, cwtV := cwtV
      root := root, nnode := nnode, arena := arena, stack := stack, alloc := alloc, bitin := bitin, draws := draws }
  | decode (phase : Phase) (loop : LoopPos) (err : BitVec 8) (errinfo : BitVec 16) (cur : NodeIdx) (eos trunc : Bool)
      (bitin : Source Bool) (bsnk : Sink Byte) :
    Writes s .decode { s with
      phase := phase, loop := loop, err := err, errinfo := errinfo, cur := cur, eos := eos, trunc := trunc
      bitin := bitin, bsnk := bsnk }

/-- PHASE, the loop position, ERR and ERRINFO are written by every command. -/
theorem Writes.control (p : Phase) (s : State) (phase : Phase) (loop : LoopPos) (err : BitVec 8) (errinfo : BitVec 16) :
    Writes s p { s with phase := phase, loop := loop, err := err, errinfo := errinfo } := by
  cases p
  · exact .idle ..
  · exact .count ..
  · exact .build ..
  · exact .derive ..
  · exact .ser ..
  · exact .encode ..
  · exact .deser ..
  · exact .decode ..

theorem Writes.refl (p : Phase) (s : State) : Writes s p s := .control p s ..

theorem Writes.trans {p : Phase} {s t u : State} (h : Writes s p t) (h' : Writes t p u) : Writes s p u := by
  cases h <;> cases h' <;> constructor

theorem PortMove.writes {p : Phase} {s t : State} (h : PortMove s p t) : Writes s p t := by
  cases h with
  | none => exact .refl p s
  | byteIn hp =>
    obtain rfl | rfl := hp
    · exact .count ..
    · exact .encode ..
  | byteOut => exact .decode ..
  | bitIn hp =>
    obtain rfl | rfl := hp
    · exact .deser ..
    · exact .decode ..
  | bitsIn n =>
    obtain ⟨src, d, h, -⟩ := bitsIn_snd n s
    rw [h]; exact .deser ..
  | bitOut hp =>
    obtain rfl | rfl := hp
    · exact .ser ..
    · exact .encode ..
  | bitsOut => exact .ser ..

theorem DeserWrites.writes {s t : State} (h : DeserWrites s t) : Writes s .deser t := by
  cases h <;> exact .deser ..

theorem EngineMove.writes {p : Phase} {s t : State} (h : EngineMove s p t) : Writes s p t := by
  cases h with
  | stay => exact .refl _ s
  | raise e => exact .control _ s ..
  | countStart | countByte | countEnd => exact .count ..
  | buildStart _ h => obtain ⟨⟩ := buildStart_writes h; exact .build ..
  | buildMerge _ _ h => obtain ⟨⟩ := buildMerge_writes h; exact .build ..
  | buildEnd => exact .build ..
  | deriveLeaf => rw [recordCodeword_eq]; exact .derive ..
  | deriveStart | deriveNode | deriveLeft | deriveRight | deriveEnd => exact .derive ..
  | serStart | serSymbol | serLeaf | serNode | serLeft | serRight | serEnd => exact .ser ..
  | encodeTop | encodeEmit | encodeEnd => exact .encode ..
  | deserStart | deserLeafTag | deserInternalTag => exact .deser ..
  | deserSymbol _ h => exact (deserSymbol_writes h).writes
  | decodeCheck | decodeCheckEof | decodeDegenerate | decodeToNode | decodeToEof | decodeToLeaf | decodeTruncated
    | decodeEmitted | decodeEnd => exact .decode ..

/-- A run of command `p`, from whatever state, writes what `p` may write. -/
theorem drive_tickOf_writes {p : Phase} {n : Nat} {s t : State} (h : drive (tickOf p) n s = .next t) : Writes s p t := by
  refine drive_keeps (P := Writes s p) (fun u v hu _ hv => ?_) n s t (.refl p s) h
  obtain ⟨w, hw, hm⟩ := tickOf_step hv
  exact hu.trans (hw.writes.trans hm.writes)

theorem accept_writes {p q : Phase} {s t : State} (h : accept q s = .next t) : Writes s p t := by
  obtain ⟨-, ha⟩ | ⟨-, -, ha⟩ | ⟨-, -, ha⟩ := accept_cases q s <;> cases ha.symm.trans h
  · exact .refl p s
  · exact .control p s ..
  · exact .control p s ..

/-- A command's execution writes what the command may write. -/
theorem command_writes {p : Phase} {s t : State}
    (h : (andThen (accept p s) fun u => drive (tickOf p) (fuelOf p u) u) = .next t) : Writes s p t := by
  obtain ⟨u, hu, h⟩ := andThen_eq_next.1 h
  exact (accept_writes hu).trans (drive_tickOf_writes h)

theorem acceptIllegal_writes {w : Byte} {s t : State} (h : acceptIllegal w s = .next t) : Writes s .idle t := by
  obtain ⟨-, ha⟩ | ⟨-, ha⟩ := acceptIllegal_cases w s <;> cases ha.symm.trans h
  · exact .refl _ s
  · exact .control _ s ..

theorem deserLeafTag_writes {s t : State} (h : deserLeafTag s = .next t) : Writes s .deser t := by
  obtain ⟨-, h⟩ | rfl := deserAlloc_cases h
  · cases h; exact .deser ..
  · exact .control _ s ..

theorem execTreeInternal_writes {s t : State} (h : execTreeInternal s = .next t) : Writes s .deser t := by
  unfold execTreeInternal at h
  split at h
  · obtain ⟨-, h⟩ | rfl := deserAlloc_cases h
    · cases h; exact .deser ..
    · exact .control _ s ..
  · cases h

theorem execTreeLeaf_writes {x : Sym} {s t : State} (h : execTreeLeaf x s = .next t) : Writes s .deser t := by
  unfold execTreeLeaf at h
  split at h
  · obtain ⟨u, hu, h⟩ := andThen_eq_next.1 h
    refine (deserLeafTag_writes hu).trans ?_
    split at h
    · exact (deserSymbol_writes h).writes
    · cases h; exact .refl _ _
  · cases h

/-- The command whose writes an instruction has; the words that run none have those of the idle block. -/
def writer : Instr → Phase
  | .count => .count
  | .build => .build
  | .derive => .derive
  | .ser => .ser
  | .encode => .encode
  | .deser => .deser
  | .decode => .decode
  | .treeLeaf _ => .deser
  | .treeInternal => .deser
  | _ => .idle

/-- Every instruction but RST writes what its command may write. -/
theorem exec_writes {i : Instr} {s t : State} (hi : i ≠ .rst) (h : exec i s = .next t) : Writes s (writer i) t := by
  cases i with
  | nop => cases h; exact .refl _ s
  | rst => exact absurd rfl hi
  | treeLeaf x => exact execTreeLeaf_writes h
  | treeInternal => exact execTreeInternal_writes h
  | count | build | derive | ser | encode | deser | decode => exact command_writes h
  | _ => exact acceptIllegal_writes h

end Sys2Proof.Machine

namespace Sys2Proof.Proofs

open Sys2Proof.Machine

/-- Settles O47: RST keeps the memories, and every other instruction writes what its command may write. -/
theorem tablesAreWrittenByTheirCommandsOnly : Obligations.TablesAreWrittenByTheirCommandsOnly := by
  intro i s t h
  by_cases hi : i = .rst
  · subst hi
    cases h
    exact ⟨fun _ _ _ _ => ⟨rfl, fun h => absurd rfl h⟩, fun _ => rfl, fun _ => rfl, nofun, nofun⟩
  · have hw := exec_writes hi h
    generalize hp : writer i = p at hw
    refine ⟨fun hb hd hn hl => ?_, fun hd => ?_, fun hc => ?_, ?_, ?_⟩
    · cases hw with
      | build => cases i <;> simp [writer] at hp hb
      | deser => cases i <;> simp [writer] at hp hd hn hl
      | _ => exact ⟨rfl, fun _ => ⟨rfl, rfl⟩⟩
    · cases hw with
      | derive => cases i <;> simp [writer] at hp hd
      | _ => rfl
    · cases hw with
      | count => cases i <;> simp [writer] at hp hc
      | _ => rfl
    · rintro rfl
      subst hp
      cases hw
      rfl
    · rintro rfl
      subst hp
      cases hw
      rfl

/-- Settles O9: reset is given field by field. -/
theorem hardwareResetLeavesTheResetValues : Obligations.HardwareResetLeavesTheResetValues := by
  refine ⟨fun s => ⟨rfl, hardwareReset_status s, fun _ => ⟨rfl, rfl, rfl, rfl⟩⟩, rfl, by decide, rfl, rfl, rfl, rfl, rfl,
    fun _ => ⟨rfl, rfl, rfl, rfl⟩, fun s hp hc hh => ?_⟩
  have hact : hostAct s = none := by simp [hostAct, hh]
  simp [step, State.busy, hp, hc, hact]

/-- Settles O14: each row is acceptance with the flag it needs. -/
theorem missingTableRaisesNotReady : Obligations.MissingTableRaisesNotReady := by
  intro s hs refused accepted
  have hrefused : ∀ {i : Instr} {p : Phase}, acceptOnly i s = accept p s → s.ready p = false → refused i p.code :=
    fun ha hr => ⟨_, exec_of_notReady hs ha hr, raise_of_noFault s _ hs.2⟩
  have haccepted : ∀ {i : Instr} {p : Phase}, acceptOnly i s = accept p s → p ≠ .idle → s.ready p = true →
      accepted i p.code :=
    fun ha hp hr => ⟨_, ha.trans (accept_of_ready hs.2 hr), rfl, by simp [State.busy, hp], rfl⟩
  exact
    ⟨hrefused (p := .build) rfl, haccepted (p := .build) rfl nofun, hrefused (p := .derive) rfl,
      haccepted (p := .derive) rfl nofun, hrefused (p := .ser) rfl, haccepted (p := .ser) rfl nofun,
      hrefused (p := .encode) rfl, haccepted (p := .encode) rfl nofun, hrefused (p := .decode) rfl,
      haccepted (p := .decode) rfl nofun, haccepted (p := .count) rfl nofun rfl, haccepted (p := .deser) rfl nofun rfl,
      rfl, rfl⟩

/-- Settles O17: the bits of STATUS one by one, and the reads that are not stale. -/
theorem csrReadShowsTheRegisterAndChangesNothing : Obligations.CsrReadShowsTheRegisterAndChangesNothing := by
  intro s
  have hbusy : s.busy = decide (s.phase ≠ .idle) := by simp [State.busy, bne, beq_eq_decide]
  have hfault : s.fault = decide (s.err ≠ 0#8) := by simp [State.fault, bne, beq_eq_decide]
  simp only [State.status_getLsbD, ← hbusy, ← hfault]
  refine ⟨⟨rfl, rfl, rfl, rfl, rfl, rfl, rfl, rfl⟩, rfl, rfl, rfl, rfl, rfl, rfl, rfl, rfl, fun n => ⟨?_, ?_, ?_⟩⟩
  · unfold hostReadCsr; split <;> rfl
  · exact fun h3 h4 => hostReadCsr_seen (s.csrStale_of_number h3 h4)
  · exact fun hb hd hf => hostReadCsr_seen (State.csrStale_of_phase n hb hd hf)

end Sys2Proof.Proofs
end

section
/-! ## The working storage of BUILD and DESER

What a merge does to the forest of the collection, what a completed subtree does to DESER's stack: in each case the command
goes on (no step stops the machine) and its working storage is sound again. -/

namespace Sys2Proof.Machine

/-! ### Reads that have a value -/

theorem withCounter_of_read {s : State} {a : Nat} {f : Freq} {k : Freq → Result} (h : s.ft.read a = some f) :
    withCounter s a k = k f := by simp [withCounter, h]

theorem withEntry_of_read {s : State} {a : Nat} {e : CwEntry} {k : CwEntry → Result} (h : s.cwt.read a = some e) :
    withEntry s a k = k e := by simp [withEntry, h]

theorem withChildren_of_read {s : State} {i l r : NodeIdx} {f : NodeFreq} {k : NodeIdx → NodeIdx → Result}
    (h : s.arena.read i.toNat = some (.internal l r f)) : withChildren s i k = k l r := withRecord_of_read h

theorem withSym_of_read {s : State} {i : NodeIdx} {x : Sym} {f : NodeFreq} {k : Sym → Result}
    (h : s.arena.read i.toNat = some (.leaf x f)) : withSym s i k = k x := withRecord_of_read h

theorem writeRecord_of_lt {s : State} {i : Nat} (nd : Node) (h : i < Config.nodeMax) :
    writeRecord i nd s = .next { s with arena := s.arena.write i nd } := writeRecord_eq_next.2 ⟨h, rfl⟩

/-! ### Indices and counts below `NODE_MAX` -/

theorem nodeIdx_toNat {i : Nat} (h : i < Config.nodeMax) : (BitVec.ofNat Config.idxW i).toNat = i :=
  Nat.mod_eq_of_lt (h.trans (by decide))

theorem cnt_succ_toNat {n : NodeCnt} (h : n.toNat < Config.nodeMax) : (n + 1).toNat = n.toNat + 1 := by
  rw [BitVec.toNat_add]
  exact Nat.mod_eq_of_lt (lt_of_le_of_lt (Nat.succ_le_of_lt h) (by decide))

/-! ### Trees -/

/-- A tree at an internal record is a node. -/
theorem Tree.isAt_internal {m : Memory Node} {t : Tree} {i a b : NodeIdx} {f : NodeFreq}
    (hr : m.read i.toNat = some (.internal a b f)) (h : t.isAt m i = true) :
    ∃ l r, t = .node l r ∧ l.isAt m a = true ∧ r.isAt m b = true := by
  cases t with
  | leaf x =>
    obtain ⟨g, hg⟩ := Tree.isAt_leaf.1 h
    cases hr.symm.trans hg
  | node l r =>
    obtain ⟨a', b', g, hg, hl, hr'⟩ := Tree.isAt_node.1 h
    cases hr.symm.trans hg
    exact ⟨l, r, rfl, hl, hr'⟩

/-- A tree at a leaf record is that leaf. -/
theorem Tree.isAt_leafRecord {m : Memory Node} {t : Tree} {i : NodeIdx} {x : Sym} {f : NodeFreq}
    (hr : m.read i.toNat = some (.leaf x f)) (h : t.isAt m i = true) : t = .leaf x := by
  cases t with
  | leaf y =>
    obtain ⟨g, hg⟩ := Tree.isAt_leaf.1 h
    cases hr.symm.trans hg
    rfl
  | node l r =>
    obtain ⟨a', b', g, hg, -, -⟩ := Tree.isAt_node.1 h
    cases hr.symm.trans hg

/-- Below a tree's node, a child whose record is internal is a node. -/
theorem Tree.isAt_internalChild {m : Memory Node} {t : Tree} {c i a b l r : NodeIdx} {f g : NodeFreq}
    (ht : t.isAt m c = true) (hc : m.read c.toNat = some (.internal a b f)) (hi : i = a ∨ i = b)
    (hr : m.read i.toNat = some (.internal l r g)) : ∃ u v, (Tree.node u v).isAt m i = true := by
  obtain ⟨_, _, -, ha, hb⟩ := Tree.isAt_internal hc ht
  obtain rfl | rfl := hi
  · obtain ⟨u, v, rfl, -⟩ := Tree.isAt_internal hr ha
    exact ⟨u, v, ha⟩
  · obtain ⟨u, v, rfl, -⟩ := Tree.isAt_internal hr hb
    exact ⟨u, v, hb⟩

/-- A write past a tree leaves its indices as they are. -/
theorem TreeWithin.indices_write {m : Memory Node} {i : NodeIdx} {lo hi k : Nat} {t : Tree} (h : TreeWithin m i lo hi t)
    (nd : Node) (hk : hi ≤ k) : t.indices (m.write k nd) i = t.indices m i := by
  refine (Tree.isAt_congr (fun j hj => Memory.read_write_of_ne _ _ ?_) h.1).2
  have := h.2.2 j hj
  omega

/-- Both subtrees of a frame's node are sound, and so is the node at every phase of its visit. -/
theorem FrameSound.children {m : Memory Node} {i a b : NodeIdx} {v : Visit} {f : NodeFreq} (h : FrameSound m ⟨i, v⟩)
    (hr : m.read i.toNat = some (.internal a b f)) :
    FrameSound m ⟨a, .enter⟩ ∧ FrameSound m ⟨b, .enter⟩ ∧ ∀ w, FrameSound m ⟨i, w⟩ := by
  obtain ⟨t, ht, -⟩ := h
  obtain ⟨l, r, rfl, hl, hrr⟩ := Tree.isAt_internal hr ht
  exact ⟨⟨l, hl, fun h => absurd rfl h⟩, ⟨r, hrr, fun h => absurd rfl h⟩, fun w => ⟨_, ht, fun _ => ⟨l, r, rfl⟩⟩⟩

/-- A frame whose subtrees are under way is that of an internal record. -/
theorem FrameSound.internal {m : Memory Node} {i : NodeIdx} {v : Visit} (h : FrameSound m ⟨i, v⟩) (hv : v ≠ .enter) :
    ∃ a b f, m.read i.toNat = some (.internal a b f) := by
  obtain ⟨t, ht, hn⟩ := h
  obtain ⟨l, r, rfl⟩ := hn hv
  obtain ⟨a, b, f, hr, -, -⟩ := Tree.isAt_node.1 ht
  exact ⟨a, b, f, hr⟩

/-! ### The collection -/

/-- A member that leaves the collection is one less. -/
theorem State.members_remove {s : State} (hw : Memory.wf Config.nodeMax s.pq) {a : Nat} (ha : a ∈ s.members) :
    (∀ j, j ∈ ({ s with pq := s.pq.write a false } : State).members ↔ j ∈ s.members ∧ j ≠ a) ∧
    ({ s with pq := s.pq.write a false } : State).members.length + 1 = s.members.length := by
  have hw' : Memory.wf Config.nodeMax (s.pq.write a false) := Memory.wf_write false hw (State.members_lt hw ha)
  have hm : ∀ j, j ∈ ({ s with pq := s.pq.write a false } : State).members ↔ j ∈ s.members ∧ j ≠ a := by
    intro j
    rw [State.mem_members hw, State.mem_members (s := { s with pq := s.pq.write a false }) hw']
    simp only [Memory.read_write]
    split <;> simp_all
  refine ⟨hm, ?_⟩
  have hperm : (a :: ({ s with pq := s.pq.write a false } : State).members).Perm s.members := by
    refine (List.perm_ext_iff_of_nodup (List.nodup_cons.2 ⟨fun h => ((hm a).1 h).2 rfl, State.members_nodup hw'⟩)
      (State.members_nodup hw)).2 fun j => ?_
    rw [List.mem_cons, hm]
    by_cases hj : j = a
    · simp [hj, ha]
    · simp [hj]
  simpa using hperm.length_eq

/-- Trees `f i` at the records `i` of a set, on records of their own below `n`, no record in two of them. -/
structure Forest (m : Memory Node) (n : Nat) (S : Nat → Prop) (f : Nat → Tree) : Prop where
  below : ∀ i, S i → i < n
  trees : ∀ i, S i → TreeWithin m (BitVec.ofNat Config.idxW i) 0 n (f i)
  disjoint : ∀ i, S i → ∀ j, S j → i ≠ j →
    List.Disjoint ((f i).indices m (BitVec.ofNat Config.idxW i)) ((f j).indices m (BitVec.ofNat Config.idxW j))

theorem Forest.mono {m : Memory Node} {n : Nat} {S S' : Nat → Prop} {f : Nat → Tree} (h : Forest m n S f)
    (hS : ∀ i, S' i → S i) : Forest m n S' f :=
  ⟨fun i hi => h.below i (hS i hi), fun i hi => h.trees i (hS i hi),
    fun i hi j hj => h.disjoint i (hS i hi) j (hS j hj)⟩

/-- A new tree at the next record, sharing no record with the others, is one more tree of the forest. -/
theorem Forest.add {m : Memory Node} {n : Nat} {S : Nat → Prop} {f : Nat → Tree} (h : Forest m n S f) (nd : Node)
    {t : Tree} (ht : TreeWithin (m.write n nd) (BitVec.ofNat Config.idxW n) 0 (n + 1) t)
    (hd : ∀ i, S i → List.Disjoint ((f i).indices m (BitVec.ofNat Config.idxW i))
      (t.indices (m.write n nd) (BitVec.ofNat Config.idxW n))) :
    Forest (m.write n nd) (n + 1) (fun j => S j ∨ j = n) (Function.update f n t) := by
  have hf : ∀ i, S i → Function.update f n t i = f i :=
    fun i hi => Function.update_of_ne (h.below i hi).ne _ _
  have hn : Function.update f n t n = t := Function.update_self _ _ _
  have hw : ∀ i, S i → (f i).indices (m.write n nd) (BitVec.ofNat Config.idxW i) =
      (f i).indices m (BitVec.ofNat Config.idxW i) := fun i hi => (h.trees i hi).indices_write nd le_rfl
  refine ⟨?_, ?_, ?_⟩
  · rintro i (hi | rfl)
    · exact (h.below i hi).trans (Nat.lt_succ_self n)
    · exact Nat.lt_succ_self i
  · rintro i (hi | rfl)
    · rw [hf i hi]
      exact ((h.trees i hi).write nd (.inr le_rfl)).mono le_rfl (Nat.le_succ n)
    · rw [hn]; exact ht
  · rintro i (hi | rfl) j (hj | rfl) hij
    · rw [hf i hi, hf j hj, hw i hi, hw j hj]
      exact h.disjoint i hi j hj hij
    · rw [hf i hi, hn, hw i hi]
      exact hd i hi
    · rw [hf j hj, hn, hw j hj]
      exact (hd j hj).symm
    · exact absurd rfl hij

/-- A leaf at the next record is one more tree. -/
theorem Forest.addLeaf {m : Memory Node} {n : Nat} {S : Nat → Prop} {f : Nat → Tree} (h : Forest m n S f)
    (hn : n < Config.nodeMax) (x : Sym) (g : NodeFreq) :
    Forest (m.write n (.leaf x g)) (n + 1) (fun j => S j ∨ j = n) (Function.update f n (.leaf x)) := by
  have hidx := nodeIdx_toNat hn
  have ht := TreeWithin.leaf (m := m.write n (.leaf x g)) (i := BitVec.ofNat Config.idxW n) (x := x) (f := g)
    (by rw [hidx]; exact m.read_write_self n _)
  rw [hidx] at ht
  refine h.add _ (ht.mono (Nat.zero_le n) le_rfl) fun i hi => ?_
  intro j hj hjn
  have hlt := ((h.trees i hi).2.2 j hj).2
  simp only [Tree.indices, List.mem_singleton, hidx] at hjn
  exact absurd hjn hlt.ne

/-- A merge: a node over two trees of the forest takes their place (R154). -/
theorem Forest.merge {m : Memory Node} {n a b : Nat} {S : Nat → Prop} {f : Nat → Tree} (h : Forest m n S f)
    (hn : n < Config.nodeMax) (ha : S a) (hb : S b) (hab : a ≠ b) (g : NodeFreq) :
    Forest (m.write n (.internal (BitVec.ofNat Config.idxW a) (BitVec.ofNat Config.idxW b) g)) (n + 1)
      (fun j => (S j ∧ j ≠ a ∧ j ≠ b) ∨ j = n) (Function.update f n (.node (f a) (f b))) := by
  have hidx := nodeIdx_toNat hn
  generalize hnd : Node.internal (BitVec.ofNat Config.idxW a) (BitVec.ofNat Config.idxW b) g = nd
  have hta := h.trees a ha
  have htb := h.trees b hb
  have hr : (m.write n nd).read (BitVec.ofNat Config.idxW n).toNat =
      some (.internal (BitVec.ofNat Config.idxW a) (BitVec.ofNat Config.idxW b) g) := by
    rw [hidx, Memory.read_write_self, hnd]
  have hind : (Tree.node (f a) (f b)).indices (m.write n nd) (BitVec.ofNat Config.idxW n) =
      n :: ((f a).indices m (BitVec.ofNat Config.idxW a) ++ (f b).indices m (BitVec.ofNat Config.idxW b)) := by
    rw [Tree.indices_node hr, hidx, hta.indices_write nd le_rfl, htb.indices_write nd le_rfl]
  have ht : TreeWithin (m.write n nd) (BitVec.ofNat Config.idxW n) 0 (n + 1) (.node (f a) (f b)) := by
    refine ⟨Tree.isAt_node.2 ⟨_, _, _, hr, (hta.write nd (.inr le_rfl)).1, (htb.write nd (.inr le_rfl)).1⟩, ?_, ?_⟩
    · rw [hind, List.nodup_cons, List.nodup_append']
      refine ⟨fun hmem => ?_, hta.2.1, htb.2.1, h.disjoint a ha b hb hab⟩
      obtain hmem | hmem := List.mem_append.1 hmem
      · exact absurd (hta.2.2 n hmem).2 (lt_irrefl n)
      · exact absurd (htb.2.2 n hmem).2 (lt_irrefl n)
    · rw [hind]
      intro j hj
      refine ⟨Nat.zero_le j, ?_⟩
      obtain rfl | hj := List.mem_cons.1 hj
      · exact Nat.lt_succ_self j
      · obtain hj | hj := List.mem_append.1 hj
        · exact (hta.2.2 j hj).2.trans (Nat.lt_succ_self n)
        · exact (htb.2.2 j hj).2.trans (Nat.lt_succ_self n)
  refine (h.mono (S' := fun j => S j ∧ j ≠ a ∧ j ≠ b) fun i hi => hi.1).add nd ht ?_
  rintro i ⟨hi, hia, hib⟩
  rw [hind, List.disjoint_cons_right, List.disjoint_append_right]
  refine ⟨fun hmem => ?_, h.disjoint i hi a ha hia, h.disjoint i hi b hb hib⟩
  exact absurd ((h.trees i hi).2.2 n hmem).2 (lt_irrefl n)

/-- The collection's trees are a forest. -/
theorem State.CollectionSound.forest {s : State} (h : s.CollectionSound) :
    ∃ f, Forest s.arena s.alloc.toNat (· ∈ s.members) f := by
  obtain ⟨f, ht, hd⟩ := h.trees
  exact ⟨f, h.below, ht, hd⟩

theorem State.CollectionSound.of_forest {s : State} {f : Nat → Tree} (h : Forest s.arena s.alloc.toNat (· ∈ s.members) f)
    (hne : s.members ≠ []) (hfits : s.alloc.toNat + s.members.length ≤ Config.nodeMax + 1) : s.CollectionSound :=
  ⟨hne, hfits, h.below, f, h.trees, h.disjoint⟩

/-! ### BUILD -/

/-- The collection while the leaves are added: every record below the count is a member and stands for a tree. -/
structure State.LeavesSound (s : State) : Prop where
  pq : Memory.wf Config.nodeMax s.pq
  count : s.members.length = s.alloc.toNat
  forest : ∃ f, Forest s.arena s.alloc.toNat (· ∈ s.members) f

/-- A new node is a new member. -/
theorem addNode_members {nd : Node} {s t : State} (hw : Memory.wf Config.nodeMax s.pq)
    (hb : ∀ i ∈ s.members, i < s.alloc.toNat) (h : addNode nd s = .next t) :
    Memory.wf Config.nodeMax t.pq ∧ (∀ j, j ∈ t.members ↔ j ∈ s.members ∨ j = s.alloc.toNat) ∧
      t.members.length = s.members.length + 1 := by
  obtain ⟨hn, rfl⟩ := addNode_eq_next.1 h
  exact State.members_add hw hn fun hmem => lt_irrefl _ (hb _ hmem)

/-- Below `NODE_MAX` a new node finds its record. -/
theorem addNode_total (nd : Node) {s : State} (h : s.alloc.toNat < Config.nodeMax) :
    ∃ t, addNode nd s = .next t ∧ t.arena = s.arena.write s.alloc.toNat nd ∧ t.alloc.toNat = s.alloc.toNat + 1 ∧
      t.ft = s.ft :=
  ⟨_, addNode_eq_next.2 ⟨h, rfl⟩, rfl, cnt_succ_toNat h, rfl⟩

theorem State.LeavesSound.addLeaf {s : State} (hs : s.LeavesSound) (hn : s.alloc.toNat < Config.nodeMax) (x : Sym)
    (g : NodeFreq) : ∃ t, addNode (.leaf x g) s = .next t ∧ t.LeavesSound ∧ t.alloc.toNat = s.alloc.toNat + 1 ∧
      t.ft = s.ft := by
  obtain ⟨hw, hc, f, hf⟩ := hs
  obtain ⟨t, ht, hta, htn, htf⟩ := addNode_total (.leaf x g) hn
  obtain ⟨hw', hm, hlen⟩ := addNode_members hw hf.below ht
  refine ⟨t, ht, ⟨hw', by rw [hlen, hc, htn], Function.update f s.alloc.toNat (.leaf x), ?_⟩, htn, htf⟩
  rw [hta, htn]
  exact (hf.addLeaf hn x g).mono fun i hi => (hm i).1 hi

/-- The symbols of a list that have an entry in the frequency table; `tableSymbols` is that of all symbols. -/
def entriesAmong (ft : Memory Freq) (syms : List Nat) : List Nat :=
  syms.filter fun a => (ft.read a).any fun f => f ≠ 0

theorem entriesAmong_cons {ft : Memory Freq} {a : Nat} {c : Freq} (syms : List Nat) (h : ft.read a = some c) :
    entriesAmong ft (a :: syms) = if c = 0 then entriesAmong ft syms else a :: entriesAmong ft syms := by
  by_cases hc : c = 0 <;> simp [entriesAmong, h, hc, List.filter_cons]

/-- Step 1 of BUILD adds one leaf for each entry (R151). -/
theorem addLeaves_sound : ∀ {syms : List Nat} {s : State}, (∀ a ∈ syms, (s.ft.read a).isSome = true) → s.LeavesSound →
    s.alloc.toNat + syms.length ≤ Config.nodeMax →
    ∃ t, addLeaves syms s = .next t ∧ t.LeavesSound ∧ t.alloc.toNat = s.alloc.toNat + (entriesAmong s.ft syms).length := by
  intro syms
  induction syms with
  | nil => intro s _ hs _; exact ⟨s, rfl, hs, rfl⟩
  | cons a syms ih =>
    intro s hfull hs hfits
    rw [List.length_cons] at hfits
    obtain ⟨c, hc⟩ := Option.isSome_iff_exists.1 (hfull a (by simp))
    have hfull' : ∀ a ∈ syms, (s.ft.read a).isSome = true := fun b hb => hfull b (by simp [hb])
    rw [addLeaves, withCounter_of_read hc]
    by_cases h0 : c = 0
    · obtain ⟨t, ht, hsound, hcount⟩ := ih hfull' hs (by omega)
      exact ⟨t, by rw [if_pos h0]; exact ht, hsound, by rw [hcount, entriesAmong_cons syms hc, if_pos h0]⟩
    · obtain ⟨u, hu, hsu, hcu, hft⟩ := hs.addLeaf (by omega) (BitVec.ofNat Config.symW a) (c.setWidth Config.nfreqW)
      obtain ⟨t, ht, hsound, hcount⟩ := ih (hft ▸ hfull') hsu (by omega)
      refine ⟨t, by rw [if_neg h0, hu]; exact ht, hsound, ?_⟩
      rw [hcount, hcu, hft, entriesAmong_cons syms hc, if_neg h0, List.length_cons]
      omega

/-- The empty collection, from which BUILD starts (R150). -/
theorem State.LeavesSound.of_empty {s : State} (hp : s.pq = Memory.fill Config.nodeMax false) (ha : s.alloc = 0) :
    s.LeavesSound := by
  have hm : s.members = [] := by simp [State.members, hp, Memory.fill]
  refine ⟨hp ▸ Memory.wf_fill _ _, by rw [hm, ha]; rfl, fun _ => .leaf 0, ?_⟩
  rw [hm]
  exact ⟨nofun, nofun, nofun⟩

/-- BUILD's start always leaves a sound collection: the table has an entry, that of symbol 256 (R142, R151). -/
theorem buildStart_sound {s : State} (hf : s.FrequencySound) (hv : s.ftV = true) :
    ∃ t, buildStart s = .next t ∧ t.CollectionSound := by
  have hfull : ∀ a ∈ List.range Config.nsym, (s.ft.read a).isSome = true :=
    fun a ha => hf.full hv a (List.mem_range.1 ha)
  obtain ⟨t, ht, ⟨hw, hc, f, hforest⟩, hcount⟩ := addLeaves_sound (s := { s with
    treeV := false, cwtV := false, pq := Memory.fill Config.nodeMax false, alloc := 0, loop := .top })
    hfull (.of_empty (by dsimp only) rfl) (show 0 + (List.range 257).length ≤ 513 by rw [List.length_range]; omega)
  replace hcount : t.alloc.toNat = (tableSymbols s.ft).length := hcount.trans (Nat.zero_add _)
  have hle : (tableSymbols s.ft).length ≤ 257 := (List.length_filter_le _ _).trans (by simp)
  have hpos : 0 < (tableSymbols s.ft).length := List.length_pos_of_mem (a := 256) (by simp [tableSymbols, hf.eofOne hv])
  refine ⟨t, ht, .of_forest hforest (fun h0 => ?_) ?_⟩
  · rw [h0, List.length_nil] at hc; omega
  · rw [hc, hcount]
    show _ ≤ 514
    omega

/-- Extraction from a sound collection always succeeds, and takes a member out (R153). -/
theorem extractMin_total {s : State} (k : Nat → NodeFreq → State → Result) {n : Nat} {f : Nat → Tree}
    (hw : Memory.wf Config.nodeMax s.pq) (hf : Forest s.arena n (· ∈ s.members) f) (hn : n ≤ Config.nodeMax)
    (hne : s.members ≠ []) :
    ∃ a g t, extractMin s k = k a g t ∧ a ∈ s.members ∧ Memory.wf Config.nodeMax t.pq ∧
      (∀ j, j ∈ t.members ↔ j ∈ s.members ∧ j ≠ a) ∧ t.members.length + 1 = s.members.length ∧
      t.arena = s.arena ∧ t.alloc = s.alloc := by
  have hwritten : ∀ j ∈ s.members, ∃ nd, s.arena.read j = some nd := by
    intro j hj
    obtain ⟨nd, hnd⟩ := Tree.isAt_some (hf.trees j hj).1
    exact ⟨nd, by rwa [nodeIdx_toNat ((hf.below j hj).trans_le hn)] at hnd⟩
  obtain ⟨g, a, nd, hmin, ha, -, -⟩ := minKey_of_written hne hwritten
  obtain ⟨hm, hlen⟩ := State.members_remove hw ha
  exact ⟨a, g, { s with pq := s.pq.write a false }, by simp [extractMin, hmin], ha,
    Memory.wf_write false hw (State.members_lt hw ha), hm, hlen, rfl, rfl⟩

/-- A merge always leaves a sound collection (R154, R156). -/
theorem buildMerge_sound {s : State} (hw : Memory.wf Config.nodeMax s.pq) (hc : s.CollectionSound)
    (hm : 2 ≤ s.members.length) : ∃ t, buildMerge s = .next t ∧ t.CollectionSound := by
  obtain ⟨f, hf⟩ := hc.forest
  have hfits := hc.fits
  have hnode : s.alloc.toNat < Config.nodeMax := by omega
  obtain ⟨a, fa, t, h1, ha, htw, hmt, hlt, hta, htn⟩ := extractMin_total (fun a fa t => extractMin t fun b fb u =>
    addNode (.internal (BitVec.ofNat Config.idxW a) (BitVec.ofNat Config.idxW b) (fa + fb)) u) hw hf hnode.le hc.nonempty
  have hft : Forest t.arena s.alloc.toNat (· ∈ t.members) f := hta ▸ hf.mono fun i hi => ((hmt i).1 hi).1
  obtain ⟨b, fb, u, h2, hb, huw, hmu, hlu, hua, hun⟩ := extractMin_total (fun b fb u =>
    addNode (.internal (BitVec.ofNat Config.idxW a) (BitVec.ofNat Config.idxW b) (fa + fb)) u) htw hft hnode.le
    (fun h0 => by rw [h0, List.length_nil] at hlt; omega)
  have hsub : ∀ i, i ∈ u.members → i ∈ s.members ∧ i ≠ a ∧ i ≠ b := fun i hi =>
    ⟨((hmt i).1 ((hmu i).1 hi).1).1, ((hmt i).1 ((hmu i).1 hi).1).2, ((hmu i).1 hi).2⟩
  have hba := (hmt b).1 hb
  rw [htn] at hun
  obtain ⟨v, h3, hva, hvn, -⟩ := addNode_total
    (.internal (BitVec.ofNat Config.idxW a) (BitVec.ofNat Config.idxW b) (fa + fb)) (s := u) (hun ▸ hnode)
  obtain ⟨-, hmv, hlv⟩ := addNode_members huw (fun i hi => hun ▸ hf.below i (hsub i hi).1) h3
  rw [hun] at hvn hmv hva
  rw [hua, hta] at hva
  refine ⟨v, (h1.trans h2).trans h3, .of_forest (f := Function.update f s.alloc.toNat (.node (f a) (f b))) ?_ ?_ ?_⟩
  · rw [hva, hvn]
    exact (hf.merge hnode ha hba.1 hba.2.symm _).mono fun i hi => ((hmv i).1 hi).imp_left (hsub i)
  · intro h0
    rw [h0, List.length_nil] at hlv
    omega
  · omega

/-! ### DESER -/

/-- Where a subtree is complete, DESER goes on with its stack sound, or ends with the whole tree (R175). -/
inductive DeserDone (s : State) : State → Prop where
  | goOn {arena : Memory Node} {stack : List Frame} (h : DeserStack arena s.alloc.toNat stack) :
    DeserDone s { s with arena := arena, stack := stack, loop := .top }
  | finish {arena : Memory Node} {r : NodeIdx} (h : ∃ t, TreeWithin arena r 0 s.alloc.toNat t) :
    DeserDone s (deserEnd r { s with arena := arena, stack := [] })

/-- `return c` of `deser_node` with the subtree at `c` complete. -/
theorem deserReturn_sound : ∀ {st : List Frame} {s : State} {c : NodeIdx},
    (∃ t, TreeWithin s.arena c c.toNat s.alloc.toNat t) → s.alloc.toNat ≤ Config.nodeMax →
    DeserStack s.arena c.toNat st → ∃ t, deserReturn s c st = .next t ∧ DeserDone s t := by
  intro st
  induction st with
  | nil =>
    rintro s c ⟨tr, htr⟩ _ h0
    exact ⟨_, rfl, .finish (arena := s.arena) ⟨tr, htr.mono (Nat.zero_le _) le_rfl⟩⟩
  | cons f rest ih =>
    rintro s c ⟨tr, htr⟩ hn hst
    obtain ⟨i, v⟩ := f
    have hc := htr.pos.2
    cases v with
    | enter => exact hst.elim
    | left =>
      obtain ⟨hci, hrest⟩ := hst
      obtain rfl : c = i + 1 := BitVec.eq_of_toNat_eq (by rw [hci, cnt_succ_toNat (by omega)])
      rw [hci] at htr hc
      exact ⟨_, rfl, .goOn (arena := s.arena) ⟨by omega, ⟨tr, htr⟩, hrest⟩⟩
    | right =>
      obtain ⟨hic, ⟨tl, htl⟩, hrest⟩ := hst
      have hi : i.toNat < Config.nodeMax := by omega
      rw [deserReturn, writeRecord_of_lt _ hi, andThen_next]
      generalize hnd : Node.internal (i + 1) c 0 = nd
      have hnode : TreeWithin (s.arena.write i.toNat nd) i i.toNat s.alloc.toNat (.node tl tr) :=
        TreeWithin.node (by rw [Memory.read_write_self, ← hnd]) (htl.write nd (.inl (Nat.lt_succ_self _)))
          (htr.write nd (.inl hic)) hic hc.le
      obtain ⟨t, ht, hdone⟩ := ih (s := { s with arena := s.arena.write i.toNat nd }) ⟨_, hnode⟩ hn
        (hrest.write nd le_rfl)
      refine ⟨t, ht, ?_⟩
      cases hdone with
      | goOn h => exact .goOn h
      | finish h => exact .finish h

/-- A leaf's symbol completes the subtree of one record. -/
theorem deserSymbol_sound {s : State} {i : NodeIdx} (x : Sym) (ha : s.alloc.toNat = i.toNat + 1)
    (hn : s.alloc.toNat ≤ Config.nodeMax) (hst : DeserStack s.arena i.toNat s.stack) :
    ∃ t, deserSymbol i x s = .next t ∧ DeserDone s t := by
  rw [deserSymbol, writeRecord_of_lt _ (by omega), andThen_next]
  have hleaf := TreeWithin.leaf (m := s.arena.write i.toNat (.leaf x 0)) (i := i) (Memory.read_write_self _ _ _)
  obtain ⟨t, ht, hdone⟩ := deserReturn_sound (s := { s with arena := s.arena.write i.toNat (.leaf x 0) })
    ⟨_, ha ▸ hleaf⟩ hn (hst.write _ le_rfl)
  refine ⟨t, ht, ?_⟩
  cases hdone with
  | goOn h => exact .goOn h
  | finish h => exact .finish h

end Sys2Proof.Machine
end

section
/-! ## The whole invariant -/

namespace Sys2Proof.Machine

/-! ### What a running command's working storage must be, command by command -/

section
variable {s : State}

theorem State.RunSound.idle (hp : s.phase = .idle) : s.RunSound := by
  constructor <;> rw [hp] <;> nofun

theorem State.RunSound.count (hp : s.phase = .count) : s.RunSound := by
  constructor <;> rw [hp] <;> nofun

theorem State.RunSound.start (hl : s.loop = .start) : s.RunSound := by
  constructor
  case encode => intro _ x j h; cases hl.symm.trans h
  all_goals intro _ h; exact absurd hl h

theorem State.RunSound.ofBuild (hp : s.phase = .build) (ht : s.treeV = false) (hc : s.cwtV = false)
    (h : s.CollectionSound) : s.RunSound := by
  refine ⟨fun _ _ => ⟨ht, hc, h⟩, ?_, ?_, ?_, ?_, ?_⟩ <;> rw [hp] <;> nofun

theorem State.RunSound.ofDerive (hp : s.phase = .derive) (hs : ∀ f ∈ s.stack, FrameSound s.arena f)
    (hc : Memory.full Config.nsym s.cwt) : s.RunSound := by
  refine ⟨?_, fun _ _ => ⟨hs, hc⟩, ?_, ?_, ?_, ?_⟩ <;> rw [hp] <;> nofun

theorem State.RunSound.ofSer (hp : s.phase = .ser) (hs : ∀ f ∈ s.stack, FrameSound s.arena f)
    (hl : ∀ i, s.loop = .symbol i → ∃ x, (Tree.leaf x).isAt s.arena i = true) : s.RunSound := by
  refine ⟨?_, ?_, fun _ _ => ⟨hs, hl⟩, ?_, ?_, ?_⟩ <;> rw [hp] <;> nofun

theorem State.RunSound.ofEncode (hp : s.phase = .encode) (h : ∀ x j, s.loop = .emit x j → x.toNat < Config.nsym) :
    s.RunSound := by
  refine ⟨?_, ?_, ?_, fun _ => h, ?_, ?_⟩ <;> rw [hp] <;> nofun

theorem State.RunSound.ofDeserTop (hp : s.phase = .deser) (ht : s.treeV = false) (hc : s.cwtV = false)
    (hl : s.loop = .top) (ha : s.alloc.toNat ≤ Config.nodeMax) (h : DeserStack s.arena s.alloc.toNat s.stack) :
    s.RunSound := by
  refine ⟨?_, ?_, ?_, ?_, fun _ _ => ⟨ht, hc, by rw [hl]; exact ⟨ha, h⟩⟩, ?_⟩ <;> rw [hp] <;> nofun

theorem State.RunSound.ofDeserSymbol {i : NodeIdx} (hp : s.phase = .deser) (ht : s.treeV = false) (hc : s.cwtV = false)
    (hl : s.loop = .symbol i) (ha : s.alloc.toNat ≤ Config.nodeMax) (hi : s.alloc.toNat = i.toNat + 1)
    (h : DeserStack s.arena i.toNat s.stack) : s.RunSound := by
  refine ⟨?_, ?_, ?_, ?_, fun _ _ => ⟨ht, hc, by rw [hl]; exact ⟨hi, ha, h⟩⟩, ?_⟩ <;> rw [hp] <;> nofun

theorem State.RunSound.ofDecode (hp : s.phase = .decode)
    (h : s.loop ≠ .stop → (∃ l r, (Tree.node l r).isAt s.arena s.root = true) ∧
      if s.loop = .write then ∃ x, (Tree.leaf x).isAt s.arena s.cur = true
      else ∃ l r, (Tree.node l r).isAt s.arena s.cur = true) : s.RunSound := by
  refine ⟨?_, ?_, ?_, ?_, ?_, fun _ _ => h⟩ <;> rw [hp] <;> nofun

/-- DESER at a node boundary: what its working storage holds. -/
theorem State.RunSound.deserTop (hr : s.RunSound) (hp : s.phase = .deser) (hl : s.loop ≠ .start)
    (hs : ∀ i, s.loop ≠ .symbol i) : s.treeV = false ∧ s.cwtV = false ∧ s.alloc.toNat ≤ Config.nodeMax ∧
      DeserStack s.arena s.alloc.toNat s.stack := by
  obtain ⟨ht, hc, h⟩ := hr.deser hp hl
  split at h
  · next i hi => exact absurd hi (hs i)
  · exact ⟨ht, hc, h⟩

/-- DESER before the symbol of leaf `i`: what its working storage holds. -/
theorem State.RunSound.deserSymbol (hr : s.RunSound) (hp : s.phase = .deser) {i : NodeIdx} (hl : s.loop = .symbol i) :
    s.treeV = false ∧ s.cwtV = false ∧ s.alloc.toNat = i.toNat + 1 ∧ s.alloc.toNat ≤ Config.nodeMax ∧
      DeserStack s.arena i.toNat s.stack := by
  have h := hr.deser hp (by simp [hl])
  rwa [hl] at h

end

/-! ### The present tree -/

/-- The tree and the table are sound if they are the ones that were, or are not valid. -/
theorem State.TreeSound.congr {s t : State} (hs : s.TreeSound)
    (h : (t.root, t.nnode, t.arena, t.cwt) = (s.root, s.nnode, s.arena, s.cwt))
    (ht : t.treeV = true → s.treeV = true) (hc : t.cwtV = true → s.cwtV = true) : t.TreeSound := by
  simp only [Prod.mk.injEq] at h
  obtain ⟨hr, hn, ha, hw⟩ := h
  exact ⟨fun h => by rw [hr, hn, ha]; exact hs.tree (ht h), hn ▸ hs.nnode, fun h => hw ▸ hs.table (hc h)⟩

/-- While neither is valid nothing is asked of them but the bound. -/
theorem State.TreeSound.invalid {s : State} (ht : s.treeV = false) (hc : s.cwtV = false)
    (hn : s.nnode.toNat ≤ Config.nodeMax) : s.TreeSound :=
  ⟨fun h => by simp [ht] at h, hn, fun h => by simp [hc] at h⟩

/-- The frame of a walk from ROOT. -/
theorem State.TreeSound.rootFrame {s : State} (hs : s.TreeSound) (ht : s.treeV = true) :
    FrameSound s.arena ⟨s.root, .enter⟩ := by
  obtain ⟨t, h, -, -⟩ := hs.tree ht
  exact ⟨t, h, fun h => absurd rfl h⟩

/-- In a walk of SER or DERIVE, a frame is replaced by its child's and its own at the next phase. -/
theorem frames_descend {m : Memory Node} {i c : NodeIdx} {v w : Visit} {st rest : List Frame}
    (h : ∀ f ∈ st, FrameSound m f) (hs : st = ⟨i, v⟩ :: rest) (hc : FrameSound m ⟨c, .enter⟩) (hi : FrameSound m ⟨i, w⟩) :
    ∀ f ∈ (⟨c, .enter⟩ :: ⟨i, w⟩ :: rest : List Frame), FrameSound m f := by
  subst hs
  intro f hf
  simp only [List.mem_cons] at hf
  obtain rfl | rfl | hf := hf
  · exact hc
  · exact hi
  · exact h f (List.mem_cons_of_mem _ hf)

theorem frames_single {m : Memory Node} {g : Frame} (h : FrameSound m g) : ∀ f ∈ [g], FrameSound m f :=
  fun _ hf => List.mem_singleton.1 hf ▸ h

theorem frames_pop {m : Memory Node} {g : Frame} {st rest : List Frame} (h : ∀ f ∈ st, FrameSound m f)
    (hs : st = g :: rest) : ∀ f ∈ rest, FrameSound m f :=
  fun f hf => h f (hs ▸ List.mem_cons_of_mem _ hf)

/-! ### Every move keeps the tree and the working storage -/

section
variable {s t : State} (hs : s.Inv)
include hs

/-- BUILD's start and its merges leave the flags off and the collection sound. -/
theorem State.Inv.buildStart (hp : s.phase = .build) (h : buildStart s = .next t) : t.TreeSound ∧ t.RunSound := by
  obtain ⟨u, hu, hsound⟩ := buildStart_sound hs.frequencies (hs.status.buildReady hp)
  cases hu.symm.trans h
  obtain ⟨⟩ := buildStart_writes h
  exact ⟨.invalid rfl rfl hs.trees.nnode, .ofBuild hp rfl rfl hsound⟩

theorem State.Inv.buildMerge (hp : s.phase = .build) (hl : s.loop ≠ .start) (hm : 2 ≤ s.members.length)
    (h : buildMerge s = .next t) : t.TreeSound ∧ t.RunSound := by
  obtain ⟨ht, hc, hcoll⟩ := hs.run.build hp hl
  obtain ⟨u, hu, hsound⟩ := buildMerge_sound hs.memories.pq hcoll hm
  cases hu.symm.trans h
  obtain ⟨⟩ := buildMerge_writes h
  exact ⟨.invalid ht hc hs.trees.nnode, .ofBuild hp ht hc hsound⟩

/-- The one node left is the root of a tree on all records (R155). -/
theorem State.Inv.buildEnd (hp : s.phase = .build) (hl : s.loop ≠ .start) {r : Nat} (hm : s.members = [r]) :
    (buildEnd r s).TreeSound ∧ (buildEnd r s).RunSound := by
  obtain ⟨-, hc, hcoll⟩ := hs.run.build hp hl
  obtain ⟨f, hf⟩ := hcoll.forest
  have hfits : s.alloc.toNat + 1 ≤ Config.nodeMax + 1 := by simpa [hm] using hcoll.fits
  refine ⟨⟨fun _ => ⟨f r, hf.trees r (by simp [hm])⟩, Nat.le_of_succ_le_succ hfits, fun h => ?_⟩, .idle rfl⟩
  exact absurd (hc.symm.trans h) nofun

/-- Where a subtree is complete DESER's stack is sound, or the whole tree stands (R175). -/
theorem State.Inv.deserSymbol (hp : s.phase = .deser) {i : NodeIdx} {x : Sym} (hl : s.loop = .symbol i)
    (h : deserSymbol i x s = .next t) : t.TreeSound ∧ t.RunSound := by
  obtain ⟨ht, hc, hi, ha, hst⟩ := hs.run.deserSymbol hp hl
  obtain ⟨u, hu, hdone⟩ := deserSymbol_sound x hi ha hst
  cases hu.symm.trans h
  cases hdone with
  | goOn hst => exact ⟨.invalid ht hc hs.trees.nnode, .ofDeserTop hp ht hc rfl ha hst⟩
  | finish htree => exact ⟨⟨fun _ => htree, ha, fun h => absurd (hc.symm.trans h) nofun⟩, .idle rfl⟩

/-- A running DERIVE, SER or DECODE that is past its start finds the tree at the node it stands at. -/
theorem State.Inv.rootFrame (h : s.phase = .derive ∨ s.phase = .ser ∨ s.phase = .decode) :
    FrameSound s.arena ⟨s.root, .enter⟩ :=
  hs.trees.rootFrame (hs.status.treeReady h)

theorem State.Inv.moveTreesAndRun {p : Phase} (hp : p = s.phase) (h : EngineMove s p t) : t.TreeSound ∧ t.RunSound := by
  have htrees := hs.trees
  have hrun := hs.run
  cases h with
  | stay => exact ⟨htrees, hrun⟩
  | raise | serEnd | encodeEnd | decodeDegenerate | decodeEnd | countEnd => exact ⟨htrees.congr rfl id id, .idle rfl⟩
  | countStart | countByte => exact ⟨htrees.congr rfl id id, .count hp.symm⟩
  | buildStart _ h => exact hs.buildStart hp.symm h
  | buildMerge hl hm h => exact hs.buildMerge hp.symm hl hm h
  | buildEnd hl hm => exact hs.buildEnd hp.symm hl hm
  | deriveStart =>
    exact ⟨⟨htrees.tree, htrees.nnode, nofun⟩,
      .ofDerive hp.symm (frames_single (hs.rootFrame (.inl hp.symm))) (Memory.full_fill _ _)⟩
  | @deriveLeaf i rest x f hl hst hr =>
    obtain ⟨hframes, hfull⟩ := hrun.derive hp.symm hl
    have hfull' : Memory.full Config.nsym (s.cwt.write x.toNat (some ⟨s.plen, s.path⟩)) := Memory.full_write hfull _ _
    unfold recordCodeword
    split
    · exact ⟨⟨htrees.tree, htrees.nnode, fun _ => hfull'⟩, .ofDerive hp.symm (frames_pop hframes hst) hfull'⟩
    · exact ⟨htrees.congr rfl id id, .ofDerive hp.symm (frames_pop hframes hst) hfull⟩
  | deriveNode hl hst hr =>
    obtain ⟨hframes, hfull⟩ := hrun.derive hp.symm hl
    obtain ⟨hleft, -, hself⟩ := (hframes _ (hst ▸ List.mem_cons_self)).children hr
    exact ⟨htrees.congr rfl id id, .ofDerive hp.symm (frames_descend hframes hst hleft (hself _)) hfull⟩
  | deriveLeft hl hst hr =>
    obtain ⟨hframes, hfull⟩ := hrun.derive hp.symm hl
    obtain ⟨-, hright, hself⟩ := (hframes _ (hst ▸ List.mem_cons_self)).children hr
    exact ⟨htrees.congr rfl id id, .ofDerive hp.symm (frames_descend hframes hst hright (hself _)) hfull⟩
  | deriveRight hl hst =>
    obtain ⟨hframes, hfull⟩ := hrun.derive hp.symm hl
    exact ⟨htrees.congr rfl id id, .ofDerive hp.symm (frames_pop hframes hst) hfull⟩
  | deriveEnd hl =>
    exact ⟨⟨htrees.tree, htrees.nnode, fun _ => (hrun.derive hp.symm hl).2⟩, .idle rfl⟩
  | serStart =>
    exact ⟨htrees.congr rfl id id, .ofSer hp.symm (frames_single (hs.rootFrame (.inr (.inl hp.symm)))) nofun⟩
  | serSymbol hl =>
    obtain ⟨hframes, -⟩ := hrun.ser hp.symm (by simp [hl])
    exact ⟨htrees.congr rfl id id, .ofSer hp.symm (fun f hf => hframes f (List.mem_of_mem_tail hf)) nofun⟩
  | serLeaf hl hr =>
    obtain ⟨hframes, -⟩ := hrun.ser hp.symm hl
    refine ⟨htrees.congr rfl id id, .ofSer hp.symm hframes fun j hj => ?_⟩
    cases hj
    exact ⟨_, Tree.isAt_leaf.2 ⟨_, hr⟩⟩
  | serNode hl hst hr =>
    obtain ⟨hframes, hleaf⟩ := hrun.ser hp.symm hl
    obtain ⟨hleft, -, hself⟩ := (hframes _ (hst ▸ List.mem_cons_self)).children hr
    exact ⟨htrees.congr rfl id id, .ofSer hp.symm (frames_descend hframes hst hleft (hself _)) hleaf⟩
  | serLeft hl hst hr =>
    obtain ⟨hframes, hleaf⟩ := hrun.ser hp.symm hl
    obtain ⟨-, hright, hself⟩ := (hframes _ (hst ▸ List.mem_cons_self)).children hr
    exact ⟨htrees.congr rfl id id, .ofSer hp.symm (frames_descend hframes hst hright (hself _)) hleaf⟩
  | serRight hl hst =>
    obtain ⟨hframes, hleaf⟩ := hrun.ser hp.symm hl
    exact ⟨htrees.congr rfl id id, .ofSer hp.symm (frames_pop hframes hst) hleaf⟩
  | encodeTop => exact ⟨htrees.congr rfl id id, .ofEncode hp.symm nofun⟩
  | @encodeEmit x j hx =>
    refine ⟨htrees.congr rfl id id, .ofEncode hp.symm fun y k h => ?_⟩
    cases h
    obtain hx | ⟨k, hk⟩ := hx
    · exact hx
    · exact hrun.encode hp.symm _ _ hk
  | deserStart => exact ⟨.invalid rfl rfl htrees.nnode, .ofDeserTop hp.symm rfl rfl rfl (Nat.zero_le _) rfl⟩
  | deserLeafTag hl hsym ha =>
    obtain ⟨ht, hc, -, hst⟩ := hrun.deserTop hp.symm hl hsym
    refine ⟨.invalid ht hc htrees.nnode, .ofDeserSymbol hp.symm ht hc rfl ?_ (cnt_succ_toNat ha) hst⟩
    exact (cnt_succ_toNat ha).trans_le ha
  | deserInternalTag hl hsym ha =>
    obtain ⟨ht, hc, -, hst⟩ := hrun.deserTop hp.symm hl hsym
    refine ⟨.invalid ht hc htrees.nnode, .ofDeserTop hp.symm ht hc rfl ?_ ⟨cnt_succ_toNat ha, hst⟩⟩
    exact (cnt_succ_toNat ha).trans_le ha
  | deserSymbol hl h => exact hs.deserSymbol hp.symm hl h
  | decodeCheck _ hr =>
    obtain ⟨t, ht, -⟩ := hs.rootFrame (.inr (.inr hp.symm))
    obtain ⟨l, r, rfl, -⟩ := Tree.isAt_internal hr ht
    exact ⟨htrees.congr rfl id id, .ofDecode hp.symm fun _ => ⟨⟨l, r, ht⟩, l, r, ht⟩⟩
  | decodeCheckEof => exact ⟨htrees.congr rfl id id, .ofDecode hp.symm fun h => absurd rfl h⟩
  | @decodeToNode i a b l r f g hl hc hi hr =>
    obtain ⟨hroot, hcur⟩ := hrun.decode hp.symm hl.1 hl.2.1
    rw [if_neg hl.2.2] at hcur
    obtain ⟨_, _, hcur⟩ := hcur
    refine ⟨htrees.congr rfl id id, .ofDecode hp.symm fun _ => ⟨hroot, ?_⟩⟩
    rw [if_neg hl.2.2]
    exact Tree.isAt_internalChild hcur hc hi hr
  | decodeToEof => exact ⟨htrees.congr rfl id id, .ofDecode hp.symm fun h => absurd rfl h⟩
  | decodeToLeaf hl hr =>
    obtain ⟨hroot, -⟩ := hrun.decode hp.symm hl.1 hl.2.1
    exact ⟨htrees.congr rfl id id, .ofDecode hp.symm fun _ => ⟨hroot, _, Tree.isAt_leaf.2 ⟨_, hr⟩⟩⟩
  | decodeTruncated => exact ⟨htrees.congr rfl id id, .ofDecode hp.symm fun h => absurd rfl h⟩
  | decodeEmitted hl =>
    obtain ⟨hroot, -⟩ := hrun.decode hp.symm (by simp [hl]) (by simp [hl])
    exact ⟨htrees.congr rfl id id, .ofDecode hp.symm fun _ => ⟨hroot, hroot⟩⟩

end

theorem State.Inv.keptByMoves : KeptByMoves State.Inv where
  sameBlock hs h := by
    obtain ⟨hstatus, hmem, hfreq, htrees, hrun⟩ := hs
    refine ⟨State.StatusSound.keptByMoves.sameBlock hstatus h, State.MemoriesCanonical.keptByMoves.sameBlock hmem h,
      State.FrequencySound.keptByMoves.sameBlock hfreq h, ?_, ?_⟩
    · obtain ⟨⟩ := h; exact { htrees with }
    · obtain ⟨⟩ := h
      exact { hrun with
        build := fun hp hl => by
          obtain ⟨ht, hc, hcoll⟩ := hrun.build hp hl
          exact ⟨ht, hc, { hcoll with }⟩ }
  hardwareReset hs :=
    ⟨State.StatusSound.keptByMoves.hardwareReset hs.status, State.MemoriesCanonical.keptByMoves.hardwareReset hs.memories,
      State.FrequencySound.keptByMoves.hardwareReset hs.frequencies, .invalid rfl rfl (Nat.zero_le _), .idle rfl⟩
  clearRegisters hs :=
    ⟨State.StatusSound.keptByMoves.clearRegisters hs.status, State.MemoriesCanonical.keptByMoves.clearRegisters hs.memories,
      State.FrequencySound.keptByMoves.clearRegisters hs.frequencies, .invalid rfl rfl (Nat.zero_le _), .idle rfl⟩
  start hs hi he hr :=
    ⟨State.StatusSound.keptByMoves.start hs.status hi he hr, State.MemoriesCanonical.keptByMoves.start hs.memories hi he hr,
      State.FrequencySound.keptByMoves.start hs.frequencies hi he hr, { hs.trees with }, .start rfl⟩
  move hs hp h :=
    have ⟨htrees, hrun⟩ := hs.moveTreesAndRun hp h
    ⟨hs.status.move hp h, hs.memories.move h, hs.frequencies.move hp h, htrees, hrun⟩

/-! ### No engine step stops the machine -/

section
variable {s : State} (hs : s.Inv)
include hs

theorem State.Inv.countTick_total (hp : s.phase = .count) : ∃ t, countTick s = .next t := by
  unfold countTick
  split
  · exact ⟨_, rfl⟩
  · next hl =>
    have hfull : Memory.full Config.nsym (byteIn s).2.ft := hs.frequencies.counting hp hl
    generalize byteIn s = r at hfull
    obtain ⟨a, u⟩ := r
    cases a with
    | got b =>
      obtain ⟨f, hf⟩ := Option.isSome_iff_exists.1 (hfull b.toNat (b.isLt.trans (by decide)))
      dsimp only
      rw [countByte, withCounter_of_read hf]
      split <;> exact ⟨_, rfl⟩
    | _ => exact ⟨_, rfl⟩

theorem State.Inv.buildTick_total (hp : s.phase = .build) : ∃ t, buildTick s = .next t := by
  unfold buildTick
  split
  · obtain ⟨t, ht, -⟩ := buildStart_sound hs.frequencies (hs.status.buildReady hp)
    exact ⟨t, ht⟩
  · next hl =>
    obtain ⟨-, -, hcoll⟩ := hs.run.build hp hl
    split
    · next hm => exact absurd hm hcoll.nonempty
    · exact ⟨_, rfl⟩
    · next hm =>
      obtain ⟨t, ht, -⟩ := buildMerge_sound hs.memories.pq hcoll (by simp [hm])
      exact ⟨t, ht⟩

theorem State.Inv.deriveTick_total (hp : s.phase = .derive) : ∃ t, deriveTick s = .next t := by
  unfold deriveTick
  split
  · exact ⟨_, rfl⟩
  · next hl =>
    obtain ⟨hframes, -⟩ := hs.run.derive hp hl
    split
    · exact ⟨_, rfl⟩
    · next hst =>
      obtain ⟨t, ht, -⟩ := hframes _ (hst ▸ List.mem_cons_self)
      obtain ⟨nd, hr⟩ := Tree.isAt_some ht
      rw [withRecord_of_read hr]
      cases nd <;> exact ⟨_, rfl⟩
    · next hst =>
      obtain ⟨a, b, f, hr⟩ := (hframes ⟨_, .left⟩ (hst ▸ List.mem_cons_self)).internal nofun
      rw [withChildren_of_read hr]
      exact ⟨_, rfl⟩
    · exact ⟨_, rfl⟩

omit hs in
theorem serPut_total (r : PutAnswer × State) (k : State → State) : ∃ t, serPut s r k = .next t := by
  obtain ⟨a, u⟩ := r
  cases a <;> exact ⟨_, rfl⟩

theorem State.Inv.serTick_total (hp : s.phase = .ser) : ∃ t, serTick s = .next t := by
  unfold serTick
  split
  · exact ⟨_, rfl⟩
  · next i hl =>
    obtain ⟨-, hleaf⟩ := hs.run.ser hp (by simp [hl])
    obtain ⟨x, hx⟩ := hleaf i hl
    obtain ⟨f, hr⟩ := Tree.isAt_leaf.1 hx
    rw [withSym_of_read hr]
    exact serPut_total _ _
  · next hl _ =>
    obtain ⟨hframes, -⟩ := hs.run.ser hp hl
    split
    · exact ⟨_, rfl⟩
    · next hst =>
      obtain ⟨t, ht, -⟩ := hframes _ (hst ▸ List.mem_cons_self)
      obtain ⟨nd, hr⟩ := Tree.isAt_some ht
      rw [withRecord_of_read hr]
      cases nd <;> exact serPut_total _ _
    · next hst =>
      obtain ⟨a, b, f, hr⟩ := (hframes ⟨_, .left⟩ (hst ▸ List.mem_cons_self)).internal nofun
      rw [withChildren_of_read hr]
      exact ⟨_, rfl⟩
    · exact ⟨_, rfl⟩

omit hs in
theorem encodeLookup_total {x : Sym} (hfull : Memory.full Config.nsym s.cwt) (hx : x.toNat < Config.nsym) :
    ∃ t, encodeLookup x s = .next t := by
  obtain ⟨e, he⟩ := Option.isSome_iff_exists.1 (hfull _ hx)
  rw [encodeLookup, withEntry_of_read he]
  cases e <;> exact ⟨_, rfl⟩

omit hs in
theorem encodeBit_total {x : Sym} {j : Nat} (hfull : Memory.full Config.nsym s.cwt) (hx : x.toNat < Config.nsym) :
    ∃ t, encodeBit x j s = .next t := by
  obtain ⟨e, he⟩ := Option.isSome_iff_exists.1 (hfull _ hx)
  rw [encodeBit, withEntry_of_read he]
  cases e with
  | none => exact ⟨_, rfl⟩
  | some c =>
    dsimp only
    split
    · generalize bitOut (c.bits.getLsbD j) s = r
      obtain ⟨a, u⟩ := r
      cases a <;> exact ⟨_, rfl⟩
    · exact ⟨_, rfl⟩

theorem State.Inv.encodeTick_total (hp : s.phase = .encode) : ∃ t, encodeTick s = .next t := by
  have hfull := hs.trees.table (hs.status.encodeReady hp)
  unfold encodeTick
  split
  · exact ⟨_, rfl⟩
  · next hl => exact encodeBit_total hfull (hs.run.encode hp _ _ hl)
  · have hfull : Memory.full Config.nsym (byteIn s).2.cwt := hfull
    generalize byteIn s = r at hfull
    obtain ⟨a, u⟩ := r
    cases a with
    | got b => exact encodeLookup_total hfull (byteSym_lt b)
    | ended => exact encodeLookup_total hfull (by decide)
    | _ => exact ⟨_, rfl⟩

omit hs in
theorem deserAlloc_total {k : NodeIdx → State → Result} (hk : ∀ i u, ∃ t, k i u = .next t) :
    ∃ t, deserAlloc s k = .next t := by
  unfold deserAlloc
  split
  · exact hk _ _
  · exact ⟨_, rfl⟩

theorem State.Inv.deserTick_total (hp : s.phase = .deser) : ∃ t, deserTick s = .next t := by
  unfold deserTick
  split
  · exact ⟨_, rfl⟩
  · next i hl =>
    have hu := State.Inv.keptByMoves.sameBlock hs (PortMove.bitsIn Config.symW).sameBlock
    have hport := (PortMove.bitsIn (s := s) Config.symW).sameBlock
    generalize bitsIn Config.symW s = r at hu hport
    obtain ⟨a, u⟩ := r
    cases a with
    | got v =>
      obtain ⟨⟩ := hport
      obtain ⟨-, -, hi, ha, hst⟩ := hu.run.deserSymbol hp hl
      obtain ⟨t, ht, -⟩ := deserSymbol_sound (BitVec.ofNat Config.symW v) hi ha hst
      exact ⟨t, ht⟩
    | _ => exact ⟨_, rfl⟩
  · generalize bitIn s = r
    obtain ⟨a, u⟩ := r
    cases a with
    | got b => cases b <;> exact deserAlloc_total fun _ _ => ⟨_, rfl⟩
    | _ => exact ⟨_, rfl⟩

omit hs in
theorem decodeArrive_total {i : NodeIdx} {t : Tree} (h : t.isAt s.arena i = true) : ∃ u, decodeArrive i s = .next u := by
  obtain ⟨nd, hr⟩ := Tree.isAt_some h
  simp only [decodeArrive, withRecord, hr]
  cases nd with
  | internal => exact ⟨_, rfl⟩
  | leaf => dsimp only; split <;> exact ⟨_, rfl⟩

theorem State.Inv.decodeTick_total (hp : s.phase = .decode) : ∃ t, decodeTick s = .next t := by
  unfold decodeTick
  split
  · obtain ⟨t, ht, -⟩ := hs.rootFrame (.inr (.inr hp))
    obtain ⟨nd, hr⟩ := Tree.isAt_some ht
    simp only [decodeCheck, withRecord, hr]
    cases nd with
    | internal => exact ⟨_, rfl⟩
    | leaf => dsimp only; split <;> exact ⟨_, rfl⟩
  · next hl =>
    obtain ⟨-, hcur⟩ := hs.run.decode hp (by simp [hl]) (by simp [hl])
    rw [if_pos hl] at hcur
    obtain ⟨x, hx⟩ := hcur
    obtain ⟨f, hr⟩ := Tree.isAt_leaf.1 hx
    rw [decodeEmit, withSym_of_read hr]
    generalize byteOut _ s = r
    obtain ⟨a, u⟩ := r
    cases a <;> exact ⟨_, rfl⟩
  · exact ⟨_, rfl⟩
  · next h1 h2 h3 =>
    obtain ⟨-, hcur⟩ := hs.run.decode hp h1 h3
    rw [if_neg h2] at hcur
    obtain ⟨l, r, hcur⟩ := hcur
    have hcur : (Tree.node l r).isAt (bitIn s).2.arena (bitIn s).2.cur = true := hcur
    unfold decodeWalk
    generalize bitIn s = q at hcur
    obtain ⟨a, u⟩ := q
    obtain ⟨i, j, f, hr, hl, hrr⟩ := Tree.isAt_node.1 hcur
    cases a with
    | got b =>
      dsimp only
      rw [withChildren_of_read hr]
      cases b
      · exact decodeArrive_total hl
      · exact decodeArrive_total hrr
    | _ => exact ⟨_, rfl⟩

theorem State.Inv.engineTick_total : ∃ t, engineTick s = .next t := by
  unfold engineTick
  split
  · exact ⟨_, rfl⟩
  · exact hs.countTick_total ‹_›
  · exact hs.buildTick_total ‹_›
  · exact hs.deriveTick_total ‹_›
  · exact hs.serTick_total ‹_›
  · exact hs.encodeTick_total ‹_›
  · exact hs.deserTick_total ‹_›
  · exact hs.decodeTick_total ‹_›

end

end Sys2Proof.Machine

namespace Sys2Proof.Proofs

open Sys2Proof.Machine

/-- Settles O54: no flag is set and no command runs, so every clause is about the registers' reset values alone. -/
theorem resetMeetsTheInvariant : Obligations.ResetMeetsTheInvariant where
  status := .of_idle rfl (by decide) (fun _ => rfl) nofun nofun
  memories := ⟨Memory.wf_nil _, Memory.wf_nil _, Memory.wf_nil _, Memory.wf_nil _⟩
  frequencies := ⟨nofun, nofun, nofun⟩
  trees := .invalid rfl rfl (Nat.zero_le _)
  run := .idle rfl

/-- Settles O58: the invariant is kept by every move of a step. -/
theorem stepKeepsTheInvariant : Obligations.StepKeepsTheInvariant :=
  fun _ _ => State.Inv.keptByMoves.step

/-- Settles O60: the invariant is kept by every move, and under it no engine step stops the machine. -/
theorem noStepFromTheInvariantStops : Obligations.NoStepFromTheInvariantStops :=
  fun _ => State.Inv.keptByMoves.step_total fun _ hs => hs.engineTick_total

end Sys2Proof.Proofs
end

section
/-! ## DERIVE and the table of the present tree -/

namespace Sys2Proof.Machine

/-! ### Trees and their paths -/

/-- A tree has as many records as nodes. -/
theorem Tree.indices_length {m : Memory Node} : ∀ {t : Tree} {i : NodeIdx}, t.isAt m i = true →
    (t.indices m i).length = t.size := by
  intro t
  induction t with
  | leaf x => intros; rfl
  | node l r ihl ihr =>
    intro i h
    obtain ⟨a, b, f, hr, hl, hrr⟩ := Tree.isAt_node.1 h
    rw [Tree.indices_node hr, List.length_cons, List.length_append, ihl hl, ihr hrr, Tree.size]
    omega

/-- A tree on records of its own below `n` has at most `n` nodes. -/
theorem TreeWithin.size_le {m : Memory Node} {i : NodeIdx} {lo n : Nat} {t : Tree} (h : TreeWithin m i lo n t) :
    t.size ≤ n := by
  obtain ⟨hat, hnodup, hlt⟩ := h
  have hsub : t.indices m i ⊆ List.range n := fun j hj => List.mem_range.2 (hlt j hj).2
  simpa [Tree.indices_length hat] using (List.subperm_of_subset hnodup hsub).length_le

/-- The present tree of a sound state is one the arena can hold (R35). -/
theorem State.TreeSound.hasTree {s : State} (hs : s.TreeSound) (h : s.treeV = true) : ∃ tr, s.hasTree tr := by
  obtain ⟨tr, htr⟩ := hs.tree h
  exact ⟨tr, htr.1, htr.size_le.trans hs.nnode⟩

theorem Tree.size_pos (t : Tree) : 0 < t.size := by
  cases t <;> simp [Tree.size]

theorem Tree.paths_ne_nil (t : Tree) : t.paths ≠ [] := by
  induction t with
  | leaf x => simp [Tree.paths]
  | node l r ihl _ => simp [Tree.paths, ihl]

/-- A path takes a node and its sibling at each branch. -/
theorem Tree.paths_length {t : Tree} : ∀ {q : Sym × Bits}, q ∈ t.paths → 2 * q.2.length + 1 ≤ t.size := by
  induction t with
  | leaf x => rintro q hq; obtain rfl := List.mem_singleton.1 hq; exact le_rfl
  | node l r ihl ihr =>
    intro q hq
    have hl := l.size_pos
    have hr := r.size_pos
    simp only [Tree.paths, List.mem_append, List.mem_map] at hq
    obtain ⟨q, hq, rfl⟩ | ⟨q, hq, rfl⟩ := hq
    · have := ihl hq
      simp only [List.length_cons, Tree.size]
      omega
    · have := ihr hq
      simp only [List.length_cons, Tree.size]
      omega

/-- The paths of a subtree that stands below the path `p`. -/
def pathsBelow (p : Bits) (t : Tree) : List (Sym × Bits) := t.paths.map fun q => (q.1, p ++ q.2)

theorem pathsBelow_nil (t : Tree) : pathsBelow [] t = t.paths := by simp [pathsBelow]

theorem pathsBelow_leaf (p : Bits) (x : Sym) : pathsBelow p (.leaf x) = [(x, p)] := by
  simp [pathsBelow, Tree.paths]

theorem pathsBelow_node (p : Bits) (l r : Tree) :
    pathsBelow p (.node l r) = pathsBelow (p ++ [false]) l ++ pathsBelow (p ++ [true]) r := by
  simp [pathsBelow, Tree.paths, Function.comp_def]

/-- Below `p` there is a path, and `p` is where it begins. -/
theorem exists_mem_pathsBelow (p : Bits) (t : Tree) : ∃ q ∈ pathsBelow p t, p.length ≤ q.2.length := by
  obtain ⟨q, hq⟩ := List.exists_mem_of_ne_nil _ t.paths_ne_nil
  exact ⟨_, List.mem_map_of_mem hq, by simp⟩

/-- The path of the last leaf with symbol `x` in a list (R193). -/
def lastPath (x : Sym) (l : List (Sym × Bits)) : Option Bits := (l.reverse.find? fun q => q.1 = x).map Prod.snd

theorem lastPath_append (x : Sym) (l m : List (Sym × Bits)) :
    lastPath x (l ++ m) = (lastPath x m).or (lastPath x l) := by
  rw [lastPath, List.reverse_append, List.find?_append, Option.map_or]
  rfl

theorem lastPath_single (x y : Sym) (p : Bits) : lastPath x [(y, p)] = if y = x then some p else none := by
  by_cases h : y = x <;> simp [lastPath, h]

theorem lastPath_below (x : Sym) (b : Bool) (l : List (Sym × Bits)) :
    lastPath x (l.map fun q => (q.1, b :: q.2)) = (lastPath x l).map (b :: ·) := by
  simp only [lastPath, ← List.map_reverse, List.find?_map, Option.map_map]
  rfl

/-- The entry DERIVE leaves is the path of the last leaf in pre-order (R190, R193). -/
theorem Tree.codeword_eq_lastPath (x : Sym) (t : Tree) : t.codeword x = lastPath x t.paths := by
  induction t with
  | leaf y => simp [Tree.codeword, Tree.paths, lastPath_single]
  | node l r ihl ihr =>
    rw [Tree.paths, lastPath_append, lastPath_below, lastPath_below, ← ihl, ← ihr, Tree.codeword]
    cases r.codeword x <;> rfl

/-! ### The walk of DERIVE -/

/-- What is left of DERIVE's walk with this stack and path: the leaves still to come, in order, with their paths from the
root, and a bound on the engine steps they take (R190, R191). -/
inductive DeriveTodo (m : Memory Node) : List Frame → Bits → List (Sym × Bits) → Nat → Prop where
  | nil : DeriveTodo m [] [] [] 0
  | enter {i : NodeIdx} {t : Tree} {rest : List Frame} {p : Bits} {todo : List (Sym × Bits)} {n : Nat}
      (ht : t.isAt m i = true) (h : DeriveTodo m rest p todo n) :
    DeriveTodo m (⟨i, .enter⟩ :: rest) p (pathsBelow p t ++ todo) (n + 3 * t.size)
  | left {i a b : NodeIdx} {f : NodeFreq} {t : Tree} {rest : List Frame} {p : Bits} {todo : List (Sym × Bits)} {n : Nat}
      (hr : m.read i.toNat = some (.internal a b f)) (ht : t.isAt m b = true) (h : DeriveTodo m rest p todo n) :
    DeriveTodo m (⟨i, .left⟩ :: rest) (p ++ [false]) (pathsBelow (p ++ [true]) t ++ todo) (n + 3 * t.size + 2)
  | right {i : NodeIdx} {c : Bool} {rest : List Frame} {p : Bits} {todo : List (Sym × Bits)} {n : Nat}
      (h : DeriveTodo m rest p todo n) :
    DeriveTodo m (⟨i, .right⟩ :: rest) (p ++ [c]) todo (n + 1)

/-- The table holds the paths of the leaves that are done. -/
def State.TableHolds (s : State) (done : List (Sym × Bits)) : Prop :=
  ∀ x : Sym, x.toNat < Config.nsym → s.entry x = some (lastPath x done)

/-- A running DERIVE past its start: the table holds the leaves done, the walk has the others to do, in at most `n` engine
steps. -/
structure State.DeriveSound (s : State) (n : Nat) : Prop where
  tableOff : s.cwtV = false
  walk : ∃ tr done todo, s.hasTree tr ∧ tr.paths = done ++ todo ∧ DeriveTodo s.arena s.stack s.pathBits todo n ∧
    s.TableHolds done

@[simp] theorem State.pathBits_length (s : State) : s.pathBits.length = s.plen.toNat := Codeword.seq_length _

/-- While a leaf is to come below one more branch, PATH has room for the branch. -/
theorem plen_lt {s : State} {tr t : Tree} {done todo : List (Sym × Bits)} {c : Bool} (htr : s.hasTree tr)
    (hpaths : tr.paths = done ++ todo) (hsub : pathsBelow (s.pathBits ++ [c]) t ⊆ todo) : s.plen.toNat < Config.cwMax := by
  obtain ⟨q, hq, hlen⟩ := exists_mem_pathsBelow (s.pathBits ++ [c]) t
  have hmem : q ∈ tr.paths := hpaths ▸ List.mem_append_right _ (hsub hq)
  have hsize := (Tree.paths_length hmem).trans htr.2
  rw [List.length_append, State.pathBits_length, List.length_singleton] at hlen
  show _ < 256
  have : 2 * q.2.length + 1 ≤ 513 := hsize
  omega

/-- A branch is taken off a path that has one. -/
theorem State.pathBits_popBranch_of_append {s : State} {p : Bits} {c : Bool} (h : s.pathBits = p ++ [c]) :
    s.popBranch.pathBits = p := by
  have hne : s.plen ≠ 0 := by
    intro h0
    have := s.pathBits_length
    rw [h, h0] at this
    simp at this
  rw [State.pathBits_popBranch hne, h, List.dropLast_concat]

/-- The entry of a symbol after a leaf's codeword is recorded. -/
theorem recordCodeword_holds {s : State} {done : List (Sym × Bits)} (h : s.TableHolds done) (x : Sym) :
    (recordCodeword x s).TableHolds (done ++ [(x, s.pathBits)]) := by
  intro y hy
  rw [lastPath_append, lastPath_single]
  by_cases hxy : x = y
  · subst hxy
    simp [recordCodeword, hy, State.entry, State.pathBits]
  · have hne : y.toNat ≠ x.toNat := fun h => hxy (BitVec.eq_of_toNat_eq h.symm)
    have hentry : (recordCodeword x s).entry y = s.entry y := by
      unfold recordCodeword State.entry
      split
      · rw [Memory.read_write_of_ne _ _ hne]
      · rfl
    rw [hentry, h y hy, if_neg hxy, Option.none_or]

/-- What a move of DERIVE's walk does: it ends with the table of the tree, or less is left of it. -/
theorem State.DeriveSound.move {s t : State} {n : Nat} (hs : s.DeriveSound n) (hl : s.loop ≠ .start)
    (h : EngineMove s .derive t) :
    (t.phase = .idle ∧ t.TableOfTree) ∨ (t.phase = s.phase ∧ t.loop = s.loop ∧ ∃ k < n, t.DeriveSound k) := by
  obtain ⟨hoff, tr, done, todo, htr, hpaths, htodo, htable⟩ := hs
  cases h with
  | stay hp => exact absurd rfl hp.2
  | raise _ hp => exact absurd rfl hp.2
  | deriveStart h => exact absurd h hl
  | deriveEnd _ hst =>
    rw [hst] at htodo
    generalize s.pathBits = p at htodo
    cases htodo
    rw [List.append_nil] at hpaths
    refine .inl ⟨rfl, fun _ => ⟨tr, htr, fun x hx => ?_⟩⟩
    rw [Tree.codeword_eq_lastPath, hpaths]
    exact htable x hx
  | @deriveLeaf i rest x f _ hst hr =>
    rw [hst] at htodo
    generalize hpb : s.pathBits = p at htodo
    cases htodo with
    | @enter _ u _ _ todo k hu hrest =>
      obtain rfl := Tree.isAt_leafRecord hr hu
      have hdone := recordCodeword_holds htable x
      rw [hpb] at hdone
      rw [pathsBelow_leaf, ← List.append_assoc] at hpaths
      unfold recordCodeword at hdone ⊢
      split at hdone
      · next hx =>
        rw [if_pos hx]
        exact .inr ⟨rfl, rfl, k, by simp [Tree.size], hoff, tr, _, todo, htr, hpaths, hpb ▸ hrest, hdone⟩
      · next hx =>
        rw [if_neg hx]
        exact .inr ⟨rfl, rfl, k, by simp [Tree.size], hoff, tr, _, todo, htr, hpaths, hpb ▸ hrest, hdone⟩
  | @deriveNode i a b rest f _ hst hr =>
    rw [hst] at htodo
    generalize hpb : s.pathBits = p at htodo
    cases htodo with
    | @enter _ u _ _ todo k hu hrest =>
      obtain ⟨l, r, rfl, hleft, hright⟩ := Tree.isAt_internal hr hu
      rw [pathsBelow_node, List.append_assoc] at hpaths
      have hroom : s.plen.toNat < Config.cwMax :=
        plen_lt (t := l) (c := false) htr hpaths (by rw [hpb]; exact List.subset_append_left _ _)
      have hpush : (s.pushBranch false).pathBits = p ++ [false] := hpb ▸ State.pathBits_pushBranch hroom
      have hrest' := DeriveTodo.enter hleft (.left hr hright hrest)
      rw [← hpush] at hrest' hpaths
      exact .inr ⟨rfl, rfl, _, by rw [Tree.size]; omega, hoff, tr, done, _, htr, hpaths, hrest', htable⟩
  | @deriveLeft i a b rest f _ hst hr =>
    rw [hst] at htodo
    generalize hpb : s.pathBits = p' at htodo
    cases htodo with
    | @left _ a' b' _ u _ p todo k hr' hu hrest =>
      cases hr.symm.trans hr'
      have hpop : s.popBranch.pathBits = p := State.pathBits_popBranch_of_append hpb
      have hroom : s.popBranch.plen.toNat < Config.cwMax :=
        plen_lt (s := s.popBranch) (t := u) (c := true) htr hpaths (by rw [hpop]; exact List.subset_append_left _ _)
      have hpush : (s.popBranch.pushBranch true).pathBits = p ++ [true] := hpop ▸ State.pathBits_pushBranch hroom
      have hrest' := DeriveTodo.enter hu (.right (i := i) (c := true) hrest)
      rw [← hpush] at hrest' hpaths
      exact .inr ⟨rfl, rfl, _, by omega, hoff, tr, done, _, htr, hpaths, hrest', htable⟩
  | @deriveRight i rest _ hst =>
    rw [hst] at htodo
    generalize hpb : s.pathBits = p' at htodo
    cases htodo with
    | @right _ c _ p _ k hrest =>
      have hpop : s.popBranch.pathBits = p := State.pathBits_popBranch_of_append hpb
      exact .inr ⟨rfl, rfl, k, Nat.lt_succ_self k, hoff, tr, done, todo, htr, hpaths, hpop ▸ hrest, htable⟩

/-- DERIVE's start: the whole tree is to do (R190). -/
theorem deriveStart_sound {s : State} {tr : Tree} (h : s.hasTree tr) : (deriveStart s).DeriveSound (3 * tr.size) := by
  have hpath : (deriveStart s).pathBits = [] := by simp [State.pathBits, deriveStart, Codeword.seq]
  refine ⟨rfl, tr, [], tr.paths, h, rfl, ?_, fun x hx => ?_⟩
  · have htodo := DeriveTodo.enter h.1 (DeriveTodo.nil (m := s.arena))
    rw [pathsBelow_nil, List.append_nil, Nat.zero_add] at htodo
    exact hpath ▸ htodo
  · simp [State.entry, deriveStart, Memory.read_fill, hx, lastPath]

/-! ### Every move keeps the table that of the tree -/

/-- The invariant, the table of the present tree, and where DERIVE stands. -/
structure State.TableSound (s : State) : Prop where
  inv : s.Inv
  table : s.TableOfTree
  derive : s.phase = .derive → s.loop ≠ .start → ∃ n ≤ 3 * Config.nodeMax, s.DeriveSound n

/-- A command other than DERIVE leaves a valid table and its tree alone, or makes the table invalid (R36, R292). -/
theorem State.Inv.table_of_not_derive {s t : State} {p : Phase} (hs : s.Inv) (hp : p = s.phase) (hd : p ≠ .derive)
    (h : EngineMove s p t) (hv : t.cwtV = true) :
    s.cwtV = true ∧ t.arena = s.arena ∧ t.root = s.root ∧ t.cwt = s.cwt := by
  cases h with
  | buildStart _ h => obtain ⟨⟩ := buildStart_writes h; cases hv
  | buildMerge hl _ h =>
    obtain ⟨⟩ := buildMerge_writes h
    exact absurd ((hs.run.build hp.symm hl).2.1.symm.trans hv) nofun
  | buildEnd hl => exact absurd ((hs.run.build hp.symm hl).2.1.symm.trans hv) nofun
  | deserStart => cases hv
  | deserSymbol hl h =>
    have hoff := (hs.run.deserSymbol hp.symm hl).2.1
    cases deserSymbol_writes h <;> exact absurd (hoff.symm.trans hv) nofun
  | deriveStart | deriveLeaf | deriveNode | deriveLeft | deriveRight | deriveEnd => exact absurd rfl hd
  | _ => exact ⟨hv, rfl, rfl, rfl⟩

/-- The table stays that of the tree while neither changes. -/
theorem State.TableOfTree.congr {s t : State} (hs : s.TableOfTree)
    (h : t.cwtV = true → s.cwtV = true ∧ t.arena = s.arena ∧ t.root = s.root ∧ t.cwt = s.cwt) : t.TableOfTree := by
  intro hv
  obtain ⟨hsv, ha, hr, hc⟩ := h hv
  obtain ⟨tr, htr, htable⟩ := hs hsv
  exact ⟨tr, by rwa [State.hasTree, ha, hr], fun x hx => by rw [State.entry, hc]; exact htable x hx⟩

theorem State.TableSound.move {s t : State} {p : Phase} (hs : s.TableSound) (hp : p = s.phase) (h : EngineMove s p t) :
    t.TableSound := by
  have hinv := State.Inv.keptByMoves.move hs.inv hp h
  by_cases hd : p = .derive
  · subst hd
    by_cases hl : s.loop = .start
    · have htree : s.treeV = true := hs.inv.status.treeReady (.inl hp.symm)
      cases h with
      | stay hp => exact absurd rfl hp.2
      | raise _ hp => exact absurd rfl hp.2
      | deriveStart =>
        obtain ⟨tr, htr⟩ := hs.inv.trees.hasTree htree
        exact ⟨hinv, nofun, fun _ _ => ⟨_, Nat.mul_le_mul_left 3 htr.2, deriveStart_sound htr⟩⟩
      | deriveLeaf h | deriveNode h | deriveLeft h | deriveRight h | deriveEnd h => exact absurd hl h
    · obtain ⟨n, hn, hsound⟩ := hs.derive hp.symm hl
      obtain ⟨hidle, htable⟩ | ⟨-, -, k, hk, hsound⟩ := hsound.move hl h
      · exact ⟨hinv, htable, fun h => absurd (hidle.symm.trans h) nofun⟩
      · exact ⟨hinv, fun hv => absurd (hsound.tableOff.symm.trans hv) nofun, fun _ _ => ⟨k, hk.le.trans hn, hsound⟩⟩
  · refine ⟨hinv, hs.table.congr (hs.inv.table_of_not_derive hp hd h), fun ht => ?_⟩
    obtain hphase | hphase := h.phase
    · exact absurd (hp.trans (hphase.symm.trans ht)) hd
    · exact absurd (hphase.symm.trans ht) nofun

theorem State.DeriveSound.sameBlock {s t : State} {n : Nat} (hs : s.DeriveSound n) (h : SameBlock s t) :
    t.DeriveSound n := by
  obtain ⟨⟩ := h
  exact ⟨hs.tableOff, hs.walk⟩

theorem State.TableSound.keptByMoves : KeptByMoves State.TableSound where
  sameBlock hs h := by
    have hinv := State.Inv.keptByMoves.sameBlock hs.inv h
    have hderive := fun n hn => State.DeriveSound.sameBlock (n := n) hn h
    obtain ⟨⟩ := h
    exact ⟨hinv, hs.table, fun hp hl => (hs.derive hp hl).imp fun n hn => hn.imp_right (hderive n)⟩
  hardwareReset hs := ⟨State.Inv.keptByMoves.hardwareReset hs.inv, nofun, nofun⟩
  clearRegisters hs := ⟨State.Inv.keptByMoves.clearRegisters hs.inv, nofun, nofun⟩
  start hs hi he hr := ⟨State.Inv.keptByMoves.start hs.inv hi he hr, hs.table, fun _ h => absurd rfl h⟩
  move hs hp h := hs.move hp h

/-! ### No DERIVE is left running -/

/-- An engine step of a running DERIVE, with its transaction, which is none. -/
theorem engineTick_derive {s t : State} (hp : s.phase = .derive) (h : engineTick s = .next t) :
    ∃ u, SameBlock s u ∧ EngineMove u .derive t := by
  rw [engineTick_eq_tickOf, hp] at h
  obtain ⟨u, hu, hm⟩ := tickOf_step h
  exact ⟨u, hu.sameBlock, hm⟩

/-- DERIVE past its start ends within the steps that are left and one more. -/
theorem drive_derive_idle {m : Nat} : ∀ {s t : State} {n : Nat}, s.phase = .derive → s.loop ≠ .start → s.DeriveSound n →
    n < m → drive engineTick m s = .next t → t.phase = .idle := by
  induction m with
  | zero => intro s t n _ _ _ hn; exact absurd hn (Nat.not_lt_zero n)
  | succ m ih =>
    intro s t n hp hl hs hn h
    rw [drive_succ _ _ (by simp [hp])] at h
    obtain ⟨u, hu, h⟩ := andThen_eq_next.1 h
    obtain ⟨v, hv, hm⟩ := engineTick_derive hp hu
    have hvs := hs.sameBlock hv
    obtain ⟨⟩ := hv
    obtain ⟨hidle, -⟩ | ⟨hphase, hloop, k, hk, hsound⟩ := hvs.move hl hm
    · rw [drive_idle _ _ hidle] at h
      cases h
      exact hidle
    · exact ih (hphase.trans hp) (hloop ▸ hl) hsound (by omega) h

/-- A running DERIVE is carried to its end (R88). -/
theorem State.TableSound.resume_derive {s t : State} (hs : s.TableSound) (hp : s.phase = .derive)
    (h : resume s = .next t) : t.phase = .idle := by
  have hfuel : fuelOf s.phase s = 3 * Config.nodeMax + 1 + 1 := by rw [hp]; rfl
  rw [resume_eq_drive, hfuel] at h
  by_cases hl : s.loop = .start
  · rw [drive_succ _ _ (by simp [hp])] at h
    obtain ⟨u, hu, h⟩ := andThen_eq_next.1 h
    have hus := State.TableSound.keptByMoves.engineTick hs hu
    rw [engineTick, hp] at hu
    simp only [deriveTick, hl] at hu
    cases hu
    obtain ⟨n, hn, hsound⟩ := hus.derive hp nofun
    exact drive_derive_idle (s := deriveStart s) hp nofun hsound (Nat.lt_succ_of_le hn) h
  · obtain ⟨n, hn, hsound⟩ := hs.derive hp hl
    exact drive_derive_idle hp hl hsound (by omega) h

/-- The rest of a run leaves no DERIVE running. -/
theorem State.TableSound.resume_not_derive {s t : State} (hs : s.TableSound) (h : resume s = .next t) :
    t.phase ≠ .derive := by
  by_cases hp : s.phase = .derive
  · rw [hs.resume_derive hp h]; nofun
  · have hkeep : t.phase = s.phase ∨ t.phase = .idle := by
      refine drive_keeps (P := fun u => u.phase = s.phase ∨ u.phase = .idle) (fun u v hu _ hv => ?_) _ s t (.inl rfl)
        (resume_eq_drive s ▸ h)
      obtain hv | hv := engineTick_phase hv
      · rwa [hv]
      · exact .inr hv
    obtain h | h := hkeep <;> rw [h]
    · exact hp
    · nofun

theorem State.TableSound.runDuring_not_derive {t : State} : ∀ {ms : List BusyMove} {s : State}, s.TableSound →
    runDuring ms s = .next t → t.phase ≠ .derive := by
  intro ms
  induction ms with
  | nil => intro s hs h; exact hs.resume_not_derive h
  | cons m ms ih =>
    intro s hs h
    obtain ⟨u, hu, h⟩ := andThen_eq_next.1 h
    have hkept := State.TableSound.keptByMoves
    exact ih (hkept.act (hkept.drive hs hu) m) h

theorem hostAct_phase {s t : State} (h : hostAct s = some t) : t.phase = s.phase ∨ t.phase = .idle := by
  obtain ⟨u, hu, h | rfl⟩ := hostAct_cases h
  · obtain ⟨⟩ := hu
    obtain ⟨⟩ := h
    exact .inl rfl
  · exact .inr rfl

theorem State.TableSound.step_not_derive {s t : State} (hs : s.TableSound) (hp : s.phase ≠ .derive)
    (h : step s = .next t) : t.phase ≠ .derive := by
  obtain h | rfl | h | ⟨w, hi, h⟩ := step_cases h
  · obtain h | h := hostAct_phase h <;> rw [h]
    · exact hp
    · nofun
  · exact hp
  · exact hs.resume_not_derive h
  · obtain ⟨u, hu, h⟩ := andThen_eq_next.1 h
    exact (State.TableSound.keptByMoves.acceptOnly hs hi hu).runDuring_not_derive h

end Sys2Proof.Machine

namespace Sys2Proof.Proofs

open Sys2Proof.Machine

/-- Settles O59: every move keeps the table that of the tree, where a DERIVE has done the leaves before those it has to do;
and a DERIVE that a step starts ends in it. -/
theorem stepKeepsTheTableOfTheTree : Obligations.StepKeepsTheTableOfTheTree := by
  intro s t hinv hp htable h
  have hs : s.TableSound := ⟨hinv, htable, fun h => absurd h hp⟩
  exact ⟨hs.step_not_derive hp h, (State.TableSound.keptByMoves.step hs h).table⟩

end Sys2Proof.Proofs
end

section
/-! ## The streams

Acceptance and the block's own moves touch no stream; what moves one is a transaction of the command that runs. -/

namespace Sys2Proof.Machine

/-! ### What a run does to the streams (R66, R67, R79, R82) -/

/-- The four streams of `t` are those of `s`. -/
structure SameStreams (s t : State) : Prop where
  bsrc : t.bsrc = s.bsrc
  bsnk : t.bsnk = s.bsnk
  bitin : t.bitin = s.bitin
  bitout : t.bitout = s.bitout

theorem SameStreams.refl (s : State) : SameStreams s s := ⟨rfl, rfl, rfl, rfl⟩

theorem SameStreams.trans {s t u : State} (h : SameStreams s t) (h' : SameStreams t u) : SameStreams s u :=
  ⟨h'.bsrc.trans h.bsrc, h'.bsnk.trans h.bsnk, h'.bitin.trans h.bitin, h'.bitout.trans h.bitout⟩

/-- A sink has taken more: it still holds what it held, and takes as it did (R66). -/
structure Sink.Grows {α : Type} (snk snk' : Sink α) : Prop where
  written : snk.written <+: snk'.written
  room : snk.room = none → snk'.room = none
  whenFull : snk'.whenFull = snk.whenFull

theorem Sink.Grows.refl {α : Type} (snk : Sink α) : snk.Grows snk := ⟨⟨[], List.append_nil _⟩, id, rfl⟩

theorem Sink.Grows.trans {α : Type} {a b c : Sink α} (h : a.Grows b) (h' : b.Grows c) : a.Grows c :=
  ⟨h.written.trans h'.written, h'.room ∘ h.room, h'.whenFull.trans h.whenFull⟩

theorem Sink.put_grows {α : Type} (snk : Sink α) (xs : List α) : snk.Grows (snk.put xs).2 := by
  obtain ⟨w, room, f⟩ := snk
  rcases room with _ | _ | k
  · exact ⟨⟨xs, rfl⟩, id, rfl⟩
  · exact .refl _
  · exact ⟨⟨xs, rfl⟩, nofun, rfl⟩

/-- Every stream has only gone on. -/
structure StreamsMoved (s t : State) : Prop where
  bsrc : s.bsrc.Forward t.bsrc
  bsnk : s.bsnk.Grows t.bsnk
  bitin : s.bitin.Forward t.bitin
  bitout : s.bitout.Grows t.bitout

theorem SameStreams.moved {s t : State} (h : SameStreams s t) : StreamsMoved s t := by
  obtain ⟨h1, h2, h3, h4⟩ := h
  exact ⟨h1 ▸ .refl _, h2 ▸ .refl _, h3 ▸ .refl _, h4 ▸ .refl _⟩

theorem StreamsMoved.trans {s t u : State} (h : StreamsMoved s t) (h' : StreamsMoved t u) : StreamsMoved s u :=
  ⟨h.bsrc.trans h'.bsrc, h.bsnk.trans h'.bsnk, h.bitin.trans h'.bitin, h.bitout.trans h'.bitout⟩

theorem PortMove.streamsMoved {p : Phase} {s t : State} (h : PortMove s p t) : StreamsMoved s t := by
  cases h with
  | none => exact (SameStreams.refl s).moved
  | byteIn =>
    obtain ⟨src, h, hf⟩ := byteIn_snd s
    rw [h]; exact ⟨hf, .refl _, .refl _, .refl _⟩
  | byteOut => exact ⟨.refl _, Sink.put_grows _ _, .refl _, .refl _⟩
  | bitIn =>
    obtain ⟨src, h, hf⟩ := bitIn_snd s
    rw [h]; exact ⟨.refl _, .refl _, hf, .refl _⟩
  | bitsIn n =>
    obtain ⟨src, d, h, hf⟩ := bitsIn_snd n s
    rw [h]; exact ⟨.refl _, .refl _, hf, .refl _⟩
  | bitOut => exact ⟨.refl _, .refl _, .refl _, Sink.put_grows _ _⟩
  | bitsOut => exact ⟨.refl _, .refl _, .refl _, Sink.put_grows _ _⟩

theorem DeserWrites.sameStreams {s t : State} (h : DeserWrites s t) : SameStreams s t := by
  cases h <;> exact ⟨rfl, rfl, rfl, rfl⟩

/-- The transaction done, a move touches no stream. -/
theorem EngineMove.sameStreams {p : Phase} {s t : State} (h : EngineMove s p t) : SameStreams s t := by
  cases h with
  | buildStart _ h => obtain ⟨⟩ := buildStart_writes h; exact ⟨rfl, rfl, rfl, rfl⟩
  | buildMerge _ _ h => obtain ⟨⟩ := buildMerge_writes h; exact ⟨rfl, rfl, rfl, rfl⟩
  | deriveLeaf => rw [recordCodeword_eq]; exact ⟨rfl, rfl, rfl, rfl⟩
  | deserSymbol _ h => exact (deserSymbol_writes h).sameStreams
  | _ => exact ⟨rfl, rfl, rfl, rfl⟩

theorem tickOf_streamsMoved {p : Phase} {s t : State} (h : tickOf p s = .next t) : StreamsMoved s t := by
  obtain ⟨u, hu, hm⟩ := tickOf_step h
  exact hu.streamsMoved.trans hm.sameStreams.moved

/-- A run moves the streams forward, however long it is. -/
theorem drive_tickOf_streamsMoved {p : Phase} {n : Nat} {s t : State} (h : drive (tickOf p) n s = .next t) :
    StreamsMoved s t :=
  drive_keeps (P := StreamsMoved s) (fun _ _ hu _ hv => hu.trans (tickOf_streamsMoved hv)) n s t (SameStreams.refl s).moved h

/-! ### What an acceptance does to them: nothing -/

theorem accept_sameStreams {p : Phase} {s t : State} (h : accept p s = .next t) : SameStreams s t := by
  obtain ⟨-, ha⟩ | ⟨-, -, ha⟩ | ⟨-, -, ha⟩ := accept_cases p s <;> cases ha.symm.trans h <;> exact ⟨rfl, rfl, rfl, rfl⟩

theorem acceptIllegal_sameStreams {w : Byte} {s t : State} (h : acceptIllegal w s = .next t) : SameStreams s t := by
  obtain ⟨-, ha⟩ | ⟨-, ha⟩ := acceptIllegal_cases w s <;> cases ha.symm.trans h <;> exact ⟨rfl, rfl, rfl, rfl⟩

/-- The allocation of a record touches no stream, nor does what it is allocated for. -/
theorem deserAlloc_sameStreams {s t : State} {k : NodeIdx → State → Result}
    (hk : ∀ {i u t}, k i u = .next t → SameStreams u t) (h : deserAlloc s k = .next t) : SameStreams s t := by
  obtain ⟨-, h⟩ | rfl := deserAlloc_cases h
  · obtain ⟨h1, h2, h3, h4⟩ := hk h
    exact ⟨h1, h2, h3, h4⟩
  · exact ⟨rfl, rfl, rfl, rfl⟩

theorem deserLeafTag_sameStreams {s t : State} (h : deserLeafTag s = .next t) : SameStreams s t :=
  deserAlloc_sameStreams (fun h => by cases h; exact ⟨rfl, rfl, rfl, rfl⟩) h

theorem execTreeInternal_sameStreams {s t : State} (h : execTreeInternal s = .next t) : SameStreams s t := by
  unfold execTreeInternal at h
  split at h
  · exact deserAlloc_sameStreams (fun h => by cases h; exact ⟨rfl, rfl, rfl, rfl⟩) h
  · cases h

theorem execTreeLeaf_sameStreams {x : Sym} {s t : State} (h : execTreeLeaf x s = .next t) : SameStreams s t := by
  unfold execTreeLeaf at h
  split at h
  · obtain ⟨u, hu, h⟩ := andThen_eq_next.1 h
    refine (deserLeafTag_sameStreams hu).trans ?_
    split at h
    · exact (deserSymbol_writes h).sameStreams
    · cases h; exact .refl _
  · cases h

theorem acceptOnly_sameStreams {i : Instr} {s t : State} (h : acceptOnly i s = .next t) : SameStreams s t := by
  cases i with
  | nop => cases h; exact .refl s
  | rst => cases h; exact ⟨rfl, rfl, rfl, rfl⟩
  | treeLeaf x => exact execTreeLeaf_sameStreams h
  | treeInternal => exact execTreeInternal_sameStreams h
  | count | build | derive | ser | encode | deser | decode => exact accept_sameStreams h
  | _ => exact acceptIllegal_sameStreams h

/-! ### An instruction and the command it runs -/

/-- The command an instruction runs, idle for one that is complete with its acceptance. -/
def commandOf : Instr → Phase
  | .count => .count
  | .build => .build
  | .derive => .derive
  | .ser => .ser
  | .encode => .encode
  | .deser => .deser
  | .decode => .decode
  | _ => .idle

/-- An execution is an acceptance and then engine steps of the command the instruction runs, none where it runs none. -/
theorem exec_eq_next {i : Instr} {s t : State} (h : exec i s = .next t) :
    ∃ u n, acceptOnly i s = .next u ∧ drive (tickOf (commandOf i)) n u = .next t := by
  cases i with
  | count | build | derive | ser | encode | deser | decode =>
    obtain ⟨u, hu, h⟩ := andThen_eq_next.1 h
    exact ⟨u, _, hu, h⟩
  | _ => exact ⟨t, 0, h, rfl⟩

/-- On the idle block acceptance starts the instruction's command or leaves the block idle. -/
theorem acceptOnly_phase {i : Instr} {s t : State} (hi : s.phase = .idle) (h : acceptOnly i s = .next t) :
    t.phase = commandOf i ∨ t.phase = .idle := by
  have hn : s.atNode = false := by simp [State.atNode, hi]
  cases i with
  | nop => cases h; exact .inr hi
  | rst => cases h; exact .inr rfl
  | treeLeaf x => simp [acceptOnly, execTreeLeaf, hn] at h
  | treeInternal => simp [acceptOnly, execTreeInternal, hn] at h
  | count | build | derive | ser | encode | deser | decode =>
    obtain ⟨-, ha⟩ | ⟨-, -, ha⟩ | ⟨-, -, ha⟩ := accept_cases _ s <;> cases ha.symm.trans h
    · exact .inr hi
    · exact .inr rfl
    · exact .inl rfl
  | _ =>
    obtain ⟨-, ha⟩ | ⟨-, ha⟩ := acceptIllegal_cases _ s <;> cases ha.symm.trans h
    · exact .inr hi
    · exact .inr rfl

/-- The streams that an instruction's command does not use (R60) are as they were. -/
def OthersKept (i : Instr) (s t : State) : Prop :=
  (i ≠ .count → i ≠ .encode → t.bsrc = s.bsrc) ∧ (i ≠ .decode → t.bsnk = s.bsnk) ∧
  (i ≠ .deser → i ≠ .decode → t.bitin = s.bitin) ∧ (i ≠ .ser → i ≠ .encode → t.bitout = s.bitout)

/-- After its acceptance an instruction's engine steps reach the streams of its command only. -/
theorem othersKept_of_run {i : Instr} {n : Nat} {s u t : State} (hu : acceptOnly i s = .next u)
    (h : drive (tickOf (commandOf i)) n u = .next t) : OthersKept i s t := by
  obtain ⟨h1, h2, h3, h4⟩ := acceptOnly_sameStreams hu
  have hw := drive_tickOf_writes h
  unfold OthersKept
  rw [← h1, ← h2, ← h3, ← h4]
  generalize hp : commandOf i = p at hw
  refine ⟨fun hc he => ?_, fun hd => ?_, fun hd he => ?_, fun hs he => ?_⟩
  · cases hw with
    | count => cases i <;> simp [commandOf] at hp hc
    | encode => cases i <;> simp [commandOf] at hp he
    | _ => rfl
  · cases hw with
    | decode => cases i <;> simp [commandOf] at hp hd
    | _ => rfl
  · cases hw with
    | deser => cases i <;> simp [commandOf] at hp hd
    | decode => cases i <;> simp [commandOf] at hp he
    | _ => rfl
  · cases hw with
    | ser => cases i <;> simp [commandOf] at hp hs
    | encode => cases i <;> simp [commandOf] at hp he
    | _ => rfl

theorem streamsMoved_of_run {i : Instr} {n : Nat} {s u t : State} (hu : acceptOnly i s = .next u)
    (h : drive (tickOf (commandOf i)) n u = .next t) : StreamsMoved s t :=
  (acceptOnly_sameStreams hu).moved.trans (drive_tickOf_streamsMoved h)

end Sys2Proof.Machine

namespace Sys2Proof.Proofs

open Sys2Proof.Machine

/-- Settles O44: an execution is an acceptance, which touches no stream, and engine steps, each with one transaction. -/
theorem streamsOnlyMoveForward : Obligations.StreamsOnlyMoveForward := by
  intro i s t h
  obtain ⟨u, n, hu, h⟩ := exec_eq_next h
  have hm := streamsMoved_of_run hu h
  exact ⟨hm.bsrc, hm.bitin, hm.bsnk.written, hm.bitout.written⟩

/-- Settles O45: after the acceptance the engine steps write what their command may write, the streams it uses among it. -/
theorem eachStreamIsReachedByItsCommandsOnly : Obligations.EachStreamIsReachedByItsCommandsOnly := by
  intro i s t h
  obtain ⟨u, n, hu, h⟩ := exec_eq_next h
  exact othersKept_of_run hu h

/-- Settles O18: the step is acceptance, `k` engine steps and the reset, after which nothing runs. -/
theorem resetDuringACommandSpoilsItsStreamsOnly : Obligations.ResetDuringACommandSpoilsItsStreamsOnly := by
  intro s u w i k hi hcmd hdec hrun
  obtain rfl : decodeCommand w = i := Except.ok.inj hdec
  obtain ⟨v, hv, hk⟩ := andThen_eq_next.1 hrun
  have hstep : step s = .next (hardwareReset u) := by
    have hissue : step s = issue ⟨w, [.reset k]⟩ { s with cmd := none } := by simp [step, State.busy, hi, hcmd]
    rw [hissue, issue_eq _ (s := { s with cmd := none }) hi, hv, andThen_next]
    exact andThen_eq_next.2 ⟨u, hk, resume_idle (s := hardwareReset u) rfl⟩
  rw [← drive_tickOf (p := commandOf (decodeCommand w)) k (acceptOnly_phase (s := { s with cmd := none }) hi hv)] at hk
  have hm := streamsMoved_of_run hv hk
  have ho := othersKept_of_run hv hk
  exact ⟨hardwareReset u, hstep, rfl, hardwareReset_status u, rfl, rfl, rfl, rfl, rfl, fun _ => ⟨rfl, rfl, rfl, rfl⟩,
    rfl, rfl, rfl, rfl, hm.bsrc, hm.bitin, hm.bsnk.written, hm.bitout.written, ho⟩

end Sys2Proof.Proofs
end

section
/-! ## Ports that answer, and SER

What a transaction answers, said once for every sink; and the walk of SER with the transactions that are still to come. -/

namespace Sys2Proof.Machine

/-! ### The answers of a sink (R63, R65, R66, R88) -/

/-- What one transaction does to a sink: it is taken, or the sink is full and says so, or never says anything. -/
inductive SinkTakes {α : Type} (snk : Sink α) (xs : List α) : PutAnswer × Sink α → Prop where
  | ok (h : snk.takes 1) : SinkTakes snk xs (.ok, snk.after 1 xs)
  | failed (hr : snk.room = some 0) (hf : snk.whenFull = .failure) : SinkTakes snk xs (.failed, snk)
  | waiting (hr : snk.room = some 0) (hf : snk.whenFull = .silent) : SinkTakes snk xs (.waiting, snk)

theorem Sink.put_takes {α : Type} (snk : Sink α) (xs : List α) : SinkTakes snk xs (snk.put xs) := by
  obtain ⟨w, room, f⟩ := snk
  rcases room with _ | _ | k
  · exact .ok (by simp [Sink.takes])
  · cases f
    · exact .failed rfl rfl
    · exact .waiting rfl rfl
  · exact .ok (by simp [Sink.takes])

/-- A sink with room takes the next transaction. -/
theorem Sink.put_of_takes {α : Type} {snk : Sink α} (xs : List α) (h : snk.takes 1) :
    snk.put xs = (.ok, snk.after 1 xs) := by
  generalize hr : snk.put xs = r
  cases hr ▸ snk.put_takes xs with
  | ok => rfl
  | failed h0 => exact absurd (h 0 h0) (by decide)
  | waiting h0 => exact absurd (h 0 h0) (by decide)

/-- A sink that has failed fails again and keeps what it holds (R66). -/
theorem Sink.put_of_full {α : Type} {snk : Sink α} (xs : List α) (hr : snk.room = some 0) (hf : snk.whenFull = .failure) :
    snk.put xs = (.failed, snk) := by
  simp [Sink.put, hr, hf, SinkEnd.answer]

@[simp] theorem Sink.after_zero {α : Type} (snk : Sink α) : snk.after 0 [] = snk := by
  obtain ⟨w, room, f⟩ := snk
  cases room <;> simp [Sink.after]

/-- Transactions one after another are transactions. -/
theorem Sink.after_after {α : Type} (snk : Sink α) (m n : Nat) (xs ys : List α) :
    (snk.after m xs).after n ys = snk.after (m + n) (xs ++ ys) := by
  simp [Sink.after, Function.comp_def, Nat.sub_sub]

theorem Sink.takes_mono {α : Type} {snk : Sink α} {m n : Nat} (h : snk.takes n) (hm : m ≤ n) : snk.takes m :=
  fun k hk => hm.trans (h k hk)

/-- Of the room for `m + n` transactions that for `n` is left after `m`. -/
theorem Sink.takes_after {α : Type} {snk : Sink α} {m n : Nat} (h : snk.takes (m + n)) (xs : List α) :
    (snk.after m xs).takes n := by
  intro k hk
  obtain ⟨j, hj, rfl⟩ := Option.map_eq_some_iff.1 hk
  have := h j hj
  omega

theorem Sink.takes_of_room {α : Type} {snk : Sink α} {k n : Nat} (h : snk.room = some k) (hn : n ≤ k) : snk.takes n := by
  intro j hj
  cases h.symm.trans hj
  exact hn

theorem Sink.after_room {α : Type} {snk : Sink α} {k : Nat} (h : snk.room = some k) (n : Nat) (xs : List α) :
    (snk.after n xs).room = some (k - n) := by
  simp [Sink.after, h]

/-- A sink that waits is one that does not answer. -/
theorem Sink.not_answers {α : Type} {snk : Sink α} (hr : snk.room = some 0) (hf : snk.whenFull = .silent) :
    ¬(snk.room = none ∨ snk.whenFull = .failure) := by
  simp [hr, hf]

/-- A run of a command is its first engine step and the rest of the run. -/
theorem drive_step {tick : State → Result} {n : Nat} {s t : State} (hs : s.phase ≠ .idle) (h : tick s = .next t) :
    drive tick (n + 1) s = drive tick n t := by
  rw [drive_succ _ _ hs, h, andThen_next]

/-! ### The walk of SER -/

/-- What is left of SER's walk with this stack: the transactions still to come, and a bound on the engine steps they take
(R171). -/
inductive SerTodo (m : Memory Node) : List Frame → List Bits → Nat → Prop where
  | nil : SerTodo m [] [] 0
  | enter {i : NodeIdx} {t : Tree} {rest : List Frame} {txs : List Bits} {n : Nat} (ht : t.isAt m i = true)
      (h : SerTodo m rest txs n) : SerTodo m (⟨i, .enter⟩ :: rest) (t.transactions ++ txs) (n + 3 * t.size)
  | left {i a b : NodeIdx} {f : NodeFreq} {t : Tree} {rest : List Frame} {txs : List Bits} {n : Nat}
      (hr : m.read i.toNat = some (.internal a b f)) (ht : t.isAt m b = true) (h : SerTodo m rest txs n) :
    SerTodo m (⟨i, .left⟩ :: rest) (t.transactions ++ txs) (n + 3 * t.size + 2)
  | right {i : NodeIdx} {rest : List Frame} {txs : List Bits} {n : Nat} (h : SerTodo m rest txs n) :
    SerTodo m (⟨i, .right⟩ :: rest) txs (n + 1)

/-- A running SER past its start: at a node of its walk, or between the tag and the symbol of a leaf. -/
inductive State.SerSound (s : State) : List Bits → Nat → Prop where
  | top {txs : List Bits} {n : Nat} (hp : s.phase = .ser) (hl : s.loop = .top) (h : SerTodo s.arena s.stack txs n) :
    s.SerSound txs n
  | symbol {i : NodeIdx} {x : Sym} {f : NodeFreq} {g : Frame} {rest : List Frame} {txs : List Bits} {n : Nat}
      (hp : s.phase = .ser) (hl : s.loop = .symbol i) (hr : s.arena.read i.toNat = some (.leaf x f))
      (hst : s.stack = g :: rest) (h : SerTodo s.arena rest txs n) :
    s.SerSound (msbBits Config.symW x.toNat :: txs) (n + 1)

/-- What an engine step of SER makes of the transactions to come: there are none and it ends; a move along the stack; or the
first one, which the sink takes or does not. -/
inductive SerStep (s : State) : List Bits → Nat → State → Prop where
  | done {n : Nat} : SerStep s [] n s.finish
  | move {txs : List Bits} {n k : Nat} {stack : List Frame} (hk : k < n)
      (h : ({ s with stack := stack, loop := .top } : State).SerSound txs k) :
    SerStep s txs n { s with stack := stack, loop := .top }
  | sent {b : Bits} {txs : List Bits} {n k : Nat} {stack : List Frame} {loop : LoopPos} (ht : s.bitout.takes 1) (hk : k < n)
      (h : ({ s with bitout := s.bitout.after 1 b, stack := stack, loop := loop } : State).SerSound txs k) :
    SerStep s (b :: txs) n { s with bitout := s.bitout.after 1 b, stack := stack, loop := loop }
  | failed {b : Bits} {txs : List Bits} {n : Nat} (hr : s.bitout.room = some 0) (hf : s.bitout.whenFull = .failure) :
    SerStep s (b :: txs) n (raise (.ioError portBitSink) s)
  | waiting {b : Bits} {txs : List Bits} {n : Nat} (hr : s.bitout.room = some 0) (hf : s.bitout.whenFull = .silent) :
    SerStep s (b :: txs) n s

/-- A transaction of SER, after which the working storage is `stack` and `loop`. -/
theorem serPut_serStep {s : State} {b : Bits} {txs : List Bits} {n k : Nat} {stack : List Frame} {loop : LoopPos}
    {go : State → State} (hgo : ∀ snk, go { s with bitout := snk } = { s with bitout := snk, stack := stack, loop := loop })
    (hk : k < n)
    (h : ({ s with bitout := s.bitout.after 1 b, stack := stack, loop := loop } : State).SerSound txs k) :
    ∃ t, serPut s ((s.bitout.put b).1, { s with bitout := (s.bitout.put b).2 }) go = .next t ∧ SerStep s (b :: txs) n t := by
  generalize hput : s.bitout.put b = r
  cases hput ▸ s.bitout.put_takes b with
  | ok ht => exact ⟨_, congrArg Host.Outcome.next (hgo _), .sent ht hk h⟩
  | failed hr hf => exact ⟨_, rfl, .failed hr hf⟩
  | waiting hr hf => exact ⟨_, rfl, .waiting hr hf⟩

theorem serTick_serStep {s : State} {txs : List Bits} {n : Nat} (hs : s.SerSound txs n) :
    ∃ t, serTick s = .next t ∧ SerStep s txs n t := by
  cases hs with
  | @symbol i x f g rest txs n hp hl hr hst h =>
    simp only [serTick, hl, withSym_of_read hr]
    refine serPut_serStep (stack := rest) (loop := .top) (fun snk => by rw [hst]; rfl) (Nat.lt_succ_self n) ?_
    exact .top hp rfl h
  | top hp hl h =>
    simp only [serTick, hl]
    generalize hst : s.stack = st at h
    cases h with
    | nil => exact ⟨_, rfl, .done⟩
    | @enter i t rest txs n ht h =>
      dsimp only
      cases t with
      | leaf x =>
        obtain ⟨f, hr⟩ := Tree.isAt_leaf.1 ht
        rw [withRecord_of_read hr]
        refine serPut_serStep (k := n + 1) (stack := s.stack) (loop := .symbol i) (fun _ => rfl)
          (by simp [Tree.size]) ?_
        exact .symbol hp rfl hr hst h
      | node l r =>
        obtain ⟨a, b, f, hr, hl', hr'⟩ := Tree.isAt_node.1 ht
        rw [withRecord_of_read hr]
        refine serPut_serStep (k := n + 3 * r.size + 2 + 3 * l.size) (stack := ⟨a, .enter⟩ :: ⟨i, .left⟩ :: rest)
          (loop := s.loop) (fun _ => rfl) (by simp only [Tree.size]; omega) ?_
        have htodo := SerTodo.enter hl' (.left hr hr' h)
        rw [← List.append_assoc] at htodo
        exact .top hp hl htodo
    | @left i a b f t rest txs n hr ht h =>
      dsimp only
      rw [withChildren_of_read hr]
      refine ⟨_, rfl, ?_⟩
      exact .move (k := n + 1 + 3 * t.size) (by omega) (.top hp rfl (.enter ht (.right h)))
    | @right i rest txs n h => exact ⟨_, rfl, .move (Nat.lt_succ_self n) (.top hp rfl h)⟩

/-- The first step of SER: the whole tree is to do (R171). -/
theorem serTick_start {s : State} {tr : Tree} (hp : s.phase = .ser) (hl : s.loop = .start) (htr : s.hasTree tr) :
    ∃ stack, serTick s = .next { s with stack := stack, loop := .top } ∧
      ({ s with stack := stack, loop := .top } : State).SerSound tr.transactions (3 * tr.size) := by
  refine ⟨[⟨s.root, .enter⟩], by simp [serTick, hl], .top hp rfl ?_⟩
  have h := SerTodo.enter htr.1 (SerTodo.nil (m := s.arena))
  rwa [List.append_nil, Nat.zero_add] at h

/-- A sink that fails before SER is through ends it with IOError(4) (R173, R243). -/
theorem drive_serTick_fails {m : Nat} : ∀ {s : State} {txs : List Bits} {n k : Nat}, s.SerSound txs n → n < m →
    s.bitout.room = some k → s.bitout.whenFull = .failure → k < txs.length →
    ∃ stack, drive serTick m s = .next (raise (.ioError portBitSink)
      { s with bitout := s.bitout.after k (txs.take k).flatten, stack := stack }) := by
  induction m with
  | zero => intro s txs n k _ hn; exact absurd hn (Nat.not_lt_zero n)
  | succ m ih =>
    intro s txs n k hs hn hroom hfull hk
    have hp : s.phase ≠ .idle := by cases hs with | _ hp => rw [hp]; nofun
    obtain ⟨t, ht, hstep⟩ := serTick_serStep hs
    rw [drive_step hp ht]
    cases hstep with
    | done => exact absurd hk (Nat.not_lt_zero k)
    | move hkn h => exact ih h (by omega) hroom hfull hk
    | waiting _ hf => cases hfull.symm.trans hf
    | failed hr hf =>
      obtain rfl : k = 0 := Option.some.inj (hroom.symm.trans hr)
      refine ⟨s.stack, ?_⟩
      rw [drive_idle _ _ rfl, List.take_zero, List.flatten_nil, Sink.after_zero]
    | @sent b txs _ _ stack loop htakes hkn h =>
      obtain ⟨j, rfl⟩ : ∃ j, k = 1 + j := Nat.exists_eq_add_of_le (htakes k hroom)
      obtain ⟨stack, hd⟩ := ih h (k := j) (by omega) (by rw [Sink.after_room hroom]; simp) hfull
        (by rw [List.length_cons] at hk; omega)
      refine ⟨stack, hd.trans ?_⟩
      rw [Sink.after_after, Nat.add_comm 1 j, List.take_succ_cons, List.flatten_cons]
      rfl

end Sys2Proof.Machine

namespace Sys2Proof.Proofs

open Sys2Proof.Machine

/-- Settles O28: the walk has the tree's transactions to do, and the sink takes the first `k` of them. -/
theorem serRaisesIoErrorOnTheBitSink : Obligations.SerRaisesIoErrorOnTheBitSink := by
  intro s tr k hs hv htr hroom hfull hk sent
  obtain ⟨stack₀, hu, hsound⟩ := serTick_start (s := { s with phase := .ser, loop := .start }) rfl rfl htr
  have hfuel : 3 * tr.size < 3 * Config.nodeMax + 1 := Nat.lt_succ_of_le (Nat.mul_le_mul_left 3 htr.2)
  obtain ⟨stack, hd⟩ := drive_serTick_fails hsound hfuel hroom hfull (by rwa [Tree.transactions_length])
  have hexec : exec .ser s = .next (raise (.ioError portBitSink)
      { s with phase := .ser, bitout := s.bitout.after k sent, stack := stack }) := by
    rw [exec_ser, accept_of_ready (p := .ser) hs.2 hv, andThen_next]
    exact (drive_step (by simp) hu).trans hd
  refine ⟨_, hexec, ?_, ?_⟩
  · rw [← tr.transactions_flatten]
    conv_rhs => rw [← List.take_append_drop k tr.transactions, List.flatten_append]
    exact ⟨_, rfl⟩
  · rw [hs.1]
    exact raise_of_noFault _ _ hs.2

end Sys2Proof.Proofs
end

section
/-! ## How runs end (R88)

Each command's work is measured by a number that every engine step lessens, but for one that ends the command or waits for
a port; the engine steps a command is given are more than that number when it starts. -/

namespace Sys2Proof.Machine

/-! ### Ports that answer -/

theorem Source.Forward.ends {α : Type} {src src' : Source α} (h : src.Forward src') (he : src.ending.ends) :
    src'.ending.ends := by
  obtain ⟨-, h | ⟨-, k, -, hk, -⟩⟩ := h
  · rwa [h]
  · obtain h | h := he <;> cases hk.symm.trans h

theorem Source.Forward.goesOn {α : Type} {src src' : Source α} (h : src.Forward src') (he : src.ending.goesOn) :
    src'.ending.goesOn := by
  obtain ⟨-, h | ⟨-, -, k', -, hk, -⟩⟩ := h
  · rwa [h]
  · exact ⟨k', hk⟩

theorem Sink.Grows.answers {α : Type} {snk snk' : Sink α} (h : snk.Grows snk')
    (ha : snk.room = none ∨ snk.whenFull = .failure) : snk'.room = none ∨ snk'.whenFull = .failure :=
  ha.imp h.room h.whenFull.trans

/-! Ports that answer, one by one. -/

theorem State.portsAnswer.bsrc {s : State} (h : s.portsAnswer) : s.bsrc.ending.ends := h.1

theorem State.portsAnswer.bitin {s : State} (h : s.portsAnswer) : s.bitin.ending.ends := h.2.1

theorem State.portsAnswer.bsnk {s : State} (h : s.portsAnswer) : s.bsnk.room = none ∨ s.bsnk.whenFull = .failure := h.2.2.1

theorem State.portsAnswer.bitout {s : State} (h : s.portsAnswer) : s.bitout.room = none ∨ s.bitout.whenFull = .failure :=
  h.2.2.2

/-- A run leaves ports that answer ports that answer. -/
theorem StreamsMoved.portsAnswer {s t : State} (h : StreamsMoved s t) (ha : s.portsAnswer) : t.portsAnswer :=
  ⟨h.bsrc.ends ha.bsrc, h.bitin.ends ha.bitin, h.bsnk.answers ha.bsnk, h.bitout.answers ha.bitout⟩

theorem SourceEnd.not_goesOn {e : SourceEnd} (h : e.ends) : ¬e.goesOn := by
  rintro ⟨k, rfl⟩
  obtain h | h := h <;> cases h

theorem State.not_runsOnEndless {s : State} (ha : s.portsAnswer) : ¬s.runsOnEndless := by
  rintro (⟨-, h⟩ | ⟨-, h⟩)
  · exact SourceEnd.not_goesOn ha.bsrc h
  · exact SourceEnd.not_goesOn ha.bitin h

/-- A source that does not go on for ever: it has a next item, or it answers what comes after its data. -/
theorem Source.next_cases {α : Type} (more : Nat → α) {src : Source α} (h : ¬src.ending.goesOn) :
    (∃ x xs, src.data = x :: xs ∧ (src.supply more 1).take = (.got x, ⟨xs, src.ending⟩)) ∨
      (src.supply more 1).take = (src.ending.answer, src) := by
  obtain ⟨data, e⟩ := src
  cases data with
  | cons x xs => exact .inl ⟨x, xs, rfl, by simp⟩
  | nil =>
    cases e with
    | endless k => exact absurd ⟨k, rfl⟩ h
    | endOfData | failure | silent => exact .inr rfl

/-- What a source that does not go on for ever answers to a transaction, with the state after it. -/
inductive Supplied {α : Type} (src : Source α) (s : State) (setSrc : Source α → State) : Answer α × State → Prop where
  | got {x : α} {xs : List α} (h : src.data = x :: xs) : Supplied src s setSrc (.got x, setSrc ⟨xs, src.ending⟩)
  | ended : Supplied src s setSrc (.ended, s)
  | failed : Supplied src s setSrc (.failed, s)
  | waiting (h : ¬src.ending.ends) : Supplied src s setSrc (.waiting, s)

theorem supplied_of_end {α : Type} {src : Source α} {s : State} {setSrc : Source α → State} :
    Supplied src s setSrc (src.ending.answer, s) := by
  cases h : src.ending with
  | endOfData => exact .ended
  | failure => exact .failed
  | silent | endless => exact .waiting (by simp [h, SourceEnd.ends])

theorem byteIn_supplied {s : State} (h : ¬s.bsrc.ending.goesOn) :
    Supplied s.bsrc s (fun src => { s with bsrc := src }) (byteIn s) := by
  unfold byteIn
  obtain ⟨x, xs, hd, ht⟩ | ht := Source.next_cases Config.endlessByte h
  · rw [ht]; exact .got hd
  · rw [ht]; exact supplied_of_end

theorem bitIn_supplied {s : State} (h : ¬s.bitin.ending.goesOn) :
    Supplied s.bitin s (fun src => { s with bitin := src }) (bitIn s) := by
  unfold bitIn
  obtain ⟨x, xs, hd, ht⟩ | ht := Source.next_cases Config.endlessBit h
  · rw [ht]; exact .got hd
  · rw [ht]; exact supplied_of_end

/-- A bit source that waits is one that does not answer. -/
theorem bitIn_waiting {s : State} (h : (bitIn s).1 = .waiting) : ¬s.bitin.ending.ends := by
  intro he
  have hs := bitIn_supplied (SourceEnd.not_goesOn he)
  generalize bitIn s = r at h hs
  cases hs with
  | waiting hn => exact hn he
  | _ => cases h

theorem bitsIn_waiting {n : Nat} {s : State} (h : (bitsIn n s).1 = .waiting) : ¬s.bitin.ending.ends := by
  rintro (he | he) <;>
  · have hsup : s.bitin.supply Config.endlessBit n = s.bitin := by simp [Source.supply, he]
    simp only [bitsIn, hsup, he, SourceEnd.answer] at h
    split at h <;> cases h

/-! ### The measure -/

/-- What an engine step makes of `n`, a bound on the command's work: the command ends, or it waits for a port that does not
answer, or less is left. -/
def Progress (P : Nat → State → Prop) (n : Nat) (s t : State) : Prop :=
  t.phase = .idle ∨ (t = s ∧ ¬s.portsAnswer) ∨ ∃ k < n, P k t

/-- A run of more engine steps than the work ends the command or leaves it waiting. -/
theorem drive_settles {P : Nat → State → Prop}
    (hP : ∀ {n : Nat} {s t : State}, P n s → engineTick s = .next t → Progress P n s t) {m : Nat} :
    ∀ {n : Nat} {s t : State}, P n s → n < m → drive engineTick m s = .next t →
      t.phase = .idle ∨ (t.waiting ∧ ¬t.portsAnswer) := by
  induction m with
  | zero => intro n s t _ hn; exact absurd hn (Nat.not_lt_zero n)
  | succ m ih =>
    intro n s t hs hn h
    by_cases hi : s.phase = .idle
    · rw [drive_idle _ _ hi] at h
      cases h
      exact .inl hi
    · have hdrive := h
      rw [drive_succ _ _ hi] at h
      obtain ⟨u, hu, h⟩ := andThen_eq_next.1 h
      obtain hidle | ⟨rfl, hports⟩ | ⟨k, hk, hu'⟩ := hP hs hu
      · rw [drive_idle _ _ hidle] at h
        cases h
        exact .inl hidle
      · rw [drive_waiting hu] at hdrive
        cases hdrive
        exact .inr ⟨⟨hi, hu⟩, hports⟩
      · exact ih hu' (by omega) h

/-! ### The work of each command -/

/-- COUNT: the fresh table, one step for each byte, and the end. -/
def countWork (s : State) : Nat := s.bsrc.data.length + if s.loop = .start then 1 else 0

/-- BUILD: the leaves, one step for each record that is free, and the end. -/
def buildWork (s : State) : Nat := if s.loop = .start then Config.nodeMax + 1 else Config.nodeMax - s.alloc.toNat

/-- ENCODE: for each byte, and for the end, at most the lookup, the bits of the longest codeword and one step more. -/
def encodeWork (s : State) : Nat :=
  match s.loop with
  | .start => (s.bsrc.data.length + 1) * (longestCodeword s.cwt + 2) + 1
  | .emit x j =>
    (if x = eof then 0 else (s.bsrc.data.length + 1) * (longestCodeword s.cwt + 2)) + (longestCodeword s.cwt - j) + 1
  | _ => (s.bsrc.data.length + 1) * (longestCodeword s.cwt + 2)

/-- DESER: a tag and a symbol for each record that is free, and the tag that overflows. -/
def deserWork (s : State) : Nat :=
  match s.loop with
  | .start => 2 * Config.nodeMax + 2
  | .symbol _ => 2 * (Config.nodeMax - s.alloc.toNat) + 2
  | _ => 2 * (Config.nodeMax - s.alloc.toNat) + 1

/-- DECODE: at most two steps for each bit, the check and the end. -/
def decodeWork (s : State) : Nat :=
  match s.loop with
  | .start => 2 * s.bitin.data.length + 2
  | .write => 2 * s.bitin.data.length + 2
  | .stop => 0
  | _ => 2 * s.bitin.data.length + 1

/-- A running command's work is at most `n`. A command on a source that goes on for ever has no bound to its work; DERIVE,
whose end is `State.Inv.resume_derive`, has none here. -/
inductive WorkBound : Nat → State → Prop where
  | count {n : Nat} {s : State} (hp : s.phase = .count) (he : ¬s.bsrc.ending.goesOn) (hn : countWork s ≤ n) : WorkBound n s
  | build {n : Nat} {s : State} (hp : s.phase = .build) (hn : buildWork s ≤ n) : WorkBound n s
  | serStart {n : Nat} {s : State} {tr : Tree} (hp : s.phase = .ser) (hl : s.loop = .start) (htr : s.hasTree tr)
      (hn : 3 * tr.size < n) : WorkBound n s
  | ser {n : Nat} {s : State} {txs : List Bits} (h : s.SerSound txs n) : WorkBound n s
  | encode {n : Nat} {s : State} (hp : s.phase = .encode) (he : ¬s.bsrc.ending.goesOn) (hn : encodeWork s ≤ n) :
    WorkBound n s
  | deser {n : Nat} {s : State} (hp : s.phase = .deser) (hn : deserWork s ≤ n) : WorkBound n s
  | decode {n : Nat} {s : State} (hp : s.phase = .decode) (he : ¬s.bitin.ending.goesOn) (hn : decodeWork s ≤ n) :
    WorkBound n s

theorem progress_ended {n : Nat} {s t : State} (h : t.phase = .idle) : Progress WorkBound n s t := .inl h

theorem progress_waiting {n : Nat} {s : State} (h : ¬s.portsAnswer) : Progress WorkBound n s s := .inr (.inl ⟨rfl, h⟩)

theorem countWork_of_loop {s : State} (hl : s.loop ≠ .start) : countWork s = s.bsrc.data.length := by
  rw [countWork, if_neg hl, Nat.add_zero]

theorem countTick_progress {n : Nat} {s t : State} (hp : s.phase = .count) (he : ¬s.bsrc.ending.goesOn)
    (hn : countWork s ≤ n) (h : countTick s = .next t) : Progress WorkBound n s t := by
  unfold countTick at h
  split at h
  · next hl =>
    cases h
    refine .inr (.inr ⟨s.bsrc.data.length, ?_, .count hp he (by simp [countWork])⟩)
    simp only [countWork, hl, if_true] at hn
    omega
  · next hl =>
    have hs := byteIn_supplied he
    generalize byteIn s = r at h hs
    cases hs with
    | @got b bs hd =>
      obtain ⟨f, -, h⟩ := withCounter_eq_next.1 h
      split at h <;> cases h
      · exact progress_ended rfl
      · refine .inr (.inr ⟨_, ?_, .count hp he le_rfl⟩)
        rw [countWork_of_loop hl, hd] at hn
        exact (countWork_of_loop (by exact hl)).trans_lt hn
    | ended | failed => cases h; exact progress_ended rfl
    | waiting hw => cases h; exact progress_waiting fun ha => hw ha.bsrc

/-- A merge takes one free record (R154). -/
theorem buildMerge_alloc {s t : State} (h : buildMerge s = .next t) :
    s.alloc.toNat < Config.nodeMax ∧ t.phase = s.phase ∧ t.loop = s.loop ∧ t.alloc = s.alloc + 1 := by
  obtain ⟨f, i, -, h⟩ := extractMin_eq_next.1 h
  obtain ⟨g, j, -, h⟩ := extractMin_eq_next.1 h
  obtain ⟨hn, rfl⟩ := addNode_eq_next.1 h
  exact ⟨hn, rfl, rfl, rfl⟩

theorem buildTick_progress {n : Nat} {s t : State} (hp : s.phase = .build) (hn : buildWork s ≤ n)
    (h : buildTick s = .next t) : Progress WorkBound n s t := by
  unfold buildTick at h
  split at h
  · next hl =>
    obtain ⟨⟩ := buildStart_writes h
    refine .inr (.inr ⟨Config.nodeMax, ?_, .build hp (by simp [buildWork])⟩)
    rw [buildWork, if_pos hl] at hn
    omega
  · next hl =>
    split at h
    · cases h
    · cases h; exact progress_ended rfl
    · obtain ⟨ha, hpt, hlt, hat⟩ := buildMerge_alloc h
      refine .inr (.inr ⟨buildWork t, ?_, .build (hpt.trans hp) le_rfl⟩)
      rw [buildWork, if_neg hl] at hn
      rw [buildWork, if_neg (hlt ▸ hl), hat, cnt_succ_toNat ha]
      omega

theorem serTick_progress_start {n : Nat} {s t : State} {tr : Tree} (hp : s.phase = .ser) (hl : s.loop = .start)
    (htr : s.hasTree tr) (hn : 3 * tr.size < n) (h : serTick s = .next t) : Progress WorkBound n s t := by
  obtain ⟨stack, hu, hsound⟩ := serTick_start hp hl htr
  cases hu.symm.trans h
  exact .inr (.inr ⟨_, hn, .ser hsound⟩)

theorem serTick_progress {n : Nat} {s t : State} {txs : List Bits} (hs : s.SerSound txs n) (h : serTick s = .next t) :
    Progress WorkBound n s t := by
  obtain ⟨u, hu, hstep⟩ := serTick_serStep hs
  cases hu.symm.trans h
  cases hstep with
  | done | failed => exact progress_ended rfl
  | move hk hsound => exact .inr (.inr ⟨_, hk, .ser hsound⟩)
  | sent _ hk hsound => exact .inr (.inr ⟨_, hk, .ser hsound⟩)
  | waiting hr hf => exact progress_waiting fun ha => Sink.not_answers hr hf ha.bitout

theorem length_le_longestCodeword {m : Memory CwEntry} {a : Nat} {c : Codeword} (h : m.read a = some (some c)) :
    c.len.toNat ≤ longestCodeword m := by
  induction m with
  | nil => cases h
  | cons p m ih =>
    obtain ⟨k, e⟩ := p
    rw [Memory.read_cons] at h
    split at h
    · cases h; exact le_max_left _ _
    · exact (ih h).trans (le_max_right _ _)

theorem encodeLookup_progress {n : Nat} {s u t : State} {x : Sym} (hp : u.phase = .encode) (he : ¬u.bsrc.ending.goesOn)
    (hn : encodeWork { u with loop := .emit x 0 } < n) (h : encodeLookup x u = .next t) : Progress WorkBound n s t := by
  obtain ⟨e, -, h⟩ := withEntry_eq_next.1 h
  cases e with
  | none => cases h; exact progress_ended rfl
  | some c => cases h; exact .inr (.inr ⟨_, hn, .encode hp he le_rfl⟩)

theorem encodeBit_progress {n : Nat} {s t : State} {x : Sym} {j : Nat} (hp : s.phase = .encode)
    (he : ¬s.bsrc.ending.goesOn) (hl : s.loop = .emit x j) (hn : encodeWork s ≤ n) (h : encodeBit x j s = .next t) :
    Progress WorkBound n s t := by
  simp only [encodeWork, hl] at hn
  obtain ⟨e, hc, h⟩ := withEntry_eq_next.1 h
  cases e with
  | none => cases h; exact progress_ended rfl
  | some c =>
    have hlen := length_le_longestCodeword hc
    dsimp only at h
    split at h
    · have hs := s.bitout.put_takes [c.bits.getLsbD j]
      unfold bitOut at h
      generalize s.bitout.put [c.bits.getLsbD j] = r at h hs
      cases hs with
      | ok =>
        cases h
        refine .inr (.inr ⟨_, ?_, .encode hp he le_rfl⟩)
        simp only [encodeWork]
        omega
      | failed => cases h; exact progress_ended rfl
      | waiting hr hf => cases h; exact progress_waiting fun ha => Sink.not_answers hr hf ha.bitout
    · cases h
      unfold encodeNext
      split
      · exact progress_ended rfl
      · next hx =>
        rw [if_neg hx] at hn
        refine .inr (.inr ⟨_, ?_, .encode hp he le_rfl⟩)
        simp only [encodeWork]
        omega

theorem byteSym_ne_eof (b : Byte) : Byte.sym b ≠ eof := by
  intro h
  have hlt : (Byte.sym b).toNat < 256 := by
    rw [BitVec.toNat_setWidth]
    exact (Nat.mod_le _ _).trans_lt b.isLt
  rw [h] at hlt
  exact absurd hlt (by decide)

theorem encodeWork_of_top {s : State} (hl : s.loop ≠ .start) (hl' : ∀ x j, s.loop ≠ .emit x j) :
    encodeWork s = (s.bsrc.data.length + 1) * (longestCodeword s.cwt + 2) := by
  unfold encodeWork
  split
  · next h => exact absurd h hl
  · next h => exact absurd h (hl' _ _)
  · rfl

theorem encodeTick_progress {n : Nat} {s t : State} (hp : s.phase = .encode) (he : ¬s.bsrc.ending.goesOn)
    (hn : encodeWork s ≤ n) (h : encodeTick s = .next t) : Progress WorkBound n s t := by
  unfold encodeTick at h
  split at h
  · next hl =>
    cases h
    refine .inr (.inr ⟨_, ?_, .encode hp he le_rfl⟩)
    simp only [encodeWork, hl] at hn ⊢
    omega
  · next hl => exact encodeBit_progress hp he hl hn h
  · next hl hl' =>
    rw [encodeWork_of_top hl hl'] at hn
    have hs := byteIn_supplied he
    generalize byteIn s = r at h hs
    cases hs with
    | @got b bs hd =>
      refine encodeLookup_progress (u := { s with bsrc := ⟨bs, s.bsrc.ending⟩ }) hp he ?_ h
      rw [hd, List.length_cons, Nat.succ_mul] at hn
      simp only [encodeWork, if_neg (byteSym_ne_eof b)]
      omega
    | ended =>
      refine encodeLookup_progress hp he ?_ h
      have hone : longestCodeword s.cwt + 2 ≤ (s.bsrc.data.length + 1) * (longestCodeword s.cwt + 2) :=
        Nat.le_mul_of_pos_left _ (Nat.succ_pos _)
      simp only [encodeWork, if_pos]
      omega
    | failed => cases h; exact progress_ended rfl
    | waiting hw => cases h; exact progress_waiting fun ha => hw ha.bsrc

/-- A tag takes a free record, if there is one (R175, R177). -/
theorem deserAlloc_progress {n : Nat} {s u t : State} {k : NodeIdx → State → Result} (h : deserAlloc u k = .next t)
    (hn : 2 * (Config.nodeMax - u.alloc.toNat) < n)
    (hk : ∀ {i v t}, k i v = .next t → t.phase = v.phase ∧ deserWork t ≤ 2 * (Config.nodeMax - v.alloc.toNat) + 2)
    (hp : u.phase = .deser) : Progress WorkBound n s t := by
  obtain ⟨ha, h⟩ | rfl := deserAlloc_cases h
  · obtain ⟨hpt, hw⟩ := hk h
    rw [cnt_succ_toNat ha] at hw
    exact .inr (.inr ⟨_, by omega, .deser (hpt.trans hp) hw⟩)
  · exact progress_ended rfl

theorem deserWork_of_top {s : State} (hl : s.loop ≠ .start) (hl' : ∀ i, s.loop ≠ .symbol i) :
    deserWork s = 2 * (Config.nodeMax - s.alloc.toNat) + 1 := by
  unfold deserWork
  split
  · next h => exact absurd h hl
  · next h => exact absurd h (hl' _)
  · rfl

theorem deserTick_progress {n : Nat} {s t : State} (hp : s.phase = .deser) (hn : deserWork s ≤ n)
    (h : deserTick s = .next t) : Progress WorkBound n s t := by
  unfold deserTick at h
  split at h
  · next hl =>
    cases h
    simp only [deserWork, hl] at hn
    exact .inr (.inr ⟨2 * Config.nodeMax + 1, hn, .deser hp (by simp [deserWork, deserStart])⟩)
  · next i hl =>
    have hw := bitsIn_waiting (n := Config.symW) (s := s)
    have hport := (PortMove.bitsIn (s := s) Config.symW).sameBlock
    generalize bitsIn Config.symW s = r at h hport hw
    obtain ⟨a, u⟩ := r
    simp only [deserWork, hl] at hn
    cases a with
    | got v =>
      obtain ⟨⟩ := hport
      cases deserSymbol_writes h with
      | goOn => exact .inr (.inr ⟨2 * (Config.nodeMax - s.alloc.toNat) + 1, hn, .deser hp le_rfl⟩)
      | finish => exact progress_ended rfl
    | ended | failed => cases h; exact progress_ended rfl
    | waiting => cases h; exact progress_waiting fun ha => hw rfl ha.bitin
  · next hl hl' =>
    rw [deserWork_of_top hl hl'] at hn
    have hw := bitIn_waiting (s := s)
    have hport : SameBlock s (bitIn s).2 := (PortMove.bitIn (.inl rfl)).sameBlock
    generalize bitIn s = r at h hport hw
    obtain ⟨a, u⟩ := r
    cases a with
    | got b =>
      obtain ⟨⟩ := hport
      cases b with
      | false =>
        refine deserAlloc_progress (k := fun i t => .next { t with loop := .symbol i }) h hn (fun hk => ?_) hp
        cases hk
        exact ⟨rfl, le_rfl⟩
      | true =>
        refine deserAlloc_progress (k := fun i t => .next { t with stack := ⟨i, .left⟩ :: t.stack, loop := .top }) h hn
          (fun hk => ?_) hp
        cases hk
        exact ⟨rfl, Nat.le_succ _⟩
    | ended | failed => cases h; exact progress_ended rfl
    | waiting => cases h; exact progress_waiting fun ha => hw rfl ha.bitin

/-- A leaf's byte is due, or the end, or the walk goes on. -/
theorem decodeArrive_cases {i : NodeIdx} {s t : State} (h : decodeArrive i s = .next t) :
    ∃ eos loop, t = { s with cur := i, eos := eos, loop := loop } ∧ (loop = s.loop ∨ loop = .stop ∨ loop = .write) := by
  obtain ⟨nd, -, h⟩ := withRecord_eq_next.1 h
  cases nd with
  | internal => cases h; exact ⟨s.eos, s.loop, rfl, .inl rfl⟩
  | leaf x f =>
    dsimp only at h
    split at h <;> cases h
    · exact ⟨true, .stop, rfl, .inr (.inl rfl)⟩
    · exact ⟨s.eos, .write, rfl, .inr (.inr rfl)⟩

theorem decodeWork_of_walk {s : State} (hl : s.loop ≠ .start ∧ s.loop ≠ .stop ∧ s.loop ≠ .write) :
    decodeWork s = 2 * s.bitin.data.length + 1 := by
  unfold decodeWork
  split
  · next h => exact absurd h hl.1
  · next h => exact absurd h hl.2.2
  · next h => exact absurd h hl.2.1
  · rfl

theorem decodeWalk_progress {n : Nat} {s t : State} (hp : s.phase = .decode) (he : ¬s.bitin.ending.goesOn)
    (hl : s.loop ≠ .start ∧ s.loop ≠ .stop ∧ s.loop ≠ .write) (hn : decodeWork s ≤ n) (h : decodeWalk s = .next t) :
    Progress WorkBound n s t := by
  rw [decodeWork_of_walk hl] at hn
  unfold decodeWalk at h
  have hs := bitIn_supplied he
  generalize bitIn s = r at h hs
  cases hs with
  | @got b bs hd =>
    obtain ⟨l, r, f, -, h⟩ := withChildren_eq_next.1 h
    obtain ⟨eos, loop, rfl, hloop⟩ := decodeArrive_cases h
    refine .inr (.inr ⟨2 * bs.length + 2, ?_, .decode hp he ?_⟩)
    · rw [hd, List.length_cons] at hn; omega
    · obtain rfl | rfl | rfl := hloop
      · exact (decodeWork_of_walk (by exact hl)).trans_le (Nat.le_succ _)
      · exact Nat.zero_le _
      · exact le_rfl
  | ended => cases h; exact .inr (.inr ⟨0, by omega, .decode hp he le_rfl⟩)
  | failed => cases h; exact progress_ended rfl
  | waiting hw => cases h; exact progress_waiting fun ha => hw ha.bitin

theorem decodeTick_progress {n : Nat} {s t : State} (hp : s.phase = .decode) (he : ¬s.bitin.ending.goesOn)
    (hn : decodeWork s ≤ n) (h : decodeTick s = .next t) : Progress WorkBound n s t := by
  unfold decodeTick at h
  split at h
  · next hl =>
    simp only [decodeWork, hl] at hn
    obtain ⟨nd, -, h⟩ := withRecord_eq_next.1 h
    cases nd with
    | internal => cases h; exact .inr (.inr ⟨2 * s.bitin.data.length + 1, hn, .decode hp he le_rfl⟩)
    | leaf x f =>
      dsimp only at h
      split at h <;> cases h
      · exact .inr (.inr ⟨0, by omega, .decode hp he le_rfl⟩)
      · exact progress_ended rfl
  · next hl =>
    simp only [decodeWork, hl] at hn
    obtain ⟨x, f, -, h⟩ := withSym_eq_next.1 h
    have hs := s.bsnk.put_takes [x.setWidth Config.byteW]
    unfold byteOut at h
    generalize s.bsnk.put [x.setWidth Config.byteW] = r at h hs
    cases hs with
    | ok => cases h; exact .inr (.inr ⟨2 * s.bitin.data.length + 1, hn, .decode hp he le_rfl⟩)
    | failed => cases h; exact progress_ended rfl
    | waiting hr hf => cases h; exact progress_waiting fun ha => Sink.not_answers hr hf ha.bsnk
  · cases h; exact progress_ended rfl
  · next h1 h2 h3 => exact decodeWalk_progress hp he ⟨h1, h3, h2⟩ hn h

/-- Every engine step of a command whose work is bounded ends it, waits, or lessens the work. -/
theorem engineTick_progress {n : Nat} {s t : State} (hs : WorkBound n s) (h : engineTick s = .next t) :
    Progress WorkBound n s t := by
  rw [engineTick_eq_tickOf] at h
  cases hs with
  | count hp he hn => exact countTick_progress hp he hn (by rwa [hp] at h)
  | build hp hn => exact buildTick_progress hp hn (by rwa [hp] at h)
  | serStart hp hl htr hn => exact serTick_progress_start hp hl htr hn (by rwa [hp] at h)
  | ser hs =>
    have hp : s.phase = .ser := by cases hs <;> assumption
    exact serTick_progress hs (by rwa [hp] at h)
  | encode hp he hn => exact encodeTick_progress hp he hn (by rwa [hp] at h)
  | deser hp hn => exact deserTick_progress hp hn (by rwa [hp] at h)
  | decode hp he hn => exact decodeTick_progress hp he hn (by rwa [hp] at h)

end Sys2Proof.Machine
end

section
/-! ## Every command ends if its ports answer (R88, R143) -/

namespace Sys2Proof.Machine

/-! ### From acceptance to the end -/

theorem resume_phase {s t : State} (h : resume s = .next t) : t.phase = s.phase ∨ t.phase = .idle := by
  refine drive_keeps (P := fun u => u.phase = s.phase ∨ u.phase = .idle) (fun u v hu _ hv => ?_) _ s t (.inl rfl)
    (resume_eq_drive s ▸ h)
  obtain hv | hv := engineTick_phase hv
  · rwa [hv]
  · exact .inr hv

theorem resume_streamsMoved {s t : State} (h : resume s = .next t) : StreamsMoved s t := by
  rw [resume_eq_drive, ← drive_tickOf _ (.inl rfl)] at h
  exact drive_tickOf_streamsMoved h

/-- A command on an endless source is on it still, unless it has ended. -/
theorem resume_runsOnEndless {s t : State} (hs : s.runsOnEndless) (h : resume s = .next t) :
    t.phase = .idle ∨ t.runsOnEndless := by
  have hm := resume_streamsMoved h
  obtain hp | hp := resume_phase h
  · refine .inr ?_
    rw [State.runsOnEndless, hp]
    exact hs.imp (And.imp_right hm.bsrc.goesOn) (And.imp_right hm.bitin.goesOn)
  · exact .inl hp

/-- A command that starts is given more engine steps than its work (R88). -/
theorem State.Inv.workBound {s : State} (hs : s.Inv) (hl : s.loop = .start) (hi : s.phase ≠ .idle)
    (hd : s.phase ≠ .derive) (he : ¬s.runsOnEndless) : ∃ n < fuelOf s.phase s, WorkBound n s := by
  cases hp : s.phase with
  | idle => exact absurd hp hi
  | derive => exact absurd hp hd
  | count =>
    refine ⟨countWork s, ?_, .count hp (fun h => he (.inl ⟨.inl hp, h⟩)) le_rfl⟩
    simp [countWork, hl, fuelOf, countFuel]
  | build =>
    refine ⟨buildWork s, ?_, .build hp le_rfl⟩
    rw [buildWork, if_pos hl]
    exact Nat.lt_succ_self _
  | ser =>
    obtain ⟨tr, htr⟩ := hs.trees.hasTree (hs.status.treeReady (.inr (.inl hp)))
    exact ⟨3 * Config.nodeMax + 1, Nat.lt_succ_self _,
      .serStart hp hl htr (Nat.lt_succ_of_le (Nat.mul_le_mul_left 3 htr.2))⟩
  | encode =>
    refine ⟨encodeWork s, ?_, .encode hp (fun h => he (.inl ⟨.inr hp, h⟩)) le_rfl⟩
    simp only [encodeWork, hl, fuelOf, encodeFuel, Nat.add_mul]
    omega
  | deser =>
    refine ⟨deserWork s, ?_, .deser hp le_rfl⟩
    simp only [deserWork, hl]
    exact Nat.lt_succ_self _
  | decode =>
    refine ⟨decodeWork s, ?_, .decode hp (fun h => he (.inr ⟨hp, h⟩)) le_rfl⟩
    simp only [decodeWork, hl, fuelOf, decodeFuel]
    omega

/-- A DERIVE that starts ends. -/
theorem State.Inv.resume_derive {s t : State} (hs : s.Inv) (hl : s.loop = .start) (hp : s.phase = .derive)
    (h : resume s = .next t) : t.phase = .idle := by
  obtain ⟨tr, htr⟩ := hs.trees.hasTree (hs.status.treeReady (.inl hp))
  have hstart : engineTick s = .next (deriveStart s) := by simp [engineTick, hp, deriveTick, hl]
  have hfuel : fuelOf s.phase s = 3 * Config.nodeMax + 1 + 1 := by rw [hp]; rfl
  rw [resume_eq_drive, hfuel, drive_step (by simp [hp]) hstart] at h
  exact drive_derive_idle (s := deriveStart s) hp nofun (deriveStart_sound htr)
    (Nat.lt_succ_of_le (Nat.mul_le_mul_left 3 htr.2)) h

/-- The run of a command that starts ends it, or leaves it waiting, or on a source that never ends (R88). -/
theorem State.Inv.resume_settles {s t : State} (hs : s.Inv) (hl : s.loop = .start) (h : resume s = .next t) :
    t.phase = .idle ∨ (t.waiting ∧ ¬t.portsAnswer) ∨ t.runsOnEndless := by
  by_cases he : s.runsOnEndless
  · exact (resume_runsOnEndless he h).imp_right .inr
  by_cases hi : s.phase = .idle
  · rw [resume_idle hi] at h
    cases h
    exact .inl hi
  by_cases hd : s.phase = .derive
  · exact .inl (hs.resume_derive hl hd h)
  obtain ⟨n, hn, hw⟩ := hs.workBound hl hi hd he
  rw [resume_eq_drive] at h
  exact (drive_settles engineTick_progress hw hn h).imp_right .inl

/-- After its acceptance on the idle block an instruction is complete, or its command stands at its start. -/
theorem Accepted.loop {s t : State} (h : Accepted s t) (hi : s.phase = .idle) : t.phase = .idle ∨ t.loop = .start := by
  cases h with
  | discarded => exact .inl hi
  | refused | cleared => exact .inl rfl
  | started => exact .inr rfl

/-! ### COUNT on a source that never ends -/

theorem Source.Forward.antisymm {α : Type} {a b : Source α} (h : a.Forward b) (h' : b.Forward a) : a = b := by
  obtain ⟨d1, e1⟩ := h
  obtain ⟨d2, e2⟩ := h'
  have hd : a.data = b.data := d2.eq_of_length_le d1.length_le
  have he : a.ending = b.ending := by
    obtain e1 | ⟨-, k, k', ha, hb, hk⟩ := e1
    · exact e1.symm
    · obtain e2 | ⟨-, j, j', hb', ha', hj⟩ := e2
      · exact e2
      · obtain rfl : k' = j := SourceEnd.endless.inj (hb.symm.trans hb')
        obtain rfl : k = j' := SourceEnd.endless.inj (ha.symm.trans ha')
        rw [ha, hb, le_antisymm hk hj]
  obtain ⟨_, _⟩ := a
  obtain ⟨_, _⟩ := b
  cases hd
  cases he
  rfl

/-- An endless source always gives an item, and is not what it was after it. -/
theorem byteIn_endless {s : State} (h : s.bsrc.ending.goesOn) :
    ∃ b src, byteIn s = (.got b, { s with bsrc := src }) ∧ src ≠ s.bsrc := by
  obtain ⟨k, hk⟩ := h
  unfold byteIn
  generalize s.bsrc = src at hk
  obtain ⟨data, e⟩ := src
  cases hk
  cases data with
  | nil => exact ⟨_, _, rfl, by simp⟩
  | cons b bs => exact ⟨b, ⟨bs, .endless k⟩, by simp, by simp⟩

/-- COUNT past its start on a source that never ends, which it has moved forward from `src`; or ended by FreqOverflow. -/
def CountingOn (src : Source Byte) (s : State) : Prop :=
  (s.phase = .count ∧ s.loop ≠ .start ∧ s.err = 0#8 ∧ s.bsrc.ending.goesOn ∧ src.Forward s.bsrc) ∨
    (s.phase = .idle ∧ s.err = 8#8)

/-- A byte read is counted, or its counter is at its bound (R143). -/
theorem countTick_endless {s t : State} (hp : s.phase = .count) (hl : s.loop ≠ .start) (he : s.err = 0#8)
    (hg : s.bsrc.ending.goesOn) (h : countTick s = .next t) : t.bsrc ≠ s.bsrc ∧ CountingOn t.bsrc t := by
  have hf := (tickOf_streamsMoved (p := .count) h).bsrc
  obtain ⟨b, src, hb, hne⟩ := byteIn_endless hg
  unfold countTick at h
  split at h
  · next h0 => exact absurd h0 hl
  · rw [hb] at h
    obtain ⟨f, -, h⟩ := withCounter_eq_next.1 h
    split at h <;> cases h
    · exact ⟨hne, .inr ⟨rfl, by simp [raise, he, Err.code]⟩⟩
    · exact ⟨hne, .inl ⟨hp, hl, he, hf.goesOn hg, .refl _⟩⟩

theorem CountingOn.tick {src : Source Byte} {s t : State} (hs : CountingOn src s) (hi : s.phase ≠ .idle)
    (h : engineTick s = .next t) : CountingOn src t := by
  obtain ⟨hp, hl, he, hg, hf⟩ | ⟨hp, -⟩ := hs
  · rw [engineTick, hp] at h
    have hf' := (tickOf_streamsMoved (p := .count) h).bsrc
    exact (countTick_endless hp hl he hg h).2.imp_left fun ⟨hp', hl', he', hg', _⟩ => ⟨hp', hl', he', hg', hf.trans hf'⟩
  · exact absurd hp hi

/-- COUNT on an endless source goes on, and not from where it was, or a counter has passed its bound. -/
theorem drive_count_endless {n : Nat} {s t : State} (hp : s.phase = .count) (he : s.err = 0#8)
    (hg : s.bsrc.ending.goesOn) (h : drive engineTick (n + 1) s = .next t) : t ≠ s ∧ ∃ src, CountingOn src t := by
  rw [drive_succ _ _ (by simp [hp])] at h
  obtain ⟨u, hu, h⟩ := andThen_eq_next.1 h
  rw [engineTick, hp] at hu
  have hkeep : ∀ {src}, CountingOn src u → CountingOn src t := fun {src} hc =>
    drive_keeps (P := CountingOn src) (fun _ _ hs hi ht => hs.tick hi ht) n u t hc h
  have hidle : t.phase = .idle → t ≠ s := by
    rintro hi rfl
    cases hp.symm.trans hi
  by_cases hl : s.loop = .start
  · simp only [countTick, hl] at hu
    cases hu
    have ht := hkeep (src := s.bsrc) (.inl ⟨hp, nofun, he, hg, .refl _⟩)
    refine ⟨?_, _, ht⟩
    obtain ⟨-, hlt, -⟩ | ⟨hi, -⟩ := ht
    · rintro rfl
      exact hlt hl
    · exact hidle hi
  · obtain ⟨hne, hc⟩ := countTick_endless hp hl he hg hu
    have ht := hkeep hc
    refine ⟨?_, _, ht⟩
    obtain ⟨-, -, -, -, hf⟩ | ⟨hi, -⟩ := ht
    · rintro rfl
      exact hne (hf.antisymm (tickOf_streamsMoved (p := .count) hu).bsrc)
    · exact hidle hi

end Sys2Proof.Machine

namespace Sys2Proof.Proofs

open Sys2Proof.Machine

/-- Settles O46: under the invariant no engine step stops the machine; each one lessens the work of the command, ends it or
waits, and a command is given more engine steps than its work. On an endless source every step of COUNT moves the source. -/
theorem everyCommandEndsIfItsPortsAnswer : Obligations.EveryCommandEndsIfItsPortsAnswer := by
  have hkept := State.Inv.keptByMoves
  have htotal : ∀ s : State, s.Inv → ∃ t, engineTick s = .next t := fun _ hs => hs.engineTick_total
  constructor
  · intro s w i hs hi hdec
    obtain rfl : decodeCommand w = i := Except.ok.inj hdec
    rw [exec_eq_acceptOnly_resume _ hi]
    obtain ⟨u, hu, hacc⟩ := acceptOnly_accepted w s
    have hinv := hkept.accepted hs hi hacc
    obtain ⟨t, ht⟩ := hkept.resume_total htotal hinv
    rw [hu, andThen_next]
    refine ⟨t, ht, ?_⟩
    have hports : s.portsAnswer → t.portsAnswer :=
      ((acceptOnly_sameStreams hu).moved.trans (resume_streamsMoved ht)).portsAnswer
    obtain hp | hl := hacc.loop hi
    · rw [resume_idle hp] at ht
      cases ht
      exact ⟨.inl hp, fun _ => hp⟩
    · obtain hidle | ⟨hwait, hno⟩ | hend := hinv.resume_settles hl ht
      · exact ⟨.inl hidle, fun _ => hidle⟩
      · exact ⟨.inr (.inl hwait), fun ha => absurd (hports ha) hno⟩
      · exact ⟨.inr (.inr hend), fun ha => absurd hend (State.not_runsOnEndless (hports ha))⟩
  · intro s hs hp hh hg
    obtain ⟨t, ht⟩ := hkept.resume_total htotal hs
    have hstep : step s = resume s := by simp [step, State.busy, hp, hostAct, hh]
    refine ⟨t, hstep.trans ht, ?_⟩
    rw [resume_eq_drive, hp] at ht
    obtain ⟨hne, src, hc⟩ := drive_count_endless hp (hs.status.busyNoFault (by simp [hp])) hg ht
    obtain ⟨hpt, -, het, hgt, -⟩ | ⟨hpt, het⟩ := hc
    · exact ⟨fun _ => ⟨hpt, by simp [State.busy, hpt], hgt, hne⟩, fun h => absurd het h⟩
    · exact ⟨fun h => absurd (het.symm.trans h) (by decide), fun _ => ⟨hpt, het⟩⟩

end Sys2Proof.Proofs
end

section
/-! ## Bits and bytes of a file (R8, R70, R75) -/

namespace Sys2Proof.Machine

/-! ### Bit sequences and their values (R64, R65) -/

@[simp] theorem msbBits_length (n v : Nat) : (msbBits n v).length = n := by
  induction n with
  | zero => rfl
  | succ n ih => rw [msbBits, List.length_cons, ih]

theorem msbBits_getElem? (n v k : Nat) : (msbBits n v)[k]? = if k < n then some (v.testBit (n - 1 - k)) else none := by
  induction n generalizing k with
  | zero => simp [msbBits]
  | succ n ih =>
    cases k with
    | zero => simp [msbBits]
    | succ k => simp [msbBits, ih, Nat.sub_sub, Nat.add_comm 1 k]

/-- Only the low bits of a number are sent (R65). -/
theorem msbBits_congr {n v w : Nat} (h : ∀ j < n, v.testBit j = w.testBit j) : msbBits n v = msbBits n w := by
  induction n with
  | zero => rfl
  | succ n ih => rw [msbBits, msbBits, h n (Nat.lt_succ_self n), ih fun j hj => h j (Nat.lt_succ_of_lt hj)]

theorem msbValue_lt (bs : Bits) : msbValue bs < 2 ^ bs.length := by
  induction bs with
  | nil => exact Nat.one_pos
  | cons b bs ih =>
    rw [msbValue, List.length_cons, Nat.pow_succ]
    cases b <;> simp only [Bool.toNat_false, Bool.toNat_true] <;> omega

theorem msbValue_cons_testBit (b : Bool) (bs : Bits) (j : Nat) :
    (msbValue (b :: bs)).testBit j = if j < bs.length then (msbValue bs).testBit j else b.toNat.testBit (j - bs.length) := by
  rw [msbValue, Nat.mul_comm, Nat.testBit_two_pow_mul_add _ (msbValue_lt bs)]

/-- The bits of a value are the sequence it was read from. -/
theorem msbBits_msbValue (bs : Bits) : msbBits bs.length (msbValue bs) = bs := by
  induction bs with
  | nil => rfl
  | cons b bs ih =>
    have hlow : msbBits bs.length (msbValue (b :: bs)) = msbBits bs.length (msbValue bs) :=
      msbBits_congr fun j hj => by rw [msbValue_cons_testBit, if_pos hj]
    rw [List.length_cons, msbBits, hlow, ih, msbValue_cons_testBit, if_neg (lt_irrefl _), Nat.sub_self]
    cases b <;> rfl

/-- The value of a number's low bits (R64, R65). -/
theorem msbValue_msbBits (n v : Nat) : msbValue (msbBits n v) = v % 2 ^ n := by
  induction n with
  | zero => rw [msbBits, msbValue, pow_zero, Nat.mod_one]
  | succ n ih =>
    rw [msbBits, msbValue, ih, msbBits_length, Nat.toNat_testBit, Nat.mod_pow_succ, Nat.mul_comm, Nat.add_comm]

/-! ### Packing and reading (R70) -/

/-- Eight bits are a byte. -/
theorem packBytes_append {xs : Bits} (h : xs.length = 8) (rest : Bits) :
    packBytes (xs ++ rest) = BitVec.ofNat 8 (msbValue xs) :: packBytes rest := by
  match xs, h with
  | [_, _, _, _, _, _, _, _], _ => rfl

theorem unpackBytes_cons (b : Byte) (bytes : List Byte) :
    unpackBytes (b :: bytes) = msbBits 8 b.toNat ++ unpackBytes bytes := rfl

/-- Reading a file that was packed gives its bits; eight bits are a byte. -/
theorem unpackBytes_packBytes {n : Nat} {bits : Bits} (h : bits.length = 8 * n) :
    unpackBytes (packBytes bits) = bits ∧ (packBytes bits).length = n := by
  induction n generalizing bits with
  | zero =>
    obtain rfl := List.length_eq_zero_iff.1 h
    exact ⟨rfl, rfl⟩
  | succ n ih =>
    have hlen : (bits.take 8).length = 8 := by rw [List.length_take]; omega
    obtain ⟨hbits, hn⟩ := ih (bits := bits.drop 8) (by rw [List.length_drop]; omega)
    have hvalue : (BitVec.ofNat 8 (msbValue (bits.take 8))).toNat = msbValue (bits.take 8) :=
      Nat.mod_eq_of_lt (by simpa only [hlen] using msbValue_lt (bits.take 8))
    have hbyte : msbBits 8 (msbValue (bits.take 8)) = bits.take 8 := by
      simpa only [hlen] using msbBits_msbValue (bits.take 8)
    have hpack : packBytes bits = BitVec.ofNat 8 (msbValue (bits.take 8)) :: packBytes (bits.drop 8) := by
      rw [← packBytes_append hlen, List.take_append_drop]
    rw [hpack, unpackBytes_cons, hvalue, hbyte, hbits, List.take_append_drop, List.length_cons, hn]
    exact ⟨rfl, rfl⟩

/-- Packing what was read from a file gives the file. -/
theorem packBytes_unpackBytes (bytes : List Byte) : packBytes (unpackBytes bytes) = bytes := by
  induction bytes with
  | nil => rfl
  | cons b bytes ih =>
    rw [unpackBytes_cons, packBytes_append (msbBits_length _ _), msbValue_msbBits, ih, Nat.mod_eq_of_lt b.isLt,
      BitVec.ofNat_toNat, BitVec.setWidth_eq]

/-- Bit `k` of a file is bit `7 - (k mod 8)` of byte `k/8`. -/
theorem unpackBytes_getElem? {bytes : List Byte} {k : Nat} {b : Byte} (h : bytes[k / 8]? = some b) :
    (unpackBytes bytes)[k]? = some (b.getLsbD (7 - k % 8)) := by
  induction bytes generalizing k with
  | nil => cases h
  | cons c bytes ih =>
    rw [unpackBytes_cons]
    by_cases hk : k < 8
    · rw [Nat.div_eq_of_lt hk] at h
      cases h
      rw [List.getElem?_append_left (by simpa using hk), msbBits_getElem?, if_pos hk, Nat.mod_eq_of_lt hk]
      rfl
    · obtain ⟨j, rfl⟩ := Nat.exists_eq_add_of_le (Nat.le_of_not_lt hk)
      rw [Nat.add_div_left _ (by decide)] at h
      rw [List.getElem?_append_right (by simp), msbBits_length, Nat.add_sub_cancel_left, Nat.add_mod_left]
      exact ih h

/-- The padding fills the last byte, with fewer than eight bits (R75). -/
theorem padCount_fills (k : Nat) : k + padCount k = 8 * ((k + 7) / 8) ∧ padCount k < 8 := by
  unfold padCount
  omega

end Sys2Proof.Machine

namespace Sys2Proof.Proofs

open Sys2Proof.Machine

/-- Settles O48: a bit is found where reading finds it, and reading and packing are inverse to one another. -/
theorem fileBitsStandMostSignificantFirst : Obligations.FileBitsStandMostSignificantFirst := by
  refine ⟨fun bits k hlen hk => ?_, fun bytes k b h => unpackBytes_getElem? h, packBytes_unpackBytes, by decide⟩
  obtain ⟨hbits, hn⟩ := unpackBytes_packBytes (n := bits.length / 8) (bits := bits) (by omega)
  have hbyte := List.getElem?_eq_getElem (l := packBytes bits) (i := k / 8) (by omega)
  exact ⟨_, hbyte, by rw [← unpackBytes_getElem? hbyte, hbits]⟩

/-- Settles O49: with its padding the file is a whole number of bytes, which reading gives back. -/
theorem closingPadsTheLastByte : Obligations.ClosingPadsTheLastByte := by
  intro s
  obtain ⟨hfill, hpad⟩ := padCount_fills s.bitout.written.length
  have hlen : (padding s.draws (padCount s.bitout.written.length)).length = padCount s.bitout.written.length := by
    simp [padding]
  obtain ⟨hbits, hn⟩ := unpackBytes_packBytes (n := (s.bitout.written.length + 7) / 8)
    (bits := s.bitout.written ++ padding s.draws (padCount s.bitout.written.length))
    (by rw [List.length_append, hlen, hfill])
  exact ⟨_, rfl, hn, _, hlen.trans_lt hpad, hbits⟩

end Sys2Proof.Proofs
end

section
/-! ## ENCODE, codeword by codeword (R201, R204, R243) -/

namespace Sys2Proof.Machine

/-! ### States reached in few engine steps -/

/-- Engine steps lead from `s` to `t`, at most `n` of them. -/
def Reaches (tick : State → Result) (n : Nat) (s t : State) : Prop := ∃ k ≤ n, drive tick k s = .next t

section
variable {tick : State → Result} {m n : Nat} {s t u : State}

theorem Reaches.refl : Reaches tick 0 s s := ⟨0, le_rfl, rfl⟩

theorem Reaches.step (hs : s.phase ≠ .idle) (h : tick s = .next t) : Reaches tick 1 s t :=
  ⟨1, le_rfl, (drive_step hs h).trans rfl⟩

theorem Reaches.trans (h : Reaches tick m s t) (h' : Reaches tick n t u) : Reaches tick (m + n) s u := by
  obtain ⟨j, hj, h⟩ := h
  obtain ⟨k, hk, h'⟩ := h'
  exact ⟨j + k, Nat.add_le_add hj hk, by rw [drive_add, h, andThen_next, h']⟩

theorem Reaches.mono (h : Reaches tick m s t) (hn : m ≤ n) : Reaches tick n s t := by
  obtain ⟨k, hk, h⟩ := h
  exact ⟨k, hk.trans hn, h⟩

/-- A run with steps enough to reach the end of the command ends there. -/
theorem Reaches.drive (h : Reaches tick m s t) (ht : t.phase = .idle) (hn : m ≤ n) : Machine.drive tick n s = .next t := by
  obtain ⟨k, hk, h⟩ := h
  obtain ⟨j, rfl⟩ := Nat.exists_eq_add_of_le (hk.trans hn)
  rw [drive_add, h, andThen_next, drive_idle _ _ ht]

end

/-! ### Transactions with a known answer -/

/-- A source with a next byte gives it. -/
theorem byteIn_of_cons {s : State} {b : Byte} {bs : List Byte} {e : SourceEnd} (h : s.bsrc = ⟨b :: bs, e⟩) :
    byteIn s = (.got b, { s with bsrc := ⟨bs, e⟩ }) := by
  simp [byteIn, h]

/-- A source whose data are used up answers what comes after them. -/
theorem byteIn_of_nil {s : State} {e : SourceEnd} (h : s.bsrc = ⟨[], e⟩) (he : e.ends) :
    byteIn s = (e.answer, s) := by
  obtain ⟨⟩ := s
  cases h
  obtain rfl | rfl := he <;> rfl

theorem bitOut_of_takes {s : State} (b : Bool) (h : s.bitout.takes 1) :
    bitOut b s = (.ok, { s with bitout := s.bitout.after 1 [b] }) := by
  rw [bitOut, Sink.put_of_takes [b] h]

theorem bitOut_of_full {s : State} (b : Bool) (hr : s.bitout.room = some 0) (hf : s.bitout.whenFull = .failure) :
    bitOut b s = (.failed, s) := by
  rw [bitOut, Sink.put_of_full [b] hr hf]

/-! ### The codewords of a table (R34) -/

/-- A symbol with a codeword has an entry that holds it. -/
theorem State.hasCw.entry {s : State} {x : Sym} (h : s.hasCw x) :
    ∃ c, s.cwt.read x.toNat = some (some c) ∧ s.cw x = c.seq := by
  obtain ⟨bits, h⟩ := h
  have hcw : s.cw x = bits := by rw [State.cw, h]
  rw [State.entry] at h
  obtain ⟨e, hread, he⟩ := Option.map_eq_some_iff.1 h
  obtain ⟨c, rfl, rfl⟩ := Option.map_eq_some_iff.1 he
  exact ⟨c, hread, hcw⟩

theorem State.cw_length_le {s : State} {x : Sym} (h : s.hasCw x) : (s.cw x).length ≤ longestCodeword s.cwt := by
  obtain ⟨c, hread, hc⟩ := h.entry
  rw [hc, Codeword.seq_length]
  exact length_le_longestCodeword hread

/-- The bits of a codeword from bit `j` on. -/
theorem Codeword.seq_drop {c : Codeword} {j : Nat} (h : j < c.len.toNat) :
    c.seq.drop j = c.bits.getLsbD j :: c.seq.drop (j + 1) := by
  have hj : j < c.seq.length := by rwa [Codeword.seq_length]
  have hbit : c.seq[j] = c.bits.getLsbD j := by
    have := c.seq_getElem? j
    rw [if_pos h, List.getElem?_eq_getElem hj] at this
    exact Option.some.inj this
  rw [List.drop_eq_getElem_cons hj, hbit]

/-! ### The engine steps of a symbol -/

section
variable {s : State} {x : Sym} {c : Codeword} (hc : s.cwt.read x.toNat = some (some c))
include hc

theorem encodeLookup_of_entry : encodeLookup x s = .next { s with loop := .emit x 0 } := by
  rw [encodeLookup, withEntry_of_read hc]

theorem encodeBit_of_takes {j : Nat} (hj : j < c.len.toNat) (ht : s.bitout.takes 1) :
    encodeBit x j s = .next { s with loop := .emit x (j + 1), bitout := s.bitout.after 1 [c.bits.getLsbD j] } := by
  simp only [encodeBit, withEntry_of_read hc, hj, if_true, bitOut_of_takes _ ht]

theorem encodeBit_of_full {j : Nat} (hj : j < c.len.toNat) (hr : s.bitout.room = some 0)
    (hf : s.bitout.whenFull = .failure) : encodeBit x j s = .next (raise (.ioError portBitSink) s) := by
  simp only [encodeBit, withEntry_of_read hc, hj, if_true, bitOut_of_full _ hr hf]

theorem encodeBit_of_end : encodeBit x c.len.toNat s = .next (encodeNext x s) := by
  simp only [encodeBit, withEntry_of_read hc, lt_irrefl, if_false]

end

/-! ### One symbol -/

section
variable {s : State} (hp : s.phase = .encode)
include hp

/-- `k` bits of a codeword from bit `j` on go out one by one (R201). -/
theorem encode_bits {x : Sym} {c : Codeword} (hc : s.cwt.read x.toNat = some (some c)) {k : Nat} :
    ∀ {j : Nat} {snk : Sink Bool}, j + k ≤ c.len.toNat → snk.takes k →
      Reaches encodeTick k { s with loop := .emit x j, bitout := snk }
        { s with loop := .emit x (j + k), bitout := snk.after k ((c.seq.drop j).take k) } := by
  induction k with
  | zero => intro j snk _ _; rw [List.take_zero, Sink.after_zero]; exact .refl
  | succ k ih =>
    intro j snk hj ht
    have hlt : j < c.len.toNat := by omega
    have htick : encodeTick { s with loop := .emit x j, bitout := snk } = _ :=
      encodeBit_of_takes (s := { s with loop := .emit x j, bitout := snk }) hc hlt (Sink.takes_mono ht (by omega))
    have hrest := ih (j := j + 1) (snk := snk.after 1 [c.bits.getLsbD j]) (by omega)
      (Sink.takes_after (by rwa [Nat.add_comm 1 k]) _)
    rw [Sink.after_after, List.singleton_append, ← List.take_succ_cons, ← Codeword.seq_drop hlt, Nat.add_right_comm,
      Nat.add_comm 1 k] at hrest
    exact ((Reaches.step (by simp [hp]) htick).trans hrest).mono (Nat.add_comm 1 k).le

/-- A whole codeword, and then what comes after the symbol (R201, R204). -/
theorem encode_codeword {x : Sym} (hx : s.hasCw x) {snk : Sink Bool} (ht : snk.takes (s.cw x).length) :
    Reaches encodeTick ((s.cw x).length + 1) { s with loop := .emit x 0, bitout := snk }
      (encodeNext x { s with loop := .emit x (s.cw x).length, bitout := snk.after (s.cw x).length (s.cw x) }) := by
  obtain ⟨c, hc, hcw⟩ := hx.entry
  rw [hcw] at ht ⊢
  rw [Codeword.seq_length] at ht ⊢
  have hbits := encode_bits hp hc (k := c.len.toNat) (j := 0) (by omega) ht
  rw [List.drop_zero, List.take_of_length_le (by simp), Nat.zero_add] at hbits
  exact hbits.trans (Reaches.step (by simp [hp]) (encodeBit_of_end (by exact hc)))

/-- A sink that fails inside a codeword ends ENCODE with IOError(4), the bits before it in the sink (R243). -/
theorem encode_codeword_fails {x : Sym} (hx : s.hasCw x) {snk : Sink Bool} {k : Nat} (hr : snk.room = some k)
    (hf : snk.whenFull = .failure) (hk : k < (s.cw x).length) :
    Reaches encodeTick (k + 1) { s with loop := .emit x 0, bitout := snk }
      (raise (.ioError portBitSink) { s with bitout := snk.after k ((s.cw x).take k) }) := by
  obtain ⟨c, hc, hcw⟩ := hx.entry
  rw [hcw] at hk ⊢
  rw [Codeword.seq_length] at hk
  have hbits := encode_bits hp hc (k := k) (j := 0) (by omega) (Sink.takes_of_room hr le_rfl)
  rw [List.drop_zero, Nat.zero_add] at hbits
  have hroom : (snk.after k (c.seq.take k)).room = some 0 := by rw [Sink.after_room hr, Nat.sub_self]
  exact hbits.trans (Reaches.step (by simp [hp]) (encodeBit_of_full (by exact hc) hk hroom hf))

/-! ### All symbols -/

/-- The lookup of a byte's symbol (R201). -/
theorem encode_readsByte {b : Byte} (hb : s.hasCw b.sym) (bs : List Byte) (e : SourceEnd) (snk : Sink Bool) :
    Reaches encodeTick 1 { s with loop := .top, bsrc := ⟨b :: bs, e⟩, bitout := snk }
      { s with loop := .emit b.sym 0, bsrc := ⟨bs, e⟩, bitout := snk } := by
  obtain ⟨c, hc, -⟩ := hb.entry
  refine .step (by simp [hp]) ?_
  have hin := byteIn_of_cons (s := { s with loop := .top, bsrc := ⟨b :: bs, e⟩, bitout := snk }) rfl
  simp only [encodeTick, hin]
  exact encodeLookup_of_entry (by exact hc)

/-- The lookup of the EOF symbol at the end of the bytes (R201). -/
theorem encode_readsEnd (heof : s.hasCw eof) (snk : Sink Bool) :
    Reaches encodeTick 1 { s with loop := .top, bsrc := ⟨[], .endOfData⟩, bitout := snk }
      { s with loop := .emit eof 0, bsrc := ⟨[], .endOfData⟩, bitout := snk } := by
  obtain ⟨c, hc, -⟩ := heof.entry
  refine .step (by simp [hp]) ?_
  have hin := byteIn_of_nil (s := { s with loop := .top, bsrc := ⟨[], .endOfData⟩, bitout := snk }) rfl (.inl rfl)
  simp only [encodeTick, hin, SourceEnd.answer]
  exact encodeLookup_of_entry (by exact hc)

/-- One byte: its codeword goes out and the next byte is due (R201, R204). -/
theorem encode_byte {b : Byte} (hb : s.hasCw b.sym) (bs : List Byte) (e : SourceEnd) {snk : Sink Bool}
    (ht : snk.takes (s.cw b.sym).length) :
    Reaches encodeTick (longestCodeword s.cwt + 2) { s with loop := .top, bsrc := ⟨b :: bs, e⟩, bitout := snk }
      { s with loop := .top, bsrc := ⟨bs, e⟩, bitout := snk.after (s.cw b.sym).length (s.cw b.sym) } := by
  have hout := encode_codeword (s := { s with bsrc := ⟨bs, e⟩ }) hp hb ht
  rw [encodeNext, if_neg (byteSym_ne_eof b)] at hout
  exact ((encode_readsByte hp hb bs e snk).trans hout).mono
    ((Nat.add_comm 1 _).le.trans (Nat.add_le_add_right (State.cw_length_le hb) 2))

/-- The bytes one after another, each with its codeword (R201, R206). -/
theorem encode_bytes {bytes : List Byte} (hb : ∀ b ∈ bytes, s.hasCw b.sym) (rest : List Byte) (e : SourceEnd) :
    ∀ {snk : Sink Bool}, snk.takes (bytes.map fun b => s.cw b.sym).flatten.length →
      Reaches encodeTick (bytes.length * (longestCodeword s.cwt + 2))
        { s with loop := .top, bsrc := ⟨bytes ++ rest, e⟩, bitout := snk }
        { s with
          loop := .top, bsrc := ⟨rest, e⟩
          bitout := snk.after (bytes.map fun b => s.cw b.sym).flatten.length (bytes.map fun b => s.cw b.sym).flatten } := by
  induction bytes with
  | nil => intro snk _; simpa using Reaches.refl
  | cons b bytes ih =>
    intro snk ht
    rw [List.map_cons, List.flatten_cons, List.length_append] at ht ⊢
    have hhead := encode_byte hp (hb b (by simp)) (bytes ++ rest) e (Sink.takes_mono ht (Nat.le_add_right _ _))
    have htail := ih (fun c hc => hb c (by simp [hc])) (Sink.takes_after ht (s.cw b.sym))
    rw [Sink.after_after] at htail
    exact (hhead.trans htail).mono (by rw [List.length_cons, Nat.succ_mul, Nat.add_comm])

/-- A bit sink that fails before ENCODE is through ends it with IOError(4): the sink holds the bits of the payload it took
(R243, R66). -/
theorem encode_fails (heof : s.hasCw eof) {bytes : List Byte} (hb : ∀ b ∈ bytes, s.hasCw b.sym) :
    ∀ {snk : Sink Bool} {k : Nat}, snk.room = some k → snk.whenFull = .failure → k < (s.payload bytes).length →
      ∃ src : Source Byte, src.data <:+ bytes ∧
        Reaches encodeTick ((bytes.length + 1) * (longestCodeword s.cwt + 2))
          { s with loop := .top, bsrc := ⟨bytes, .endOfData⟩, bitout := snk }
          (raise (.ioError portBitSink) { s with bsrc := src, bitout := snk.after k ((s.payload bytes).take k) }) := by
  induction bytes with
  | nil =>
    intro snk k hr hf hk
    rw [State.payload, List.map_nil, List.flatten_nil, List.nil_append] at hk ⊢
    have hfail := encode_codeword_fails (s := { s with bsrc := ⟨[], .endOfData⟩ }) hp heof hr hf hk
    refine ⟨⟨[], .endOfData⟩, List.suffix_rfl, ((encode_readsEnd hp heof snk).trans hfail).mono ?_⟩
    have := State.cw_length_le heof
    simp only [List.length_nil]
    omega
  | cons b bytes ih =>
    intro snk k hr hf hk
    have hcw : s.hasCw b.sym := hb b (by simp)
    have hlen := State.cw_length_le hcw
    have hpay : s.payload (b :: bytes) = s.cw b.sym ++ s.payload bytes := by simp [State.payload]
    have hfuel : (bytes.length + 1 + 1) * (longestCodeword s.cwt + 2) =
        longestCodeword s.cwt + 2 + (bytes.length + 1) * (longestCodeword s.cwt + 2) := by
      rw [Nat.succ_mul, Nat.add_comm]
    rw [hpay, List.length_cons, hfuel]
    by_cases hkb : k < (s.cw b.sym).length
    · have hfail := encode_codeword_fails (s := { s with bsrc := ⟨bytes, .endOfData⟩ }) hp hcw hr hf hkb
      rw [List.take_append_of_le_length hkb.le]
      exact ⟨⟨bytes, .endOfData⟩, List.suffix_cons b bytes,
        ((encode_readsByte hp hcw bytes .endOfData snk).trans hfail).mono (by omega)⟩
    · obtain ⟨j, rfl⟩ := Nat.exists_eq_add_of_le (Nat.le_of_not_lt hkb)
      have hhead := encode_byte hp hcw bytes .endOfData (Sink.takes_of_room hr (Nat.le_add_right _ _))
      rw [hpay, List.length_append] at hk
      obtain ⟨src, hsrc, htail⟩ := ih (fun c hc => hb c (by simp [hc]))
        (snk := snk.after (s.cw b.sym).length (s.cw b.sym)) (k := j)
        (by rw [Sink.after_room hr, Nat.add_sub_cancel_left]) hf (by omega)
      rw [Sink.after_after] at htail
      refine ⟨src, hsrc.trans (List.suffix_cons b bytes), ?_⟩
      rw [List.take_length_add_append]
      exact hhead.trans htail

end

/-- What ENCODE reaches from its first byte on, within its fuel, is where its execution ends. -/
theorem exec_encode_of_reaches {s t : State} {n : Nat} (hs : s.accepting) (hv : s.cwtV = true)
    (h : Reaches encodeTick n { s with phase := .encode, loop := .top } t) (ht : t.phase = .idle)
    (hn : n ≤ (s.bsrc.data.length + 2) * (longestCodeword s.cwt + 2)) : exec .encode s = .next t := by
  rw [exec_encode, accept_of_ready (p := .encode) hs.2 hv, andThen_next]
  have hstart : Reaches encodeTick 1 { s with phase := .encode, loop := .start } { s with phase := .encode, loop := .top } :=
    .step (by simp) rfl
  exact (hstart.trans h).drive ht ((Nat.add_comm 1 n).le.trans (Nat.succ_le_succ hn))

end Sys2Proof.Machine

namespace Sys2Proof.Proofs

open Sys2Proof.Machine

/-- Settles O39: the codewords go out one by one until the source or the sink fails. -/
theorem encodeRaisesIoErrorOnItsPorts : Obligations.EncodeRaisesIoErrorOnItsPorts := by
  intro s bytes hs hv hb sent
  constructor
  · intro hsrc ht
    have hbytes := encode_bytes (s := { s with phase := .encode }) rfl hb [] .failure ht
    rw [List.append_nil, ← hsrc] at hbytes
    have hfail : Reaches encodeTick 1
        { s with phase := .encode, loop := .top, bsrc := ⟨[], .failure⟩, bitout := s.bitout.after sent.length sent }
        (raise (.ioError portByteSource)
          { s with phase := .encode, bsrc := ⟨[], .failure⟩, bitout := s.bitout.after sent.length sent }) :=
      .step (by simp) rfl
    refine ⟨_, exec_encode_of_reaches hs hv (hbytes.trans hfail) rfl ?_, ?_⟩
    · rw [hsrc]
      show bytes.length * (longestCodeword s.cwt + 2) + 1 ≤ (bytes.length + 2) * (longestCodeword s.cwt + 2)
      rw [Nat.add_mul]
      omega
    · rw [hs.1]
      exact raise_of_noFault _ _ hs.2
  · intro k hsrc heof hr hf hk
    obtain ⟨src, hsuffix, hfail⟩ := encode_fails (s := { s with phase := .encode }) rfl heof hb hr hf hk
    rw [← hsrc] at hfail
    refine ⟨_, exec_encode_of_reaches hs hv hfail rfl ?_, ?_, hsuffix⟩
    · rw [hsrc]
      exact Nat.mul_le_mul_right _ (Nat.le_succ _)
    · rw [hs.1]
      exact raise_of_noFault _ _ hs.2

end Sys2Proof.Proofs
end

section
/-! ## DECODE, codeword by codeword (R211, R215, R222, R243) -/

namespace Sys2Proof.Machine

/-! ### The paths of a tree's leaves (R115) -/

theorem Tree.mem_paths_leaf {x y : Sym} {p : Bits} : (x, p) ∈ (Tree.leaf y).paths ↔ x = y ∧ p = [] := by
  simp [Tree.paths]

/-- A path of a node begins with the branch to the subtree whose path is the rest. -/
theorem Tree.mem_paths_cons {l r : Tree} {x : Sym} {b : Bool} {p : Bits} :
    (x, b :: p) ∈ (Tree.node l r).paths ↔ (x, p) ∈ (if b then r else l).paths := by
  cases b <;> simp [Tree.paths]

theorem Tree.nil_mem_paths_node {l r : Tree} {x : Sym} : (x, []) ∉ (Tree.node l r).paths := by
  simp [Tree.paths]

/-- A tree with a leaf below a branch is a node. -/
theorem Tree.node_of_path {t : Tree} {x : Sym} {p : Bits} (h : (x, p) ∈ t.paths) (hp : p ≠ []) : ∃ l r, t = .node l r := by
  cases t with
  | leaf y => exact absurd (Tree.mem_paths_leaf.1 h).2 hp
  | node l r => exact ⟨l, r, rfl⟩

/-- The tree at the root of a path that is empty is a leaf. -/
theorem Tree.leaf_of_nil {t : Tree} {x : Sym} (h : (x, []) ∈ t.paths) : t = .leaf x := by
  cases t with
  | leaf y => rw [(Tree.mem_paths_leaf.1 h).1]
  | node l r => exact absurd h Tree.nil_mem_paths_node

theorem Tree.node_of_size {t : Tree} (h : 1 < t.size) : ∃ l r, t = .node l r := by
  cases t with
  | leaf x => exact absurd h (by simp [Tree.size])
  | node l r => exact ⟨l, r, rfl⟩

/-- In a tree that is not a single leaf no leaf's path is empty. -/
theorem Tree.path_ne_nil {t : Tree} (h : 1 < t.size) {w : Sym × Bits} (hw : w ∈ t.paths) : w.2 ≠ [] := by
  obtain ⟨l, r, rfl⟩ := Tree.node_of_size h
  rintro h0
  obtain ⟨x, p⟩ := w
  cases h0
  exact Tree.nil_mem_paths_node hw

/-! ### Transactions with a known answer -/

theorem bitIn_of_cons {s : State} {b : Bool} {bs : Bits} {e : SourceEnd} (h : s.bitin = ⟨b :: bs, e⟩) :
    bitIn s = (.got b, { s with bitin := ⟨bs, e⟩ }) := by
  simp [bitIn, h]

theorem bitIn_of_failure {s : State} (h : s.bitin = ⟨[], .failure⟩) : bitIn s = (.failed, s) := by
  obtain ⟨⟩ := s
  cases h
  rfl

theorem byteOut_of_takes {s : State} (b : Byte) (h : s.bsnk.takes 1) :
    byteOut b s = (.ok, { s with bsnk := s.bsnk.after 1 [b] }) := by
  rw [byteOut, Sink.put_of_takes [b] h]

theorem byteOut_of_full {s : State} (b : Byte) (hr : s.bsnk.room = some 0) (hf : s.bsnk.whenFull = .failure) :
    byteOut b s = (.failed, s) := by
  rw [byteOut, Sink.put_of_full [b] hr hf]

/-! ### The engine steps -/

/-- The check finds a tree that is not a single leaf (R211, R212). -/
theorem decodeCheck_of_node {s : State} {l r : Tree} (h : (Tree.node l r).isAt s.arena s.root = true) :
    decodeCheck s = .next { s with eos := false, trunc := false, cur := s.root, loop := .top } := by
  obtain ⟨a, b, f, hr, -, -⟩ := Tree.isAt_node.1 h
  simp only [decodeCheck, withRecord, hr]

theorem decodeArrive_of_node {s : State} {i : NodeIdx} {l r : Tree} (h : (Tree.node l r).isAt s.arena i = true) :
    decodeArrive i s = .next { s with cur := i } := by
  obtain ⟨a, b, f, hr, -, -⟩ := Tree.isAt_node.1 h
  simp only [decodeArrive, withRecord, hr]

theorem decodeArrive_of_leaf {s : State} {i : NodeIdx} {x : Sym} (h : (Tree.leaf x).isAt s.arena i = true) (hx : x ≠ eof) :
    decodeArrive i s = .next { s with cur := i, loop := .write } := by
  obtain ⟨f, hr⟩ := Tree.isAt_leaf.1 h
  simp only [decodeArrive, withRecord, hr, if_neg hx]

/-- One bit takes the walk to the child it names (R213). -/
theorem decodeWalk_of_node {s : State} {l r : Tree} {b : Bool} {bs : Bits} {e : SourceEnd}
    (h : (Tree.node l r).isAt s.arena s.cur = true) (hin : s.bitin = ⟨b :: bs, e⟩) :
    ∃ i, (if b then r else l).isAt s.arena i = true ∧ decodeWalk s = decodeArrive i { s with bitin := ⟨bs, e⟩ } := by
  obtain ⟨i, j, f, hr, hl, hrr⟩ := Tree.isAt_node.1 h
  refine ⟨if b then j else i, by cases b <;> assumption, ?_⟩
  simp only [decodeWalk, bitIn_of_cons hin, withChildren, withRecord, hr]

theorem decodeWalk_of_failure {s : State} (h : s.bitin = ⟨[], .failure⟩) :
    decodeWalk s = .next (raise (.ioError portBitSource) s) := by
  simp only [decodeWalk, bitIn_of_failure h]

theorem decodeEmit_of_takes {s : State} {x : Sym} (h : (Tree.leaf x).isAt s.arena s.cur = true) (ht : s.bsnk.takes 1) :
    decodeEmit s = .next { s with bsnk := s.bsnk.after 1 [lowByte x], cur := s.root, loop := .top } := by
  obtain ⟨f, hr⟩ := Tree.isAt_leaf.1 h
  simp only [decodeEmit, withSym_of_read hr, byteOut_of_takes _ ht, lowByte]

theorem decodeEmit_of_full {s : State} {x : Sym} (h : (Tree.leaf x).isAt s.arena s.cur = true)
    (hr : s.bsnk.room = some 0) (hf : s.bsnk.whenFull = .failure) :
    decodeEmit s = .next (raise (.ioError portByteSink) s) := by
  obtain ⟨f, hread⟩ := Tree.isAt_leaf.1 h
  simp only [decodeEmit, withSym_of_read hread, byteOut_of_full _ hr hf]

/-! ### One codeword -/

section
variable {s : State} (hp : s.phase = .decode)
include hp

/-- The first bits of a codeword take the walk to the node below which its other bits lead (R213, R214). -/
theorem decode_walks {x : Sym} {q : Bits} (hq : q ≠ []) (bs : Bits) (e : SourceEnd) : ∀ {p : Bits} {t : Tree} {i : NodeIdx},
    t.isAt s.arena i = true → (x, p ++ q) ∈ t.paths →
    ∃ (u : Tree) (j : NodeIdx), u.isAt s.arena j = true ∧ (x, q) ∈ u.paths ∧
      Reaches decodeTick p.length { s with loop := .top, cur := i, bitin := ⟨p ++ bs, e⟩ }
        { s with loop := .top, cur := j, bitin := ⟨bs, e⟩ } := by
  intro p
  induction p with
  | nil => intro t i ht hx; exact ⟨t, i, ht, hx, .refl⟩
  | cons b p ih =>
    intro t i ht hx
    obtain ⟨l, r, rfl⟩ := Tree.node_of_path hx (by simp)
    obtain ⟨j, hj, hwalk⟩ := decodeWalk_of_node (s := { s with loop := .top, cur := i, bitin := ⟨b :: (p ++ bs), e⟩ }) ht rfl
    have hx' := Tree.mem_paths_cons.1 hx
    obtain ⟨u, k, hu, hxu, hreach⟩ := ih hj hx'
    obtain ⟨l', r', hnode⟩ := Tree.node_of_path hx' (by simp [hq])
    rw [hnode] at hj
    have hstep : Reaches decodeTick 1 { s with loop := .top, cur := i, bitin := ⟨b :: (p ++ bs), e⟩ }
        { s with loop := .top, cur := j, bitin := ⟨p ++ bs, e⟩ } :=
      .step (by simp [hp]) (hwalk.trans (decodeArrive_of_node hj))
    exact ⟨u, k, hu, hxu, (hstep.trans hreach).mono (Nat.add_comm 1 _).le⟩

/-- A whole codeword takes the walk to its leaf, whose byte is due (R215). -/
theorem decode_reads {t : Tree} {i : NodeIdx} (ht : t.isAt s.arena i = true) {x : Sym} (hx : x ≠ eof) {w : Bits}
    (hw : w ≠ []) (hmem : (x, w) ∈ t.paths) (bs : Bits) (e : SourceEnd) :
    ∃ j, (Tree.leaf x).isAt s.arena j = true ∧
      Reaches decodeTick w.length { s with loop := .top, cur := i, bitin := ⟨w ++ bs, e⟩ }
        { s with loop := .write, cur := j, bitin := ⟨bs, e⟩ } := by
  obtain ⟨p, b, rfl⟩ := (List.eq_nil_or_concat' w).resolve_left hw
  obtain ⟨u, j, hu, hxu, hreach⟩ := decode_walks hp (List.cons_ne_nil b []) (b :: bs) e ht hmem
  obtain ⟨l, r, rfl⟩ := Tree.node_of_path hxu (List.cons_ne_nil b [])
  obtain ⟨k, hk, hwalk⟩ := decodeWalk_of_node (s := { s with loop := .top, cur := j, bitin := ⟨b :: bs, e⟩ }) hu rfl
  rw [Tree.leaf_of_nil (Tree.mem_paths_cons.1 hxu)] at hk
  rw [List.append_assoc, List.length_append]
  exact ⟨k, hk, hreach.trans (.step (by simp [hp]) (hwalk.trans (decodeArrive_of_leaf hk hx)))⟩

/-! ### All codewords -/

variable {tr : Tree} (ht : tr.isAt s.arena s.root = true) (hsize : 1 < tr.size)
include ht hsize

/-- A codeword is read, its byte goes out, and the walk is at the root again (R215, R217). -/
theorem decode_word {w : Sym × Bits} (hw : w ∈ tr.paths) (hx : w.1 ≠ eof) (bs : Bits) (e : SourceEnd) {snk : Sink Byte}
    (hsnk : snk.takes 1) :
    Reaches decodeTick (2 * w.2.length) { s with loop := .top, cur := s.root, bitin := ⟨w.2 ++ bs, e⟩, bsnk := snk }
      { s with loop := .top, cur := s.root, bitin := ⟨bs, e⟩, bsnk := snk.after 1 [lowByte w.1] } := by
  have hne := Tree.path_ne_nil hsize hw
  obtain ⟨j, hj, hreads⟩ := decode_reads (s := { s with bsnk := snk }) hp ht hx hne hw bs e
  have hemit : Reaches decodeTick 1 { s with loop := .write, cur := j, bitin := ⟨bs, e⟩, bsnk := snk }
      { s with loop := .top, cur := s.root, bitin := ⟨bs, e⟩, bsnk := snk.after 1 [lowByte w.1] } :=
    .step (by simp [hp]) (decodeEmit_of_takes hj hsnk)
  have := List.length_pos_iff.2 hne
  exact (hreads.trans hemit).mono (by omega)

/-- The codewords one after another, each with its byte (R215, R220). -/
theorem decode_words (bs : Bits) (e : SourceEnd) {ws : List (Sym × Bits)} : (∀ w ∈ ws, w ∈ tr.paths ∧ w.1 ≠ eof) →
    ∀ {snk : Sink Byte}, snk.takes ws.length →
      Reaches decodeTick (2 * (ws.map Prod.snd).flatten.length)
        { s with loop := .top, cur := s.root, bitin := ⟨(ws.map Prod.snd).flatten ++ bs, e⟩, bsnk := snk }
        { s with
          loop := .top, cur := s.root, bitin := ⟨bs, e⟩
          bsnk := snk.after ws.length (ws.map fun w => lowByte w.1) } := by
  induction ws with
  | nil => intro _ snk _; simpa using Reaches.refl
  | cons w ws ih =>
    intro hws snk hsnk
    obtain ⟨hw, hx⟩ := hws w (by simp)
    rw [List.length_cons, Nat.add_comm] at hsnk
    have hhead := decode_word hp ht hsize hw hx ((ws.map Prod.snd).flatten ++ bs) e
      (Sink.takes_mono hsnk (Nat.le_add_right _ _))
    have htail := ih (fun v hv => hws v (by simp [hv])) (Sink.takes_after hsnk [lowByte w.1])
    rw [Sink.after_after, Nat.add_comm] at htail
    rw [List.map_cons, List.flatten_cons, List.append_assoc, List.length_append, Nat.mul_add]
    exact hhead.trans htail

omit hsize in
/-- A bit source that fails inside a codeword ends DECODE with IOError(3) (R218, R243). -/
theorem decode_source_fails {w : Sym × Bits} (hw : w ∈ tr.paths) {p : Bits} (hpw : p <+: w.2) (hne : p ≠ w.2)
    (snk : Sink Byte) :
    ∃ j, Reaches decodeTick (p.length + 1) { s with loop := .top, cur := s.root, bitin := ⟨p, .failure⟩, bsnk := snk }
      (raise (.ioError portBitSource) { s with cur := j, bitin := ⟨[], .failure⟩, bsnk := snk }) := by
  obtain ⟨x, _⟩ := w
  obtain ⟨q, rfl⟩ := hpw
  have hq : q ≠ [] := by
    rintro rfl
    exact hne (List.append_nil p).symm
  obtain ⟨u, j, -, -, hreach⟩ := decode_walks (s := { s with bsnk := snk }) hp hq [] .failure ht hw
  rw [List.append_nil] at hreach
  exact ⟨j, hreach.trans (.step (by simp [hp])
    (decodeWalk_of_failure (s := { s with loop := .top, cur := j, bitin := ⟨[], .failure⟩, bsnk := snk }) rfl))⟩

/-- A byte sink that fails ends DECODE with IOError(2), the codeword of its byte read (R63, R243). -/
theorem decode_sink_fails {w : Sym × Bits} (hw : w ∈ tr.paths) (hx : w.1 ≠ eof) (bs : Bits) (e : SourceEnd)
    {snk : Sink Byte} (hr : snk.room = some 0) (hf : snk.whenFull = .failure) :
    ∃ j, Reaches decodeTick (w.2.length + 1)
      { s with loop := .top, cur := s.root, bitin := ⟨w.2 ++ bs, e⟩, bsnk := snk }
      (raise (.ioError portByteSink) { s with cur := j, bitin := ⟨bs, e⟩, bsnk := snk }) := by
  obtain ⟨j, hj, hreads⟩ := decode_reads (s := { s with bsnk := snk }) hp ht hx (Tree.path_ne_nil hsize hw) hw bs e
  exact ⟨j, hreads.trans (.step (by simp [hp]) (decodeEmit_of_full hj hr hf))⟩

end

/-- What DECODE reaches from its first bit on, within its fuel, is where its execution ends. -/
theorem exec_decode_of_reaches {s t : State} {tr : Tree} {n : Nat} (hs : s.accepting) (hv : s.treeV = true)
    (htr : s.hasTree tr) (hsize : 1 < tr.size)
    (h : Reaches decodeTick n { s with phase := .decode, eos := false, trunc := false, cur := s.root, loop := .top } t)
    (ht : t.phase = .idle) (hn : n ≤ 2 * s.bitin.data.length + 3) : exec .decode s = .next t := by
  obtain ⟨l, r, rfl⟩ := Tree.node_of_size hsize
  have hcheck : Reaches decodeTick 1 { s with phase := .decode, loop := .start }
      { s with phase := .decode, eos := false, trunc := false, cur := s.root, loop := .top } :=
    .step (by simp) (decodeCheck_of_node htr.1)
  rw [exec_decode, accept_of_ready (p := .decode) hs.2 hv, andThen_next]
  exact (hcheck.trans h).drive ht ((Nat.add_comm 1 n).le.trans (Nat.succ_le_succ hn))

end Sys2Proof.Machine

namespace Sys2Proof.Proofs

open Sys2Proof.Machine

/-- Settles O43: the codewords are read one by one until the source fails inside one, or the sink at the byte of one. -/
theorem decodeRaisesIoErrorOnItsPorts : Obligations.DecodeRaisesIoErrorOnItsPorts := by
  intro s tr ws hs hv htr hsize hws
  constructor
  · rintro p ⟨w, hw, hpw, hne⟩ hin hsnk
    have hwords := decode_words (s := { s with phase := .decode, eos := false, trunc := false }) rfl htr.1 hsize p .failure
      hws hsnk
    rw [← hin] at hwords
    obtain ⟨j, hfail⟩ := decode_source_fails (s := { s with phase := .decode, eos := false, trunc := false }) rfl htr.1
      hw hpw hne (s.bsnk.after ws.length (ws.map fun w => lowByte w.1))
    refine ⟨_, exec_decode_of_reaches hs hv htr hsize (hwords.trans hfail) rfl ?_, ?_⟩
    · rw [hin, List.length_append]
      omega
    · rw [hs.1]
      exact raise_of_noFault _ _ hs.2
  · intro w rest e hw hx hin hroom hfull
    have hwords := decode_words (s := { s with phase := .decode, eos := false, trunc := false }) rfl htr.1 hsize
      (w.2 ++ rest) e hws (Sink.takes_of_room hroom le_rfl)
    rw [← List.append_assoc, ← hin] at hwords
    obtain ⟨j, hfail⟩ := decode_sink_fails (s := { s with phase := .decode, eos := false, trunc := false }) rfl htr.1
      hsize hw hx rest e (snk := s.bsnk.after ws.length (ws.map fun w => lowByte w.1))
      (by rw [Sink.after_room hroom, Nat.sub_self]) hfull
    refine ⟨_, exec_decode_of_reaches hs hv htr hsize (hwords.trans hfail) rfl ?_, ?_⟩
    · rw [hin, List.length_append, List.length_append]
      omega
    · rw [hs.1]
      exact raise_of_noFault _ _ hs.2

end Sys2Proof.Proofs
end

section
/-! ## Words, records and their instructions (R101, R102, R111, R112) -/

namespace Sys2Proof.Machine

/-! ### Command words -/

/-- A word is its two fields (R101). -/
theorem word_eq_fields (w : Byte) : w.extractLsb' 4 4 ++ w.extractLsb' 0 4 = w := by
  rw [BitVec.extractLsb'_append_extractLsb'_eq_extractLsb' (by rfl)]
  exact BitVec.extractLsb'_eq_self

/-- A word with a high nibble that is not zero is reserved (R102). -/
theorem decodeCommand_reservedRsv {rsv op : BitVec 4} (h : rsv ≠ 0#4) :
    decodeCommand (rsv ++ op : Byte) = .reservedRsv rsv op := by
  simp only [decodeCommand, BitVec.extractLsb'_append_eq_left, BitVec.extractLsb'_append_eq_right, if_pos h]

/-- The sixteen words with a high nibble of zero, each the code of a row of the table (R100, R102). -/
theorem encode_decodeCommand_opcode : ∀ op : BitVec 4,
    (decodeCommand (0#4 ++ op : Byte)).wf = true ∧ encode (decodeCommand (0#4 ++ op : Byte)) = .command (0#4 ++ op) := by
  decide

/-- Every word is the code of the well-formed instruction it decodes to. -/
theorem encode_decodeCommand (w : Byte) : (decodeCommand w).wf = true ∧ encode (decodeCommand w) = .command w := by
  rw [← word_eq_fields w]
  generalize w.extractLsb' 4 4 = rsv
  generalize w.extractLsb' 0 4 = op
  by_cases h : rsv = 0#4
  · subst h; exact encode_decodeCommand_opcode op
  · rw [decodeCommand_reservedRsv h]
    exact ⟨by simpa [Instr.wf] using h, rfl⟩

/-! ### Records -/

/-- A symbol is read back from its nine bits (R111). -/
theorem msbValue_symbol (x : Sym) : msbValue (msbBits Config.symW x.toNat) = x.toNat := by
  rw [msbValue_msbBits, Nat.mod_eq_of_lt x.isLt]

/-- A leaf record at the front of a bit sequence (R111). -/
theorem decodeRecord_leaf (x : Sym) (rest : Bits) :
    decodeRecord (false :: (msbBits Config.symW x.toNat ++ rest)) = .ok (.treeLeaf x, rest) := by
  have hlen : (msbBits Config.symW x.toNat).length = 9 := msbBits_length _ _
  rw [decodeRecord, if_neg (by rw [List.length_append, hlen]; omega), List.take_left' hlen, List.drop_left' hlen,
    msbValue_symbol, BitVec.ofNat_toNat, BitVec.setWidth_eq]

/-- What is at the front of a bit sequence that begins with a record: its bits, as the encoder gives them (R111, R112). -/
theorem decodeRecord_eq_ok {bits rest : Bits} {i : Instr} (h : decodeRecord bits = .ok (i, rest)) :
    (i = .treeInternal ∧ bits = true :: rest) ∨
      ∃ x : Sym, i = .treeLeaf x ∧ bits = false :: (msbBits Config.symW x.toNat ++ rest) := by
  unfold decodeRecord at h
  split at h
  · cases h
  · cases h; exact .inl ⟨rfl, rfl⟩
  · next tail =>
    split at h
    · cases h
    · next hlen =>
      cases h
      have htake : (tail.take 9).length = 9 := by rw [List.length_take]; omega
      refine .inr ⟨_, rfl, ?_⟩
      have hlt := msbValue_lt (tail.take 9)
      have hbits := msbBits_msbValue (tail.take 9)
      rw [htake] at hlt hbits
      rw [BitVec.toNat_ofNat, Nat.mod_eq_of_lt hlt, hbits, List.take_append_drop]

/-- A record decodes when the sequence is its bits and no others. -/
theorem decode_record_eq_ok {bits : Bits} {i : Instr} (h : decode (.record bits) = .ok i) :
    decodeRecord bits = .ok (i, []) := by
  simp only [decode] at h
  generalize decodeRecord bits = r at h ⊢
  obtain _ | ⟨j, _ | ⟨b, rest⟩⟩ := r <;> cases h
  rfl

/-! ### The serialized tree (R112) -/

theorem Tree.leafCount_pos (t : Tree) : 0 < t.leafCount := by
  induction t with
  | leaf x => exact Nat.one_pos
  | node l r hl hr => exact Nat.add_pos_left hl _

/-- One internal node less than leaves (R112). -/
theorem Tree.size_eq (t : Tree) : t.size = t.leafCount + (t.leafCount - 1) := by
  induction t with
  | leaf x => rfl
  | node l r hl hr =>
    have := l.leafCount_pos
    have := r.leafCount_pos
    simp only [Tree.size, Tree.leafCount]
    omega

/-- Ten bits for a leaf, one for an internal node (R112). -/
theorem Tree.ser_length (t : Tree) : t.ser.length = 11 * t.leafCount - 1 := by
  induction t with
  | leaf x => simp [Tree.ser, Tree.leafCount]
  | node l r hl hr =>
    have := l.leafCount_pos
    have := r.leafCount_pos
    simp only [Tree.ser, Tree.leafCount, List.length_cons, List.length_append]
    omega

/-- The bits after a serialized tree and the tree are read from the sequence: its records come one after another (R112). -/
theorem Tree.ser_append_inj {t : Tree} : ∀ {u : Tree} {rest rest' : Bits}, t.ser ++ rest = u.ser ++ rest' →
    t = u ∧ rest = rest' := by
  induction t with
  | leaf x =>
    intro u rest rest' h
    cases u with
    | leaf y =>
      have h := congrArg decodeRecord h
      simp only [Tree.ser, List.cons_append, decodeRecord_leaf] at h
      cases h
      exact ⟨rfl, rfl⟩
    | node l r => cases h
  | node l r ihl ihr =>
    intro u rest rest' h
    cases u with
    | leaf y => cases h
    | node l' r' =>
      simp only [Tree.ser, List.cons_append, List.append_assoc, List.cons.injEq, true_and] at h
      obtain ⟨rfl, hr⟩ := ihl h
      obtain ⟨rfl, hrest⟩ := ihr hr
      exact ⟨rfl, hrest⟩

/-! ### A step of the idle block, and of DESER at a node boundary -/

/-- The word on the port of the idle block is executed (R290). -/
theorem step_of_word {s : State} {w : Byte} (hi : s.phase = .idle) (hc : s.cmd = some ⟨w, []⟩) :
    step s = exec (decodeCommand w) { s with cmd := none } := by
  simp [step, State.busy, hi, hc, issue]

/-- A running command, with no move of the host, goes on. -/
theorem step_of_running {s : State} (hi : s.phase ≠ .idle) (hh : s.host = []) : step s = resume s := by
  simp [step, State.busy, hi, hostAct, hh]

/-- The bits that are read are at hand (R64, R67). -/
theorem bitsIn_of_append {s : State} {n : Nat} {bits rest : Bits} {e : SourceEnd} (h : s.bitin = ⟨bits ++ rest, e⟩)
    (hn : bits.length = n) : bitsIn n s = (.got (msbValue bits), { s with bitin := ⟨rest, e⟩ }) := by
  subst hn
  have hle : bits.length ≤ (bits ++ rest).length := by rw [List.length_append]; exact Nat.le_add_right _ _
  simp only [bitsIn, h, Source.supply_of_le Config.endlessBit (src := ⟨bits ++ rest, e⟩) hle, if_pos hle, List.take_left,
    List.drop_left]

/-- The nine bits of a symbol are read (R64, R111). -/
theorem bitsIn_symbol {s : State} {x : Sym} {rest : Bits} {e : SourceEnd}
    (h : s.bitin = ⟨msbBits Config.symW x.toNat ++ rest, e⟩) :
    bitsIn Config.symW s = (.got x.toNat, { s with bitin := ⟨rest, e⟩ }) := by
  rw [bitsIn_of_append h (msbBits_length _ _), msbValue_symbol]

theorem deserAlloc_of_lt {s : State} {k : NodeIdx → State → Result} (h : s.alloc.toNat < Config.nodeMax) :
    deserAlloc s k = k s.alloc { s with alloc := s.alloc + 1 } := if_pos h

section
variable {s : State} (hl : s.loop = .top)
include hl

/-- The tag of an internal node is read (R175). -/
theorem deserTick_internalTag {bs : Bits} {e : SourceEnd} (h : s.bitin = ⟨true :: bs, e⟩) :
    deserTick s = deserInternalTag { s with bitin := ⟨bs, e⟩ } := by
  simp only [deserTick, hl, bitIn_of_cons h]

/-- The tag of a leaf is read (R175). -/
theorem deserTick_leafTag {bs : Bits} {e : SourceEnd} (h : s.bitin = ⟨false :: bs, e⟩) :
    deserTick s = deserLeafTag { s with bitin := ⟨bs, e⟩ } := by
  simp only [deserTick, hl, bitIn_of_cons h]

end

/-- The symbol of a leaf is read (R175, R178). -/
theorem deserTick_symbol {s : State} {i : NodeIdx} {x : Sym} {bs : Bits} {e : SourceEnd} (hl : s.loop = .symbol i)
    (h : s.bitin = ⟨msbBits Config.symW x.toNat ++ bs, e⟩) :
    deserTick s = deserSymbol i x { s with bitin := ⟨bs, e⟩ } := by
  simp only [deserTick, hl, bitsIn_symbol h, BitVec.ofNat_toNat, BitVec.setWidth_eq]

/-- A leaf record where there is a free one: two engine steps (R175). -/
theorem drive_deser_leaf {s : State} {x : Sym} {bs : Bits} {e : SourceEnd} (hp : s.phase = .deser) (hl : s.loop = .top)
    (ha : s.alloc.toNat < Config.nodeMax) (h : s.bitin = ⟨false :: (msbBits Config.symW x.toNat ++ bs), e⟩) (n : Nat) :
    drive deserTick (n + 2) s =
      andThen (deserSymbol s.alloc x { s with alloc := s.alloc + 1, loop := .symbol s.alloc, bitin := ⟨bs, e⟩ })
        (drive deserTick n) := by
  rw [drive_succ _ _ (by simp [hp]), deserTick_leafTag hl h, deserLeafTag, deserAlloc_of_lt (by exact ha), andThen_next,
    drive_succ _ _ (by simp [hp]), deserTick_symbol (by rfl) (by rfl)]

/-- The tag of an internal node where there is a free record: one engine step (R175). -/
theorem drive_deser_internal {s : State} {bs : Bits} {e : SourceEnd} (hp : s.phase = .deser) (hl : s.loop = .top)
    (ha : s.alloc.toNat < Config.nodeMax) (h : s.bitin = ⟨true :: bs, e⟩) (n : Nat) :
    drive deserTick (n + 1) s = drive deserTick n
      { s with alloc := s.alloc + 1, stack := ⟨s.alloc, .left⟩ :: s.stack, loop := .top, bitin := ⟨bs, e⟩ } := by
  rw [drive_succ _ _ (by simp [hp]), deserTick_internalTag hl h, deserInternalTag, deserAlloc_of_lt (by exact ha),
    andThen_next]

/-! ### Illegal words (R102) -/

/-- What the statements say of an illegal word `w` (R102, R247). -/
theorem acceptIllegal_raises (s : State) (w : Byte) :
    (s.err = 0#8 → ∃ t, acceptIllegal w s = .next t ∧
      t = { s with err := 1#8, errinfo := w.setWidth 16, phase := .idle, loop := t.loop }) ∧
    (s.err ≠ 0#8 → acceptIllegal w s = .next s) := by
  obtain ⟨he, h⟩ | ⟨he, h⟩ := acceptIllegal_cases w s
  · exact ⟨fun h0 => absurd h0 he, fun _ => h⟩
  · exact ⟨fun _ => ⟨_, h, raise_of_noFault s _ he⟩, fun h0 => absurd he h0⟩

/-- The opcodes 0x8 to 0xE (R100, R102). -/
theorem reservedOpcodes : ∀ op : BitVec 4, 8 ≤ op.toNat ∧ op.toNat ≤ 14 →
    op = 0x8#4 ∨ op = 0x9#4 ∨ op = 0xA#4 ∨ op = 0xB#4 ∨ op = 0xC#4 ∨ op = 0xD#4 ∨ op = 0xE#4 := by
  decide

/-- The illegal words: a high nibble that is not zero, or one of the seven reserved opcodes; all of them are executed as
illegal words (R102). -/
theorem exec_illegal {w : Byte}
    (h : w.extractLsb' 4 4 ≠ 0#4 ∨ (8 ≤ (w.extractLsb' 0 4).toNat ∧ (w.extractLsb' 0 4).toNat ≤ 14)) (s : State) :
    exec (decodeCommand w) s = acceptIllegal w s := by
  have hw := word_eq_fields w
  generalize w.extractLsb' 4 4 = rsv at h hw
  generalize w.extractLsb' 0 4 = op at h hw
  subst hw
  by_cases hr : rsv = 0#4
  · subst hr
    obtain rfl | rfl | rfl | rfl | rfl | rfl | rfl := reservedOpcodes op (h.resolve_left (absurd rfl)) <;> rfl
  · rw [decodeCommand_reservedRsv hr]; rfl

/-! ### The magic number (R121, R287) -/

theorem unpackBytes_length (bytes : List Byte) : (unpackBytes bytes).length = 8 * bytes.length := by
  induction bytes with
  | nil => rfl
  | cons b bytes ih => rw [unpackBytes_cons, List.length_append, msbBits_length, ih, List.length_cons]; omega

/-- The bits of a file's first bytes are the first of its bits. -/
theorem unpackBytes_take (bytes : List Byte) (n : Nat) : unpackBytes (bytes.take n) = (unpackBytes bytes).take (8 * n) := by
  induction bytes generalizing n with
  | nil => simp [unpackBytes]
  | cons b bytes ih =>
    cases n with
    | zero => rfl
    | succ n =>
      have hbyte : (msbBits 8 b.toNat).length ≤ 8 + 8 * n := (msbBits_length _ _).trans_le (Nat.le_add_right _ _)
      rw [List.take_succ_cons, unpackBytes_cons, unpackBytes_cons, ih, Nat.mul_succ, Nat.add_comm, List.take_append,
        List.take_of_length_le hbyte, msbBits_length, Nat.add_sub_cancel_left]

/-- The host finds the magic number when it is the file's first 32 bits. -/
theorem magicMatches_iff (file : List Byte) (magic : BitVec 32) :
    magicMatches file magic = true ↔ (unpackBytes file).take 32 = msbBits 32 magic.toNat := by
  have htake : unpackBytes (file.take 4) = (unpackBytes file).take 32 := unpackBytes_take file 4
  simp only [magicMatches, Bool.and_eq_true, decide_eq_true_eq, beq_iff_eq, htake]
  constructor
  · rintro ⟨hlen, hvalue⟩
    have h := msbBits_msbValue ((unpackBytes file).take 32)
    rwa [hvalue, List.length_take, unpackBytes_length, Nat.min_eq_left (by omega), eq_comm] at h
  · intro h
    have hlen := congrArg List.length h
    rw [List.length_take, unpackBytes_length, msbBits_length] at hlen
    exact ⟨by omega, by rw [h, msbValue_msbBits, Nat.mod_eq_of_lt magic.isLt]⟩

end Sys2Proof.Machine

namespace Sys2Proof.Proofs

open Sys2Proof.Machine

/-- Settles O1: each word is decoded. -/
theorem specWordsDecodeToTheirInstructions : Obligations.SpecWordsDecodeToTheirInstructions := by
  unfold Obligations.SpecWordsDecodeToTheirInstructions
  decide

/-- Settles O2: a reserved word's fields are found again in it, a leaf record's symbol is read from its nine bits. -/
theorem decodeInvertsEncode : Obligations.DecodeInvertsEncode := by
  intro i hi
  cases i with
  | reservedRsv rsv op =>
    have hr : rsv ≠ 0#4 := by simpa [Instr.wf] using hi
    exact congrArg Except.ok (decodeCommand_reservedRsv hr)
  | treeLeaf x =>
    have h := decodeRecord_leaf x []
    rw [List.append_nil] at h
    simp only [encode, decode, h]
  | _ => rfl

/-- Settles O3: a command word is its fields, a record's bits are those its value gives. -/
theorem encodeInvertsDecode : Obligations.EncodeInvertsDecode := by
  intro c i h
  cases c with
  | command w =>
    cases h
    exact encode_decodeCommand w
  | record bits =>
    obtain ⟨rfl, rfl⟩ | ⟨x, rfl, rfl⟩ := decodeRecord_eq_ok (decode_record_eq_ok h)
    · exact ⟨rfl, rfl⟩
    · exact ⟨rfl, by rw [List.append_nil]; rfl⟩

/-- Settles O4: the count by induction on the tree, and the records of two trees compared one after another. -/
theorem serializedTreeIsSelfDelimiting : Obligations.SerializedTreeIsSelfDelimiting := by
  refine ⟨fun t => ⟨t.size_eq, ?_, t.ser_length⟩, fun t u rest h => ?_⟩
  · have := t.leafCount_pos
    rw [t.ser_length]
    omega
  · rw [← List.append_nil u.ser] at h
    exact Tree.ser_append_inj h

/-- Settles O5: with no move of the host during its run the word is issued as its instruction. -/
theorem stepExecutesThePresentedWord : Obligations.StepExecutesThePresentedWord := by
  intro s w i hi hc hdec
  cases hdec
  exact step_of_word hi hc

/-- Settles O7: a record is one transaction or two, and what they do is the record's execution. -/
theorem stepExecutesTheRecordAtANodeBoundary : Obligations.StepExecutesTheRecordAtANodeBoundary := by
  intro s r rest hp hl hh ha hrec
  have hrun : step s = drive deserTick deserFuel s := by
    rw [step_of_running (by simp [hp]) hh, resume, hp]
    rfl
  have hnode : s.atNode = true := by simp [State.atNode, hp, hl]
  have hsrc : ∀ {data : Bits}, s.bitin.data = data → s.bitin = ⟨data, s.bitin.ending⟩ := fun h => h ▸ rfl
  rw [hrun]
  obtain ⟨rfl, hd⟩ | ⟨x, rfl, hd⟩ := decodeRecord_eq_ok hrec
  · have hexec : exec .treeInternal { s with bitin := { s.bitin with data := rest } } = _ := if_pos hnode
    rw [if_pos rfl, hexec, deserInternalTag, deserAlloc_of_lt (by exact ha), andThen_next]
    exact drive_deser_internal hp hl ha (hsrc hd) (deserFuel - 1)
  · have hexec : exec (.treeLeaf x) { s with bitin := { s.bitin with data := rest } } = _ := if_pos hnode
    rw [if_neg nofun, hexec, deserLeafTag, deserAlloc_of_lt (by exact ha), andThen_next]
    exact drive_deser_leaf hp hl ha (hsrc hd) (deserFuel - 2)

/-- Settles O12: every illegal word is executed as one, and so is the instruction of each reserved row. -/
theorem illegalWordsRaiseIllegalCommand : Obligations.IllegalWordsRaiseIllegalCommand := by
  intro s _ raises
  have hraises := acceptIllegal_raises s
  refine ⟨hraises 0x08#8, hraises 0x09#8, hraises 0x0A#8, hraises 0x0B#8, hraises 0x0C#8, hraises 0x0D#8, hraises 0x0E#8,
    fun rsv op _ => hraises (rsv ++ op), fun w i hdec hw => ?_⟩
  cases hdec
  simp only [raises, exec_illegal hw]
  exact hraises w

/-- Settles O50: the moves of a session on a mismatch, none of which presents a word. -/
theorem magicMismatchPresentsNoCommand : Obligations.MagicMismatchPresentsNoCommand := by
  refine ⟨fun file magic h p => ?_, fun _ => rfl⟩
  have hno : magicMatches file magic ≠ true := fun hm => h ((magicMatches_iff file magic).1 hm)
  simp [decompressSession, hno]

end Sys2Proof.Proofs
end

section
/-! ## COUNT tabulates its source (R141, R142) -/

namespace Sys2Proof.Machine

/-- Every byte's counter is the number of times it occurs in `data` (R142). -/
def CountsOf (ft : Memory Freq) (data : List Byte) : Prop :=
  ∀ b : Byte, ft.read b.toNat = some (BitVec.ofNat Config.freqW (data.count b))

/-- The table of COUNT at its end: the counts of the bytes, and one for symbol 256 (R142). -/
structure TableOf (ft : Memory Freq) (data : List Byte) : Prop where
  bytes : CountsOf ft data
  eof : ft.read Config.eofSym = some 1

theorem CountsOf.fill : CountsOf (Memory.fill Config.nsym 0) [] := fun b => by
  have hb : b.toNat < Config.nsym := b.isLt.trans (by decide)
  rw [Memory.read_fill, if_pos hb]
  rfl

/-- One byte more is counted (R141). -/
theorem CountsOf.write {ft : Memory Freq} {data : List Byte} (h : CountsOf ft data) (b : Byte) :
    CountsOf (ft.write b.toNat (BitVec.ofNat Config.freqW (data.count b) + 1)) (data ++ [b]) := by
  intro c
  rw [Memory.read_write, List.count_append]
  by_cases hc : c = b
  · subst hc
    rw [if_pos rfl, List.count_singleton_self, BitVec.ofNat_add]
    rfl
  · rw [if_neg fun h => hc (BitVec.eq_of_toNat_eq h), h c, List.count_singleton, if_neg fun h => hc (beq_iff_eq.1 h).symm,
      Nat.add_zero]

/-- A symbol is that of a byte or 256 (R6). -/
theorem symbol_cases {a : Nat} (h : a < Config.nsym) : (∃ b : Byte, b.toNat = a) ∨ a = Config.eofSym := by
  obtain h | h := Nat.lt_or_eq_of_le (Nat.le_of_lt_succ h)
  · exact .inl ⟨BitVec.ofNat 8 a, Nat.mod_eq_of_lt h⟩
  · exact .inr h

theorem TableOf.full {ft : Memory Freq} {data : List Byte} (h : TableOf ft data) : Memory.full Config.nsym ft := by
  intro a ha
  obtain ⟨b, rfl⟩ | rfl := symbol_cases ha
  · rw [h.bytes b]; rfl
  · rw [h.eof]; rfl

/-- The end of COUNT adds the entry of symbol 256 (R142). -/
theorem CountsOf.tableOf {ft : Memory Freq} {data : List Byte} (h : CountsOf ft data) :
    TableOf (ft.write Config.eofSym 1) data where
  bytes b := by
    have hne : b.toNat ≠ Config.eofSym := b.isLt.ne
    rw [Memory.read_write_of_ne _ _ hne, h b]
  eof := Memory.read_write_self _ _ _

/-- The symbols with an entry are those of the bytes that occur, and 256 (R30, R151). -/
theorem TableOf.mem_tableSymbols {ft : Memory Freq} {data : List Byte} (h : TableOf ft data)
    (hb : ∀ b : Byte, data.count b < 2 ^ Config.freqW) {b : Byte} (hmem : b ∈ data) : b.toNat ∈ tableSymbols ft := by
  have hne : BitVec.ofNat Config.freqW (data.count b) ≠ 0 := by
    intro h0
    have := congrArg BitVec.toNat h0
    rw [BitVec.toNat_ofNat, Nat.mod_eq_of_lt (hb b)] at this
    exact (List.count_pos_iff.2 hmem).ne' this
  simp only [tableSymbols, List.mem_filter, List.mem_range, h.bytes b, Option.any_some, decide_eq_true_eq]
  exact ⟨b.isLt.trans (by decide), hne⟩

/-- A byte whose counter is below its bound is counted (R141, R143). -/
theorem countByte_of_lt {s : State} {data : List Byte} {b : Byte} (hft : CountsOf s.ft data)
    (hb : data.count b + 1 < 2 ^ Config.freqW) :
    countByte b s = .next { s with ft := s.ft.write b.toNat (BitVec.ofNat Config.freqW (data.count b) + 1) } := by
  have hbound : BitVec.ofNat Config.freqW (data.count b) ≠ BitVec.allOnes Config.freqW := by
    intro h
    have := congrArg BitVec.toNat h
    rw [BitVec.toNat_ofNat, BitVec.toNat_allOnes, Nat.mod_eq_of_lt (by omega)] at this
    omega
  rw [countByte, withCounter_of_read (hft b), if_neg hbound]

/-- A byte is read and counted (R141). -/
theorem countTick_byte {s : State} {data bs : List Byte} {b : Byte} {e : SourceEnd} (hl : s.loop = .top) (hsrc : s.bsrc = ⟨b :: bs, e⟩)
    (hft : CountsOf s.ft data) (hb : data.count b + 1 < 2 ^ Config.freqW) :
    countTick s = .next { s with
      bsrc := ⟨bs, e⟩, ft := s.ft.write b.toNat (BitVec.ofNat Config.freqW (data.count b) + 1) } := by
  simp only [countTick, hl, byteIn_of_cons hsrc]
  exact countByte_of_lt hft hb

section
variable {s : State} (hp : s.phase = .count)
include hp

/-- The bytes are counted one by one (R141, R142). -/
theorem count_bytes (rest : List Byte) (e : SourceEnd) {bytes : List Byte} : ∀ {data : List Byte} {ft : Memory Freq},
    CountsOf ft data → (∀ b : Byte, (data ++ bytes).count b < 2 ^ Config.freqW) →
    ∃ ft', CountsOf ft' (data ++ bytes) ∧
      Reaches countTick bytes.length { s with loop := .top, ft := ft, bsrc := ⟨bytes ++ rest, e⟩ }
        { s with loop := .top, ft := ft', bsrc := ⟨rest, e⟩ } := by
  induction bytes with
  | nil => intro data ft hft _; exact ⟨ft, by rwa [List.append_nil], .refl⟩
  | cons b bytes ih =>
    intro data ft hft hb
    have hcount : data.count b + 1 < 2 ^ Config.freqW := by
      have := hb b
      rw [List.count_append, List.count_cons_self] at this
      omega
    rw [List.append_cons] at hb ⊢
    obtain ⟨ft', hft', hrest⟩ := ih (hft.write b) hb
    have htick := countTick_byte (s := { s with loop := .top, ft := ft, bsrc := ⟨b :: (bytes ++ rest), e⟩ }) rfl rfl hft
      hcount
    exact ⟨ft', hft', ((Reaches.step (by simp [hp]) htick).trans hrest).mono (Nat.add_comm 1 _).le⟩

end

/-- COUNT of a source that ends: the table of its bytes, and nothing else changes (R142, R145). -/
theorem exec_count_tabulates {s : State} {data : List Byte} (hs : s.accepting) (hsrc : s.bsrc = ⟨data, .endOfData⟩)
    (hb : ∀ b : Byte, data.count b < 2 ^ Config.freqW) :
    ∃ ft, TableOf ft data ∧ exec .count s = .next { s with
      phase := .idle, loop := .start, ft := ft, ftV := true, bsrc := ⟨[], .endOfData⟩ } := by
  obtain ⟨ft, hft, hbytes⟩ := count_bytes (s := { s with phase := .count, ftV := false }) rfl [] .endOfData CountsOf.fill hb
  rw [List.append_nil, ← hsrc] at hbytes
  have hstart : Reaches countTick 1 { s with phase := .count, loop := .start }
      { s with phase := .count, ftV := false, loop := .top, ft := Memory.fill Config.nsym 0 } := .step (by simp) rfl
  have hend : Reaches countTick 1
      { s with phase := .count, ftV := false, loop := .top, ft := ft, bsrc := ⟨[], .endOfData⟩ }
      { s with
        phase := .idle, loop := .start, ft := ft.write Config.eofSym 1, ftV := true, bsrc := ⟨[], .endOfData⟩ } :=
    .step (by simp) rfl
  refine ⟨_, hft.tableOf, ?_⟩
  rw [exec_count, accept_of_ready (p := .count) hs.2 rfl, andThen_next]
  refine ((hstart.trans hbytes).trans hend).drive rfl ?_
  show 1 + data.length + 1 ≤ s.bsrc.data.length + 2
  rw [hsrc, Nat.add_comm 1]

/-- A table that COUNT has made is sound (R30, R142). -/
theorem TableOf.frequencySound {s : State} {data : List Byte} (h : TableOf s.ft data) (hp : s.phase = .idle) :
    s.FrequencySound :=
  ⟨fun _ => h.full, fun _ => h.eof, fun hc => nomatch hp.symm.trans hc⟩

end Sys2Proof.Machine
end

section
/-! ## BUILD makes one tree of the table (R150 to R155)

The collection is a forest whose leaves are those of the table, at every merge; when one node is left it is the tree. -/

namespace Sys2Proof.Machine

/-! ### The symbols of a tree's leaves -/

/-- The symbols of the leaves, in pre-order (R115). -/
def Tree.syms (t : Tree) : List Sym := t.paths.map Prod.fst

@[simp] theorem Tree.syms_leaf (x : Sym) : (Tree.leaf x).syms = [x] := rfl

@[simp] theorem Tree.syms_node (l r : Tree) : (Tree.node l r).syms = l.syms ++ r.syms := by
  simp [Tree.syms, Tree.paths, Function.comp_def]

/-! ### Collections that differ by one member -/

/-- The members of a collection with one more member. -/
theorem State.members_perm_cons {s t : State} {n : Nat} (hs : Memory.wf Config.nodeMax s.pq)
    (ht : Memory.wf Config.nodeMax t.pq) (hn : n ∉ s.members) (h : ∀ j, j ∈ t.members ↔ j ∈ s.members ∨ j = n) :
    t.members.Perm (n :: s.members) :=
  (List.perm_ext_iff_of_nodup (State.members_nodup ht) (List.nodup_cons.2 ⟨hn, State.members_nodup hs⟩)).2 fun j => by
    rw [h, List.mem_cons, or_comm]

/-- The members of a collection that one member has left. -/
theorem State.members_perm_of_remove {s t : State} {a : Nat} (hs : Memory.wf Config.nodeMax s.pq)
    (ht : Memory.wf Config.nodeMax t.pq) (ha : a ∈ s.members) (h : ∀ j, j ∈ t.members ↔ j ∈ s.members ∧ j ≠ a) :
    s.members.Perm (a :: t.members) := by
  refine State.members_perm_cons ht hs (fun hmem => ((h a).1 hmem).2 rfl) fun j => ?_
  rw [h]
  by_cases hj : j = a
  · simp [hj, ha]
  · simp [hj]

/-- The symbols of the trees that stand at the listed records. -/
def symsAt (f : Nat → Tree) (l : List Nat) : List Sym := l.flatMap fun i => (f i).syms

theorem symsAt_cons (f : Nat → Tree) (i : Nat) (l : List Nat) : symsAt f (i :: l) = (f i).syms ++ symsAt f l := rfl

/-- A tree at another record does not matter. -/
theorem symsAt_update {f : Nat → Tree} {n : Nat} {l : List Nat} (t : Tree) (h : n ∉ l) :
    symsAt (Function.update f n t) l = symsAt f l := by
  refine List.flatMap_congr fun i hi => ?_
  have hin : i ≠ n := fun e => h (e ▸ hi)
  rw [Function.update_of_ne hin]

/-! ### The collection and its symbols -/

/-- The collection is a forest on the records below the count, and its leaves are `syms`; a member for each leaf, less one
and a record more for each merge (R151, R152, R154). -/
structure State.Collects (s : State) (syms : List Sym) : Prop where
  pq : Memory.wf Config.nodeMax s.pq
  count : s.alloc.toNat + s.members.length = 2 * syms.length
  forest : ∃ f, Forest s.arena s.alloc.toNat (· ∈ s.members) f ∧ (symsAt f s.members).Perm syms

theorem State.Collects.perm {s : State} {syms syms' : List Sym} (h : s.Collects syms) (hp : syms.Perm syms') :
    s.Collects syms' := by
  obtain ⟨hw, hc, f, hf, hsyms⟩ := h
  exact ⟨hw, hp.length_eq ▸ hc, f, hf, hsyms.trans hp⟩

/-- The empty collection (R150). -/
theorem State.Collects.of_empty {s : State} (hp : s.pq = Memory.fill Config.nodeMax false) (ha : s.alloc = 0) :
    s.Collects [] := by
  have hm : s.members = [] := by simp [State.members, hp, Memory.fill]
  refine ⟨hp ▸ Memory.wf_fill _ _, by rw [hm, ha]; rfl, fun _ => .leaf 0, ?_, by rw [hm]; exact .refl _⟩
  rw [hm]
  exact ⟨nofun, nofun, nofun⟩

/-- A leaf is one member, one record and one symbol more (R151). -/
theorem State.Collects.addLeaf {s : State} {syms : List Sym} (hs : s.Collects syms) (hn : s.alloc.toNat < Config.nodeMax)
    (x : Sym) (g : NodeFreq) :
    ∃ t, addNode (.leaf x g) s = .next t ∧ t.Collects (x :: syms) ∧ t.ft = s.ft := by
  obtain ⟨hw, hc, f, hf, hsyms⟩ := hs
  have hnot : s.alloc.toNat ∉ s.members := fun h => lt_irrefl _ (hf.below _ h)
  obtain ⟨t, ht, hta, htn, htf⟩ := addNode_total (.leaf x g) hn
  obtain ⟨hw', hm, hlen⟩ := addNode_members hw hf.below ht
  refine ⟨t, ht, ⟨hw', by rw [htn, hlen, List.length_cons]; omega, Function.update f s.alloc.toNat (.leaf x), ?_, ?_⟩, htf⟩
  · rw [hta, htn]
    exact (hf.addLeaf hn x g).mono fun i hi => (hm i).1 hi
  · refine ((State.members_perm_cons hw hw' hnot hm).flatMap_right _).trans ?_
    show (symsAt (Function.update f s.alloc.toNat (.leaf x)) (s.alloc.toNat :: s.members)).Perm _
    rw [symsAt_cons, symsAt_update _ hnot, Function.update_self]
    exact hsyms.cons x

/-! ### The leaves (R151) -/

/-- The symbols that have an entry in the frequency table, in ascending order (R151). -/
def tableSyms (ft : Memory Freq) : List Sym := (tableSymbols ft).map (BitVec.ofNat Config.symW)

theorem tableSyms_length_le (ft : Memory Freq) : (tableSyms ft).length ≤ Config.nsym := by
  rw [tableSyms, List.length_map]
  exact (List.length_filter_le _ _).trans_eq (List.length_range)

/-- Symbol 256 always has an entry (R142). -/
theorem eof_mem_tableSyms {ft : Memory Freq} (h : ft.read Config.eofSym = some 1) : eof ∈ tableSyms ft := by
  refine List.mem_map_of_mem (f := BitVec.ofNat Config.symW) (a := Config.eofSym) ?_
  simp only [tableSymbols, List.mem_filter, List.mem_range, h]
  decide

/-- Step 1 of BUILD: the leaves of the listed symbols that have an entry (R151). -/
theorem addLeaves_collects : ∀ {l : List Nat} {s : State} {syms : List Sym}, (∀ a ∈ l, (s.ft.read a).isSome = true) →
    s.Collects syms → syms.length + l.length ≤ Config.nsym →
    ∃ t, addLeaves l s = .next t ∧ t.Collects ((entriesAmong s.ft l).map (BitVec.ofNat Config.symW) ++ syms) := by
  intro l
  induction l with
  | nil => intro s syms _ hs _; exact ⟨s, rfl, hs⟩
  | cons a l ih =>
    intro s syms hfull hs hfits
    rw [List.length_cons] at hfits
    have hfits : syms.length + (l.length + 1) ≤ 257 := hfits
    obtain ⟨c, hc⟩ := Option.isSome_iff_exists.1 (hfull a (by simp))
    have hfull' : ∀ a ∈ l, (s.ft.read a).isSome = true := fun b hb => hfull b (by simp [hb])
    rw [addLeaves, withCounter_of_read hc, entriesAmong_cons l hc]
    by_cases h0 : c = 0
    · rw [if_pos h0, if_pos h0]
      exact ih hfull' hs (show _ ≤ 257 by omega)
    · rw [if_neg h0, if_neg h0]
      have hcount := hs.count
      obtain ⟨u, hu, hsu, hft⟩ := hs.addLeaf (show _ < 513 by omega) (BitVec.ofNat Config.symW a)
        (c.setWidth Config.nfreqW)
      obtain ⟨t, ht, hst⟩ := ih (hft ▸ hfull') hsu (show _ ≤ 257 by rw [List.length_cons]; omega)
      rw [hft] at hst
      rw [hu]
      exact ⟨t, ht, hst.perm List.perm_middle⟩

/-- BUILD's start collects a leaf for each entry of the table (R150, R151). -/
theorem buildStart_collects {s : State} (hf : s.FrequencySound) (hv : s.ftV = true) :
    ∃ t, buildStart s = .next t ∧ t.Collects (tableSyms s.ft) := by
  have hfull : ∀ a ∈ List.range Config.nsym, (s.ft.read a).isSome = true :=
    fun a ha => hf.full hv a (List.mem_range.1 ha)
  obtain ⟨t, ht, hst⟩ := addLeaves_collects (s := { s with
    treeV := false, cwtV := false, pq := Memory.fill Config.nodeMax false, alloc := 0, loop := .top })
    hfull (.of_empty (by dsimp only) rfl) (by simp)
  rw [List.append_nil] at hst
  exact ⟨t, ht, hst⟩

/-- A merge takes two members out and puts one in, with the leaves of both (R154). -/
theorem buildMerge_collects {s : State} {syms : List Sym} (hs : s.Collects syms) (hfits : syms.length ≤ Config.nsym)
    (hm : 2 ≤ s.members.length) :
    ∃ t, buildMerge s = .next t ∧ t.Collects syms ∧ t.members.length + 1 = s.members.length := by
  obtain ⟨hw, hc, f, hf, hsyms⟩ := hs
  have hfits : syms.length ≤ 257 := hfits
  have hnode : s.alloc.toNat < Config.nodeMax := show _ < 513 by omega
  obtain ⟨a, fa, t, h1, ha, htw, hmt, hlt, hta, htn⟩ := extractMin_total (fun a fa t => extractMin t fun b fb u =>
    addNode (.internal (BitVec.ofNat Config.idxW a) (BitVec.ofNat Config.idxW b) (fa + fb)) u) hw hf hnode.le
    (List.ne_nil_of_length_pos (by omega))
  have hft : Forest t.arena s.alloc.toNat (· ∈ t.members) f := hta ▸ hf.mono fun i hi => ((hmt i).1 hi).1
  obtain ⟨b, fb, u, h2, hb, huw, hmu, hlu, hua, hun⟩ := extractMin_total (fun b fb u =>
    addNode (.internal (BitVec.ofNat Config.idxW a) (BitVec.ofNat Config.idxW b) (fa + fb)) u) htw hft hnode.le
    (List.ne_nil_of_length_pos (by omega))
  have hsub : ∀ i, i ∈ u.members → i ∈ s.members ∧ i ≠ a ∧ i ≠ b := fun i hi =>
    ⟨((hmt i).1 ((hmu i).1 hi).1).1, ((hmt i).1 ((hmu i).1 hi).1).2, ((hmu i).1 hi).2⟩
  have hba := (hmt b).1 hb
  rw [htn] at hun
  obtain ⟨v, h3, hva, hvn, -⟩ := addNode_total
    (.internal (BitVec.ofNat Config.idxW a) (BitVec.ofNat Config.idxW b) (fa + fb)) (s := u) (hun ▸ hnode)
  obtain ⟨hvw, hmv, hlv⟩ := addNode_members huw (fun i hi => hun ▸ hf.below i (hsub i hi).1) h3
  rw [hun] at hvn hmv hva
  rw [hua, hta] at hva
  have hnot : s.alloc.toNat ∉ u.members := fun h => lt_irrefl _ (hf.below _ (hsub _ h).1)
  refine ⟨v, (h1.trans h2).trans h3,
    ⟨hvw, by omega, Function.update f s.alloc.toNat (.node (f a) (f b)), ?_, ?_⟩, by omega⟩
  · rw [hva, hvn]
    exact (hf.merge hnode ha hba.1 hba.2.symm _).mono fun i hi => ((hmv i).1 hi).imp_left (hsub i)
  · have hperm : s.members.Perm (a :: b :: u.members) :=
      (State.members_perm_of_remove hw htw ha hmt).trans ((State.members_perm_of_remove htw huw hb hmu).cons a)
    refine (((State.members_perm_cons huw hvw hnot hmv).flatMap_right _).trans ?_).trans
      ((hperm.flatMap_right _).symm.trans hsyms)
    show (symsAt (Function.update f s.alloc.toNat (.node (f a) (f b))) (s.alloc.toNat :: u.members)).Perm
      (symsAt f (a :: b :: u.members))
    rw [symsAt_cons, symsAt_update _ hnot, Function.update_self, symsAt_cons, symsAt_cons, Tree.syms_node,
      List.append_assoc]

/-- A collection with leaves has a member (R152). -/
theorem State.Collects.members_pos {s : State} {syms : List Sym} (hs : s.Collects syms) (h : syms ≠ []) :
    0 < s.members.length := by
  obtain ⟨-, -, f, -, hsyms⟩ := hs
  refine List.length_pos_iff.2 fun h0 => h ?_
  rw [h0] at hsyms
  exact hsyms.symm.eq_nil

/-! ### The run of BUILD -/

section
variable {s : State} (hl : s.loop ≠ .start)
include hl

theorem buildTick_of_many (hm : 2 ≤ s.members.length) : buildTick s = buildMerge s := by
  unfold buildTick
  split
  · contradiction
  · split
    · next h => rw [h] at hm; exact absurd hm (by decide)
    · next h => rw [h] at hm; exact absurd hm (by simp)
    · rfl

theorem buildTick_of_one {r : Nat} (hm : s.members = [r]) : buildTick s = .next (buildEnd r s) := by
  unfold buildTick
  split
  · contradiction
  · rw [hm]

end

/-- Merges until one node is left (R150, R155). -/
theorem build_merges {n : Nat} : ∀ {s : State} {syms : List Sym}, s.phase = .build → s.loop ≠ .start → s.Collects syms →
    syms.length ≤ Config.nsym → s.members.length = n + 1 →
    ∃ t r, Reaches buildTick n s t ∧ BuildWrites s t ∧ t.Collects syms ∧ t.members = [r] := by
  induction n with
  | zero =>
    intro s syms _ _ hs _ hm
    obtain ⟨r, hr⟩ := List.length_eq_one_iff.1 hm
    exact ⟨s, r, .refl, ⟨_, _, _, id, id⟩, hs, hr⟩
  | succ n ih =>
    intro s syms hp hl hs hfits hm
    obtain ⟨u, hu, hsu, hmu⟩ := buildMerge_collects hs hfits (by omega)
    have htick : buildTick s = .next u := (buildTick_of_many hl (by omega)).trans hu
    have hwu := buildMerge_writes hu
    have hpu : u.phase = .build ∧ u.loop ≠ .start := by obtain ⟨⟩ := hwu; exact ⟨hp, hl⟩
    obtain ⟨t, r, ht, hwt, hst, hr⟩ := ih hpu.1 hpu.2 hsu hfits (by omega)
    exact ⟨t, r, ((Reaches.step (by simp [hp]) htick).trans ht).mono (Nat.add_comm 1 _).le, hwu.trans hwt, hst, hr⟩

/-- The merges and the end (R150, R155). -/
theorem build_run {s : State} {syms : List Sym} (hp : s.phase = .build) (hl : s.loop ≠ .start) (hs : s.Collects syms)
    (hne : syms ≠ []) (hfits : syms.length ≤ Config.nsym) :
    ∃ t r, Reaches buildTick s.members.length s (buildEnd r t) ∧ BuildWrites s t ∧ t.Collects syms ∧ t.members = [r] := by
  obtain ⟨n, hn⟩ := Nat.exists_eq_succ_of_ne_zero (hs.members_pos hne).ne'
  obtain ⟨t, r, ht, hw, hst, hr⟩ := build_merges hp hl hs hfits hn
  have hpt : t.phase = s.phase ∧ t.loop = s.loop := by obtain ⟨⟩ := hw; exact ⟨rfl, rfl⟩
  have hend : Reaches buildTick 1 t (buildEnd r t) :=
    .step (by simp [hpt.1, hp]) (buildTick_of_one (hpt.2 ▸ hl) hr)
  exact ⟨t, r, hn ▸ ht.trans hend, hw, hst, hr⟩

/-- The one node that is left is the root of a tree with all the leaves (R155). -/
theorem State.Collects.tree {s : State} {syms : List Sym} {r : Nat} (hs : s.Collects syms) (hr : s.members = [r]) :
    s.alloc.toNat + 1 = 2 * syms.length ∧
      ∃ tr : Tree, TreeWithin s.arena (BitVec.ofNat Config.idxW r) 0 s.alloc.toNat tr ∧ tr.syms.Perm syms := by
  obtain ⟨-, hc, f, hf, hsyms⟩ := hs
  rw [hr] at hc hsyms
  refine ⟨hc, f r, hf.trees r (by simp [hr]), ?_⟩
  rwa [symsAt_cons, symsAt, List.flatMap_nil, List.append_nil] at hsyms

/-- BUILD makes one tree of a sound table, whose leaves are the table's symbols; nothing else changes but the working storage,
and the table is consumed (R150, R155). -/
theorem exec_build_makesTree {s : State} (hs : s.accepting) (hv : s.ftV = true) (hf : s.FrequencySound) :
    ∃ arena pq root nnode alloc tr, TreeWithin arena root 0 nnode.toNat tr ∧ tr.syms.Perm (tableSyms s.ft) ∧
      nnode.toNat + 1 = 2 * (tableSyms s.ft).length ∧
      exec .build s = .next { s with
        phase := .idle, loop := .start, arena := arena, pq := pq, root := root, nnode := nnode, alloc := alloc
        treeV := true, cwtV := false, ftV := false } := by
  obtain ⟨t, ht, hst⟩ := buildStart_collects (s := { s with phase := .build, loop := .start }) { hf with counting := nofun } hv
  replace hst : t.Collects (tableSyms s.ft) := hst
  have hne : tableSyms s.ft ≠ [] := List.ne_nil_of_mem (eof_mem_tableSyms (hf.eofOne hv))
  have hw := buildStart_writes ht
  have hpt : t.phase = .build ∧ t.loop ≠ .start := by obtain ⟨⟩ := hw; exact ⟨rfl, nofun⟩
  obtain ⟨u, r, hu, hwu, hsu, hr⟩ := build_run hpt.1 hpt.2 hst hne (tableSyms_length_le _)
  obtain ⟨hcount, tr, htr, hsyms⟩ := hsu.tree hr
  have hstart : Reaches buildTick 1 { s with phase := .build, loop := .start } t := .step (by simp) ht
  have hfuel : 1 + t.members.length ≤ buildFuel := by
    have := hst.count
    have : (tableSyms s.ft).length ≤ 257 := tableSyms_length_le _
    show _ ≤ 515
    omega
  refine ⟨u.arena, u.pq.write r false, BitVec.ofNat Config.idxW r, u.alloc, u.alloc, tr, htr, hsyms, hcount, ?_⟩
  rw [exec_build, accept_of_ready (p := .build) hs.2 hv, andThen_next]
  refine ((hstart.trans hu).drive rfl hfuel).trans ?_
  obtain ⟨⟩ := hw.trans hwu
  rfl

end Sys2Proof.Machine
end

section
/-! ## DERIVE, SER and ENCODE write the table, the tree and the payload (R171, R190, R201) -/

namespace Sys2Proof.Machine

/-! ### DERIVE -/

/-- Only one tree stands at a record (R35). -/
theorem Tree.isAt_unique {m : Memory Node} {t : Tree} : ∀ {u : Tree} {i : NodeIdx}, t.isAt m i = true →
    u.isAt m i = true → t = u := by
  induction t with
  | leaf x =>
    intro u i ht hu
    obtain ⟨f, hr⟩ := Tree.isAt_leaf.1 ht
    exact (Tree.isAt_leafRecord hr hu).symm
  | node l r ihl ihr =>
    intro u i ht hu
    obtain ⟨a, b, f, hr, hl, hrr⟩ := Tree.isAt_node.1 ht
    obtain ⟨l', r', rfl, hl', hrr'⟩ := Tree.isAt_internal hr hu
    rw [ihl hl hl', ihr hrr hrr']

/-- The table holds the codewords of the tree (R190, R193). -/
def IsTableOf (cwt : Memory CwEntry) (tr : Tree) : Prop :=
  ∀ x : Sym, x.toNat < Config.nsym → (cwt.read x.toNat).map (Option.map Codeword.seq) = some (tr.codeword x)

/-- All that DERIVE's walk changes before its end: the table and the working storage. -/
inductive DeriveWrites (s : State) : State → Prop where
  | mk (cwt : Memory CwEntry) (stack : List Frame) (path : BitVec Config.cwMax) (plen : BitVec Config.lenW) :
    DeriveWrites s { s with cwt := cwt, stack := stack, path := path, plen := plen }

theorem DeriveWrites.trans {s t u : State} (h : DeriveWrites s t) (h' : DeriveWrites t u) : DeriveWrites s u := by
  obtain ⟨⟩ := h
  obtain ⟨⟩ := h'
  exact ⟨_, _, _, _⟩

/-- A move of DERIVE past its start is one of the walk, or the end. -/
theorem EngineMove.deriveWrites {s t : State} (hl : s.loop ≠ .start) (h : EngineMove s .derive t) :
    DeriveWrites s t ∨ t = Machine.deriveEnd s := by
  cases h with
  | stay hp => exact absurd rfl hp.2
  | raise _ hp => exact absurd rfl hp.2
  | deriveStart h => exact absurd h hl
  | deriveLeaf => rw [recordCodeword_eq]; exact .inl ⟨_, _, _, _⟩
  | deriveEnd => exact .inr rfl
  | _ => exact .inl ⟨_, _, _, _⟩

/-- Where the walk stands there is a record to read (R41). -/
theorem deriveTick_total {s : State} {p : Bits} {todo : List (Sym × Bits)} {n : Nat} (hl : s.loop ≠ .start)
    (h : DeriveTodo s.arena s.stack p todo n) : ∃ t, deriveTick s = .next t := by
  unfold deriveTick
  split
  · contradiction
  · generalize s.stack = st at h
    cases h with
    | nil => exact ⟨_, rfl⟩
    | enter ht =>
      obtain ⟨nd, hr⟩ := Tree.isAt_some ht
      simp only [withRecord_of_read hr]
      cases nd <;> exact ⟨_, rfl⟩
    | left hr => exact ⟨_, withChildren_of_read hr⟩
    | right => exact ⟨_, rfl⟩

/-- An engine step of DERIVE past its start: less of the walk is left, or it ends with the table of the tree. -/
theorem deriveTick_cases {s : State} {n : Nat} (hp : s.phase = .derive) (hl : s.loop ≠ .start) (hs : s.DeriveSound n) :
    ∃ t, deriveTick s = .next t ∧
      ((DeriveWrites s t ∧ ∃ k < n, t.DeriveSound k) ∨ (t = deriveEnd s ∧ t.TableOfTree)) := by
  obtain ⟨-, -, -, todo, -, -, htodo, -⟩ := id hs
  obtain ⟨t, ht⟩ := deriveTick_total hl htodo
  obtain ⟨u, hu, hm⟩ := deriveTick_step ht
  cases hu with
  | byteIn hp | bitIn hp | bitOut hp => simp at hp
  | none =>
    have hmove := hs.move hl hm
    refine ⟨t, ht, ?_⟩
    obtain hw | rfl := hm.deriveWrites hl
    · obtain ⟨hidle, -⟩ | ⟨-, -, hless⟩ := hmove
      · obtain ⟨⟩ := hw
        cases hp.symm.trans hidle
      · exact .inl ⟨hw, hless⟩
    · obtain ⟨-, htable⟩ | ⟨hphase, -⟩ := hmove
      · exact .inr ⟨rfl, htable⟩
      · cases hphase.trans hp

/-- The walk of DERIVE to its end (R190). -/
theorem derive_walks {n : Nat} : ∀ {s : State}, s.phase = .derive → s.loop ≠ .start → s.DeriveSound n →
    ∃ t, DeriveWrites s t ∧ Reaches deriveTick (n + 1) s (deriveEnd t) ∧ (deriveEnd t).TableOfTree := by
  induction n using Nat.strong_induction_on with
  | _ n ih =>
    intro s hp hl hs
    obtain ⟨t, ht, ⟨hw, k, hk, hst⟩ | ⟨rfl, htable⟩⟩ := deriveTick_cases hp hl hs
    · have hpt : t.phase = s.phase ∧ t.loop = s.loop := by obtain ⟨⟩ := hw; exact ⟨rfl, rfl⟩
      obtain ⟨u, hwu, hu, htable⟩ := ih k hk (hpt.1.trans hp) (hpt.2 ▸ hl) hst
      exact ⟨u, hw.trans hwu, ((Reaches.step (by simp [hp]) ht).trans hu).mono (by omega), htable⟩
    · exact ⟨s, ⟨_, _, _, _⟩, (Reaches.step (by simp [hp]) ht).mono (by omega), htable⟩

/-- DERIVE makes the table of the present tree, and nothing else changes but the working storage (R190, R192, R193). -/
theorem exec_derive_makesTable {s : State} {tr : Tree} (hs : s.accepting) (hv : s.treeV = true) (htr : s.hasTree tr) :
    ∃ cwt stack path plen, IsTableOf cwt tr ∧ exec .derive s = .next { s with
      phase := .idle, loop := .start, cwt := cwt, cwtV := true, stack := stack, path := path, plen := plen } := by
  have hsound := deriveStart_sound (s := { s with phase := .derive, loop := .start }) htr
  obtain ⟨t, hw, ht, htable⟩ := derive_walks (s := deriveStart { s with phase := .derive, loop := .start }) rfl nofun hsound
  have hstart : Reaches deriveTick 1 { s with phase := .derive, loop := .start }
      (deriveStart { s with phase := .derive, loop := .start }) := .step (by simp) rfl
  have hfuel : 1 + (3 * tr.size + 1) ≤ deriveFuel := by
    have : tr.size ≤ 513 := htr.2
    show _ ≤ 3 * 513 + 2
    omega
  have hrun := (hstart.trans ht).drive rfl hfuel
  refine ⟨t.cwt, t.stack, t.path, t.plen, ?_, ?_⟩
  · obtain ⟨tr', htr', hentries⟩ := htable rfl
    have hat : tr'.isAt s.arena s.root = true := by obtain ⟨⟩ := hw; exact htr'.1
    rw [Tree.isAt_unique htr.1 hat]
    exact hentries
  · rw [exec_derive, accept_of_ready (p := .derive) hs.2 hv, andThen_next]
    refine hrun.trans ?_
    obtain ⟨⟩ := hw
    rfl

/-! ### SER -/

/-- A sink that takes all of SER's transactions holds them at its end (R171). -/
theorem drive_serTick_ends {m : Nat} : ∀ {s : State} {txs : List Bits} {n : Nat}, s.SerSound txs n → n < m →
    s.bitout.takes txs.length → ∃ stack, drive serTick m s =
      .next { s with bitout := s.bitout.after txs.length txs.flatten, stack := stack }.finish := by
  induction m with
  | zero => intro s txs n _ hn; exact absurd hn (Nat.not_lt_zero n)
  | succ m ih =>
    intro s txs n hs hn htakes
    have hp : s.phase ≠ .idle := by cases hs with | _ hp => rw [hp]; nofun
    obtain ⟨t, ht, hstep⟩ := serTick_serStep hs
    rw [drive_step hp ht]
    cases hstep with
    | done =>
      refine ⟨s.stack, ?_⟩
      rw [drive_idle _ _ rfl, List.length_nil, List.flatten_nil, Sink.after_zero]
    | move hkn h => exact ih h (by omega) htakes
    | failed hr | waiting hr => exact absurd (htakes 0 hr) (by simp)
    | sent _ hkn h =>
      rw [List.length_cons, Nat.add_comm] at htakes ⊢
      obtain ⟨stack, hd⟩ := ih h (by omega) (Sink.takes_after htakes _)
      refine ⟨stack, hd.trans ?_⟩
      rw [Sink.after_after, List.flatten_cons]
      rfl

/-- SER appends the serialized tree, and nothing else changes but the working storage (R170, R171). -/
theorem exec_ser_appends {s : State} {tr : Tree} (hs : s.accepting) (hv : s.treeV = true) (htr : s.hasTree tr)
    (htakes : s.bitout.takes tr.serWrites) :
    ∃ stack, exec .ser s = .next { s with
      phase := .idle, loop := .start, bitout := s.bitout.after tr.serWrites tr.ser, stack := stack } := by
  obtain ⟨stack₀, hu, hsound⟩ := serTick_start (s := { s with phase := .ser, loop := .start }) rfl rfl htr
  rw [← tr.transactions_length] at htakes
  obtain ⟨stack, hd⟩ := drive_serTick_ends hsound (Nat.lt_succ_of_le (Nat.mul_le_mul_left 3 htr.2)) htakes
  rw [tr.transactions_length, tr.transactions_flatten] at hd
  refine ⟨stack, ?_⟩
  rw [exec_ser, accept_of_ready (p := .ser) hs.2 hv, andThen_next]
  exact (drive_step (by simp) hu).trans hd

/-! ### ENCODE -/

/-- ENCODE appends the payload, and nothing else changes (R200, R206). -/
theorem exec_encode_appends {s : State} {bytes : List Byte} (hs : s.accepting) (hv : s.cwtV = true)
    (hsrc : s.bsrc = ⟨bytes, .endOfData⟩) (hb : ∀ b ∈ bytes, s.hasCw b.sym) (heof : s.hasCw eof)
    (htakes : s.bitout.takes (s.payload bytes).length) :
    exec .encode s = .next { s with
      phase := .idle, loop := .start, bsrc := ⟨[], .endOfData⟩
      bitout := s.bitout.after (s.payload bytes).length (s.payload bytes) } := by
  rw [State.payload, List.length_append] at htakes ⊢
  have hbytes := encode_bytes (s := { s with phase := .encode }) rfl hb [] .endOfData
    (Sink.takes_mono htakes (Nat.le_add_right _ _))
  rw [List.append_nil, ← hsrc] at hbytes
  have hread := encode_readsEnd (s := { s with phase := .encode }) rfl heof
    (s.bitout.after (bytes.map fun b => s.cw b.sym).flatten.length (bytes.map fun b => s.cw b.sym).flatten)
  have hout := encode_codeword (s := { s with phase := .encode, bsrc := ⟨[], .endOfData⟩ }) rfl heof
    (Sink.takes_after htakes (bytes.map fun b => s.cw b.sym).flatten)
  rw [Sink.after_after] at hout
  refine exec_encode_of_reaches hs hv ((hbytes.trans hread).trans hout) rfl ?_
  have hlen := State.cw_length_le heof
  rw [hsrc, Nat.add_mul]
  show bytes.length * (longestCodeword s.cwt + 2) + 1 + ((s.cw eof).length + 1) ≤
    bytes.length * (longestCodeword s.cwt + 2) + 2 * (longestCodeword s.cwt + 2)
  omega

end Sys2Proof.Machine
end

section
/-! ## DESER reads a serialized tree back (R175, R180, R181) -/

namespace Sys2Proof.Machine

/-! ### Counts and records -/

/-- The count after `k` more records. -/
theorem cnt_add_toNat {n : NodeCnt} {k : Nat} (h : n.toNat + k ≤ Config.nodeMax) :
    (n + BitVec.ofNat Config.cntW k).toNat = n.toNat + k := by
  have h : n.toNat + k ≤ 513 := h
  rw [BitVec.toNat_add, BitVec.toNat_ofNat, Nat.add_mod_mod]
  exact Nat.mod_eq_of_lt (show _ < 1024 by omega)

/-- A tree stands where the records of its range are the same. -/
theorem TreeWithin.congr {m m' : Memory Node} {i : NodeIdx} {lo hi : Nat} {t : Tree} (h : TreeWithin m i lo hi t)
    (hm : ∀ j, lo ≤ j → j < hi → m'.read j = m.read j) : TreeWithin m' i lo hi t := by
  obtain ⟨hat, hnodup, hrange⟩ := h
  obtain ⟨hat', hind⟩ := Tree.isAt_congr (m' := m') (fun j hj => hm j (hrange j hj).1 (hrange j hj).2) hat
  exact ⟨hat', hind ▸ hnodup, hind ▸ hrange⟩

/-- At most two transactions for a node (R78). -/
theorem Tree.serWrites_le (t : Tree) : t.serWrites ≤ 2 * t.size := by
  induction t with
  | leaf x => exact le_rfl
  | node l r hl hr => simp only [Tree.serWrites, Tree.size]; omega

/-! ### A subtree -/

/-- Where a subtree is complete DESER has no use for its loop position and its old stack (R175). -/
theorem deserReturn_congr (loop : LoopPos) (stack : List Frame) : ∀ (st : List Frame) (s : State) (c : NodeIdx),
    deserReturn { s with loop := loop, stack := stack } c st = deserReturn s c st := by
  intro st
  induction st with
  | nil => intro s c; rfl
  | cons f rest ih =>
    intro s c
    obtain ⟨i, v⟩ := f
    cases v with
    | enter => rfl
    | left => rfl
    | right =>
      simp only [deserReturn, writeRecord]
      split
      · exact ih { s with arena := s.arena.write i.toNat (.internal (i + 1) c 0) } i
      · rfl

/-- DESER with a subtree of `k` records read into the arena `m`. -/
def State.withRead (s : State) (m : Memory Node) (k : Nat) (src : Source Bool) : State :=
  { s with arena := m, alloc := s.alloc + BitVec.ofNat Config.cntW k, bitin := src }

/-- A subtree has been read from `s`: it stands on the records from the count on in `m`, the records before them as they
were; and DESER returns from it, its bits consumed (R175). -/
structure DeserRead (s : State) (tr : Tree) (bits : Bits) (e : SourceEnd) (m : Memory Node) : Prop where
  before : ∀ j < s.alloc.toNat, m.read j = s.arena.read j
  tree : TreeWithin m s.alloc s.alloc.toNat (s.alloc.toNat + tr.size) tr
  run : ∀ n, drive deserTick (n + tr.serWrites) s =
    andThen (deserReturn (s.withRead m tr.size ⟨bits, e⟩) s.alloc s.stack) (drive deserTick n)

theorem deser_readsLeaf {s : State} {x : Sym} {bits : Bits} {e : SourceEnd} (hp : s.phase = .deser) (hl : s.loop = .top)
    (hin : s.bitin = ⟨(Tree.leaf x).ser ++ bits, e⟩) (ha : s.alloc.toNat < Config.nodeMax) :
    DeserRead s (.leaf x) bits e (s.arena.write s.alloc.toNat (.leaf x 0)) where
  before j hj := Memory.read_write_of_ne _ _ hj.ne
  tree := TreeWithin.leaf (Memory.read_write_self _ _ _)
  run n := by
    refine (drive_deser_leaf hp hl ha hin n).trans ?_
    rw [deserSymbol, writeRecord_of_lt _ ha, andThen_next]
    exact congrArg (andThen · _) (deserReturn_congr (.symbol s.alloc) s.stack s.stack
      (s.withRead (s.arena.write s.alloc.toNat (.leaf x 0)) 1 ⟨bits, e⟩) s.alloc)

/-- Below an internal node's tag: its left subtree is to be read (R175). -/
def State.readingLeft (s : State) (src : Source Bool) : State :=
  { s with alloc := s.alloc + 1, stack := ⟨s.alloc, .left⟩ :: s.stack, loop := .top, bitin := src }

/-- Its left subtree of `k` records read into `m`, its right subtree is to be read (R175). -/
def State.readingRight (s : State) (m : Memory Node) (k : Nat) (src : Source Bool) : State :=
  { s with
    arena := m, alloc := s.alloc + 1 + BitVec.ofNat Config.cntW k, stack := ⟨s.alloc, .right⟩ :: s.stack
    loop := .top, bitin := src }

/-- Both subtrees read, the node is written and is complete (R175). -/
theorem deserReturn_right {s : State} {i c : NodeIdx} (rest : List Frame) (hi : i.toNat < Config.nodeMax) :
    deserReturn s c (⟨i, .right⟩ :: rest) =
      deserReturn { s with arena := s.arena.write i.toNat (.internal (i + 1) c 0) } i rest := by
  rw [deserReturn, writeRecord_of_lt _ hi, andThen_next]

theorem deser_readsNode {s : State} {l r : Tree} {bits : Bits} {e : SourceEnd} {m₁ m₂ : Memory Node}
    (hp : s.phase = .deser) (hl : s.loop = .top) (hin : s.bitin = ⟨(Tree.node l r).ser ++ bits, e⟩)
    (hsize : s.alloc.toNat + (Tree.node l r).size ≤ Config.nodeMax)
    (hleft : DeserRead (s.readingLeft ⟨l.ser ++ (r.ser ++ bits), e⟩) l (r.ser ++ bits) e m₁)
    (hright : DeserRead (s.readingRight m₁ l.size ⟨r.ser ++ bits, e⟩) r bits e m₂) :
    DeserRead s (.node l r) bits e (m₂.write s.alloc.toNat
      (.internal (s.alloc + 1) (s.alloc + 1 + BitVec.ofNat Config.cntW l.size) 0)) := by
  obtain ⟨hb₁, ht₁, hr₁⟩ := hleft
  obtain ⟨hb₂, ht₂, hr₂⟩ := hright
  have hfits : s.alloc.toNat + (1 + l.size + r.size) ≤ 513 := hsize
  have ha : s.alloc.toNat < Config.nodeMax := show _ < 513 by omega
  have hone : (s.alloc + 1).toNat = s.alloc.toNat + 1 := cnt_succ_toNat ha
  have hmid := cnt_add_toNat (n := s.alloc + 1) (k := l.size) (show _ ≤ 513 by omega)
  simp only [State.readingLeft, State.readingRight, hmid, hone] at hb₁ ht₁ hb₂ ht₂
  generalize hnd : Node.internal (s.alloc + 1) (s.alloc + 1 + BitVec.ofNat Config.cntW l.size) 0 = nd
  refine ⟨fun j hj => ?_, ?_, fun n => ?_⟩
  · rw [Memory.read_write_of_ne _ _ hj.ne, hb₂ j (by omega), hb₁ j (by omega)]
  · have hl := (ht₁.congr (m' := m₂) fun j _ hj => hb₂ j (by omega)).write nd (.inl (Nat.lt_succ_self _))
    have hr := ht₂.write nd (k := s.alloc.toNat) (.inl (by omega))
    have hnode := TreeWithin.node (by rw [Memory.read_write_self, ← hnd]) hl hr (by omega) (by omega)
    exact hnode.mono le_rfl (by simp only [Tree.size]; omega)
  · have hcount : n + (Tree.node l r).serWrites = n + r.serWrites + l.serWrites + 1 := by
      simp only [Tree.serWrites]; omega
    have hin : s.bitin = ⟨true :: (l.ser ++ (r.ser ++ bits)), e⟩ := by
      rw [hin, Tree.ser, List.cons_append, List.append_assoc]
    have hsum : BitVec.ofNat Config.cntW (Tree.node l r).size =
        1 + BitVec.ofNat Config.cntW l.size + BitVec.ofNat Config.cntW r.size := by
      rw [Tree.size, BitVec.ofNat_add, BitVec.ofNat_add]
      rfl
    have hreturn := deserReturn_congr .top (⟨s.alloc, .right⟩ :: s.stack) s.stack
      (s.withRead (m₂.write s.alloc.toNat nd) (Tree.node l r).size ⟨bits, e⟩) s.alloc
    rw [hcount]
    refine (drive_deser_internal hp hl ha hin _).trans ((hr₁ _).trans ((hr₂ n).trans ?_))
    refine congrArg (andThen · _) (Eq.trans ?_ hreturn)
    refine (deserReturn_right s.stack ha).trans ?_
    rw [← hnd]
    simp only [State.withRead, State.readingRight, hsum, ← BitVec.add_assoc]

/-- A serialized tree is read, wherever DESER stands at a node boundary with records enough (R175, R180). -/
theorem deser_reads (e : SourceEnd) {tr : Tree} : ∀ {s : State} {bits : Bits}, s.phase = .deser → s.loop = .top →
    s.bitin = ⟨tr.ser ++ bits, e⟩ → s.alloc.toNat + tr.size ≤ Config.nodeMax → ∃ m, DeserRead s tr bits e m := by
  induction tr with
  | leaf x => intro s bits hp hl hin hsize; exact ⟨_, deser_readsLeaf hp hl hin hsize⟩
  | node l r ihl ihr =>
    intro s bits hp hl hin hsize
    have hfits : s.alloc.toNat + (1 + l.size + r.size) ≤ 513 := hsize
    have hone : (s.alloc + 1).toNat = s.alloc.toNat + 1 := cnt_succ_toNat (show _ < 513 by omega)
    have hmid := cnt_add_toNat (n := s.alloc + 1) (k := l.size) (show _ ≤ 513 by omega)
    obtain ⟨m₁, h₁⟩ := ihl (s := s.readingLeft ⟨l.ser ++ (r.ser ++ bits), e⟩) hp rfl rfl
      (show (s.alloc + 1).toNat + _ ≤ 513 by omega)
    obtain ⟨m₂, h₂⟩ := ihr (s := s.readingRight m₁ l.size ⟨r.ser ++ bits, e⟩) hp rfl rfl
      (show (s.alloc + 1 + BitVec.ofNat Config.cntW l.size).toNat + _ ≤ 513 by omega)
    exact ⟨_, deser_readsNode hp hl hin hsize h₁ h₂⟩

/-- DESER of a serialized tree makes that tree, from record 0 on, consumes exactly its bits, and nothing else changes but the
working storage (R175, R180, R181). -/
theorem exec_deser_readsBack {s : State} {tr : Tree} {rest : Bits} {e : SourceEnd} (hs : s.accepting)
    (hin : s.bitin = ⟨tr.ser ++ rest, e⟩) (hsize : tr.size ≤ Config.nodeMax) :
    ∃ arena alloc, TreeWithin arena 0#10 0 tr.size tr ∧ exec .deser s = .next { s with
      phase := .idle, loop := .start, arena := arena, root := 0#10, nnode := BitVec.ofNat Config.cntW tr.size
      treeV := true, cwtV := false, bitin := ⟨rest, e⟩, alloc := alloc, stack := [] } := by
  have hstart : deserTick { s with phase := .deser, loop := .start } =
      .next (deserStart { s with phase := .deser, loop := .start }) := rfl
  obtain ⟨m, -, htree, hrun⟩ := deser_reads e (s := deserStart { s with phase := .deser, loop := .start }) rfl rfl hin
    ((Nat.zero_add _).trans_le hsize)
  have hfuel : deserFuel = (1028 - tr.serWrites + tr.serWrites) + 1 := by
    have := tr.serWrites_le
    have : tr.size ≤ 513 := hsize
    show 1029 = _
    omega
  refine ⟨m, BitVec.ofNat Config.cntW tr.size, ?_, ?_⟩
  · have h := htree.mono (Nat.zero_le _) le_rfl
    exact (Nat.zero_add tr.size) ▸ h
  · have hcount : (deserStart { s with phase := .deser, loop := .start }).alloc + BitVec.ofNat Config.cntW tr.size =
        BitVec.ofNat Config.cntW tr.size := BitVec.zero_add _
    rw [exec_deser, accept_of_ready (p := .deser) hs.2 rfl, andThen_next, runDeser, hfuel, drive_step (by simp) hstart, hrun,
      State.withRead, hcount]
    exact drive_idle _ _ rfl

end Sys2Proof.Machine
end

section
/-! ## The codewords of a tree, and DECODE of a payload (R118, R211, R215) -/

namespace Sys2Proof.Machine

/-! ### The codewords of a tree -/

/-- The codeword of a symbol in a tree, empty where it has none (R115). -/
def Tree.code (tr : Tree) (x : Sym) : Bits := (tr.codeword x).getD []

/-- The payload of R118 in the codewords of a tree. -/
def Tree.payload (tr : Tree) (bytes : List Byte) : Bits := (bytes.map fun b => tr.code b.sym).flatten ++ tr.code eof

/-- The tree has a codeword for every byte of the input, and for symbol 256 (R142, R155). -/
structure Tree.Covers (tr : Tree) (bytes : List Byte) : Prop where
  bytes : ∀ b ∈ bytes, (tr.codeword b.sym).isSome = true
  eof : (tr.codeword eof).isSome = true

/-- A symbol's codeword is the path of a leaf with that symbol. -/
theorem Tree.mem_paths_of_codeword {tr : Tree} {x : Sym} {p : Bits} (h : tr.codeword x = some p) : (x, p) ∈ tr.paths := by
  rw [Tree.codeword_eq_lastPath, lastPath] at h
  obtain ⟨⟨y, q⟩, hfind, rfl⟩ := Option.map_eq_some_iff.1 h
  have hy : y = x := by simpa using List.find?_some hfind
  exact hy ▸ List.mem_reverse.1 (List.mem_of_find?_eq_some hfind)

theorem Tree.code_mem_paths {tr : Tree} {x : Sym} (h : (tr.codeword x).isSome = true) : (x, tr.code x) ∈ tr.paths := by
  obtain ⟨p, hp⟩ := Option.isSome_iff_exists.1 h
  rw [Tree.code, hp]
  exact Tree.mem_paths_of_codeword hp

/-- Exactly the symbols of its leaves have a codeword (R193). -/
theorem Tree.codeword_isSome {tr : Tree} {x : Sym} (h : x ∈ tr.syms) : (tr.codeword x).isSome = true := by
  obtain ⟨⟨y, p⟩, hmem, rfl⟩ := List.mem_map.1 h
  rw [Tree.codeword_eq_lastPath, lastPath, Option.isSome_map, List.find?_isSome]
  exact ⟨(y, p), List.mem_reverse.2 hmem, by simp⟩

/-- A table of the tree's codewords gives a symbol its codeword. -/
theorem IsTableOf.hasCw {s : State} {tr : Tree} {x : Sym} (h : IsTableOf s.cwt tr) (hx : x.toNat < Config.nsym)
    (hc : (tr.codeword x).isSome = true) : s.hasCw x ∧ s.cw x = tr.code x := by
  obtain ⟨p, hp⟩ := Option.isSome_iff_exists.1 hc
  have hentry : s.entry x = some (some p) := (h x hx).trans (by rw [hp])
  exact ⟨⟨p, hentry⟩, by rw [State.cw, hentry, Tree.code, hp]; rfl⟩

/-- The payload in the table's codewords is that in the tree's (R118). -/
theorem IsTableOf.payload {s : State} {tr : Tree} {bytes : List Byte} (h : IsTableOf s.cwt tr)
    (hc : tr.Covers bytes) : s.payload bytes = tr.payload bytes := by
  have hmap : (bytes.map fun b => s.cw b.sym) = bytes.map fun b => tr.code b.sym :=
    List.map_congr_left fun b hmem => (h.hasCw (byteSym_lt b) (hc.bytes b hmem)).2
  rw [State.payload, Tree.payload, hmap, (h.hasCw (by decide) hc.eof).2]

/-! ### The EOF codeword -/

theorem decodeArrive_of_eof {s : State} {i : NodeIdx} (h : (Tree.leaf eof).isAt s.arena i = true) :
    decodeArrive i s = .next { s with cur := i, eos := true, loop := .stop } := by
  obtain ⟨f, hr⟩ := Tree.isAt_leaf.1 h
  simp only [decodeArrive, withRecord, hr, if_pos]

/-- The EOF codeword takes the walk to the EOF leaf, and DECODE ends with EOS (R215, R222). -/
theorem decode_ends {s : State} (hp : s.phase = .decode) {t : Tree} {i : NodeIdx} (ht : t.isAt s.arena i = true)
    {q : Bits} (hq : q ≠ []) (hmem : (eof, q) ∈ t.paths) (bs : Bits) (e : SourceEnd) :
    ∃ j, (Tree.leaf eof).isAt s.arena j = true ∧
      Reaches decodeTick (q.length + 1) { s with loop := .top, cur := i, bitin := ⟨q ++ bs, e⟩ }
        { s with phase := .idle, loop := .start, cur := j, eos := true, bitin := ⟨bs, e⟩ } := by
  obtain ⟨p, b, rfl⟩ := (List.eq_nil_or_concat' q).resolve_left hq
  obtain ⟨u, j, hu, hxu, hreach⟩ := decode_walks hp (List.cons_ne_nil b []) (b :: bs) e ht hmem
  obtain ⟨l, r, rfl⟩ := Tree.node_of_path hxu (List.cons_ne_nil b [])
  obtain ⟨k, hk, hwalk⟩ := decodeWalk_of_node (s := { s with loop := .top, cur := j, bitin := ⟨b :: bs, e⟩ }) hu rfl
  rw [Tree.leaf_of_nil (Tree.mem_paths_cons.1 hxu)] at hk
  have harrive : Reaches decodeTick 1 { s with loop := .top, cur := j, bitin := ⟨b :: bs, e⟩ }
      { s with loop := .stop, cur := k, eos := true, bitin := ⟨bs, e⟩ } :=
    .step (by simp [hp]) (hwalk.trans (decodeArrive_of_eof hk))
  have hstop : Reaches decodeTick 1 { s with loop := .stop, cur := k, eos := true, bitin := ⟨bs, e⟩ }
      { s with phase := .idle, loop := .start, cur := k, eos := true, bitin := ⟨bs, e⟩ } := .step (by simp [hp]) rfl
  rw [List.append_assoc, List.length_append]
  exact ⟨k, hk, (hreach.trans harrive).trans hstop⟩

/-- DECODE of complete codewords and then the EOF codeword: their bytes go out, exactly those bits are consumed (R215, R220). -/
theorem exec_decode_words {s : State} {tr : Tree} {ws : List (Sym × Bits)} {q rest : Bits} {e : SourceEnd} (hs : s.accepting)
    (hv : s.treeV = true) (htr : s.hasTree tr) (hsize : 1 < tr.size) (hws : ∀ w ∈ ws, w ∈ tr.paths ∧ w.1 ≠ eof)
    (hq : (eof, q) ∈ tr.paths) (hin : s.bitin = ⟨(ws.map Prod.snd).flatten ++ (q ++ rest), e⟩)
    (htakes : s.bsnk.takes ws.length) :
    ∃ cur, (Tree.leaf eof).isAt s.arena cur = true ∧ exec .decode s = .next { s with
      phase := .idle, loop := .start, bitin := ⟨rest, e⟩
      bsnk := s.bsnk.after ws.length (ws.map fun w => lowByte w.1), eos := true, trunc := false, cur := cur } := by
  have hwords := decode_words (s := { s with phase := .decode, eos := false, trunc := false }) rfl htr.1 hsize
    (q ++ rest) e hws htakes
  rw [← hin] at hwords
  obtain ⟨cur, hcur, hend⟩ := decode_ends
    (s := { s with
      phase := .decode, eos := false, trunc := false, bsnk := s.bsnk.after ws.length (ws.map fun w => lowByte w.1) })
    rfl htr.1 (Tree.path_ne_nil hsize hq) hq rest e
  refine ⟨cur, hcur, exec_decode_of_reaches hs hv htr hsize (hwords.trans hend) rfl ?_⟩
  rw [hin, List.length_append, List.length_append]
  show _ + (q.length + 1) ≤ _
  omega

/-- DECODE of a tree that is the EOF leaf alone reads no bit and ends with EOS (R212). -/
theorem exec_decode_eofLeaf {s : State} (hs : s.accepting) (hv : s.treeV = true) (htr : s.hasTree (.leaf eof)) :
    exec .decode s = .next { s with
      phase := .idle, loop := .start, eos := true, trunc := false, cur := s.root } := by
  obtain ⟨f, hr⟩ := Tree.isAt_leaf.1 htr.1
  have hcheck : decodeTick { s with phase := .decode, loop := .start } =
      .next { s with phase := .decode, eos := true, trunc := false, cur := s.root, loop := .stop } := by
    simp only [decodeTick, decodeCheck, withRecord, hr, if_pos]
  have hstop : Reaches decodeTick 1 { s with phase := .decode, eos := true, trunc := false, cur := s.root, loop := .stop }
      { s with phase := .idle, loop := .start, eos := true, trunc := false, cur := s.root } := .step (by simp) rfl
  rw [exec_decode, accept_of_ready (p := .decode) hs.2 hv, andThen_next]
  exact ((Reaches.step (by simp) hcheck).trans hstop).drive rfl (show _ ≤ 2 * s.bitin.data.length + 4 by omega)

/-! ### A payload -/

theorem lowByte_sym (b : Byte) : lowByte b.sym = b := by
  refine BitVec.eq_of_toNat_eq ?_
  have hb : b.toNat < 256 := b.isLt
  have hsym : b.sym.toNat = b.toNat := by rw [BitVec.toNat_setWidth]; exact Nat.mod_eq_of_lt (show _ < 512 by omega)
  rw [lowByte, BitVec.toNat_setWidth, hsym]
  exact Nat.mod_eq_of_lt hb

/-- DECODE of a payload gives its bytes back and ends with EOS, with no fault (R215, R220, R221). -/
theorem exec_decode_payload {s : State} {tr : Tree} {bytes : List Byte} {rest : Bits} {e : SourceEnd} (hs : s.accepting)
    (hv : s.treeV = true) (htr : s.hasTree tr) (hc : tr.Covers bytes) (hin : s.bitin = ⟨tr.payload bytes ++ rest, e⟩)
    (htakes : s.bsnk.takes bytes.length) :
    ∃ cur, exec .decode s = .next { s with
      phase := .idle, loop := .start, bitin := ⟨rest, e⟩, bsnk := s.bsnk.after bytes.length bytes
      eos := true, trunc := false, cur := cur } := by
  have hpaths : ∀ w ∈ bytes.map fun b => (b.sym, tr.code b.sym), w ∈ tr.paths ∧ w.1 ≠ eof := by
    intro w hw
    obtain ⟨b, hmem, rfl⟩ := List.mem_map.1 hw
    exact ⟨Tree.code_mem_paths (hc.bytes b hmem), byteSym_ne_eof b⟩
  have hq := Tree.code_mem_paths hc.eof
  cases tr with
  | node l r =>
    have hl := l.size_pos
    rw [Tree.payload, List.append_assoc] at hin
    obtain ⟨cur, -, h⟩ := exec_decode_words hs hv htr (by simp only [Tree.size]; omega) hpaths hq
      (by rw [hin, List.map_map]; rfl) (by rwa [List.length_map])
    rw [List.length_map, List.map_map] at h
    have hbytes : bytes.map ((fun w => lowByte w.1) ∘ fun b => (b.sym, (Tree.node l r).code b.sym)) = bytes := by
      simp [Function.comp_def, lowByte_sym]
    rw [hbytes] at h
    exact ⟨cur, h⟩
  | leaf x =>
    obtain ⟨rfl, hcode⟩ := Tree.mem_paths_leaf.1 hq
    have hnil : bytes = [] := List.eq_nil_iff_forall_not_mem.2 fun b hmem =>
      byteSym_ne_eof b (Tree.mem_paths_leaf.1 (Tree.code_mem_paths (hc.bytes b hmem))).1
    subst hnil
    replace hin : s.bitin = ⟨rest, e⟩ := by rw [hin, Tree.payload, hcode]; rfl
    refine ⟨s.root, (exec_decode_eofLeaf hs hv htr).trans ?_⟩
    rw [List.length_nil, Sink.after_zero, ← hin]

end Sys2Proof.Machine
end

section
/-! ## The host's sessions (R105, R286, R287)

The idle block between two moves of the host; each move and each command word as a rule; and the two sessions, move by move. -/

namespace Sys2Proof.Machine

/-! ### Steps one after another -/

theorem steps_add (m n : Nat) (s : State) : steps (m + n) s = andThen (steps m s) (steps n) := by
  induction m generalizing s with
  | zero => rw [Nat.zero_add]; rfl
  | succ m ih =>
    rw [Nat.succ_add, steps, steps, andThen_assoc]
    exact congrArg (andThen (step s)) (funext ih)

theorem steps_trans {m n : Nat} {s t : State} {o : Result} (h : steps m s = .next t) (h' : steps n t = o) :
    steps (m + n) s = o := by
  rw [steps_add, h, andThen_next, h']

theorem steps_two_then {n : Nat} {s t : State} {o : Result} (h : steps 2 s = .next t) (h' : steps n t = o) :
    steps (n + 2) s = o := by
  rw [Nat.add_comm, steps_trans h h']

theorem steps_one_then {n : Nat} {s t : State} {o : Result} (h : step s = .next t) (h' : steps n t = o) :
    steps (n + 1) s = o := by
  rw [steps, h, andThen_next, h']

theorem steps_one (s : State) : steps 1 s = step s := by
  rw [steps]
  cases step s <;> rfl

/-! ### The moves of the host, the block idle -/

/-- `s` between two moves: idle, no fault, no word on the port, the moves `moves` to come. -/
def State.resting (s : State) (moves : List HostMove) : State :=
  { s with phase := .idle, err := 0#8, cmd := none, host := moves }

theorem State.accepting.eq_resting {s : State} {moves : List HostMove} (h : s.accepting) (hc : s.cmd = none)
    (hh : s.host = moves) : s = s.resting moves := by
  obtain ⟨hp, he⟩ := h
  rw [State.resting, ← hp, ← he, ← hc, ← hh]

theorem State.resting_accepting (s : State) (moves : List HostMove) : (s.resting moves).accepting := ⟨rfl, rfl⟩

section
variable (s : State) (ms : List HostMove)

theorem step_attachBitSink (room : Option Nat) (full : SinkEnd) :
    step (s.resting (.attachBitSink room full :: ms)) = .next (State.resting { s with bitout := ⟨[], room, full⟩ } ms) := rfl

theorem step_attachByteSink (room : Option Nat) (full : SinkEnd) :
    step (s.resting (.attachByteSink room full :: ms)) = .next (State.resting { s with bsnk := ⟨[], room, full⟩ } ms) := rfl

theorem step_attachByteSource (src : Source Byte) :
    step (s.resting (.attachByteSource src :: ms)) = .next (State.resting { s with bsrc := src } ms) := rfl

theorem step_attachBitSource (src : Source Bool) :
    step (s.resting (.attachBitSource src :: ms)) = .next (State.resting { s with bitin := src } ms) := rfl

theorem step_closeByteSource :
    step (s.resting (.closeByteSource :: ms)) = .next (State.resting { s with bsrc := ⟨[], .silent⟩ } ms) := rfl

theorem step_closeBitSource :
    step (s.resting (.closeBitSource :: ms)) = .next (State.resting { s with bitin := ⟨[], .silent⟩ } ms) := rfl

theorem step_closeByteSink : step (s.resting (.closeByteSink :: ms)) =
    .next (State.resting { s with bsnk := { s.bsnk with room := some 0, whenFull := .silent } } ms) := rfl

/-- Closing the bit sink gives the file (R75). -/
theorem step_closeBitSink :
    step (s.resting (.closeBitSink :: ms)) = .next ((hostCloseBitSink s).resting ms) := rfl

/-- A read of STATUS shows it (R25). -/
theorem step_readStatus : step (s.resting (.readCsr 0#3 :: ms)) = .next (State.resting { s with
    seen := s.seen ++ [.csr 0#3 ((s.resting ms).status.setWidth 16)] } ms) := by
  have hread : hostReadCsr 0#3 (s.resting ms) = { s.resting ms with
      seen := s.seen ++ [.csr 0#3 ((s.resting ms).csr 0#3)] } := by
    rw [hostReadCsr, State.csrStale_of_number _ (by decide) (by decide)]
    rfl
  exact congrArg Host.Outcome.next hread

end

/-- The host's own `writeBits` on a sink without bound (R65, R286). -/
theorem step_writeBits {s : State} {out : Bits} {full : SinkEnd} (h : s.bitout = ⟨out, none, full⟩) (v n : Nat)
    (ms : List HostMove) : step (s.resting (.writeBits v n :: ms)) = .next (State.resting { s with
      bitout := ⟨out ++ msbBits n v, none, full⟩, seen := s.seen ++ [.bitsWritten] } ms) := by
  have hput : bitsOut v n (s.resting ms) =
      (.ok, { s.resting ms with bitout := ⟨out ++ msbBits n v, none, full⟩ }) := by
    simp only [bitsOut, State.resting, h, Sink.put]
  show Host.Outcome.next ((hostWriteBits v n (s.resting ms)).getD (s.resting (.writeBits v n :: ms))) = _
  rw [hostWriteBits, hput]
  rfl

/-- The host's own `readBits` takes the bits it reads (R64, R287). -/
theorem step_readBits {s : State} {n : Nat} {bits rest : Bits} {e : SourceEnd} (h : s.bitin = ⟨bits ++ rest, e⟩)
    (hn : bits.length = n) (ms : List HostMove) : step (s.resting (.readBits n :: ms)) = .next (State.resting { s with
      bitin := ⟨rest, e⟩, seen := s.seen ++ [.bits (msbValue bits)] } ms) := by
  show Host.Outcome.next ((hostReadBits n (s.resting ms)).getD (s.resting (.readBits n :: ms))) = _
  rw [hostReadBits, bitsIn_of_append (s := s.resting ms) h hn]
  rfl

/-! ### The command words -/

/-- A word that the host presents is on the port after one step and executed in the next (R290). -/
theorem steps_word {s t : State} {w : Byte} {ms : List HostMove} (h : exec (decodeCommand w) (s.resting ms) = .next t) :
    steps 2 (s.resting (presentWord w :: ms)) = .next t := by
  have hpresent : step (s.resting (presentWord w :: ms)) = .next { s.resting ms with cmd := some ⟨w, []⟩ } := rfl
  have hexec : step { s.resting ms with cmd := some ⟨w, []⟩ } = .next t :=
    (step_of_word (s := { s.resting ms with cmd := some ⟨w, []⟩ }) rfl rfl).trans h
  rw [steps, hpresent, andThen_next, steps_one, hexec]

/-! In each rule `s` is the state before the word is presented and `t` that after its run. -/

section
variable {s : State} (ms : List HostMove)

/-- COUNT over the input (R142). -/
theorem steps_count {input : List Byte} (hsrc : s.bsrc = ⟨input, .endOfData⟩) (hlen : input.length < 2 ^ Config.freqW) :
    ∃ t : State, steps 2 (s.resting (presentWord 0x01#8 :: ms)) = .next (t.resting ms) ∧
      t.bitout = s.bitout ∧ t.seen = s.seen ∧ t.ftV = true ∧ TableOf t.ft input := by
  obtain ⟨ft, hft, h⟩ := exec_count_tabulates (s.resting_accepting ms) hsrc fun b => List.count_le_length.trans_lt hlen
  exact ⟨{ s with loop := .start, ft := ft, ftV := true, bsrc := ⟨[], .endOfData⟩ }, steps_word h, rfl, rfl, rfl, hft⟩

/-- A tree whose leaves are the table's symbols covers the input (R142, R155). -/
theorem TableOf.covers {ft : Memory Freq} {input : List Byte} {tr : Tree} (h : TableOf ft input)
    (hlen : input.length < 2 ^ Config.freqW) (hsyms : tr.syms.Perm (tableSyms ft)) : tr.Covers input where
  bytes b hb := by
    have hmem := h.mem_tableSymbols (fun b => List.count_le_length.trans_lt hlen) hb
    exact Tree.codeword_isSome (hsyms.mem_iff.2 (List.mem_map.2 ⟨_, hmem, BitVec.ofNat_toNat _ b⟩))
  eof := Tree.codeword_isSome (hsyms.mem_iff.2 (eof_mem_tableSyms h.eof))

/-- BUILD of the input's table (R155). -/
theorem steps_build {input : List Byte} (hv : s.ftV = true) (hft : TableOf s.ft input)
    (hlen : input.length < 2 ^ Config.freqW) :
    ∃ (t : State) (tr : Tree), steps 2 (s.resting (presentWord 0x02#8 :: ms)) = .next (t.resting ms) ∧
      t.bitout = s.bitout ∧ t.seen = s.seen ∧ t.treeV = true ∧ t.hasTree tr ∧ tr.Covers input := by
  have hsound : (s.resting ms).FrequencySound :=
    TableOf.frequencySound (s := s.resting ms) hft rfl
  obtain ⟨arena, pq, root, nnode, alloc, tr, htr, hsyms, hcount, h⟩ :=
    exec_build_makesTree (s.resting_accepting ms) hv hsound
  have hsize : tr.size ≤ 513 := by
    have : tr.size ≤ nnode.toNat := htr.size_le
    have : (tableSyms s.ft).length ≤ 257 := tableSyms_length_le _
    replace hcount : nnode.toNat + 1 = 2 * (tableSyms s.ft).length := hcount
    omega
  exact ⟨{ s with
    loop := .start, arena := arena, pq := pq, root := root, nnode := nnode, alloc := alloc
    treeV := true, cwtV := false, ftV := false }, tr, steps_word h, rfl, rfl, rfl, ⟨htr.1, hsize⟩, hft.covers hlen hsyms⟩

/-- DESER of a serialized tree at the front of the bit source (R180). -/
theorem steps_deser {tr : Tree} {rest : Bits} {e : SourceEnd} (hin : s.bitin = ⟨tr.ser ++ rest, e⟩) (hsize : tr.size ≤ Config.nodeMax) :
    ∃ t : State, steps 2 (s.resting (presentWord 0x06#8 :: ms)) = .next (t.resting ms) ∧
      t.bitin = ⟨rest, e⟩ ∧ t.bsnk = s.bsnk ∧ t.treeV = true ∧ t.hasTree tr := by
  obtain ⟨arena, alloc, htree, h⟩ := exec_deser_readsBack (s.resting_accepting ms) hin hsize
  exact ⟨{ s with
    loop := .start, arena := arena, root := 0#10, nnode := BitVec.ofNat Config.cntW tr.size
    treeV := true, cwtV := false, bitin := ⟨rest, e⟩, alloc := alloc, stack := [] },
    steps_word h, rfl, rfl, rfl, ⟨htree.1, hsize⟩⟩

variable {tr : Tree} (hv : s.treeV = true) (htr : s.hasTree tr)
include hv htr

/-- DERIVE of the present tree (R193). -/
theorem steps_derive :
    ∃ t : State, steps 2 (s.resting (presentWord 0x03#8 :: ms)) = .next (t.resting ms) ∧
      t.bitout = s.bitout ∧ t.seen = s.seen ∧ t.treeV = true ∧ t.hasTree tr ∧ t.cwtV = true ∧ IsTableOf t.cwt tr := by
  obtain ⟨cwt, stack, path, plen, htable, h⟩ := exec_derive_makesTable (s.resting_accepting ms) hv htr
  exact ⟨{ s with loop := .start, cwt := cwt, cwtV := true, stack := stack, path := path, plen := plen },
    steps_word h, rfl, rfl, hv, htr, rfl, htable⟩

/-- DECODE of the input's payload with the present tree (R211, R212). -/
theorem steps_decode {input : List Byte} {rest : Bits} {e : SourceEnd} (hin : s.bitin = ⟨tr.payload input ++ rest, e⟩)
    (hc : tr.Covers input) (hsnk : s.bsnk = ⟨[], none, .silent⟩) :
    ∃ t : State, steps 2 (s.resting (presentWord 0x07#8 :: ms)) = .next (t.resting ms) ∧
      t.bsnk = ⟨input, none, .silent⟩ ∧ t.eos = true ∧ t.trunc = false := by
  obtain ⟨cur, h⟩ := exec_decode_payload (s.resting_accepting ms) hv htr hc hin
    (show s.bsnk.takes input.length by simp [Sink.takes, hsnk])
  exact ⟨{ s with
    loop := .start, bitin := ⟨rest, e⟩, bsnk := s.bsnk.after input.length input, eos := true, trunc := false, cur := cur },
    steps_word h, by simp [Sink.after, hsnk], rfl, rfl⟩

variable {out : Bits} (hout : s.bitout = ⟨out, none, .silent⟩)
include hout

omit hv htr in
theorem State.bitout_takes (n : Nat) : s.bitout.takes n := by simp [Sink.takes, hout]

omit hv htr in
theorem State.bitout_after (n : Nat) (bits : Bits) : s.bitout.after n bits = ⟨out ++ bits, none, .silent⟩ := by
  simp [Sink.after, hout]

variable (hcv : s.cwtV = true) (htable : IsTableOf s.cwt tr)
include hcv htable

/-- SER of the present tree (R171). -/
theorem steps_ser :
    ∃ t : State, steps 2 (s.resting (presentWord 0x04#8 :: ms)) = .next (t.resting ms) ∧
      t.bitout = ⟨out ++ tr.ser, none, .silent⟩ ∧ t.seen = s.seen ∧ t.treeV = true ∧ t.hasTree tr ∧ t.cwtV = true ∧
      IsTableOf t.cwt tr := by
  obtain ⟨stack, h⟩ := exec_ser_appends (s.resting_accepting ms) hv htr (State.bitout_takes hout _)
  exact ⟨{ s with loop := .start, bitout := s.bitout.after tr.serWrites tr.ser, stack := stack },
    steps_word h, State.bitout_after hout _ _, rfl, hv, htr, hcv, htable⟩

omit hv in
/-- ENCODE of the input with the present table (R206). -/
theorem steps_encode {input : List Byte} (hsrc : s.bsrc = ⟨input, .endOfData⟩) (hc : tr.Covers input) :
    ∃ t : State, steps 2 (s.resting (presentWord 0x05#8 :: ms)) = .next (t.resting ms) ∧
      t.bitout = ⟨out ++ tr.payload input, none, .silent⟩ ∧ t.seen = s.seen ∧ t.hasTree tr := by
  have hpay : s.payload input = tr.payload input := htable.payload hc
  have h := exec_encode_appends (s.resting_accepting ms) hcv hsrc
    (fun b hb => (IsTableOf.hasCw (s := s.resting ms) htable (byteSym_lt b) (hc.bytes b hb)).1)
    (IsTableOf.hasCw (s := s.resting ms) htable (by decide) hc.eof).1 (State.bitout_takes hout _)
  exact ⟨{ s with
    loop := .start, bsrc := ⟨[], .endOfData⟩, bitout := s.bitout.after (s.payload input).length (s.payload input) },
    steps_word h, by rw [← hpay]; exact State.bitout_after hout _ _, rfl, htr⟩

end

/-! ### The compression session -/

/-- The block with an empty bit sink that took the magic number, and the input on its byte source. -/
def State.opened (s : State) (input : List Byte) (magic : BitVec 32) : State := { s with
  bitout := ⟨msbBits 32 magic.toNat, none, .silent⟩, bsrc := ⟨input, .endOfData⟩, seen := s.seen ++ [.bitsWritten] }

/-- The session's first three moves (R286). -/
theorem steps_open (s : State) (input : List Byte) (magic : BitVec 32) (ms : List HostMove) :
    steps 3 (s.resting (.attachBitSink none .silent :: .writeBits magic.toNat 32 ::
      .attachByteSource ⟨input, .endOfData⟩ :: ms)) = .next ((s.opened input magic).resting ms) := by
  have hwrite := step_writeBits (s := { s with bitout := ⟨[], none, .silent⟩ }) rfl magic.toNat 32
    (.attachByteSource ⟨input, .endOfData⟩ :: ms)
  rw [List.nil_append] at hwrite
  exact steps_one_then (step_attachBitSink _ _ _ _) (steps_one_then hwrite ((steps_one _).trans (step_attachByteSource _ _ _)))

/-- The block with both ports closed and the file given, its status read before. -/
def State.closed (s : State) : State := { hostCloseBitSink { s with
  seen := s.seen ++ [.csr 0#3 ((s.resting []).status.setWidth 16)] } with bsrc := ⟨[], .silent⟩ }

/-- R286 to R288: 17 steps carry out the compression session; before the ports are closed the bit sink holds the magic number,
the serialized tree and the payload. -/
theorem steps_compressSession {s : State} {input : List Byte} {magic : BitVec 32} (hs : s.accepting) (hc : s.cmd = none)
    (hh : s.host = compressSession input magic) (hlen : input.length < 2 ^ Config.freqW) :
    ∃ (t : State) (tr : Tree), steps 17 s = .next (t.closed.resting []) ∧ t.hasTree tr ∧ tr.Covers input ∧
      t.bitout.written = msbBits 32 magic.toNat ++ tr.ser ++ tr.payload input ∧ t.seen = s.seen ++ [.bitsWritten] := by
  rw [hs.eq_resting hc hh]
  obtain ⟨s1, h1, hout1, hseen1, hv1, hft⟩ := steps_count (s := s.opened input magic) [presentWord 0x02#8,
    presentWord 0x03#8, presentWord 0x04#8, .attachByteSource ⟨input, .endOfData⟩, presentWord 0x05#8, .readCsr 0#3,
    .closeBitSink, .closeByteSource] rfl hlen
  obtain ⟨s2, tr, h2, hout2, hseen2, hv2, htr2, hc⟩ := steps_build _ hv1 hft hlen
  obtain ⟨s3, h3, hout3, hseen3, hv3, htr3, hcv3, htable3⟩ := steps_derive _ hv2 htr2
  obtain ⟨s4, h4, hout4, hseen4, -, htr4, hcv4, htable4⟩ := steps_ser _ hv3 htr3 (hout3.trans (hout2.trans hout1)) hcv3 htable3
  obtain ⟨s5, h5, hout5, hseen5, htr5⟩ := steps_encode (s := { s4 with bsrc := ⟨input, .endOfData⟩ }) _ htr4 hout4 hcv4
    htable4 rfl hc
  have hclose : steps 3 (s5.resting [.readCsr 0#3, .closeBitSink, .closeByteSource]) = .next (s5.closed.resting []) :=
    steps_one_then (step_readStatus _ _)
      (steps_one_then (step_closeBitSink _ _) ((steps_one _).trans (step_closeByteSource _ _)))
  have hencode : steps 6 (s4.resting (.attachByteSource ⟨input, .endOfData⟩ :: presentWord 0x05#8 ::
      [.readCsr 0#3, .closeBitSink, .closeByteSource])) = .next (s5.closed.resting []) :=
    steps_one_then (step_attachByteSource _ _ _) (steps_two_then h5 hclose)
  have htree := steps_two_then h1 (steps_two_then h2 (steps_two_then h3 (steps_two_then h4 hencode)))
  refine ⟨s5, tr, ?_, htr5, hc, congrArg Sink.written hout5, ?_⟩
  · exact steps_trans (steps_open s input magic _) htree
  · exact hseen5.trans (hseen4.trans (hseen3.trans (hseen2.trans hseen1)))

/-! ### The decompression session -/

/-- R287: ten steps carry out the decompression session on a file that the magic number opens, followed by a serialized tree
and a payload of it. -/
theorem steps_decompressSession {s : State} {file input : List Byte} {magic : BitVec 32} {tr : Tree} {pad : Bits}
    (hs : s.accepting) (hcmd : s.cmd = none) (hh : s.host = decompressSession file magic) (hsize : tr.size ≤ Config.nodeMax)
    (hc : tr.Covers input) (hfile : unpackBytes file = msbBits 32 magic.toNat ++ tr.ser ++ tr.payload input ++ pad) :
    ∃ t : State, steps 10 s = .next (t.resting []) ∧ t.bsnk.written = input ∧ t.eos = true ∧ t.trunc = false := by
  have hbits : unpackBytes file = msbBits 32 magic.toNat ++ (tr.ser ++ (tr.payload input ++ pad)) := by
    simp only [hfile, List.append_assoc]
  have hmagic : magicMatches file magic = true :=
    (magicMatches_iff file magic).2 (by rw [hbits, List.take_left' (msbBits_length _ _)])
  rw [decompressSession, if_pos hmagic, hbits] at hh
  rw [hs.eq_resting hcmd hh]
  obtain ⟨s1, h1, hin1, hsnk1, hv1, htr1⟩ := steps_deser (s := { s with
    bitin := ⟨tr.ser ++ (tr.payload input ++ pad), .endOfData⟩, bsnk := ⟨[], none, .silent⟩
    seen := s.seen ++ [.bits (msbValue (msbBits 32 magic.toNat))] })
    [presentWord 0x07#8, .readCsr 0#3, .closeBitSource, .closeByteSink] rfl hsize
  obtain ⟨s2, h2, hsnk2, heos2, htrunc2⟩ := steps_decode _ hv1 htr1 hin1 hc hsnk1
  refine ⟨{ s2 with
    bitin := ⟨[], .silent⟩, bsnk := { s2.bsnk with room := some 0, whenFull := .silent }
    seen := s2.seen ++ [.csr 0#3 ((s2.resting []).status.setWidth 16)] }, ?_, congrArg Sink.written hsnk2, heos2, htrunc2⟩
  exact steps_one_then (step_attachBitSource _ _ _) (steps_one_then (step_readBits rfl (msbBits_length _ _) _)
    (steps_one_then (step_attachByteSink _ _ _ _) (steps_two_then h1 (steps_two_then h2
    (steps_one_then (step_readStatus _ _) (steps_one_then (step_closeBitSource _ _)
    ((steps_one _).trans (step_closeByteSink _ _))))))))

end Sys2Proof.Machine

namespace Sys2Proof.Proofs

open Sys2Proof.Machine

/-- Settles O52: the session's steps leave the container in the bit sink, and closing it pads the last byte. -/
theorem compressionSessionWritesTheContainer : Obligations.CompressionSessionWritesTheContainer := by
  intro s input magic hs hcmd hh hlen
  obtain ⟨t, tr, hrun, htr, hc, hwritten, hseen⟩ := steps_compressSession hs hcmd hh hlen
  obtain ⟨file, hfile, -, pad, hpad, hbits⟩ := closingPadsTheLastByte { t with
    seen := t.seen ++ [.csr 0#3 ((t.resting []).status.setWidth 16)] }
  refine ⟨_, tr, file, pad, hrun, rfl, State.resting_accepting _ _, htr, ?_, hc.bytes, hc.eof, hpad, ?_⟩
  · refine hfile.trans ?_
    rw [hseen]
    simp only [List.append_assoc, List.cons_append, List.nil_append]
    rfl
  · exact hbits.trans (congrArg (· ++ pad) hwritten)

/-- Settles O53: the file holds a tree and a payload of it, which DESER and DECODE read back. -/
theorem sessionsGiveTheInputBack : Obligations.SessionsGiveTheInputBack := by
  intro s u input magic hs hcmd hh hlen hu hucmd
  obtain ⟨t, tr, file, pad, hrun, -, -, ⟨-, hsize⟩, hseen, hbytes, heof, -, hfile⟩ :=
    compressionSessionWritesTheContainer s input magic hs hcmd hh hlen
  obtain ⟨v, hv, hwritten, heos, htrunc⟩ := steps_decompressSession (s := { u with host := decompressSession file magic })
    hu hucmd rfl hsize ⟨hbytes, heof⟩ hfile
  exact ⟨t, file, _, hrun, by rw [hseen, List.getLast?_append]; rfl, hv, rfl, hwritten, heos, htrunc, State.resting_accepting _ _⟩

end Sys2Proof.Proofs
end

section
/-! ## COUNT's three ends (R142, R143, R145, R243)

A run of COUNT counts the bytes that its source delivers; the engine step after the last of them ends the command. -/

namespace Sys2Proof.Machine

/-! ### The counters add up (R145) -/

theorem CountsOf.getD_eq_count {ft : Memory Freq} {data : List Byte} (h : CountsOf ft data)
    (hb : ∀ b : Byte, data.count b < 2 ^ Config.freqW) {a : Nat} (ha : a < 2 ^ Config.byteW) :
    ((ft.read a).getD 0).toNat = (data.map BitVec.toNat).count a := by
  obtain ⟨b, rfl⟩ : ∃ b : Byte, b.toNat = a := ⟨BitVec.ofNat 8 a, Nat.mod_eq_of_lt ha⟩
  rw [h b, Option.getD_some, BitVec.toNat_ofNat, Nat.mod_eq_of_lt (hb b),
    List.count_map_of_injective _ _ BitVec.toNat_injective]

/-- The counters of the bytes add up to the number of bytes counted. -/
theorem CountsOf.sum {ft : Memory Freq} {data : List Byte} (h : CountsOf ft data)
    (hb : ∀ b : Byte, data.count b < 2 ^ Config.freqW) :
    ((List.range (2 ^ Config.byteW)).map fun a => ((ft.read a).getD 0).toNat).sum = data.length := by
  have hmem : ∀ a ∈ (↑(data.map BitVec.toNat) : Multiset Nat), a ∈ Finset.range (2 ^ Config.byteW) := by
    intro a ha
    obtain ⟨b, -, rfl⟩ := List.mem_map.1 (Multiset.mem_coe.1 ha)
    exact Finset.mem_range.2 b.isLt
  calc ((List.range (2 ^ Config.byteW)).map fun a => ((ft.read a).getD 0).toNat).sum
      = ∑ a ∈ Finset.range (2 ^ Config.byteW), ((ft.read a).getD 0).toNat := rfl
    _ = ∑ a ∈ Finset.range (2 ^ Config.byteW), Multiset.count a ↑(data.map BitVec.toNat) :=
      Finset.sum_congr rfl fun a ha => (h.getD_eq_count hb (Finset.mem_range.1 ha)).trans (Multiset.coe_count a _).symm
    _ = data.length := by rw [Multiset.sum_count_eq_card hmem, Multiset.coe_card, List.length_map]

/-- With the entry of symbol 256 they add up to one more. -/
theorem TableOf.sum {ft : Memory Freq} {data : List Byte} (h : TableOf ft data)
    (hb : ∀ b : Byte, data.count b < 2 ^ Config.freqW) :
    ((List.range Config.nsym).map fun a => ((ft.read a).getD 0).toNat).sum = data.length + 1 := by
  have heof : ((ft.read (2 ^ Config.byteW)).getD 0).toNat = 1 := congrArg (fun f => (f.getD 0).toNat) h.eof
  rw [show Config.nsym = 2 ^ Config.byteW + 1 from rfl, List.range_succ, List.map_append, List.sum_append, h.bytes.sum hb,
    List.map_singleton, List.sum_singleton, heof]

/-! ### The step that ends the command -/

/-- A byte whose counter is at its bound is read and not counted (R143). -/
theorem countTick_of_bound {s : State} {b : Byte} {bs : List Byte} {e : SourceEnd} (hl : s.loop = .top)
    (hsrc : s.bsrc = ⟨b :: bs, e⟩) (h : s.ft.read b.toNat = some (BitVec.allOnes Config.freqW)) :
    countTick s = .next (raise (.freqOverflow b) { s with bsrc := ⟨bs, e⟩ }) := by
  simp only [countTick, hl, byteIn_of_cons hsrc]
  exact (withCounter_of_read h).trans (if_pos rfl)

/-- COUNT counts the bytes its source holds before `rest`, and where the engine step on `rest` ends the command, its
execution ends (R141). -/
theorem exec_count_of_end {s : State} {bytes rest : List Byte} {e : SourceEnd} (hs : s.accepting)
    (hsrc : s.bsrc = ⟨bytes ++ rest, e⟩) (hb : ∀ b : Byte, bytes.count b < 2 ^ Config.freqW) :
    ∃ ft, CountsOf ft bytes ∧ ∀ t : State, t.phase = .idle →
      countTick { s with phase := .count, ftV := false, loop := .top, ft := ft, bsrc := ⟨rest, e⟩ } = .next t →
      exec .count s = .next t := by
  obtain ⟨ft, hft, hbytes⟩ := count_bytes (s := { s with phase := .count, ftV := false }) rfl rest e CountsOf.fill hb
  rw [← hsrc] at hbytes
  have hstart : Reaches countTick 1 { s with phase := .count, loop := .start }
      { s with phase := .count, ftV := false, loop := .top, ft := Memory.fill Config.nsym 0 } := .step (by simp) rfl
  refine ⟨ft, hft, fun t ht htick => ?_⟩
  rw [exec_count, accept_of_ready (p := .count) hs.2 rfl, andThen_next]
  refine ((hstart.trans hbytes).trans (.step (by simp) htick)).drive ht ?_
  show 1 + bytes.length + 1 ≤ s.bsrc.data.length + 2
  rw [hsrc, List.length_append]
  omega

end Sys2Proof.Machine

namespace Sys2Proof.Proofs

open Sys2Proof.Machine

/-- Settles O19: the table COUNT makes, whose counters add up. -/
theorem countTabulatesTheSource : Obligations.CountTabulatesTheSource := by
  intro s data hs hsrc hb
  obtain ⟨ft, hft, hexec⟩ := exec_count_tabulates hs hsrc hb
  refine ⟨_, hexec, hft.bytes, hft.eof, hft.sum hb, ?_⟩
  rw [← hs.1]

/-- Settles O20: after the bytes before it are counted, the byte finds its counter at the bound. -/
theorem countRaisesFreqOverflow : Obligations.CountRaisesFreqOverflow := by
  intro s before after b e hs hsrc hb hbound
  obtain ⟨ft, hft, hexec⟩ := exec_count_of_end hs hsrc hb
  have hread : ft.read b.toNat = some (BitVec.allOnes Config.freqW) := by
    rw [hft b, hbound]
    rfl
  refine ⟨_, hexec _ rfl (countTick_of_bound rfl rfl hread), hread, ?_⟩
  rw [hs.1]
  exact raise_of_noFault _ _ hs.2

/-- Settles O21: after its data the source answers `Err`, and the fault is taken with `FT_V` cleared. -/
theorem countRaisesIoErrorOnTheByteSource : Obligations.CountRaisesIoErrorOnTheByteSource := by
  intro s data hs hsrc hb
  obtain ⟨ft, -, hexec⟩ := exec_count_of_end (rest := []) hs (by rw [hsrc, List.append_nil]) hb
  refine ⟨_, hexec (raise (.ioError portByteSource) { s with
    phase := .count, ftV := false, loop := .top, ft := ft, bsrc := ⟨[], .failure⟩ }) rfl rfl, ?_⟩
  rw [hs.1]
  exact raise_of_noFault _ _ hs.2

end Sys2Proof.Proofs
end

section
/-! ## BUILD's extraction (R153)

The order of extraction is strict and total on written records, so the least key of a collection is that of one member. -/

namespace Sys2Proof.Machine

/-! ### The order of extraction -/

section
variable {m : Memory Node} {i j k : Nat}

theorem extractedBefore_iff {a b : Node} (hi : m.read i = some a) (hj : m.read j = some b) :
    extractedBefore m i j ↔ a.freq < b.freq ∨ (a.freq = b.freq ∧ i < j) := by
  simp [extractedBefore, hi, hj]

theorem extractedBefore.trans (h : extractedBefore m i j) (h' : extractedBefore m j k) : extractedBefore m i k := by
  obtain ⟨a, b, hi, hj, hab⟩ := h
  obtain ⟨b', c, hj', hk, hbc⟩ := h'
  cases hj.symm.trans hj'
  exact ⟨a, c, hi, hk, by bv_omega⟩

theorem extractedBefore.asymm (h : extractedBefore m i j) : ¬ extractedBefore m j i := by
  obtain ⟨a, b, hi, hj, hab⟩ := h
  rw [extractedBefore_iff hj hi]
  bv_omega

/-- Of two keys the lesser one is that of the node extracted first. -/
theorem lesserKey_cases {a b : Node} (hi : m.read i = some a) (hj : m.read j = some b) :
    (lesserKey (a.freq, i) (b.freq, j) = (a.freq, i) ∧ extractedBefore m i j) ∨
      (lesserKey (a.freq, i) (b.freq, j) = (b.freq, j) ∧ (i ≠ j → extractedBefore m j i)) := by
  rw [extractedBefore_iff hi hj, extractedBefore_iff hj hi, lesserKey]
  split
  · next h => exact .inl ⟨rfl, h⟩
  · next h => exact .inr ⟨rfl, fun hij => by bv_omega⟩

end

/-! ### The least key -/

theorem nodeKey_eq_ok {m : Memory Node} {i : Nat} {x : NodeFreq × Nat} :
    nodeKey m i = .ok x ↔ ∃ nd, m.read i = some nd ∧ x = (nd.freq, i) := by
  unfold nodeKey
  split
  · next nd h => simp [h, eq_comm]
  · next h => simp [h]

theorem minKey_cons_eq_ok {m : Memory Node} {i j : Nat} {l : List Nat} {x : NodeFreq × Nat} :
    minKey m (i :: j :: l) = .ok x ↔
      ∃ a b, nodeKey m i = .ok a ∧ minKey m (j :: l) = .ok b ∧ x = lesserKey a b := by
  rw [minKey]
  split
  · next a b ha hb => simp [ha, hb, eq_comm]
  · next e he => simp [he]
  · next a e ha he => simp [ha, he]

/-- The least key is that of a listed node which comes before every other one (R153). -/
theorem minKey_least {m : Memory Node} {l : List Nat} {f : NodeFreq} {i : Nat} (h : minKey m l = .ok (f, i)) :
    i ∈ l ∧ (∃ nd, m.read i = some nd ∧ nd.freq = f) ∧ ∀ j ∈ l, j ≠ i → extractedBefore m i j := by
  induction l generalizing f i with
  | nil => cases h
  | cons a as ih =>
    cases as with
    | nil =>
      obtain ⟨nd, hnd, hx⟩ := nodeKey_eq_ok.1 (show nodeKey m a = .ok (f, i) from h)
      cases hx
      exact ⟨by simp, ⟨nd, hnd, rfl⟩, fun j hj hne => absurd (by simpa using hj) hne⟩
    | cons b bs =>
      obtain ⟨x, ⟨g, k⟩, hx, hmin, hl⟩ := minKey_cons_eq_ok.1 h
      obtain ⟨nda, ha, rfl⟩ := nodeKey_eq_ok.1 hx
      obtain ⟨hk, ⟨ndk, hrk, rfl⟩, hleast⟩ := ih hmin
      obtain ⟨he, hbefore⟩ | ⟨he, hbefore⟩ := lesserKey_cases ha hrk <;> cases hl.trans he
      · refine ⟨by simp, ⟨nda, ha, rfl⟩, fun j hj hne => ?_⟩
        have hj : j ∈ b :: bs := (List.mem_cons.1 hj).resolve_left hne
        by_cases hjk : j = k
        · exact hjk ▸ hbefore
        · exact hbefore.trans (hleast j hj hjk)
      · refine ⟨List.mem_cons_of_mem _ hk, ⟨ndk, hrk, rfl⟩, fun j hj hne => ?_⟩
        obtain rfl | hj := List.mem_cons.1 hj
        · exact hbefore hne
        · exact hleast j hj hne

end Sys2Proof.Machine

namespace Sys2Proof.Proofs

open Sys2Proof.Machine

/-- Settles O22: the least key of the members is that of the one member that comes before every other. -/
theorem extractionTakesTheLeastKey : Obligations.ExtractionTakesTheLeastKey := by
  intro s hne hw hwritten
  obtain ⟨_, i, nd, hmin, hi, hread, rfl⟩ := minKey_of_written hne fun j hj => Option.isSome_iff_exists.1 (hwritten j hj)
  obtain ⟨-, -, hleast⟩ := minKey_least hmin
  exact ⟨i, nd, hi, hread, fun j hj hji => ⟨hleast j hj hji, (hleast j hj hji).asymm⟩, (State.members_remove hw hi).1,
    fun k => by rw [extractMin, hmin]⟩

end Sys2Proof.Proofs
end

section
/-! ## BUILD step by step (R150, R151, R154)

The leaves stand in the order of the table, every node from there on is a merge of the two that came first, and the
collection is what has no parent yet: so it is before the first merge, and every merge keeps it so. -/

namespace Sys2Proof.Machine

/-! ### Nodes and their parents -/

theorem childBelow.mono {m : Memory Node} {i i' j : Nat} (h : childBelow m i j) (hi : i ≤ i') : childBelow m i' j := by
  obtain ⟨k, a, b, f, hk, hr, hj⟩ := h
  exact ⟨k, a, b, f, hk.trans_le hi, hr, hj⟩

/-- Parents are looked for among the records below a node only. -/
theorem childBelow_congr {m m' : Memory Node} {i j : Nat} (h : ∀ k < i, m'.read k = m.read k) :
    childBelow m' i j ↔ childBelow m i j := by
  unfold childBelow
  refine exists_congr fun k => exists_congr fun a => exists_congr fun b => exists_congr fun f => ?_
  exact and_congr_right fun hk => by rw [h k hk]

/-- A new internal node makes its two children children. -/
theorem childBelow_succ {m : Memory Node} {i j : Nat} {a b : NodeIdx} {f : NodeFreq}
    (h : m.read i = some (.internal a b f)) :
    childBelow m (i + 1) j ↔ childBelow m i j ∨ a.toNat = j ∨ b.toNat = j := by
  constructor
  · rintro ⟨k, a', b', f', hk, hr, hj⟩
    obtain hk | rfl := Nat.lt_succ_iff_lt_or_eq.1 hk
    · exact .inl ⟨k, a', b', f', hk, hr, hj⟩
    · cases h.symm.trans hr
      exact .inr hj
  · rintro (hc | hj)
    · exact hc.mono (Nat.le_succ i)
    · exact ⟨i, a, b, f, Nat.lt_succ_self i, h, hj⟩

theorem extractedBefore_congr {m m' : Memory Node} {i j : Nat} (hi : m'.read i = m.read i) (hj : m'.read j = m.read j) :
    extractedBefore m' i j ↔ extractedBefore m i j := by
  rw [extractedBefore, extractedBefore, hi, hj]

/-- Node `i` is the merge of the two nodes that come first among those below it without a parent below it (R154). -/
def MergedAt (m : Memory Node) (i : Nat) : Prop :=
  ∃ (a b : NodeIdx) (f : NodeFreq) (nda ndb : Node), m.read i = some (.internal a b f) ∧
    m.read a.toNat = some nda ∧ m.read b.toNat = some ndb ∧
    a.toNat < i ∧ b.toNat < i ∧ f.toNat = nda.freq.toNat + ndb.freq.toNat ∧
    ¬ childBelow m i a.toNat ∧ ¬ childBelow m i b.toNat ∧ extractedBefore m a.toNat b.toNat ∧
    ∀ j, j < i → j ≠ a.toNat → j ≠ b.toNat → ¬ childBelow m i j → extractedBefore m b.toNat j

/-- Records past a merge do not matter to it. -/
theorem MergedAt.congr {m m' : Memory Node} {i : Nat} (h : MergedAt m i) (hm : ∀ k ≤ i, m'.read k = m.read k) :
    MergedAt m' i := by
  obtain ⟨a, b, f, nda, ndb, hi, hra, hrb, ha, hb, hf, hca, hcb, hab, hleast⟩ := h
  have hchild : ∀ j, childBelow m' i j ↔ childBelow m i j := fun j => childBelow_congr fun k hk => hm k hk.le
  refine ⟨a, b, f, nda, ndb, (hm i le_rfl).trans hi, (hm _ ha.le).trans hra, (hm _ hb.le).trans hrb, ha, hb, hf,
    (hchild _).not.2 hca, (hchild _).not.2 hcb, (extractedBefore_congr (hm _ ha.le) (hm _ hb.le)).2 hab, ?_⟩
  intro j hj hja hjb hcj
  exact (extractedBefore_congr (hm _ hb.le) (hm _ hj.le)).2 (hleast j hj hja hjb ((hchild j).not.1 hcj))

/-! ### Frequencies -/

/-- The frequency of the node at record `i`. -/
def freqAt (m : Memory Node) (i : Nat) : Nat := (m.read i).elim 0 fun nd => nd.freq.toNat

theorem freqAt_of_read {m : Memory Node} {i : Nat} {nd : Node} (h : m.read i = some nd) :
    freqAt m i = nd.freq.toNat := by rw [freqAt, h, Option.elim_some]

theorem freqAt_write_of_ne (m : Memory Node) {i n : Nat} (nd : Node) (h : i ≠ n) :
    freqAt (m.write n nd) i = freqAt m i := by rw [freqAt, Memory.read_write_of_ne _ _ h, freqAt]

/-- The frequencies of nodes that are not written stay as they are. -/
theorem map_freqAt_write (m : Memory Node) {n : Nat} {l : List Nat} (nd : Node) (h : n ∉ l) :
    l.map (freqAt (m.write n nd)) = l.map (freqAt m) :=
  List.map_congr_left fun _ hi => freqAt_write_of_ne m nd fun hin => h (hin ▸ hi)

/-- The count of a symbol is the value its counter holds. -/
theorem countOf_of_read {ft : Memory Freq} {a : Nat} {c : Freq} (ha : a < Config.nsym) (h : ft.read a = some c) :
    countOf ft (BitVec.ofNat Config.symW a) = c.toNat := by
  have hlt : a < 257 := ha
  have : (BitVec.ofNat Config.symW a).toNat = a := Nat.mod_eq_of_lt (show a < 512 by omega)
  rw [countOf, this, h, Option.getD_some]

theorem countOf_lt (ft : Memory Freq) (x : Sym) : countOf ft x < 2 ^ Config.freqW := BitVec.isLt _

/-- The weights of the table's entries, in ascending order of symbol (R30). -/
def tableWeights (ft : Memory Freq) : List Nat := (tableSyms ft).map (countOf ft)

/-- All the weights together fit a node's frequency (R7, R154). -/
theorem tableWeights_sum_lt (ft : Memory Freq) : (tableWeights ft).sum < 2 ^ Config.nfreqW := by
  have hmax : ∀ w ∈ tableWeights ft, w ≤ 2 ^ 64 := by
    intro w hw
    obtain ⟨x, -, rfl⟩ := List.mem_map.1 hw
    exact (countOf_lt ft x).le
  have hlen : (tableWeights ft).length ≤ 257 := (List.length_map _).trans_le (tableSyms_length_le ft)
  calc (tableWeights ft).sum ≤ (tableWeights ft).length • 2 ^ 64 := List.sum_le_card_nsmul _ _ hmax
    _ ≤ 257 • 2 ^ 64 := Nat.mul_le_mul_right _ hlen
    _ < 2 ^ 73 := by norm_num

/-! ### The leaves (R151) -/

/-- The leaf of a symbol's entry: the symbol, and its count zero-extended (R151). -/
def LeafAt (ft : Memory Freq) (m : Memory Node) (i a : Nat) : Prop :=
  ∃ c, ft.read a = some c ∧ m.read i = some (.leaf (BitVec.ofNat Config.symW a) (c.setWidth Config.nfreqW))

/-- The leaves of the symbols `as` have been placed, in that order, and nothing else. -/
structure State.LeavesPlaced (ft : Memory Freq) (as : List Nat) (s : State) : Prop where
  table : s.ft = ft
  pq : Memory.wf Config.nodeMax s.pq
  full : Memory.full Config.nodeMax s.pq
  count : s.alloc.toNat = as.length
  members : s.members.Perm (List.range as.length)
  leaves : ∀ i a, as[i]? = some a → LeafAt ft s.arena i a

/-- Adding a node leaves the records below the count as they are, and adds one member. -/
theorem addNode_members_perm {nd : Node} {s t : State} (hw : Memory.wf Config.nodeMax s.pq)
    (hb : ∀ i ∈ s.members, i < s.alloc.toNat) (h : addNode nd s = .next t) :
    Memory.wf Config.nodeMax t.pq ∧ t.members.Perm (s.alloc.toNat :: s.members) := by
  obtain ⟨hw', hm, -⟩ := addNode_members hw hb h
  exact ⟨hw', State.members_perm_cons hw hw' (fun hmem => lt_irrefl _ (hb _ hmem)) hm⟩

theorem State.LeavesPlaced.addLeaf {ft : Memory Freq} {as : List Nat} {s t : State} {a : Nat} {c : Freq}
    (hs : s.LeavesPlaced ft as) (ha : ft.read a = some c)
    (h : addNode (.leaf (BitVec.ofNat Config.symW a) (c.setWidth Config.nfreqW)) s = .next t) :
    t.LeavesPlaced ft (as ++ [a]) := by
  obtain ⟨hft, hw, hfull, hc, hm, hl⟩ := hs
  obtain ⟨hw', hm'⟩ := addNode_members_perm hw (fun i hi => hc ▸ List.mem_range.1 (hm.mem_iff.1 hi)) h
  obtain ⟨hn, rfl⟩ := addNode_eq_next.1 h
  refine ⟨hft, hw', Memory.full_write hfull _ _, ?_, ?_, fun i b hi => ?_⟩
  · rw [cnt_succ_toNat hn, hc, List.length_append, List.length_singleton]
  · rw [List.length_append, List.length_singleton, List.range_succ, ← hc]
    exact hm'.trans ((hc ▸ hm.cons _).trans (List.perm_append_singleton _ _).symm)
  · show ∃ c', _ ∧ (s.arena.write _ _).read i = _
    obtain hlt | rfl | hgt := lt_trichotomy i as.length
    · rw [List.getElem?_append_left hlt] at hi
      rw [Memory.read_write_of_ne _ _ (by omega)]
      exact hl i b hi
    · rw [List.getElem?_append_right le_rfl, Nat.sub_self] at hi
      cases hi
      exact ⟨c, ha, by rw [hc, Memory.read_write_self]⟩
    · rw [List.getElem?_eq_none (by rw [List.length_append]; exact hgt)] at hi
      cases hi

/-- Step 1 of BUILD places a leaf for each listed symbol that has an entry, in the order listed (R151). -/
theorem addLeaves_placed {ft : Memory Freq} {l : List Nat} : ∀ {as : List Nat} {s t : State}, s.LeavesPlaced ft as →
    addLeaves l s = .next t → t.LeavesPlaced ft (as ++ entriesAmong ft l) := by
  induction l with
  | nil =>
    intro as s t hs h
    cases h
    rwa [show entriesAmong ft [] = [] from rfl, List.append_nil]
  | cons a l ih =>
    intro as s t hs h
    obtain ⟨c, hc, h⟩ := withCounter_eq_next.1 h
    rw [hs.table] at hc
    rw [entriesAmong_cons l hc]
    split at h
    · next h0 => rw [if_pos h0]; exact ih hs h
    · next h0 =>
      obtain ⟨u, hu, h⟩ := andThen_eq_next.1 h
      rw [if_neg h0, List.append_cons]
      exact ih (hs.addLeaf hc hu) h

/-- The empty collection, from which BUILD starts (R150). -/
theorem State.LeavesPlaced.of_empty {s : State} (hp : s.pq = Memory.fill Config.nodeMax false) (ha : s.alloc = 0) :
    s.LeavesPlaced s.ft [] where
  table := rfl
  pq := hp ▸ Memory.wf_fill _ _
  full := hp ▸ Memory.full_fill _ _
  count := by rw [ha]; rfl
  members := .of_eq (by simp [State.members, hp, Memory.fill])
  leaves := nofun

/-- BUILD's start places the leaves of the table (R150, R151). -/
theorem buildStart_placed {ft : Memory Freq} {s t : State} (h : buildStart s = .next t) (hft : s.ft = ft) :
    t.LeavesPlaced ft (tableSymbols ft) := by
  subst hft
  exact addLeaves_placed (.of_empty (s := { s with
    treeV := false, cwtV := false, pq := Memory.fill Config.nodeMax false, alloc := 0, loop := .top })
    (by dsimp only) rfl) h

/-- The leaves carry the weights of the table. -/
theorem State.LeavesPlaced.weights {ft : Memory Freq} {s : State} (hs : s.LeavesPlaced ft (tableSymbols ft)) :
    (s.members.map (freqAt s.arena)).Perm (tableWeights ft) := by
  refine (hs.members.map _).trans (.of_eq (List.ext_getElem (by simp [tableWeights, tableSyms]) fun i hi hi' => ?_))
  simp only [List.length_map, List.length_range] at hi
  obtain ⟨c, hc, hr⟩ := hs.leaves i _ (List.getElem?_eq_getElem hi)
  have hsym : (tableSymbols ft)[i] < Config.nsym := List.mem_range.1 (List.mem_filter.1 (List.getElem_mem hi)).1
  simp only [List.getElem_map, List.getElem_range, tableWeights, tableSyms]
  rw [freqAt_of_read hr, countOf_of_read hsym hc]
  exact BitVec.toNat_setWidth_of_le (by decide)

end Sys2Proof.Machine
end

section
/-! ## BUILD's merges (R154) -/

namespace Sys2Proof.Machine

/-! ### One merge -/

/-- The node extracted comes before every one that stays (R153). -/
theorem extractMin_least {s t : State} {k : Nat → NodeFreq → State → Result} (hw : Memory.wf Config.nodeMax s.pq)
    (h : extractMin s k = .next t) :
    ∃ a nd u, k a nd.freq u = .next t ∧ u = { s with pq := s.pq.write a false } ∧ s.arena.read a = some nd ∧
      Memory.wf Config.nodeMax u.pq ∧ s.members.Perm (a :: u.members) ∧ ∀ j ∈ u.members, extractedBefore s.arena a j := by
  obtain ⟨_, a, hmin, h⟩ := extractMin_eq_next.1 h
  obtain ⟨ha, ⟨nd, hr, rfl⟩, hleast⟩ := minKey_least hmin
  have hw' := Memory.wf_write false hw (State.members_lt hw ha)
  obtain ⟨hm, -⟩ := State.members_remove hw ha
  exact ⟨a, nd, _, h, rfl, hr, hw', State.members_perm_of_remove hw hw' ha hm, fun j hj =>
    hleast j ((hm j).1 hj).1 ((hm j).1 hj).2⟩

/-- The state `t` is `s` after the merge of the members `a` and `b`, which come first, the members `rest` staying. -/
structure MergeOf (s : State) (a b : Nat) (nda ndb : Node) (rest : List Nat) (t : State) : Prop where
  left : s.arena.read a = some nda
  right : s.arena.read b = some ndb
  before : s.members.Perm (a :: b :: rest)
  first : extractedBefore s.arena a b
  least : ∀ j ∈ rest, extractedBefore s.arena b j
  arena : t.arena = s.arena.write s.alloc.toNat
    (.internal (BitVec.ofNat Config.idxW a) (BitVec.ofNat Config.idxW b) (nda.freq + ndb.freq))
  fits : s.alloc.toNat < Config.nodeMax
  alloc : t.alloc.toNat = s.alloc.toNat + 1
  pq : Memory.wf Config.nodeMax t.pq
  full : Memory.full Config.nodeMax s.pq → Memory.full Config.nodeMax t.pq
  after : t.members.Perm (s.alloc.toNat :: rest)

theorem buildMerge_mergeOf {s t : State} (hw : Memory.wf Config.nodeMax s.pq) (hb : ∀ i ∈ s.members, i < s.alloc.toNat)
    (h : buildMerge s = .next t) : ∃ a b nda ndb rest, MergeOf s a b nda ndb rest t := by
  obtain ⟨a, nda, u, h, rfl, ha, huw, hmu, hla⟩ := extractMin_least hw h
  obtain ⟨b, ndb, v, h, rfl, hb', hvw, hmv, hlb⟩ := extractMin_least huw h
  have hperm := hmu.trans (hmv.cons a)
  obtain ⟨htw, hmt⟩ := addNode_members_perm hvw (fun i hi => hb i (hperm.mem_iff.2 (by simp [hi]))) h
  obtain ⟨hn, rfl⟩ := addNode_eq_next.1 h
  exact ⟨a, b, nda, ndb, _, ha, hb', hperm, hla b (hmv.mem_iff.2 (by simp)), hlb, rfl, hn, cnt_succ_toNat hn, htw,
    fun hf => Memory.full_write (Memory.full_write (Memory.full_write hf _ _) _ _) _ _, hmt⟩

/-! ### What every merge keeps -/

/-- BUILD between two merges: the leaves of the table, then the nodes merged so far, and in the collection the nodes that have
no parent yet, whose frequencies add up to the weight of the table (R151, R152, R154). -/
structure State.Merging (ft : Memory Freq) (s : State) : Prop where
  pq : Memory.wf Config.nodeMax s.pq
  full : Memory.full Config.nodeMax s.pq
  leaves : ∀ i a, (tableSymbols ft)[i]? = some a → LeafAt ft s.arena i a
  enough : (tableSymbols ft).length ≤ s.alloc.toNat
  merged : ∀ i, (tableSymbols ft).length ≤ i → i < s.alloc.toNat → MergedAt s.arena i
  members : ∀ j, j ∈ s.members ↔ j < s.alloc.toNat ∧ ¬ childBelow s.arena s.alloc.toNat j
  newest : s.alloc.toNat ≠ 0 → s.alloc.toNat - 1 ∈ s.members
  weight : (s.members.map (freqAt s.arena)).sum = (tableWeights ft).sum

section
variable {ft : Memory Freq} {s t : State}

/-- A record below the count is a leaf of the table or a merge. -/
theorem State.Merging.record_cases (hs : s.Merging ft) {i : Nat} (hi : i < s.alloc.toNat) :
    (∃ a ∈ tableSymbols ft, LeafAt ft s.arena i a) ∨ MergedAt s.arena i := by
  obtain hk | hk := lt_or_ge i (tableSymbols ft).length
  · exact .inl ⟨_, List.getElem_mem hk, hs.leaves i _ (List.getElem?_eq_getElem hk)⟩
  · exact .inr (hs.merged i hk hi)

theorem MergedAt.children_lt {m : Memory Node} {i : Nat} {a b : NodeIdx} {f : NodeFreq} (h : MergedAt m i)
    (hr : m.read i = some (.internal a b f)) : a.toNat < i ∧ b.toNat < i := by
  obtain ⟨a', b', f', _, _, hr', _, _, ha, hb, _⟩ := h
  cases hr.symm.trans hr'
  exact ⟨ha, hb⟩

/-- Every child stands below the count. -/
theorem State.Merging.lt_of_childBelow (hs : s.Merging ft) {j : Nat} (h : childBelow s.arena s.alloc.toNat j) :
    j < s.alloc.toNat := by
  obtain ⟨k, a, b, f, hk, hr, hj⟩ := h
  obtain ⟨x, -, c, -, hr'⟩ | hm := hs.record_cases hk
  · cases hr.symm.trans hr'
  · have := hm.children_lt hr
    omega

/-- The leaves are the first collection: none has a parent. -/
theorem State.LeavesPlaced.merging (hs : s.LeavesPlaced ft (tableSymbols ft)) : s.Merging ft where
  pq := hs.pq
  full := hs.full
  leaves := hs.leaves
  enough := hs.count.ge
  merged i hk hi := absurd (hs.count ▸ hi) hk.not_gt
  members j := by
    rw [hs.members.mem_iff, List.mem_range, hs.count]
    refine (and_iff_left ?_).symm
    rintro ⟨k, a, b, f, hk, hr, -⟩
    obtain ⟨c, -, hr'⟩ := hs.leaves k _ (List.getElem?_eq_getElem hk)
    cases hr.symm.trans hr'
  newest hne := by
    rw [hs.members.mem_iff, List.mem_range, ← hs.count]
    exact Nat.sub_one_lt hne
  weight := hs.weights.sum_eq

end

section
variable {ft : Memory Freq} {s t : State} {a b : Nat} {nda ndb : Node} {rest : List Nat}
  (hs : s.Merging ft) (h : MergeOf s a b nda ndb rest t)
include hs h

theorem MergeOf.members_lt : a < s.alloc.toNat ∧ b < s.alloc.toNat ∧ ∀ j ∈ rest, j < s.alloc.toNat := by
  have hlt : ∀ j ∈ a :: b :: rest, j < s.alloc.toNat := fun j hj => ((hs.members j).1 (h.before.mem_iff.2 hj)).1
  exact ⟨hlt a (by simp), hlt b (by simp), fun j hj => hlt j (by simp [hj])⟩

theorem MergeOf.idx_toNat : (BitVec.ofNat Config.idxW a).toNat = a ∧ (BitVec.ofNat Config.idxW b).toNat = b :=
  have hlt := h.members_lt hs
  ⟨nodeIdx_toNat (hlt.1.trans h.fits), nodeIdx_toNat (hlt.2.1.trans h.fits)⟩

omit hs in
/-- The new node is written past the old ones. -/
theorem MergeOf.read_of_lt {i : Nat} (hi : i < s.alloc.toNat) : t.arena.read i = s.arena.read i := by
  rw [h.arena, Memory.read_write_of_ne _ _ hi.ne]

omit hs in
theorem MergeOf.read_new : t.arena.read s.alloc.toNat =
    some (.internal (BitVec.ofNat Config.idxW a) (BitVec.ofNat Config.idxW b) (nda.freq + ndb.freq)) := by
  rw [h.arena, Memory.read_write_self]

/-- The new node's frequency is the exact sum: it is at most the weight of the table (R154). -/
theorem MergeOf.freq_toNat : (nda.freq + ndb.freq).toNat = nda.freq.toNat + ndb.freq.toNat := by
  have hsum := (h.before.map (freqAt s.arena)).sum_eq
  rw [hs.weight, List.map_cons, List.map_cons, List.sum_cons, List.sum_cons, freqAt_of_read h.left,
    freqAt_of_read h.right] at hsum
  have hlt := tableWeights_sum_lt ft
  rw [BitVec.toNat_add]
  exact Nat.mod_eq_of_lt (by omega)

/-- The frequencies after a merge: that of the new node for those of its two children. -/
theorem MergeOf.freqs : (t.members.map (freqAt t.arena)).Perm
    ((nda.freq.toNat + ndb.freq.toNat) :: rest.map (freqAt s.arena)) := by
  obtain ⟨-, -, hlt⟩ := h.members_lt hs
  refine (h.after.map _).trans (.of_eq ?_)
  rw [List.map_cons, freqAt_of_read h.read_new, h.arena, map_freqAt_write _ _ fun hn => lt_irrefl _ (hlt _ hn)]
  exact congrArg (· :: _) (h.freq_toNat hs)

omit hs in
theorem MergeOf.freqs_before : (s.members.map (freqAt s.arena)).Perm
    (nda.freq.toNat :: ndb.freq.toNat :: rest.map (freqAt s.arena)) := by
  refine (h.before.map _).trans (.of_eq ?_)
  rw [List.map_cons, List.map_cons, freqAt_of_read h.left, freqAt_of_read h.right]

/-- The new node is the merge of the two that come first (R154). -/
theorem MergeOf.mergedAt : MergedAt t.arena s.alloc.toNat := by
  obtain ⟨ha, hb, hrest⟩ := h.members_lt hs
  obtain ⟨hia, hib⟩ := h.idx_toNat hs
  have hchild : ∀ j, childBelow t.arena s.alloc.toNat j ↔ childBelow s.arena s.alloc.toNat j := fun j =>
    childBelow_congr fun k hk => h.read_of_lt hk
  have hbefore : ∀ {i j}, i < s.alloc.toNat → j < s.alloc.toNat → extractedBefore s.arena i j →
      extractedBefore t.arena i j := fun hi hj => (extractedBefore_congr (h.read_of_lt hi) (h.read_of_lt hj)).2
  have hmem : ∀ j ∈ a :: b :: rest, ¬ childBelow s.arena s.alloc.toNat j := fun j hj =>
    ((hs.members j).1 (h.before.mem_iff.2 hj)).2
  refine ⟨_, _, _, nda, ndb, h.read_new, ?_, ?_, ?_, ?_, h.freq_toNat hs, ?_, ?_, ?_, ?_⟩ <;>
    simp only [hia, hib, hchild]
  · rw [h.read_of_lt ha, h.left]
  · rw [h.read_of_lt hb, h.right]
  · exact ha
  · exact hb
  · exact hmem a (by simp)
  · exact hmem b (by simp)
  · exact hbefore ha hb h.first
  · intro j hj hja hjb hc
    have hj' : j ∈ a :: b :: rest := h.before.mem_iff.1 ((hs.members j).2 ⟨hj, hc⟩)
    have hjr : j ∈ rest := ((List.mem_cons.1 hj').resolve_left hja |> List.mem_cons.1).resolve_left hjb
    exact hbefore hb hj (h.least j hjr)

/-- After a merge the collection is again what has no parent. -/
theorem MergeOf.members_iff (j : Nat) :
    j ∈ t.members ↔ j < t.alloc.toNat ∧ ¬ childBelow t.arena t.alloc.toNat j := by
  obtain ⟨hia, hib⟩ := h.idx_toNat hs
  obtain ⟨ha, hb, -⟩ := h.members_lt hs
  have hnd := (h.before.nodup_iff).1 (State.members_nodup hs.pq)
  have hnode := mt (hs.lt_of_childBelow (j := s.alloc.toNat)) (lt_irrefl _)
  have hold := hs.members j
  rw [h.before.mem_iff] at hold
  rw [h.after.mem_iff, h.alloc, childBelow_succ h.read_new, hia, hib, childBelow_congr fun k hk => h.read_of_lt hk,
    List.mem_cons]
  obtain rfl | hj := eq_or_ne j s.alloc.toNat
  · exact iff_of_true (.inl rfl) ⟨Nat.lt_succ_self _, not_or.2 ⟨hnode, not_or.2 ⟨ha.ne, hb.ne⟩⟩⟩
  · -- no node is in the collection twice, so what stays is what was there but for the two children
    simp only [List.mem_cons, List.nodup_cons, not_or] at hold hnd
    grind

/-- A merge keeps all of it (R154). -/
theorem MergeOf.merging : t.Merging ft where
  pq := h.pq
  full := h.full hs.full
  leaves i x hi := by
    obtain ⟨c, hc, hr⟩ := hs.leaves i x hi
    have hlt := (List.getElem?_eq_some_iff.1 hi).1
    exact ⟨c, hc, (h.read_of_lt (hlt.trans_le hs.enough)).trans hr⟩
  enough := h.alloc ▸ Nat.le_succ_of_le hs.enough
  merged i hk hi := by
    rw [h.alloc] at hi
    obtain hi | rfl := Nat.lt_succ_iff_lt_or_eq.1 hi
    · exact (hs.merged i hk hi).congr fun k hki => h.read_of_lt (hki.trans_lt hi)
    · exact h.mergedAt hs
  members := h.members_iff hs
  newest _ := by
    rw [h.after.mem_iff, h.alloc, Nat.add_sub_cancel]
    exact List.mem_cons_self
  weight := by
    rw [(h.freqs hs).sum_eq, ← hs.weight, h.freqs_before.sum_eq, List.sum_cons, List.sum_cons, List.sum_cons, Nat.add_assoc]

end

end Sys2Proof.Machine
end

section
/-! ## BUILD's end (R155)

What holds after BUILD's start and is kept by every merge holds when one node is left. -/

namespace Sys2Proof.Machine

/-! ### The stages of a run -/

/-- A run of BUILD from `s`, where `P` holds from its start to its end. -/
inductive BuildStage (P : State → Prop) (s : State) : State → Prop where
  | start : BuildStage P s s
  | merging {u : State} (hp : u.phase = .build) (hl : u.loop ≠ .start) (hu : P u) : BuildStage P s u
  | ended {u : State} {r : Nat} (hu : P u) (hr : u.members = [r]) : BuildStage P s (buildEnd r u)

section
variable {P : State → Prop} {s u v : State} (hp : s.phase = .build) (hl : s.loop = .start)
  (hstart : ∀ u, buildStart s = .next u → P u) (hmerge : ∀ u v, P u → buildMerge u = .next v → P v)
include hp hl hstart hmerge

/-- Every engine step leads to the same or the next stage. -/
theorem BuildStage.tick (h : BuildStage P s u) (hne : u.phase ≠ .idle) (htick : buildTick u = .next v) :
    BuildStage P s v := by
  cases h with
  | start =>
    have hv : buildStart s = .next v := by rw [← htick, buildTick, hl]
    obtain ⟨hpv, hlv⟩ : v.phase = .build ∧ v.loop ≠ .start := by obtain ⟨⟩ := buildStart_writes hv; exact ⟨hp, nofun⟩
    exact .merging hpv hlv (hstart v hv)
  | merging hpu hlu hu =>
    unfold buildTick at htick
    split at htick
    · contradiction
    · split at htick
      · cases htick
      · next r hr => cases htick; exact .ended hu hr
      · obtain ⟨-, hpv, hlv, -⟩ := buildMerge_alloc htick
        exact .merging (hpv.trans hpu) (hlv ▸ hlu) (hmerge u v hu htick)
  | ended hu hr => exact absurd rfl hne

/-- A run of BUILD that ends has come to its last stage. -/
theorem BuildStage.of_run (h : runBuild s = .next v) (hv : v.phase = .idle) :
    ∃ u r, P u ∧ u.members = [r] ∧ v = buildEnd r u := by
  have hstage : BuildStage P s v :=
    drive_keeps (fun _ _ => BuildStage.tick hp hl hstart hmerge) buildFuel s v .start h
  cases hstage with
  | start => cases hp.symm.trans hv
  | merging hpv => cases hpv.symm.trans hv
  | ended hu hr => exact ⟨_, _, hu, hr, rfl⟩

end

/-! ### The tree, and how it was made -/

/-- BUILD of `s` ends after the merges that led to `u`, whose one node `r` is the root of `tr`, a tree with all the leaves; but for
the working storage nothing else changes (R155). -/
structure BuildEnd (s u : State) (r : Nat) (tr : Tree) : Prop where
  merging : u.Merging s.ft
  members : u.members = [r]
  count : u.alloc.toNat + 1 = 2 * (tableSymbols s.ft).length
  tree : TreeWithin u.arena (BitVec.ofNat Config.idxW r) 0 u.alloc.toNat tr
  syms : tr.syms.Perm (tableSyms s.ft)
  exec : exec .build s = .next { s with
    loop := .start, arena := u.arena, pq := u.pq.write r false, root := BitVec.ofNat Config.idxW r, nnode := u.alloc
    alloc := u.alloc, treeV := true, cwtV := false, ftV := false }

section
variable {s : State} (hs : s.accepting) (hv : s.ftV = true) (hf : s.FrequencySound)
include hs hv hf

/-- BUILD of a sound table comes to its end, and what its start makes true and every merge keeps is true there. -/
theorem exec_build_keeps {P : State → Prop} (hstart : ∀ u, u.LeavesPlaced s.ft (tableSymbols s.ft) → P u)
    (hmerge : ∀ u v a b nda ndb rest, u.Merging s.ft → P u → MergeOf u a b nda ndb rest v → P v) :
    ∃ u r tr, BuildEnd s u r tr ∧ P u := by
  obtain ⟨arena, pq, root, nnode, alloc, tr, htr, hsyms, hcount, hexec⟩ := exec_build_makesTree hs hv hf
  have hrun := hexec
  rw [exec_build, accept_of_ready (p := .build) hs.2 hv, andThen_next] at hrun
  obtain ⟨u, r, ⟨hu, hPu⟩, hr, hend⟩ := BuildStage.of_run (P := fun u => u.Merging s.ft ∧ P u)
    (s := { s with phase := .build, loop := .start }) rfl rfl
    (fun u h => ⟨(buildStart_placed h rfl).merging, hstart u (buildStart_placed h rfl)⟩)
    (fun u v ⟨hu, hPu⟩ h => by
      obtain ⟨a, b, nda, ndb, rest, hm⟩ := buildMerge_mergeOf hu.pq (fun i hi => ((hu.members i).1 hi).1) h
      exact ⟨hm.merging hu, hmerge u v a b nda ndb rest hu hPu hm⟩) hrun rfl
  obtain rfl : arena = u.arena := congrArg State.arena hend
  obtain rfl : pq = u.pq.write r false := congrArg State.pq hend
  obtain rfl : root = BitVec.ofNat Config.idxW r := congrArg State.root hend
  obtain rfl : nnode = u.alloc := congrArg State.nnode hend
  obtain rfl : alloc = u.alloc := congrArg State.alloc hend
  rw [tableSyms, List.length_map] at hcount
  exact ⟨u, r, tr, ⟨hu, hr, hcount, htr, hsyms, by rw [hexec, ← hs.1]⟩, hPu⟩

theorem exec_build_end : ∃ u r tr, BuildEnd s u r tr := by
  obtain ⟨u, r, tr, h, -⟩ := exec_build_keeps (P := fun _ => True) hs hv hf (fun _ _ => trivial)
    fun _ _ _ _ _ _ _ _ _ _ => trivial
  exact ⟨u, r, tr, h⟩

end

section
variable {s u : State} {r : Nat} {tr : Tree} (h : BuildEnd s u r tr)
include h

/-- The node that is left is the last one made (R155). -/
theorem BuildEnd.root_eq : r = u.alloc.toNat - 1 := by
  have hnew := h.merging.newest h.tree.pos.2.ne_bot
  rw [h.members, List.mem_singleton] at hnew
  exact hnew.symm

theorem BuildEnd.root_toNat : (BitVec.ofNat Config.idxW r).toNat = r := by
  refine nodeIdx_toNat (State.members_lt h.merging.pq ?_)
  rw [h.members]
  exact List.mem_singleton_self r

/-- No node is in the collection at the end (R155). -/
theorem BuildEnd.read_pq {i : Nat} (hi : i < Config.nodeMax) : (u.pq.write r false).read i = some false := by
  rw [Memory.read_write]
  split
  · rfl
  · next hne =>
    obtain ⟨b, hb⟩ := Option.isSome_iff_exists.1 (h.merging.full i hi)
    have hnot : b ≠ true := by
      rintro rfl
      exact hne (List.mem_singleton.1 (h.members ▸ (State.mem_members h.merging.pq).2 hb))
    rw [hb, Bool.eq_false_of_not_eq_true hnot]

end

/-- Symbol 256 has the last entry of a sound table (R142, R151). -/
theorem tableSymbols_last {ft : Memory Freq} (h : ft.read Config.eofSym = some 1) :
    0 < (tableSymbols ft).length ∧ (tableSymbols ft)[(tableSymbols ft).length - 1]? = some Config.eofSym := by
  have hlast : tableSymbols ft =
      (List.range Config.eofSym).filter (fun a => (ft.read a).any fun f => f ≠ 0) ++ [Config.eofSym] := by
    rw [tableSymbols, show Config.nsym = Config.eofSym + 1 from rfl, List.range_succ, List.filter_append, List.filter_singleton,
      h]
    rfl
  rw [hlast, ← List.getLast?_eq_getElem?]
  simp

end Sys2Proof.Machine

namespace Sys2Proof.Proofs

open Sys2Proof.Machine

/-- Settles O23: the leaves are placed first, and no merge writes over them. -/
theorem buildPlacesTheLeavesInSymbolOrder : Obligations.BuildPlacesTheLeavesInSymbolOrder := by
  intro s hs hv hf
  obtain ⟨u, r, tr, h⟩ := exec_build_end hs hv hf
  have hleaf : ∀ i a f, (tableSymbols s.ft)[i]? = some a → s.ft.read a = some f →
      u.arena.read i = some (.leaf (BitVec.ofNat Config.symW a) (f.setWidth Config.nfreqW)) := by
    intro i a f hi ha
    obtain ⟨c, hc, hr⟩ := h.merging.leaves i a hi
    cases ha.symm.trans hc
    exact hr
  obtain ⟨hpos, hlast⟩ := tableSymbols_last (hf.eofOne hv)
  exact ⟨_, h.exec, hleaf, hpos, hleaf _ _ _ hlast (hf.eofOne hv)⟩

/-- Settles O24: every node from the leaves on was merged from the two that came first, and no later merge changes that. -/
theorem buildMergesTheTwoLeastNodes : Obligations.BuildMergesTheTwoLeastNodes := by
  intro s hs hv hf
  obtain ⟨u, r, tr, h⟩ := exec_build_end hs hv hf
  have hcount := h.count
  exact ⟨_, h.exec, fun i hk hi => h.merging.merged i hk (by omega)⟩

/-- Settles O25: the node that is left is the last one made, and its tree has all the leaves. -/
theorem buildMakesOneTreeOfTheTable : Obligations.BuildMakesOneTreeOfTheTable := by
  intro s hs hv hf
  obtain ⟨u, r, tr, h⟩ := exec_build_end hs hv hf
  have hcount := h.count
  refine ⟨_, tr, h.exec, h.tree, h.syms, ?_, ?_, fun i hi => h.read_pq hi, rfl⟩
  · show u.alloc.toNat = _
    omega
  · show (BitVec.ofNat Config.idxW r).toNat = _
    rw [h.root_toNat, h.root_eq]
    omega

end Sys2Proof.Proofs
end

section
/-! ## BUILD's tree is the cheapest (R158)

A tree pairs every weight with a depth, and its depths satisfy Kraft's equality. Of such pairings the cheapest ones may be
taken to have the two least weights at the greatest depth, which occurs twice; joining the two is a pairing for the weights
after a merge. So at every merge some pairing of the collection's weights, with what the merges have cost so far, costs no
more than any pairing of the table's weights. -/

namespace Sys2Proof.Machine

/-! ### Weights and depths -/

/-- The sum of weight times depth. -/
def pairingCost (l : List (Nat × Nat)) : Nat := (l.map fun p => p.1 * p.2).sum

theorem pairingCost_cons (p : Nat × Nat) (l : List (Nat × Nat)) : pairingCost (p :: l) = p.1 * p.2 + pairingCost l := by
  rw [pairingCost, List.map_cons, List.sum_cons, pairingCost]

theorem pairingCost_perm {l l' : List (Nat × Nat)} (h : l.Perm l') : pairingCost l = pairingCost l' :=
  (h.map fun p : Nat × Nat => p.1 * p.2).sum_eq

/-- Kraft's equality: depths up to `n` of a full binary tree. -/
structure Kraft (n : Nat) (ds : List Nat) : Prop where
  le : ∀ d ∈ ds, d ≤ n
  sum : (ds.map fun d => 2 ^ (n - d)).sum = 2 ^ n

theorem Kraft.perm {n : Nat} {ds ds' : List Nat} (h : Kraft n ds) (hp : ds.Perm ds') : Kraft n ds' :=
  ⟨fun d hd => h.le d (hp.mem_iff.2 hd), ((hp.map fun d => 2 ^ (n - d)).sum_eq).symm.trans h.sum⟩

/-- Two siblings give way to their parent. -/
theorem Kraft.join {n d : Nat} {ds : List Nat} (h : Kraft n ((d + 1) :: (d + 1) :: ds)) : Kraft n (d :: ds) := by
  have hd : d + 1 ≤ n := h.le (d + 1) (by simp)
  refine ⟨?_, ?_⟩
  · intro e he
    obtain rfl | he := List.mem_cons.1 he
    · omega
    · exact h.le e (by simp [he])
  · have hpow : 2 ^ (n - d) = 2 ^ (n - (d + 1)) + 2 ^ (n - (d + 1)) := by
      rw [← Nat.two_mul, ← Nat.pow_succ']
      congr 1
      omega
    have hsum := h.sum
    rw [List.map_cons, List.map_cons, List.sum_cons, List.sum_cons] at hsum
    rw [List.map_cons, List.sum_cons, hpow, ← hsum, Nat.add_assoc]

/-- The greatest depth `d` of several occurs twice: if all the others are less, their shares add up to a multiple of twice the
share of `d`, and so does the whole, but not the two together. -/
theorem Kraft.max_mem {n d : Nat} {es : List Nat} (h : Kraft n (d :: es)) (hne : es ≠ []) (hmax : ∀ e ∈ es, e ≤ d) :
    d ∈ es := by
  by_contra hnot
  have hlt : ∀ e ∈ es, e < d := fun e he => (hmax e he).lt_of_ne fun hed => hnot (hed ▸ he)
  obtain ⟨hle, hsum⟩ := h
  rw [List.map_cons, List.sum_cons] at hsum
  have hdn : d ≤ n := hle d List.mem_cons_self
  have hpos : 0 < d := (Nat.zero_le _).trans_lt (hlt _ (List.head_mem hne))
  have hothers : 2 ^ (n - d + 1) ∣ (es.map fun e => 2 ^ (n - e)).sum := by
    refine List.dvd_sum fun x hx => ?_
    obtain ⟨e, he, rfl⟩ := List.mem_map.1 hx
    have := hlt e he
    exact pow_dvd_pow 2 (by omega)
  have hwhole : 2 ^ (n - d + 1) ∣ 2 ^ n := pow_dvd_pow 2 (by omega)
  have hshare : 2 ^ (n - d + 1) ∣ 2 ^ (n - d) := (Nat.dvd_add_left hothers).1 (hsum ▸ hwhole)
  exact absurd ((Nat.pow_dvd_pow_iff_le_right one_lt_two).1 hshare) (Nat.not_succ_le_self _)

/-- No depth that occurs twice is that of the root. -/
theorem Kraft.pos_of_twice {n d : Nat} {es : List Nat} (h : Kraft n (d :: d :: es)) : 0 < d := by
  refine Nat.pos_of_ne_zero ?_
  rintro rfl
  have hsum := h.sum
  rw [List.map_cons, List.map_cons, List.sum_cons, List.sum_cons, Nat.sub_zero] at hsum
  have := Nat.two_pow_pos n
  omega

/-- The depths of a tree with two leaves or more are a greatest one, twice, and the others. -/
theorem Kraft.deepest {n : Nat} {ds : List Nat} (h : Kraft n ds) (hlen : 2 ≤ ds.length) :
    ∃ d es, ds.Perm ((d + 1) :: (d + 1) :: es) ∧ ∀ e ∈ es, e ≤ d + 1 := by
  obtain ⟨d, hd, hmax⟩ := ds.toFinset.exists_max_image id
    ((List.toFinset_nonempty_iff _).2 (List.ne_nil_of_length_pos (by omega)))
  simp only [List.mem_toFinset, id] at hd hmax
  have hperm := List.perm_cons_erase hd
  have hne : ds.erase d ≠ [] := by
    refine List.ne_nil_of_length_pos ?_
    rw [List.length_erase_of_mem hd]
    omega
  have hmem := (h.perm hperm).max_mem hne fun e he => hmax e (List.mem_of_mem_erase he)
  have hperm' := hperm.trans ((List.perm_cons_erase hmem).cons d)
  obtain ⟨d, rfl⟩ := Nat.exists_eq_add_of_le' (h.perm hperm').pos_of_twice
  exact ⟨d, _, hperm', fun e he => hmax e (List.mem_of_mem_erase (List.mem_of_mem_erase he))⟩

/-- The least weight may be moved to the greatest depth, at no cost. -/
theorem pairing_least_deepest {l : List (Nat × Nat)} {w d : Nat} {ws ds : List Nat} (hw : (l.map Prod.fst).Perm (w :: ws))
    (hd : (l.map Prod.snd).Perm (d :: ds)) (hleast : ∀ v ∈ ws, w ≤ v) (hdeep : ∀ e ∈ ds, e ≤ d) :
    ∃ l', (l'.map Prod.fst).Perm ws ∧ (l'.map Prod.snd).Perm ds ∧ w * d + pairingCost l' ≤ pairingCost l := by
  obtain ⟨⟨_, e⟩, hp, rfl⟩ := List.mem_map.1 (hw.mem_iff.2 List.mem_cons_self)
  have hl := List.perm_cons_erase hp
  have hws := ((hl.map Prod.fst).symm.trans hw).cons_inv
  have hds := (hl.map Prod.snd).symm.trans hd
  rw [pairingCost_perm hl, pairingCost_cons]
  generalize l.erase _ = l₁ at hws hds
  rw [List.map_cons] at hds
  obtain rfl | hne := eq_or_ne e d
  · exact ⟨l₁, hws, hds.cons_inv, le_rfl⟩
  obtain ⟨⟨v, _⟩, hq, rfl⟩ := List.mem_map.1 ((List.mem_cons.1 (hds.mem_iff.2 List.mem_cons_self)).resolve_left hne.symm)
  have hl₁ := List.perm_cons_erase hq
  have hwv := hleast v (hws.mem_iff.1 (List.mem_map_of_mem hq))
  have hed := hdeep e ((List.mem_cons.1 (hds.mem_iff.1 List.mem_cons_self)).resolve_left hne)
  rw [pairingCost_perm hl₁, pairingCost_cons]
  generalize l₁.erase _ = l₂ at hl₁
  refine ⟨(v, e) :: l₂, (hl₁.map Prod.fst).symm.trans hws, ?_, ?_⟩
  · exact ((List.Perm.swap _ _ _).trans (((hl₁.map Prod.snd).symm.cons e).trans hds)).cons_inv
  · rw [pairingCost_cons, ← Nat.add_assoc, ← Nat.add_assoc]
    exact Nat.add_le_add_right (mul_add_mul_le_mul_add_mul hwv hed) _

/-- The two least weights are joined: a pairing for the weights after a merge, cheaper by the weight of the new node. -/
theorem pairing_join {n a b : Nat} {l : List (Nat × Nat)} {ws : List Nat} (hk : Kraft n (l.map Prod.snd))
    (hw : (l.map Prod.fst).Perm (a :: b :: ws)) (hab : a ≤ b) (hleast : ∀ v ∈ ws, b ≤ v) :
    ∃ l', Kraft n (l'.map Prod.snd) ∧ (l'.map Prod.fst).Perm ((a + b) :: ws) ∧
      pairingCost l' + (a + b) ≤ pairingCost l := by
  have hlen : 2 ≤ (l.map Prod.snd).length := by
    rw [List.length_map, ← List.length_map (f := Prod.fst), hw.length_eq]
    simp
  obtain ⟨d, ds, hd, hdeep⟩ := hk.deepest hlen
  have hleast' : ∀ v ∈ b :: ws, a ≤ v := by
    intro v hv
    obtain rfl | hv := List.mem_cons.1 hv
    · exact hab
    · exact hab.trans (hleast v hv)
  have hdeep' : ∀ e ∈ (d + 1) :: ds, e ≤ d + 1 := by
    intro e he
    obtain rfl | he := List.mem_cons.1 he
    · exact le_rfl
    · exact hdeep e he
  obtain ⟨l₁, hw₁, hd₁, hc₁⟩ := pairing_least_deepest hw hd hleast' hdeep'
  obtain ⟨l₂, hw₂, hd₂, hc₂⟩ := pairing_least_deepest hw₁ hd₁ hleast hdeep
  refine ⟨(a + b, d) :: l₂, ?_, hw₂.cons _, ?_⟩
  · exact (hk.perm hd).join.perm (hd₂.cons d).symm
  · rw [pairingCost_cons]
    linarith [hc₁, hc₂]

/-! ### Trees -/

/-- The pairing of a tree: the count of every leaf's symbol, and the leaf's depth (R158). -/
def Tree.pairing (ft : Memory Freq) (t : Tree) : List (Nat × Nat) := t.paths.map fun p => (countOf ft p.1, p.2.length)

theorem Tree.pairing_cost (ft : Memory Freq) (t : Tree) : pairingCost (t.pairing ft) = t.cost ft := by
  simp [pairingCost, Tree.pairing, Tree.cost, Function.comp_def]

theorem Tree.pairing_weights (ft : Memory Freq) (t : Tree) : (t.pairing ft).map Prod.fst = t.syms.map (countOf ft) := by
  simp [Tree.pairing, Tree.syms, Function.comp_def]

/-- The depths of the leaves, in pre-order. -/
def Tree.depths (t : Tree) : List Nat := t.paths.map fun p => p.2.length

theorem Tree.pairing_depths (ft : Memory Freq) (t : Tree) : (t.pairing ft).map Prod.snd = t.depths := by
  simp [Tree.pairing, Tree.depths, Function.comp_def]

theorem Tree.depths_node (l r : Tree) : (Tree.node l r).depths = (l.depths ++ r.depths).map (· + 1) := by
  simp [Tree.depths, Tree.paths, Function.comp_def]

/-- The depths of a tree satisfy Kraft's equality. -/
theorem Tree.kraft (t : Tree) : ∀ {n : Nat}, t.size ≤ n → Kraft n t.depths := by
  induction t with
  | leaf x =>
    intro n _
    exact ⟨by simp [Tree.depths, Tree.paths], by simp [Tree.depths, Tree.paths]⟩
  | node l r hl hr =>
    intro n hn
    rw [Tree.size] at hn
    obtain ⟨n, rfl⟩ := Nat.exists_eq_add_of_le' (show 1 ≤ n by omega)
    obtain ⟨hlle, hlsum⟩ := hl (show l.size ≤ n by omega)
    obtain ⟨hrle, hrsum⟩ := hr (show r.size ≤ n by omega)
    rw [Tree.depths_node]
    refine ⟨fun d hd => ?_, ?_⟩
    · obtain ⟨e, he, rfl⟩ := List.mem_map.1 hd
      exact Nat.succ_le_succ ((List.mem_append.1 he).elim (hlle e) (hrle e))
    · rw [List.map_map, List.map_append, List.sum_append]
      simp only [Function.comp_def, Nat.add_sub_add_right, hlsum, hrsum]
      rw [pow_succ, Nat.mul_two]

/-- The weight of a tree: the counts of its leaves together. -/
def Tree.weight (ft : Memory Freq) (t : Tree) : Nat := (t.syms.map (countOf ft)).sum

/-- A node costs what its subtrees cost and, its leaves being one deeper, its weight. -/
theorem Tree.cost_node (ft : Memory Freq) (l r : Tree) :
    (Tree.node l r).cost ft = l.cost ft + r.cost ft + (l.weight ft + r.weight ft) := by
  simp only [Tree.cost, Tree.weight, Tree.syms, Tree.paths, List.map_append, List.sum_append, List.map_map, Function.comp_def,
    List.length_cons, Nat.mul_succ, List.sum_map_add]
  omega

end Sys2Proof.Machine
end

section
/-! ## BUILD's merges cost no more than any tree (R158) -/

namespace Sys2Proof.Machine

/-! ### What the merges have cost -/

/-- The frequency of an internal node; a leaf has been merged from nothing. -/
def mergeFreq (m : Memory Node) (i : Nat) : Nat :=
  match m.read i with
  | some (.internal _ _ f) => f.toNat
  | _ => 0

theorem mergeFreq_leaf {m : Memory Node} {i : Nat} {x : Sym} {f : NodeFreq} (h : m.read i = some (.leaf x f)) :
    mergeFreq m i = 0 := by rw [mergeFreq, h]

theorem mergeFreq_internal {m : Memory Node} {i : Nat} {a b : NodeIdx} {f : NodeFreq}
    (h : m.read i = some (.internal a b f)) : mergeFreq m i = f.toNat := by rw [mergeFreq, h]

/-- The cost of the merges below record `n`: the frequencies of the nodes they made. -/
def mergeCost (m : Memory Node) (n : Nat) : Nat := ((List.range n).map (mergeFreq m)).sum

theorem mergeCost_succ (m : Memory Node) (n : Nat) : mergeCost m (n + 1) = mergeCost m n + mergeFreq m n := by
  rw [mergeCost, List.range_succ, List.map_append, List.sum_append, List.map_singleton, List.sum_singleton, mergeCost]

theorem mergeCost_congr {m m' : Memory Node} {n : Nat} (h : ∀ i < n, m'.read i = m.read i) :
    mergeCost m' n = mergeCost m n := by
  unfold mergeCost
  refine congrArg List.sum (List.map_congr_left fun i hi => ?_)
  rw [mergeFreq, h i (List.mem_range.1 hi), mergeFreq]

/-- Records without a repetition below `n` have cost no more than all below `n`. -/
theorem sum_mergeFreq_le {m : Memory Node} {n : Nat} {l : List Nat} (hnd : l.Nodup) (hlt : ∀ i ∈ l, i < n) :
    (l.map (mergeFreq m)).sum ≤ mergeCost m n := by
  obtain ⟨l', hperm, hsub⟩ := List.subperm_of_subset hnd fun i hi => List.mem_range.2 (hlt i hi)
  rw [← (hperm.map (mergeFreq m)).sum_eq]
  exact (hsub.map _).sum_le_sum fun _ _ => Nat.zero_le _

/-! ### The bound -/

/-- Whatever a pairing of the table's weights costs, some pairing of the collection's weights costs no more, with what the
merges have cost added. -/
def State.Cheapest (ft : Memory Freq) (s : State) : Prop :=
  ∀ n l, Kraft n (l.map Prod.snd) → (l.map Prod.fst).Perm (tableWeights ft) →
    ∃ l', Kraft n (l'.map Prod.snd) ∧ (l'.map Prod.fst).Perm (s.members.map (freqAt s.arena)) ∧
      pairingCost l' + mergeCost s.arena s.alloc.toNat ≤ pairingCost l

/-- The leaves are the table's weights, and nothing has been merged. -/
theorem State.LeavesPlaced.cheapest {ft : Memory Freq} {s : State} (hs : s.LeavesPlaced ft (tableSymbols ft)) :
    s.Cheapest ft := by
  intro n l hk hw
  have hzero : mergeCost s.arena s.alloc.toNat = 0 := by
    refine List.sum_eq_zero fun x hx => ?_
    obtain ⟨i, hi, rfl⟩ := List.mem_map.1 hx
    obtain ⟨c, -, hr⟩ := hs.leaves i _ (List.getElem?_eq_getElem (hs.count ▸ List.mem_range.1 hi))
    exact mergeFreq_leaf hr
  exact ⟨l, hk, hw.trans hs.weights.symm, by rw [hzero, Nat.add_zero]⟩

theorem extractedBefore.freqAt_le {m : Memory Node} {i j : Nat} (h : extractedBefore m i j) : freqAt m i ≤ freqAt m j := by
  obtain ⟨a, b, hi, hj, hab⟩ := h
  rw [freqAt_of_read hi, freqAt_of_read hj]
  bv_omega

/-- A merge joins the two least weights. -/
theorem MergeOf.cheapest {ft : Memory Freq} {s t : State} {a b : Nat} {nda ndb : Node} {rest : List Nat}
    (hs : s.Merging ft) (hc : s.Cheapest ft) (h : MergeOf s a b nda ndb rest t) : t.Cheapest ft := by
  intro n l hk hw
  obtain ⟨l₁, hk₁, hw₁, hc₁⟩ := hc n l hk hw
  have hab : nda.freq.toNat ≤ ndb.freq.toNat := by
    rw [← freqAt_of_read h.left, ← freqAt_of_read h.right]
    exact h.first.freqAt_le
  have hleast : ∀ v ∈ rest.map (freqAt s.arena), ndb.freq.toNat ≤ v := by
    intro v hv
    obtain ⟨j, hj, rfl⟩ := List.mem_map.1 hv
    rw [← freqAt_of_read h.right]
    exact (h.least j hj).freqAt_le
  obtain ⟨l₂, hk₂, hw₂, hc₂⟩ := pairing_join hk₁ (hw₁.trans h.freqs_before) hab hleast
  refine ⟨l₂, hk₂, hw₂.trans (h.freqs hs).symm, ?_⟩
  rw [h.alloc, mergeCost_succ, mergeCost_congr fun i hi => h.read_of_lt hi, mergeFreq_internal h.read_new, h.freq_toNat hs]
  omega

/-! ### The cost of the tree -/

section
variable {ft : Memory Freq} {s : State} (hs : s.Merging ft)
include hs

/-- A leaf's frequency is the count of its symbol. -/
theorem State.Merging.leaf_freq {i : Nat} {x : Sym} {f : NodeFreq} (hi : i < s.alloc.toNat)
    (hr : s.arena.read i = some (.leaf x f)) : f.toNat = countOf ft x := by
  obtain ⟨a, ha, c, hc, hr'⟩ | ⟨_, _, _, _, _, hr', _⟩ := hs.record_cases hi
  · cases hr.symm.trans hr'
    rw [countOf_of_read (List.mem_range.1 (List.mem_filter.1 ha).1) hc]
    exact BitVec.toNat_setWidth_of_le (by decide)
  · cases hr.symm.trans hr'

/-- An internal node's frequency is the sum of its children's. -/
theorem State.Merging.internal_freq {i : Nat} {a b : NodeIdx} {f : NodeFreq} (hi : i < s.alloc.toNat)
    (hr : s.arena.read i = some (.internal a b f)) :
    f.toNat = freqAt s.arena a.toNat + freqAt s.arena b.toNat := by
  obtain ⟨_, _, _, _, hr'⟩ | ⟨_, _, _, nda, ndb, hr', ha, hb, _, _, hf, _⟩ := hs.record_cases hi
  · cases hr.symm.trans hr'
  · cases hr.symm.trans hr'
    rw [freqAt_of_read ha, freqAt_of_read hb, hf]

/-- A tree on the records made so far weighs what its root's frequency says, and costs what its merges have cost. -/
theorem State.Merging.tree_cost {tr : Tree} : ∀ {i : NodeIdx}, tr.isAt s.arena i = true →
    (∀ j ∈ tr.indices s.arena i, j < s.alloc.toNat) →
    tr.weight ft = freqAt s.arena i.toNat ∧ tr.cost ft = ((tr.indices s.arena i).map (mergeFreq s.arena)).sum := by
  induction tr with
  | leaf x =>
    intro i hat hlt
    obtain ⟨f, hr⟩ := Tree.isAt_leaf.1 hat
    have hf := hs.leaf_freq (hlt _ (Tree.self_mem_indices _ _ _)) hr
    refine ⟨by simp [Tree.weight, freqAt_of_read hr, Node.freq, hf], ?_⟩
    simp [Tree.cost, Tree.paths, Tree.indices, mergeFreq_leaf hr]
  | node l r ihl ihr =>
    intro i hat hlt
    obtain ⟨a, b, f, hr, hl, hrr⟩ := Tree.isAt_node.1 hat
    have hf := hs.internal_freq (hlt _ (Tree.self_mem_indices _ _ _)) hr
    rw [Tree.indices_node hr] at hlt ⊢
    obtain ⟨hwl, hcl⟩ := ihl hl fun j hj => hlt j (by simp [hj])
    obtain ⟨hwr, hcr⟩ := ihr hrr fun j hj => hlt j (by simp [hj])
    refine ⟨?_, ?_⟩
    · rw [freqAt_of_read hr, show (Node.internal a b f).freq = f from rfl, hf, ← hwl, ← hwr]
      simp [Tree.weight]
    · rw [Tree.cost_node, hcl, hcr, hwl, hwr, ← hf, List.map_cons, List.sum_cons, mergeFreq_internal hr, List.map_append,
        List.sum_append, Nat.add_comm]

/-- A tree on records of its own costs no more than all the merges. -/
theorem State.Merging.cost_le {tr : Tree} {i : NodeIdx} (h : TreeWithin s.arena i 0 s.alloc.toNat tr) :
    tr.cost ft ≤ mergeCost s.arena s.alloc.toNat := by
  obtain ⟨hat, hnd, hlt⟩ := h
  rw [(hs.tree_cost hat fun j hj => (hlt j hj).2).2]
  exact sum_mergeFreq_le hnd fun j hj => (hlt j hj).2

end

/-- The merges have cost no more than any tree with the table's symbols at its leaves (R158). -/
theorem State.Cheapest.le_cost {ft : Memory Freq} {s : State} (hc : s.Cheapest ft) {u : Tree}
    (hu : u.syms.Perm (tableSyms ft)) : mergeCost s.arena s.alloc.toNat ≤ u.cost ft := by
  obtain ⟨l', -, -, hle⟩ := hc _ (u.pairing ft) (by rw [Tree.pairing_depths]; exact u.kraft le_rfl)
    (by rw [Tree.pairing_weights]; exact hu.map _)
  rw [Tree.pairing_cost] at hle
  exact (Nat.le_add_left _ _).trans hle

end Sys2Proof.Machine

namespace Sys2Proof.Proofs

open Sys2Proof.Machine

/-- Settles O26: the tree costs what the merges have cost, and they cost no more than any tree with the same leaves. -/
theorem buildMinimisesTheWeightedPathLength : Obligations.BuildMinimisesTheWeightedPathLength := by
  intro s hs hv hf
  obtain ⟨u, r, tr, h, hcheap⟩ := exec_build_keeps hs hv hf (fun _ h => h.cheapest) fun _ _ _ _ _ _ _ => MergeOf.cheapest
  have hsize : tr.size ≤ 513 := by
    have hle : tr.size ≤ u.alloc.toNat := h.tree.size_le
    have hcount := h.count
    have hk : (tableSymbols s.ft).length ≤ 257 := (List.length_filter_le _ _).trans_eq List.length_range
    omega
  exact ⟨_, tr, h.exec, ⟨h.tree.1, hsize⟩, fun v hsyms =>
    (h.merging.cost_le h.tree).trans (hcheap.le_cost (hsyms.trans h.syms))⟩

end Sys2Proof.Proofs
end

section
/-! ## SER and DESER as the statements have them, and the two records of a serialized tree (R111, R112, R171, R175, R180) -/

namespace Sys2Proof.Machine

/-! ### The records where no DESER stands at a node boundary -/

/-- DESER stands at a node boundary when it runs and a tag comes next (R175). -/
theorem State.atNode_iff {s : State} : s.atNode = true ↔ s.phase = .deser ∧ s.loop = .top := by
  simp [State.atNode]

theorem exec_treeInternal_elsewhere {s : State} (h : s.phase ≠ .deser ∨ s.loop ≠ .top) :
    exec .treeInternal s = .refused .recordOutsideDeser :=
  if_neg fun hn => (State.atNode_iff.1 hn).elim fun hp hl => h.elim (· hp) (· hl)

theorem exec_treeLeaf_elsewhere {s : State} (x : Sym) (h : s.phase ≠ .deser ∨ s.loop ≠ .top) :
    exec (.treeLeaf x) s = .refused .recordOutsideDeser :=
  if_neg fun hn => (State.atNode_iff.1 hn).elim fun hp hl => h.elim (· hp) (· hl)

/-! ### The records at a node boundary -/

/-- A leaf record stored in the next free record (R175, R178). -/
def State.storeLeaf (s : State) (x : Sym) : State :=
  { s with arena := s.arena.write s.alloc.toNat (.leaf x 0), alloc := s.alloc + 1 }

section
variable {s : State} (hp : s.phase = .deser) (hl : s.loop = .top) (ha : s.alloc.toNat < Config.nodeMax)
include hp hl

theorem exec_treeInternal_atNode : exec .treeInternal s = deserInternalTag s := if_pos (State.atNode_iff.2 ⟨hp, hl⟩)

theorem exec_treeLeaf_atNode (x : Sym) : exec (.treeLeaf x) s = andThen (deserLeafTag s) fun t =>
    match t.loop with
    | .symbol i => deserSymbol i x t
    | _ => .next t :=
  (if_pos (State.atNode_iff.2 ⟨hp, hl⟩)).trans rfl

include ha

/-- A leaf record is stored in the next free record, and the subtree of that record is complete (R175). -/
theorem exec_treeLeaf_stores (x : Sym) : exec (.treeLeaf x) s = deserReturn (s.storeLeaf x) s.alloc s.stack := by
  rw [exec_treeLeaf_atNode hp hl, deserLeafTag, deserAlloc_of_lt ha, andThen_next]
  dsimp only
  rw [deserSymbol, writeRecord_of_lt _ ha, andThen_next]
  exact deserReturn_congr (.symbol s.alloc) s.stack s.stack (s.storeLeaf x) s.alloc

end

/-! ### What a complete subtree leaves in the arena -/

/-- The records from the complete subtree on stay as they are: the nodes above it stand before it (R175). -/
theorem deserReturn_read {st : List Frame} : ∀ {s t : State} {c : NodeIdx} {hi j : Nat}, deserReturn s c st = .next t →
    DeserStack s.arena hi st → hi ≤ j → t.arena.read j = s.arena.read j := by
  induction st with
  | nil => intro s t c hi j h _ _; cases h; rfl
  | cons f rest ih =>
    intro s t c hi j h hst hj
    obtain ⟨i, v⟩ := f
    cases v with
    | enter => exact hst.elim
    | left => cases h; rfl
    | right =>
      obtain ⟨hic, -, hrest⟩ := hst
      obtain ⟨u, hu, h⟩ := andThen_eq_next.1 h
      obtain ⟨-, rfl⟩ := writeRecord_eq_next.1 hu
      have hread := ih h (hrest.write _ le_rfl) (show i.toNat ≤ j by omega)
      rw [hread]
      exact Memory.read_write_of_ne _ _ (by omega)

/-- The node whose right subtree is complete is written (R175). -/
theorem deserReturn_read_node {s t : State} {i c : NodeIdx} {rest : List Frame} {hi : Nat}
    (h : deserReturn s c (⟨i, .right⟩ :: rest) = .next t) (hst : DeserStack s.arena hi (⟨i, .right⟩ :: rest)) :
    t.arena.read i.toNat = some (.internal (i + 1) c 0) := by
  obtain ⟨-, -, hrest⟩ := hst
  obtain ⟨u, hu, h⟩ := andThen_eq_next.1 h
  obtain ⟨-, rfl⟩ := writeRecord_eq_next.1 hu
  rw [deserReturn_read h (hrest.write _ le_rfl) le_rfl]
  exact Memory.read_write_self _ _ _

/-- A stored leaf is a complete subtree: DESER returns to the nodes above it, its working storage sound (R175). -/
theorem deserReturn_storeLeaf {s : State} (x : Sym) (ha : s.alloc.toNat < Config.nodeMax)
    (hst : DeserStack s.arena s.alloc.toNat s.stack) :
    ∃ t, deserReturn (s.storeLeaf x) s.alloc s.stack = .next t ∧ DeserDone (s.storeLeaf x) t := by
  have hone : (s.alloc + 1).toNat = s.alloc.toNat + 1 := cnt_succ_toNat ha
  have hleaf : TreeWithin (s.storeLeaf x).arena s.alloc s.alloc.toNat (s.storeLeaf x).alloc.toNat (.leaf x) :=
    hone ▸ TreeWithin.leaf (Memory.read_write_self _ _ _)
  exact deserReturn_sound ⟨_, hleaf⟩ (hone.trans_le ha) (hst.write _ le_rfl)

/-- While records are allocated, the stack of a DESER that goes on is not empty (R175). -/
theorem DeserStack.ne_nil {m : Memory Node} {hi : Nat} {st : List Frame} (h : DeserStack m hi st) (hpos : 0 < hi) :
    st ≠ [] := by
  rintro rfl
  exact hpos.ne' h

end Sys2Proof.Machine

namespace Sys2Proof.Proofs

open Sys2Proof.Machine

/-- Settles O29, by what DESER reads back from every serialized tree. -/
theorem deserReadsBackTheSerializedTree : Obligations.DeserReadsBackTheSerializedTree := by
  intro s tr rest e hs hin hsize
  obtain ⟨arena, alloc, htree, h⟩ := exec_deser_readsBack hs hin hsize
  exact ⟨_, h, htree, by rw [hs.1]⟩

/-- Settles O27, by the walk of SER on a sink that takes every transaction. -/
theorem serAppendsTheSerializedTree : Obligations.SerAppendsTheSerializedTree := by
  intro s tr hs hv htr htakes
  obtain ⟨stack, h⟩ := exec_ser_appends hs hv htr htakes
  exact ⟨_, h, by rw [hs.1]⟩

/-- Settles O34: the leaf is stored and its subtree is complete; what follows is DESER's return to the nodes above it. -/
theorem leafRecordIsStoredAsRead : Obligations.LeafRecordIsStoredAsRead := by
  refine ⟨fun s x hp hl ha => ?_, fun s x h => exec_treeLeaf_elsewhere x h⟩
  have hexec := exec_treeLeaf_stores hp hl ha x
  refine ⟨fun hst => ?_, fun i rest hst => ?_, fun hst => ?_⟩
  · rw [hexec, hst, deserReturn]
    obtain ⟨⟩ := s
    cases hst
    rfl
  · rw [hexec, hst]
    rfl
  · have hstored : DeserStack (s.storeLeaf x).arena s.alloc.toNat s.stack := hst.write _ le_rfl
    obtain ⟨t, ht, hdone⟩ := deserReturn_storeLeaf x ha hst
    refine ⟨t, hexec.trans ht, ?_, fun i rest hright => ?_, ?_, ?_⟩
    · rw [deserReturn_read ht hstored le_rfl]
      exact Memory.read_write_self _ _ _
    · rw [hright] at ht hstored
      exact deserReturn_read_node ht hstored
    · cases hdone with
      | goOn h =>
        have hpos : 0 < (s.storeLeaf x).alloc.toNat := (Nat.succ_pos _).trans_eq (cnt_succ_toNat ha).symm
        exact (if_neg (h.ne_nil hpos)).mpr ⟨hp, rfl, rfl, h⟩
      | finish h => exact (if_pos rfl).mpr ⟨rfl, rfl, h⟩
    · cases hdone <;> rfl

/-- Settles O33: the tag takes the free record and puts it on the stack. -/
theorem internalTagOpensANode : Obligations.InternalTagOpensANode := by
  refine ⟨fun s hp hl ha => ?_, fun s h => exec_treeInternal_elsewhere h⟩
  rw [exec_treeInternal_atNode hp hl, deserInternalTag, deserAlloc_of_lt ha]

end Sys2Proof.Proofs
end

section
/-! ## DESER whose bit source ends too early, or whose arena is full (R175 to R177, R243) -/

namespace Sys2Proof.Machine

/-! ### A tag or a symbol that the source does not have (R64, R68, R176) -/

/-- `End` is the answer to a tag exactly where no bit is left (R64). -/
theorem bitIn_ended_iff {s : State} : (bitIn s).1 = .ended ↔ s.bitin.ending = .endOfData ∧ s.bitin.data = [] := by
  unfold bitIn
  obtain ⟨data, e⟩ := s.bitin
  cases data with
  | cons b bs => simp
  | nil => cases e <;> simp [SourceEnd.answer]

/-- `End` is the answer to a field exactly where fewer bits are left than it has (R64, R68). -/
theorem bitsIn_ended_iff {n : Nat} {s : State} :
    (bitsIn n s).1 = .ended ↔ s.bitin.ending = .endOfData ∧ s.bitin.data.length < n := by
  unfold bitsIn
  obtain ⟨data, e⟩ := s.bitin
  by_cases h : n ≤ data.length
  · simp [Source.supply_of_le Config.endlessBit (src := ⟨data, e⟩) h, h]
  · have hlt : data.length < n := Nat.lt_of_not_le h
    cases e with
    | endless k => simp [Source.supply_endless_length Config.endlessBit n k data]
    | endOfData | failure | silent => simp [h, hlt, SourceEnd.answer]

theorem raise_err_of_noFault {s : State} (e : Err) (h : s.err = 0#8) : (raise e s).err = e.code := if_pos h

/-- A record that is taken, or the overflow in its place, is no FormatError (R177). -/
theorem deserAlloc_err {s t : State} {k : NodeIdx → State → Result} (he : s.err = 0#8)
    (hk : ∀ {i u t}, k i u = .next t → t.err = u.err) (h : deserAlloc s k = .next t) : t.err ≠ 3#8 := by
  obtain ⟨-, h⟩ | rfl := deserAlloc_cases h
  · rw [hk h, he]
    decide
  · rw [raise_err_of_noFault _ he]
    decide

theorem deserSymbol_err {s t : State} {i : NodeIdx} {x : Sym} (h : deserSymbol i x s = .next t) : t.err = s.err := by
  cases deserSymbol_writes h <;> rfl

section
variable {s : State} (he : s.err = 0#8)
include he

/-- At a node boundary FormatError is raised exactly where the tag's answer is `End` (R176). -/
theorem deserTick_formatError_tag (hl : s.loop ≠ .start) (hl' : ∀ i, s.loop ≠ .symbol i) :
    (∃ t, deserTick s = .next t ∧ t.err = 3#8) ↔ (bitIn s).1 = .ended := by
  have herr : (bitIn s).2.err = 0#8 := he
  unfold deserTick
  split
  · next h => exact absurd h hl
  · next i h => exact absurd h (hl' i)
  · generalize bitIn s = r at herr
    obtain ⟨a, u⟩ := r
    cases a with
    | got b =>
      refine iff_of_false ?_ nofun
      rintro ⟨t, ht, h3⟩
      cases b with
      | false => exact deserAlloc_err herr (fun h => by cases h; rfl) ht h3
      | true => exact deserAlloc_err herr (fun h => by cases h; rfl) ht h3
    | ended | failed => simp [raise_err_of_noFault _ herr, Err.code]
    | waiting => simp [he]

/-- At the symbol of a leaf it is raised exactly where the symbol's answer is `End` (R176). -/
theorem deserTick_formatError_symbol {i : NodeIdx} (hl : s.loop = .symbol i) :
    (∃ t, deserTick s = .next t ∧ t.err = 3#8) ↔ (bitsIn Config.symW s).1 = .ended := by
  have herr : (bitsIn Config.symW s).2.err = 0#8 := by
    obtain ⟨src, d, hb, -⟩ := bitsIn_snd Config.symW s
    rw [hb]
    exact he
  simp only [deserTick, hl]
  generalize bitsIn Config.symW s = r at herr
  obtain ⟨a, u⟩ := r
  cases a with
  | got v =>
    refine iff_of_false ?_ nofun
    rintro ⟨t, ht, h3⟩
    cases herr.symm.trans ((deserSymbol_err ht).symm.trans h3)
  | ended | failed => simp [raise_err_of_noFault _ herr, Err.code]
  | waiting => simp [he]

end

/-! ### Engine steps at a node boundary, and the whole run -/

/-- DESER past its first engine step (R175). -/
def State.deserStarted (s : State) : State := deserStart { s with phase := .deser, loop := .start }

/-- What a started DESER reaches in engine steps enough is what its execution gives. -/
theorem exec_deser_of_reaches {s t : State} {n : Nat} (hs : s.accepting) (h : Reaches deserTick n s.deserStarted t)
    (ht : t.phase = .idle) (hn : 1 + n ≤ deserFuel) : exec .deser s = .next t := by
  have hstart : Reaches deserTick 1 { s with phase := .deser, loop := .start } s.deserStarted := .step (by simp) rfl
  rw [exec_deser, accept_of_ready (p := .deser) hs.2 rfl, andThen_next]
  exact (hstart.trans h).drive ht hn

/-- The tag of an internal node takes a free record (R175). -/
theorem deserTick_opensNode {s : State} {bs : Bits} {e : SourceEnd} (hl : s.loop = .top) (hin : s.bitin = ⟨true :: bs, e⟩)
    (ha : s.alloc.toNat < Config.nodeMax) : deserTick s = .next (s.readingLeft ⟨bs, e⟩) := by
  rw [deserTick_internalTag hl hin, deserInternalTag, deserAlloc_of_lt (by exact ha)]
  rfl

/-! ### A source that ends inside a tree -/

/-- A beginning of two parts, one after another, ends inside the left part or holds it whole. -/
theorem ends_in_left_or_right {bits missing l r : Bits} (h : bits ++ missing = l ++ r) :
    (∃ more, more ≠ [] ∧ bits ++ more = l) ∨ ∃ cs, bits = l ++ cs ∧ cs ++ missing = r := by
  obtain ⟨more, rfl, hr⟩ | ⟨cs, hbits, rfl⟩ := List.append_eq_append_iff.1 h
  · by_cases hmore : more = []
    · subst hmore
      exact .inr ⟨[], by simp, hr⟩
    · exact .inl ⟨more, hmore, rfl⟩
  · exact .inr ⟨cs, hbits, rfl⟩

/-- The fault DESER raises when its source answers `End` or `Err` (R176, R243). -/
def SourceEnd.treeErr : SourceEnd → Err
  | .endOfData => .formatError
  | _ => .ioError portBitSource

/-- DESER ends with the fault `err`: the arena and the working storage are its own, the source has moved forward. -/
inductive DeserStops (err : Err) (s : State) : State → Prop where
  | mk (arena : Memory Node) (alloc : NodeCnt) (stack : List Frame) (src : Source Bool) (draws : Nat)
      (h : src.data <:+ s.bitin.data) :
    DeserStops err s (raise err { s with arena := arena, alloc := alloc, stack := stack, bitin := src, draws := draws })

/-- What DESER reads before it stops changes only what is its own. -/
theorem DeserStops.after {err : Err} {s t : State} {arena : Memory Node} {alloc : NodeCnt} {stack : List Frame}
    {loop : LoopPos} {src : Source Bool} (hsrc : src.data <:+ s.bitin.data)
    (h : DeserStops err { s with arena := arena, alloc := alloc, stack := stack, loop := loop, bitin := src } t) :
    DeserStops err s t := by
  obtain ⟨arena', alloc', stack', src', draws, h'⟩ := h
  exact .mk arena' alloc' stack' src' draws (h'.trans hsrc)

/-- A DESER that stops with no fault recorded before records its own and changes nothing else that is not its own. -/
theorem DeserStops.eq {err : Err} {s t : State} (h : DeserStops err s t) (he : s.err = 0#8) :
    t = { s with
      arena := t.arena, bitin := t.bitin, alloc := t.alloc, stack := t.stack, draws := t.draws
      phase := .idle, loop := t.loop, err := err.code, errinfo := err.info } ∧ t.bitin.data <:+ s.bitin.data := by
  obtain ⟨arena, alloc, stack, src, draws, h⟩ := h
  exact ⟨raise_of_noFault _ _ he, h⟩

section
variable {e : SourceEnd} (he : e.ends)
include he

/-- The tag that is not there (R176, R243). -/
theorem deserTick_noTag {s : State} (hl : s.loop = .top) (hin : s.bitin = ⟨[], e⟩) :
    deserTick s = .next (raise e.treeErr s) := by
  obtain ⟨⟩ := s
  cases hl
  cases hin
  obtain rfl | rfl := he <;> rfl

/-- The symbol that is not there in full (R176, R243). -/
theorem deserTick_shortSymbol {s : State} {i : NodeIdx} {data : Bits} (hl : s.loop = .symbol i)
    (hin : s.bitin = ⟨data, e⟩) (hd : data.length < Config.symW) :
    ∃ t, deserTick s = .next t ∧ DeserStops e.treeErr s t := by
  have hdrop : data.drop (endReadLoss s) <:+ s.bitin.data := by
    rw [hin]
    exact List.drop_suffix _ _
  refine ⟨_, ?_, .mk s.arena s.alloc s.stack ⟨data.drop (endReadLoss s), e⟩ (s.draws + 1) hdrop⟩
  obtain rfl | rfl := he <;> simp only [deserTick, hl, bitsIn, hin, Source.supply_endOfData, Source.supply_failure,
    if_neg (Nat.not_le.2 hd), SourceEnd.answer] <;> rfl

/-- The serialized leaf of which bits are missing (R176, R243). -/
theorem deser_stopsInLeaf {s : State} {x : Sym} {data missing : Bits} (hp : s.phase = .deser) (hl : s.loop = .top)
    (hin : s.bitin = ⟨data, e⟩) (hser : data ++ missing = (Tree.leaf x).ser) (hm : missing ≠ [])
    (ha : s.alloc.toNat < Config.nodeMax) :
    ∃ t, Reaches deserTick 2 s t ∧ DeserStops e.treeErr s t := by
  have hrun : s.phase ≠ .idle := by rw [hp]; nofun
  cases data with
  | nil =>
    refine ⟨_, (Reaches.step hrun (deserTick_noTag he hl hin)).mono (Nat.le_succ 1), ?_⟩
    exact .mk s.arena s.alloc s.stack s.bitin s.draws (List.suffix_refl _)
  | cons b bs =>
    obtain ⟨rfl, hbits⟩ := List.cons.inj hser
    have hshort : bs.length < Config.symW := by
      have := congrArg List.length hbits
      rw [List.append_eq, List.length_append, msbBits_length] at this
      have := List.length_pos_iff.2 hm
      omega
    have htag : deserTick s = .next { s with alloc := s.alloc + 1, loop := .symbol s.alloc, bitin := ⟨bs, e⟩ } := by
      rw [deserTick_leafTag hl hin, deserLeafTag, deserAlloc_of_lt (by exact ha)]
    obtain ⟨t, ht, hstop⟩ := deserTick_shortSymbol he
      (s := { s with alloc := s.alloc + 1, loop := .symbol s.alloc, bitin := ⟨bs, e⟩ }) rfl rfl hshort
    refine ⟨t, (Reaches.step hrun htag).trans (.step hrun ht), hstop.after (arena := s.arena) (stack := s.stack) ?_⟩
    rw [hin]
    exact List.suffix_cons _ _

/-- A source that ends inside a serialized tree stops DESER there (R176, R243). -/
theorem deser_stops {tr : Tree} : ∀ {s : State} {data missing : Bits}, s.phase = .deser → s.loop = .top →
    s.bitin = ⟨data, e⟩ → data ++ missing = tr.ser → missing ≠ [] → s.alloc.toNat + tr.size ≤ Config.nodeMax →
    ∃ t, Reaches deserTick tr.serWrites s t ∧ DeserStops e.treeErr s t := by
  induction tr with
  | leaf x => intro s data missing hp hl hin hser hm ha; exact deser_stopsInLeaf he hp hl hin hser hm ha
  | node l r ihl ihr =>
    intro s data missing hp hl hin hser hm hsize
    have hrun : s.phase ≠ .idle := by rw [hp]; nofun
    have hfits : s.alloc.toNat + (1 + l.size + r.size) ≤ 513 := hsize
    have ha : s.alloc.toNat < Config.nodeMax := show _ < 513 by omega
    have hone := cnt_succ_toNat ha
    have hmid := cnt_add_toNat (n := s.alloc + 1) (k := l.size) (show _ ≤ 513 by omega)
    cases data with
    | nil =>
      refine ⟨_, (Reaches.step hrun (deserTick_noTag he hl hin)).mono (by simp only [Tree.serWrites]; omega), ?_⟩
      exact .mk s.arena s.alloc s.stack s.bitin s.draws (List.suffix_refl _)
    | cons b bs =>
      obtain ⟨rfl, hbits⟩ := List.cons.inj hser
      have htag : Reaches deserTick 1 s (s.readingLeft ⟨bs, e⟩) := .step hrun (deserTick_opensNode hl hin ha)
      have hbs : bs <:+ s.bitin.data := by rw [hin]; exact List.suffix_cons _ _
      have hfits₁ : (s.readingLeft ⟨bs, e⟩).alloc.toNat + l.size ≤ Config.nodeMax :=
        show (s.alloc + 1).toNat + l.size ≤ 513 by omega
      obtain ⟨more, hne, hleft⟩ | ⟨cs, rfl, hright⟩ := ends_in_left_or_right hbits
      · obtain ⟨t, ht, hstop⟩ := ihl (s := s.readingLeft ⟨bs, e⟩) hp rfl rfl hleft hne hfits₁
        refine ⟨t, (htag.trans ht).mono (by simp only [Tree.serWrites]; omega), hstop.after (arena := s.arena) hbs⟩
      · obtain ⟨m, hread⟩ := deser_reads e (s := s.readingLeft ⟨l.ser ++ cs, e⟩) hp rfl rfl hfits₁
        have hturn : Reaches deserTick l.serWrites (s.readingLeft ⟨l.ser ++ cs, e⟩) (s.readingRight m l.size ⟨cs, e⟩) :=
          ⟨_, le_rfl, (congrArg (drive deserTick · _) (Nat.zero_add _).symm).trans (hread.run 0)⟩
        obtain ⟨t, ht, hstop⟩ := ihr (s := s.readingRight m l.size ⟨cs, e⟩) hp rfl rfl hright hm
          (show (s.alloc + 1 + BitVec.ofNat Config.cntW l.size).toNat + _ ≤ 513 by omega)
        exact ⟨t, (htag.trans hturn).trans ht, hstop.after ((List.suffix_append _ _).trans hbs)⟩

/-- DESER whose source ends inside a serialized tree ends with the source's fault (R176, R243). -/
theorem exec_deser_stops {s : State} {tr : Tree} {data missing : Bits} (hs : s.accepting) (hin : s.bitin = ⟨data, e⟩)
    (hser : data ++ missing = tr.ser) (hm : missing ≠ []) (hsize : tr.size ≤ Config.nodeMax) :
    ∃ t, exec .deser s = .next t ∧ DeserStops e.treeErr s.deserStarted t := by
  obtain ⟨t, ht, hstop⟩ := deser_stops he (s := s.deserStarted) rfl rfl hin hser hm ((Nat.zero_add _).trans_le hsize)
  have hfuel : 1 + tr.serWrites ≤ deserFuel := by
    have := tr.serWrites_le
    have : tr.size ≤ 513 := hsize
    show _ ≤ 1029
    omega
  exact ⟨t, exec_deser_of_reaches hs ht (by cases hstop; rfl) hfuel, hstop⟩

end

/-! ### An arena that is full (R177) -/

theorem deserAlloc_of_full {s : State} {k : NodeIdx → State → Result} (h : Config.nodeMax ≤ s.alloc.toNat) :
    deserAlloc s k = .next (raise .arenaOverflow s) := if_neg (Nat.not_lt.2 h)

/-- Tags 1 take one record each (R175). -/
theorem deser_readsTags {e : SourceEnd} {bits : Bits} {k : Nat} : ∀ {s : State}, s.phase = .deser → s.loop = .top →
    s.bitin = ⟨List.replicate k true ++ bits, e⟩ → s.alloc.toNat + k ≤ Config.nodeMax →
    ∃ alloc stack, alloc.toNat = s.alloc.toNat + k ∧
      Reaches deserTick k s { s with alloc := alloc, stack := stack, loop := .top, bitin := ⟨bits, e⟩ } := by
  induction k with
  | zero =>
    intro s _ hl hin _
    obtain ⟨⟩ := s
    cases hl
    cases hin
    exact ⟨_, _, rfl, .refl⟩
  | succ k ih =>
    intro s hp hl hin hsize
    have ha : s.alloc.toNat < Config.nodeMax := by omega
    have hone := cnt_succ_toNat ha
    have htag : Reaches deserTick 1 s (s.readingLeft ⟨List.replicate k true ++ bits, e⟩) :=
      .step (by rw [hp]; nofun) (deserTick_opensNode hl hin ha)
    obtain ⟨alloc, stack, halloc, hrest⟩ := ih (s := s.readingLeft ⟨List.replicate k true ++ bits, e⟩) hp rfl rfl
      (show (s.alloc + 1).toNat + k ≤ _ by omega)
    have hcount : alloc.toNat = (s.alloc + 1).toNat + k := halloc
    exact ⟨alloc, stack, by omega, (htag.trans hrest).mono (Nat.add_comm 1 k).le⟩

/-- DESER of `NODE_MAX` tags 1 stands at a node boundary with the arena full, all of the tags consumed (R175). -/
theorem deser_fillsArena {s : State} {bits : Bits} {e : SourceEnd}
    (hin : s.bitin = ⟨List.replicate Config.nodeMax true ++ bits, e⟩) :
    ∃ alloc stack, Config.nodeMax ≤ alloc.toNat ∧ Reaches deserTick Config.nodeMax s.deserStarted
      { s.deserStarted with alloc := alloc, stack := stack, loop := .top, bitin := ⟨bits, e⟩ } := by
  obtain ⟨alloc, stack, halloc, h⟩ := deser_readsTags (s := s.deserStarted) rfl rfl hin (Nat.zero_add _).le
  exact ⟨alloc, stack, (halloc.trans (Nat.zero_add _)).ge, h⟩

/-- The tag that has no record (R177). -/
theorem deserTick_overflows {s : State} {bs : Bits} {e : SourceEnd} (hl : s.loop = .top) (hin : s.bitin = ⟨true :: bs, e⟩)
    (ha : Config.nodeMax ≤ s.alloc.toNat) :
    deserTick s = .next (raise .arenaOverflow { s with bitin := ⟨bs, e⟩ }) := by
  rw [deserTick_internalTag hl hin, deserInternalTag, deserAlloc_of_full (by exact ha)]

/-- A record for which there is no room raises ArenaOverflow (R177). -/
theorem exec_record_overflows {s : State} (hp : s.phase = .deser) (hl : s.loop = .top)
    (ha : Config.nodeMax ≤ s.alloc.toNat) :
    exec .treeInternal s = .next (raise .arenaOverflow s) ∧
      ∀ x, exec (.treeLeaf x) s = .next (raise .arenaOverflow s) := by
  refine ⟨(exec_treeInternal_atNode hp hl).trans (deserAlloc_of_full ha), fun x => ?_⟩
  rw [exec_treeLeaf_atNode hp hl, deserLeafTag, deserAlloc_of_full ha, andThen_next]
  rfl

end Sys2Proof.Machine

namespace Sys2Proof.Proofs

open Sys2Proof.Machine

/-- Settles O30: FormatError is the answer `End` to a tag or a symbol; a source that ends inside a tree gives that answer. -/
theorem deserRaisesFormatErrorOnAShortTree : Obligations.DeserRaisesFormatErrorOnAShortTree := by
  refine ⟨fun s hp he hl => ?_, fun s tr data missing hs hin hser hm hsize => ?_⟩
  · have htick : engineTick s = deserTick s := by rw [engineTick, hp]
    rw [htick]
    by_cases hsym : ∃ i, s.loop = .symbol i
    · obtain ⟨i, hi⟩ := hsym
      rw [deserTick_formatError_symbol he hi, bitsIn_ended_iff]
      refine and_congr_right fun _ => ⟨fun h => .inr ⟨⟨i, hi⟩, h⟩, fun h => ?_⟩
      obtain h | ⟨-, h⟩ := h
      · rw [h]
        decide
      · exact h
    · rw [deserTick_formatError_tag he hl fun i hi => hsym ⟨i, hi⟩, bitIn_ended_iff]
      exact and_congr_right fun _ => (or_iff_left fun h => hsym h.1).symm
  · obtain ⟨t, ht, hstop⟩ := exec_deser_stops (.inl rfl) hs hin hser hm hsize
    obtain ⟨heq, hsuffix⟩ := hstop.eq hs.2
    have hdata : s.deserStarted.bitin.data = data := congrArg Source.data hin
    exact ⟨t, ht, by rw [hs.1]; exact heq, hdata ▸ hsuffix⟩

/-- Settles O31: a source that fails inside a tree gives the answer `Err` to a tag or a symbol. -/
theorem deserRaisesIoErrorOnTheBitSource : Obligations.DeserRaisesIoErrorOnTheBitSource := by
  intro s tr data missing hs hin hser hm hsize
  obtain ⟨t, ht, hstop⟩ := exec_deser_stops (.inr rfl) hs hin hser hm hsize
  exact ⟨t, ht, by rw [hs.1]; exact (hstop.eq hs.2).1⟩

/-- Settles O32: `NODE_MAX` tags 1 fill the arena; the next tag has no record, or is not there. -/
theorem deserRaisesArenaOverflow : Obligations.DeserRaisesArenaOverflow := by
  refine ⟨fun s rest e hs hin => ?_, fun s hs hin => ?_, fun s hp hl he ha => ?_⟩
  · obtain ⟨alloc, stack, hfull, hfill⟩ := deser_fillsArena hin
    have hover := hfill.trans (.step nofun (deserTick_overflows rfl rfl hfull))
    exact ⟨_, exec_deser_of_reaches hs hover rfl (by decide), by rw [hs.1]; exact raise_of_noFault _ _ hs.2⟩
  · rw [← List.append_nil (List.replicate _ _)] at hin
    obtain ⟨alloc, stack, -, hfill⟩ := deser_fillsArena hin
    have hend := hfill.trans (.step nofun (deserTick_noTag (.inl rfl) rfl rfl))
    exact ⟨_, exec_deser_of_reaches hs hend rfl (by decide), by rw [hs.1]; exact raise_of_noFault _ _ hs.2⟩
  · obtain ⟨hinternal, hleaf⟩ := exec_record_overflows hp hl ha
    exact ⟨fun x => ⟨_, hleaf x, raise_of_noFault _ _ he⟩, _, hinternal, raise_of_noFault _ _ he⟩

end Sys2Proof.Proofs
end

section
/-! ## The table that DERIVE makes (R193 to R195) -/

namespace Sys2Proof.Machine

/-! ### No entry beyond the last symbol (R192) -/

/-- A move of DERIVE writes the table below its bound alone. -/
theorem EngineMove.derive_cwt_wf {s t : State} (hs : Memory.wf Config.nsym s.cwt) (h : EngineMove s .derive t) :
    Memory.wf Config.nsym t.cwt := by
  cases h with
  | stay hp => exact absurd rfl hp.2
  | raise _ hp => exact absurd rfl hp.2
  | deriveStart => exact Memory.wf_fill Config.nsym none
  | @deriveLeaf _ _ x =>
    unfold recordCodeword
    split
    · next hx => exact Memory.wf_write _ hs hx
    · exact hs
  | _ => exact hs

/-- DERIVE clears the table first (R190), so nothing that stood beyond its bound is left at the end. -/
theorem exec_derive_cwt_wf {s t : State} (hs : s.accepting) (hv : s.treeV = true) (h : exec .derive s = .next t) :
    Memory.wf Config.nsym t.cwt := by
  rw [exec_derive, accept_of_ready (p := .derive) hs.2 hv, andThen_next] at h
  have hstart : deriveTick { s with phase := .derive, loop := .start } =
      .next (deriveStart { s with phase := .derive, loop := .start }) := rfl
  have hwalk := (drive_step (n := 3 * Config.nodeMax + 1) (by simp) hstart).symm.trans h
  refine drive_keeps (P := fun u => Memory.wf Config.nsym u.cwt) (fun u v hu _ hstep => ?_) _ _ t ?_ hwalk
  · obtain ⟨w, hw, hm⟩ := deriveTick_step hstep
    have hcwt : w.cwt = u.cwt := by obtain ⟨⟩ := hw.sameBlock; rfl
    exact hm.derive_cwt_wf (hcwt ▸ hu)
  · exact Memory.wf_fill Config.nsym none

/-- A symbol with an entry in a canonical table is one of the alphabet. -/
theorem State.lt_of_entry {s : State} {x : Sym} {e : Option Bits} (hs : Memory.wf Config.nsym s.cwt)
    (h : s.entry x = some e) : x.toNat < Config.nsym := by
  obtain ⟨c, hc, -⟩ := Option.map_eq_some_iff.1 h
  exact Memory.lt_of_read hs hc

/-- Whatever entry DERIVE leaves is the codeword of its symbol in the present tree (R193). -/
theorem codeword_of_derived_entry {s t : State} {tr : Tree} {x : Sym} {e : Option Bits} (hs : s.accepting)
    (hv : s.treeV = true) (htr : s.hasTree tr) (h : exec .derive s = .next t) (hx : t.entry x = some e) :
    tr.codeword x = e := by
  have hlt := State.lt_of_entry (exec_derive_cwt_wf hs hv h) hx
  obtain ⟨cwt, stack, path, plen, htable, hexec⟩ := exec_derive_makesTable hs hv htr
  cases hexec.symm.trans h
  exact Option.some.inj ((htable x hlt).symm.trans hx)

/-! ### The leaves' paths are a prefix code (R195) -/

/-- A path that begins another leads to a leaf with the same symbol, since nothing is below a leaf. -/
theorem Tree.eq_of_path_prefix {t : Tree} : ∀ {x y : Sym} {p q : Bits}, (x, p) ∈ t.paths → (y, q) ∈ t.paths →
    p <+: q → x = y := by
  induction t with
  | leaf z =>
    intro x y p q hx hy _
    exact (Tree.mem_paths_leaf.1 hx).1.trans (Tree.mem_paths_leaf.1 hy).1.symm
  | node l r ihl ihr =>
    intro x y p q hx hy hpq
    match p, q with
    | [], _ => exact absurd hx Tree.nil_mem_paths_node
    | _ :: _, [] => exact absurd hy Tree.nil_mem_paths_node
    | b :: p, c :: q =>
      obtain ⟨rfl, htail⟩ := List.cons_prefix_cons.1 hpq
      have hx' := Tree.mem_paths_cons.1 hx
      have hy' := Tree.mem_paths_cons.1 hy
      cases b
      · exact ihl hx' hy' htail
      · exact ihr hx' hy' htail

end Sys2Proof.Machine

namespace Sys2Proof.Proofs

open Sys2Proof.Machine

/-- Settles O35, by the table that DERIVE's walk makes: it has the codeword of every symbol. -/
theorem deriveGivesEverySymbolItsPath : Obligations.DeriveGivesEverySymbolItsPath := by
  intro s tr hs hv htr
  obtain ⟨cwt, stack, path, plen, htable, hexec⟩ := exec_derive_makesTable hs hv htr
  exact ⟨_, hexec, htable, by rw [hs.1]⟩

/-- Settles O36: two entries are the paths of two leaves of the tree, and one that begins the other is the same leaf's. -/
theorem derivedTableIsPrefixFree : Obligations.DerivedTableIsPrefixFree := by
  intro s t tr x y p q hs hv htr h hx hy hne hpq
  have hcx : tr.codeword x = some p := codeword_of_derived_entry hs hv htr h hx
  have hcy : tr.codeword y = some q := codeword_of_derived_entry hs hv htr h hy
  exact hne (Tree.eq_of_path_prefix (Tree.mem_paths_of_codeword hcx) (Tree.mem_paths_of_codeword hcy) hpq)

end Sys2Proof.Proofs
end

section
/-! ## ENCODE as the statements have it: the payload, and the symbol without a codeword (R202, R203, R206) -/

namespace Sys2Proof.Machine

/-- ENCODE about to read a byte, the codewords of `bytes` out and `src` still to come (R201). -/
def State.sentBytes (s : State) (bytes : List Byte) (src : Source Byte) : State :=
  { s with
    phase := .encode, loop := .top, bsrc := src
    bitout := s.bitout.after (bytes.map fun b => s.cw b.sym).flatten.length (bytes.map fun b => s.cw b.sym).flatten }

/-- Bytes with a codeword go out, and then `rest` is still to come. -/
theorem State.reaches_sentBytes {s : State} {bytes rest : List Byte} {e : SourceEnd} (hsrc : s.bsrc = ⟨bytes ++ rest, e⟩)
    (hb : ∀ b ∈ bytes, s.hasCw b.sym) (ht : s.bitout.takes (bytes.map fun b => s.cw b.sym).flatten.length) :
    Reaches encodeTick (bytes.length * (longestCodeword s.cwt + 2)) { s with phase := .encode, loop := .top }
      (s.sentBytes bytes ⟨rest, e⟩) := by
  have hbytes := encode_bytes (s := { s with phase := .encode }) rfl hb rest e ht
  rwa [← hsrc] at hbytes

/-- The next byte is looked up (R201). -/
theorem encodeTick_sentBytes_cons (s : State) (bytes : List Byte) (b : Byte) (after : List Byte) (e : SourceEnd) :
    encodeTick (s.sentBytes bytes ⟨b :: after, e⟩) = encodeLookup b.sym (s.sentBytes bytes ⟨after, e⟩) := by
  have hin : byteIn (s.sentBytes bytes ⟨b :: after, e⟩) = (.got b, s.sentBytes bytes ⟨after, e⟩) := byteIn_of_cons rfl
  rw [encodeTick, hin]
  rfl

/-- At the end of the bytes the EOF symbol is looked up (R201). -/
theorem encodeTick_sentBytes_nil (s : State) (bytes : List Byte) :
    encodeTick (s.sentBytes bytes ⟨[], .endOfData⟩) = encodeLookup eof (s.sentBytes bytes ⟨[], .endOfData⟩) := by
  have hin : byteIn (s.sentBytes bytes ⟨[], .endOfData⟩) = (.ended, s.sentBytes bytes ⟨[], .endOfData⟩) :=
    byteIn_of_nil rfl (.inl rfl)
  rw [encodeTick, hin]
  rfl

/-- The lookup of a symbol that has no codeword raises `MissingCodeword` (R202). -/
theorem encodeLookup_of_missing {s : State} {x : Sym} (h : s.cwt.read x.toNat = some none) :
    encodeLookup x s = .next (raise (.missingCodeword x) s) := by
  rw [encodeLookup, withEntry_of_read h]

/-- The symbol looked up after `bytes` has no codeword: ENCODE ends there, with the codewords of `bytes` in the sink and the
source where the lookup found it (R202, R203). -/
theorem exec_encode_of_missing {s : State} {bytes rest left : List Byte} {e : SourceEnd} {x : Sym} (hs : s.accepting)
    (hv : s.cwtV = true) (hsrc : s.bsrc = ⟨bytes ++ rest, e⟩) (hb : ∀ b ∈ bytes, s.hasCw b.sym)
    (ht : s.bitout.takes (bytes.map fun b => s.cw b.sym).flatten.length)
    (hlookup : encodeTick (s.sentBytes bytes ⟨rest, e⟩) = encodeLookup x (s.sentBytes bytes ⟨left, e⟩))
    (hx : s.cwt.read x.toNat = some none) :
    exec .encode s = .next { s.sentBytes bytes ⟨left, e⟩ with
      phase := .idle, loop := .start, err := 5#8, errinfo := x.setWidth 16 } := by
  have htick : Reaches encodeTick 1 (s.sentBytes bytes ⟨rest, e⟩)
      (raise (.missingCodeword x) (s.sentBytes bytes ⟨left, e⟩)) :=
    .step (by simp [State.sentBytes]) (hlookup.trans (encodeLookup_of_missing hx))
  rw [raise_of_noFault _ _ (by exact hs.2)] at htick
  refine exec_encode_of_reaches hs hv ((State.reaches_sentBytes hsrc hb ht).trans htick) rfl ?_
  have hlen : bytes.length ≤ s.bsrc.data.length := by rw [hsrc, List.length_append]; exact Nat.le_add_right _ _
  have := Nat.mul_le_mul_right (longestCodeword s.cwt + 2) hlen
  rw [Nat.add_mul]
  omega

theorem byteSym_toNat (b : Byte) : b.sym.toNat = b.toNat := BitVec.toNat_setWidth_of_le (by decide)

/-- A byte's symbol names the byte in `ERRINFO` (R202). -/
theorem byteSym_setWidth (b : Byte) : b.sym.setWidth 16 = b.setWidth 16 := BitVec.setWidth_setWidth (by decide)

/-- As many bits as the lengths of the codewords add up to (R206). -/
theorem State.payload_length (s : State) (bytes : List Byte) :
    (s.payload bytes).length = (bytes.map fun b => (s.cw b.sym).length).sum + (s.cw eof).length := by
  rw [State.payload, List.length_append, List.length_flatten, List.map_map]
  rfl

end Sys2Proof.Machine

namespace Sys2Proof.Proofs

open Sys2Proof.Machine

/-- Settles O37: the codewords of the bytes go out one after another, and then that of the EOF symbol. -/
theorem encodeAppendsThePayload : Obligations.EncodeAppendsThePayload := by
  intro s bytes hs hv hsrc hb heof ht
  refine ⟨⟨_, exec_encode_appends hs hv hsrc hb heof ht, ?_⟩, s.payload_length bytes⟩
  rw [← hs.1]

/-- Settles O38: after the codewords of `bytes`, the lookup of the next byte, or of the EOF symbol, finds no entry. -/
theorem encodeRaisesMissingCodeword : Obligations.EncodeRaisesMissingCodeword := by
  intro s bytes hs hv hb sent ht
  constructor
  · intro b after e hsrc hnone
    have hexec := exec_encode_of_missing hs hv hsrc hb ht (encodeTick_sentBytes_cons s bytes b after e)
      (by rwa [byteSym_toNat])
    rw [byteSym_setWidth] at hexec
    refine ⟨_, hexec, ?_⟩
    rw [← hs.1]
    rfl
  · intro hsrc hnone
    have hexec := exec_encode_of_missing hs hv (by rw [hsrc, List.append_nil]) hb ht (encodeTick_sentBytes_nil s bytes)
      hnone
    refine ⟨_, hexec, ?_⟩
    rw [← hs.1]
    rfl

end Sys2Proof.Proofs
end

section
/-! ## DECODE as the statements have it: the EOF codeword, a stream that ends too early, the single leaf (R212, R214, R215) -/

namespace Sys2Proof.Machine

/-! ### A bit source that ends inside a codeword (R214) -/

theorem bitIn_of_end {s : State} (h : s.bitin = ⟨[], .endOfData⟩) : bitIn s = (.ended, s) := by
  obtain ⟨⟩ := s
  cases h
  rfl

/-- The walk stops softly where there is no further bit (R214, R222). -/
theorem decodeWalk_of_end {s : State} (h : s.bitin = ⟨[], .endOfData⟩) :
    decodeWalk s = .next { s with trunc := true, loop := .stop } := by
  rw [decodeWalk, bitIn_of_end h]

/-- A bit source that ends inside a codeword ends DECODE with TRUNC, the codeword's first bits consumed (R214). -/
theorem decode_truncates {s : State} (hp : s.phase = .decode) {t : Tree} {i : NodeIdx} (ht : t.isAt s.arena i = true)
    {w : Sym × Bits} (hw : w ∈ t.paths) {p : Bits} (hpw : p <+: w.2) (hne : p ≠ w.2) :
    ∃ j, Reaches decodeTick (p.length + 2) { s with loop := .top, cur := i, bitin := ⟨p, .endOfData⟩ }
      { s with phase := .idle, loop := .start, cur := j, trunc := true, bitin := ⟨[], .endOfData⟩ } := by
  obtain ⟨x, _⟩ := w
  obtain ⟨q, rfl⟩ := hpw
  have hq : q ≠ [] := fun h => hne (by rw [h, List.append_nil])
  obtain ⟨-, j, -, -, hwalks⟩ := decode_walks hp hq [] .endOfData ht hw
  rw [List.append_nil] at hwalks
  have hend : Reaches decodeTick 1 { s with loop := .top, cur := j, bitin := ⟨[], .endOfData⟩ }
      { s with loop := .stop, cur := j, trunc := true, bitin := ⟨[], .endOfData⟩ } :=
    .step (by simp [hp])
      (decodeWalk_of_end (s := { s with loop := .top, cur := j, bitin := ⟨[], .endOfData⟩ }) rfl)
  have hstop : Reaches decodeTick 1 { s with loop := .stop, cur := j, trunc := true, bitin := ⟨[], .endOfData⟩ }
      { s with phase := .idle, loop := .start, cur := j, trunc := true, bitin := ⟨[], .endOfData⟩ } :=
    .step (by simp [hp]) rfl
  exact ⟨j, hwalks.trans (hend.trans hstop)⟩

/-! ### A single leaf (R212) -/

/-- The check finds a tree that is one leaf, not the EOF leaf, and raises `DegenerateTree` (R211, R212). -/
theorem decodeCheck_of_leaf {s : State} {x : Sym} (h : (Tree.leaf x).isAt s.arena s.root = true) (hx : x ≠ eof) :
    decodeCheck s = .next (raise (.degenerateTree x) { s with eos := false, trunc := false, cur := s.root }) := by
  obtain ⟨f, hr⟩ := Tree.isAt_leaf.1 h
  simp only [decodeCheck, withRecord, hr, if_neg hx]

/-- DECODE of such a tree ends at its check: no bit is read and no byte written (R212). -/
theorem exec_decode_otherLeaf {s : State} {x : Sym} (hs : s.accepting) (hv : s.treeV = true) (htr : s.hasTree (.leaf x))
    (hx : x ≠ eof) : exec .decode s =
      .next (raise (.degenerateTree x) { s with eos := false, trunc := false, cur := s.root }) := by
  have hcheck := decodeCheck_of_leaf (s := { s with phase := .decode, loop := .start }) htr.1 hx
  have hend : Reaches decodeTick 1 { s with phase := .decode, loop := .start }
      (raise (.degenerateTree x) { s with eos := false, trunc := false, cur := s.root }) := .step (by simp) hcheck
  rw [exec_decode, accept_of_ready (p := .decode) hs.2 hv, andThen_next]
  exact hend.drive rfl (show 1 ≤ 2 * s.bitin.data.length + 4 by omega)

end Sys2Proof.Machine

namespace Sys2Proof.Proofs

open Sys2Proof.Machine

/-- Settles O40: the codewords are read one by one, and the walk of the EOF codeword ends at the EOF leaf. -/
theorem decodeStopsAtTheEofLeaf : Obligations.DecodeStopsAtTheEofLeaf := by
  intro s tr ws q rest e hs hv htr hsize hws hq hin ht
  rw [List.append_assoc] at hin
  obtain ⟨cur, hcur, hexec⟩ := exec_decode_words hs hv htr hsize hws hq hin ht
  refine ⟨_, hexec, hcur, ?_⟩
  rw [← hs.1]

/-- Settles O41: the codewords are read one by one until the source ends on the way to a leaf, or at the root. -/
theorem decodeStopsSoftlyOnATruncatedStream : Obligations.DecodeStopsSoftlyOnATruncatedStream := by
  rintro s tr ws p hs hv htr hsize hws ⟨w, hw, hpw, hne⟩ hin ht
  have hwords := decode_words (s := { s with phase := .decode, eos := false, trunc := false }) rfl htr.1 hsize p .endOfData
    hws ht
  rw [← hin] at hwords
  obtain ⟨j, hend⟩ := decode_truncates
    (s := { s with
      phase := .decode, eos := false, trunc := false, bsnk := s.bsnk.after ws.length (ws.map fun w => lowByte w.1) })
    rfl htr.1 hw hpw hne
  refine ⟨_, exec_decode_of_reaches hs hv htr hsize (hwords.trans hend) rfl ?_, ?_⟩
  · rw [hin, List.length_append]
    omega
  · rw [← hs.1]

/-- Settles O42: the check at DECODE's start finds the leaf. -/
theorem decodeOfASingleLeafReadsNoBit : Obligations.DecodeOfASingleLeafReadsNoBit := by
  intro s x hs hv htr
  constructor
  · rintro rfl
    refine ⟨_, exec_decode_eofLeaf hs hv htr, ?_⟩
    rw [← hs.1]
  · intro hx
    refine ⟨_, exec_decode_otherLeaf hs hv htr hx, ?_⟩
    rw [raise_of_noFault _ _ (by exact hs.2), ← hs.1]
    rfl

end Sys2Proof.Proofs
end

section
/-! ## Compression and decompression, command by command (R221) -/

namespace Sys2Proof.Machine

/-- A tree with a leaf for each entry of a frequency table fits the arena (R156). -/
theorem TreeWithin.size_le_of_table {m : Memory Node} {i : NodeIdx} {n : NodeCnt} {tr : Tree} {ft : Memory Freq}
    (h : TreeWithin m i 0 n.toNat tr) (hn : n.toNat + 1 = 2 * (tableSyms ft).length) : tr.size ≤ Config.nodeMax := by
  have hsize : tr.size ≤ n.toNat := h.size_le
  have htable : (tableSyms ft).length ≤ 257 := tableSyms_length_le ft
  show tr.size ≤ 513
  omega

/-- COUNT and BUILD make a tree that has a codeword for every byte, and for symbol 256 (R142, R155). -/
theorem exec_count_build {s : State} {bytes : List Byte} (hs : s.accepting) (hsrc : s.bsrc = ⟨bytes, .endOfData⟩)
    (hlen : bytes.length < 2 ^ Config.freqW) :
    ∃ (t u : State) (tr : Tree), exec .count s = .next t ∧ exec .build t = .next u ∧ u.accepting ∧ u.treeV = true ∧
      u.hasTree tr ∧ tr.Covers bytes ∧ u.bitout = s.bitout ∧ u.bsnk = s.bsnk := by
  obtain ⟨ft, hft, hcount⟩ := exec_count_tabulates hs hsrc fun b => List.count_le_length.trans_lt hlen
  obtain ⟨arena, pq, root, nnode, alloc, tr, htr, hsyms, hnodes, hbuild⟩ := exec_build_makesTree
    (s := { s with phase := .idle, loop := .start, ft := ft, ftV := true, bsrc := ⟨[], .endOfData⟩ })
    ⟨rfl, hs.2⟩ rfl (TableOf.frequencySound hft rfl)
  exact ⟨_, _, tr, hcount, hbuild, ⟨rfl, hs.2⟩, rfl, ⟨htr.1, htr.size_le_of_table hnodes⟩, hft.covers hlen hsyms, rfl, rfl⟩

/-- DERIVE, SER and ENCODE write the serialized tree and the payload of the bytes (R113, R118). -/
theorem exec_derive_ser_encode {s : State} {tr : Tree} {bytes : List Byte} (hs : s.accepting) (hv : s.treeV = true)
    (htr : s.hasTree tr) (hc : tr.Covers bytes) (hout : s.bitout = ⟨[], none, .silent⟩) :
    ∃ t u v, exec .derive s = .next t ∧ exec .ser t = .next u ∧
      exec .encode { u with bsrc := ⟨bytes, .endOfData⟩ } = .next v ∧ v.accepting ∧
      v.bitout.written = tr.ser ++ tr.payload bytes ∧ v.bsnk = s.bsnk := by
  obtain ⟨cwt, stack, path, plen, htable, hderive⟩ := exec_derive_makesTable hs hv htr
  obtain ⟨stack', hser⟩ := exec_ser_appends
    (s := { s with
      phase := .idle, loop := .start, cwt := cwt, cwtV := true, stack := stack, path := path, plen := plen })
    ⟨rfl, hs.2⟩ hv htr (State.bitout_takes hout _)
  have hout' := State.bitout_after hout tr.serWrites tr.ser
  have hencode := exec_encode_appends (bytes := bytes)
    (s := { s with
      phase := .idle, loop := .start, cwt := cwt, cwtV := true, stack := stack', path := path, plen := plen
      bsrc := ⟨bytes, .endOfData⟩, bitout := s.bitout.after tr.serWrites tr.ser })
    ⟨rfl, hs.2⟩ rfl rfl (fun b hb => (IsTableOf.hasCw htable (byteSym_lt b) (hc.bytes b hb)).1)
    (IsTableOf.hasCw htable (by decide) hc.eof).1 (State.bitout_takes hout' _)
  refine ⟨_, _, _, hderive, hser, hencode, ⟨rfl, hs.2⟩, ?_, rfl⟩
  rw [IsTableOf.payload htable hc]
  simp only [Sink.after, hout, List.nil_append]

/-- DESER and DECODE of a serialized tree and a payload of it give the bytes back, whatever follows (R180, R215). -/
theorem exec_deser_decode {s : State} {tr : Tree} {bytes : List Byte} {rest : Bits} {e : SourceEnd} (hs : s.accepting)
    (hin : s.bitin = ⟨tr.ser ++ (tr.payload bytes ++ rest), e⟩) (hsize : tr.size ≤ Config.nodeMax) (hc : tr.Covers bytes)
    (htakes : s.bsnk.takes bytes.length) :
    ∃ t u, exec .deser s = .next t ∧ exec .decode t = .next u ∧ u.bsnk = s.bsnk.after bytes.length bytes ∧
      u.eos = true ∧ u.trunc = false ∧ u.err = 0#8 := by
  obtain ⟨arena, alloc, htree, hdeser⟩ := exec_deser_readsBack hs hin hsize
  obtain ⟨cur, hdecode⟩ := exec_decode_payload (tr := tr) (bytes := bytes) (rest := rest) (e := e)
    (s := { s with
      phase := .idle, loop := .start, arena := arena, root := 0#10, nnode := BitVec.ofNat Config.cntW tr.size
      treeV := true, cwtV := false, bitin := ⟨tr.payload bytes ++ rest, e⟩, alloc := alloc, stack := [] })
    ⟨rfl, hs.2⟩ rfl ⟨htree.1, hsize⟩ hc rfl htakes
  exact ⟨_, _, hdeser, hdecode, rfl, rfl, rfl, hs.2⟩

end Sys2Proof.Machine

namespace Sys2Proof.Proofs

open Sys2Proof.Machine

/-- Settles O51: the bit sink of the compression holds a serialized tree and a payload of it, which DESER and DECODE read
back. -/
theorem compressThenDecompressGivesTheInputBack : Obligations.CompressThenDecompressGivesTheInputBack := by
  intro s bytes padding e hs hsrc hlen hout hsnk
  obtain ⟨s1, s2, tr, hcount, hbuild, hs2, hv, htr, hc, hout2, hsnk2⟩ := exec_count_build hs hsrc hlen
  obtain ⟨s3, s4, s5, hderive, hser, hencode, hs5, hwritten, hsnk5⟩ :=
    exec_derive_ser_encode hs2 hv htr hc (hout2.trans hout)
  have hempty : s5.bsnk = ⟨[], none, .silent⟩ := hsnk5.trans (hsnk2.trans hsnk)
  obtain ⟨s6, s7, hdeser, hdecode, hsnk7, heos, htrunc, herr⟩ := exec_deser_decode (tr := tr) (bytes := bytes)
    (rest := padding) (e := e) (s := { s5 with bitin := ⟨s5.bitout.written ++ padding, e⟩ }) hs5
    (by rw [hwritten, List.append_assoc]) htr.2 hc (by simp [Sink.takes, hempty])
  refine ⟨s1, s2, s3, s4, s5, s6, s7, hcount, hbuild, hderive, hser, hencode, hdeser, hdecode, ?_, heos, htrunc, herr⟩
  rw [hsnk7]
  simp [Sink.after, hempty]

end Sys2Proof.Proofs
end

section
/-! ## NOP and RST (R230, R231) -/

namespace Sys2Proof.Machine

/-- NOP touches nothing (R230). -/
theorem exec_nop (s : State) : exec .nop s = .next s := rfl

/-- RST puts the registers at their reset values, faulted or not (R231). -/
theorem exec_rst (s : State) : exec .rst s = .next s.clearRegisters := rfl

/-- STATUS shows registers only, and RST leaves them as a hardware reset does (R22, R41). -/
theorem State.clearRegisters_status (s : State) : s.clearRegisters.status = 0x00#8 :=
  hardwareReset_status s

end Sys2Proof.Machine

namespace Sys2Proof.Proofs

open Sys2Proof.Machine

/-- Settles O10: 0x00 is the code of NOP, and NOP answers its own state. -/
theorem nopChangesNothing : Obligations.NopChangesNothing :=
  ⟨decodeInvertsEncode .nop rfl, exec_nop⟩

/-- Settles O11: 0x0F is the code of RST, and the state RST answers has its registers, and nothing else, written. -/
theorem rstClearsTheRegistersOnly : Obligations.RstClearsTheRegistersOnly :=
  ⟨decodeInvertsEncode .rst rfl, fun s => ⟨s.clearRegisters, exec_rst s, rfl, s.clearRegisters_status⟩⟩

end Sys2Proof.Proofs
end

section
/-! ## Faults: their entry, and the words a faulted block is given (R241, R246, R247) -/

namespace Sys2Proof.Machine

/-! ### Fault entry (R246) -/

/-- A later fault ends the command and leaves the recorded one as it is (R246). -/
theorem raise_of_fault {s : State} (e : Err) (h : s.err ≠ 0#8) : raise e s = s.finish := by
  simp [raise, h]

/-- After fault entry `FAULT` is 1, whether the fault is the first or not (R246). -/
theorem raise_fault (e : Err) (s : State) : (raise e s).fault = true := by
  by_cases h : s.err = 0#8
  · simp [raise_of_noFault s e h, State.fault, Err.code_ne_zero]
  · simp [raise_of_fault e h, State.fault, h]

/-! ### The words (R247) -/

/-- 0x0F is the only word of RST (R100). -/
theorem eq_of_decodeCommand_rst {w : Byte} (h : decodeCommand w = .rst) : w = 0x0F#8 := by
  have hw : encode (decodeCommand w) = .command w := (encode_decodeCommand w).2
  rw [h] at hw
  exact (Code.command.inj hw).symm

theorem acceptIllegal_of_fault {w : Byte} {s : State} (h : s.err ≠ 0#8) : acceptIllegal w s = .next s :=
  (acceptIllegal_raises s w).2 h

/-- A faulted block accepts no word but RST: it changes nothing (R247). -/
theorem acceptOnly_of_fault {w : Byte} {s : State} (he : s.err ≠ 0#8) (hw : w ≠ 0x0F#8) :
    acceptOnly (decodeCommand w) s = .next s := by
  obtain ⟨hi, hl⟩ := decodeCommand_not_record w
  cases h : decodeCommand w with
  | nop => rfl
  | rst => exact absurd (eq_of_decodeCommand_rst h) hw
  | treeLeaf x => exact absurd h (hl x)
  | treeInternal => exact absurd h hi
  | count | build | derive | ser | encode | deser | decode => exact accept_of_fault he
  | _ => exact acceptIllegal_of_fault he

/-- On the faulted block no word but RST is executed: nothing is started, so nothing runs (R247). -/
theorem exec_of_fault {w : Byte} {s : State} (hi : s.phase = .idle) (he : s.err ≠ 0#8) (hw : w ≠ 0x0F#8) :
    exec (decodeCommand w) s = .next s := by
  rw [exec_eq_acceptOnly_resume _ hi, acceptOnly_of_fault he hw, andThen_next, resume_idle hi]

end Sys2Proof.Machine

namespace Sys2Proof.Proofs

open Sys2Proof.Machine

/-- Settles O15: the first fault is recorded, a later one only ends the command, and each row of the table is as it is given. -/
theorem faultEntryRecordsTheFirstFault : Obligations.FaultEntryRecordsTheFirstFault := by
  intro s e
  refine ⟨raise_of_noFault s e, raise_of_fault e, raise_fault e s, rfl, ?_⟩
  cases e <;> rfl

/-- Settles O13: a faulted block executes no word but RST, and a step executes the word on the port. -/
theorem faultedBlockDiscardsEveryWordButRst : Obligations.FaultedBlockDiscardsEveryWordButRst := by
  intro s w i hi he hdec hw
  cases hdec
  refine ⟨exec_of_fault hi he hw, fun hc => ?_⟩
  rw [step_of_word hi hc]
  exact exec_of_fault (s := { s with cmd := none }) hi he hw

end Sys2Proof.Proofs
end

section
/-! ## What clears a recorded fault (R248)

A step of a faulted idle block, but for RST and hardware reset, leaves all of the block except its ports and the host as it is
(`SameBlock`). RST and hardware reset clear the fault, and what follows in the same step leaves it cleared. -/

namespace Sys2Proof.Machine

/-- No fault is recorded and no table is valid, as RST and hardware reset leave the block (R231, R248, R280). -/
def State.FaultCleared (s : State) : Prop :=
  s.err = 0#8 ∧ s.errinfo = 0#16 ∧ s.ftV = false ∧ s.treeV = false ∧ s.cwtV = false

theorem State.clearRegisters_faultCleared (s : State) : s.clearRegisters.FaultCleared := ⟨rfl, rfl, rfl, rfl, rfl⟩

theorem hardwareReset_faultCleared (s : State) : (hardwareReset s).FaultCleared := ⟨rfl, rfl, rfl, rfl, rfl⟩

theorem SameBlock.faultCleared {s t : State} (h : SameBlock s t) (hs : s.FaultCleared) : t.FaultCleared := by
  obtain ⟨⟩ := h
  exact hs

theorem SameBlock.err {s t : State} (h : SameBlock s t) : t.err = s.err ∧ t.errinfo = s.errinfo := by
  obtain ⟨⟩ := h
  exact ⟨rfl, rfl⟩

theorem SameBlock.phase {s t : State} (h : SameBlock s t) : t.phase = s.phase := by
  obtain ⟨⟩ := h
  rfl

/-- While no command runs, the moves of the host that come with a word leave the block as it is, or one of them is a reset
(R281, R295). -/
theorem runDuring_idle {t : State} : ∀ {ms : List BusyMove} {s : State}, s.phase = .idle → runDuring ms s = .next t →
    SameBlock s t ∨ (t.FaultCleared ∧ ∃ k, .reset k ∈ ms) := by
  intro ms
  induction ms with
  | nil =>
    intro s hi h
    cases (resume_idle hi).symm.trans h
    exact .inl (.refl _)
  | cons m ms ih =>
    intro s hi h
    rw [runDuring, drive_idle _ _ hi, andThen_next] at h
    cases m with
    | readCsr k n =>
      have hread : SameBlock s (hostReadCsr n s) := hostReadCsr_sameBlock n s
      obtain hsame | ⟨hclear, j, hj⟩ := ih (hread.phase.trans hi) h
      · exact .inl (hread.trans hsame)
      · exact .inr ⟨hclear, j, .tail _ hj⟩
    | reset k =>
      refine .inr ⟨?_, k, .head _⟩
      obtain hsame | ⟨hclear, -⟩ := ih rfl h
      · exact hsame.faultCleared (hardwareReset_faultCleared s)
      · exact hclear

/-- A word that a faulted block is given leaves the block as it is, unless it is RST or a reset comes with it (R247, R248). -/
theorem issue_of_fault {p : PortWord} {s t : State} (hi : s.phase = .idle) (he : s.err ≠ 0#8) (h : issue p s = .next t) :
    SameBlock s t ∨ (t.FaultCleared ∧ (p.word = 0x0F#8 ∨ ∃ k, .reset k ∈ p.during)) := by
  rw [issue_eq p hi] at h
  by_cases hw : p.word = 0x0F#8
  · rw [hw] at h
    obtain hsame | ⟨hclear, -⟩ := runDuring_idle (s := s.clearRegisters) rfl h
    · exact .inr ⟨hsame.faultCleared s.clearRegisters_faultCleared, .inl hw⟩
    · exact .inr ⟨hclear, .inl hw⟩
  · rw [acceptOnly_of_fault he hw] at h
    exact (runDuring_idle hi h).imp_right fun ⟨hclear, hk⟩ => ⟨hclear, .inr hk⟩

/-- A move of the host other than a hardware reset leaves the block as it is (R295). -/
theorem hostMove_sameBlock {s t : State} {m : HostMove} (hm : m ≠ .hardwareReset) (h : hostMove s m = some t) :
    SameBlock s t := by
  cases m with
  | hardwareReset => exact absurd rfl hm
  | present p =>
    simp only [hostMove, Option.ite_none_left_eq_some] at h
    cases h.2
    exact ⟨_, _, _, _, _, _, _, _⟩
  | readCsr n => cases h; exact hostReadCsr_sameBlock n s
  | writeBits v n => exact hostWriteBits_sameBlock (whileIdle_eq_some h)
  | readBits n => exact hostReadBits_sameBlock (whileIdle_eq_some h)
  | _ => cases whileIdle_eq_some h; exact ⟨_, _, _, _, _, _, _, _⟩

/-- What the host does next leaves the block as it is, or is a hardware reset (R281, R295). -/
theorem hostAct_sameBlock_or_reset {s t : State} (h : hostAct s = some t) :
    SameBlock s t ∨ (t.FaultCleared ∧ ∃ ms, s.host = .hardwareReset :: ms) := by
  unfold hostAct at h
  split at h
  · cases h
  · next m ms hhost =>
    by_cases hm : m = .hardwareReset
    · subst hm
      cases h
      exact .inr ⟨hardwareReset_faultCleared _, ms, hhost⟩
    · have hrest : SameBlock s { s with host := ms } := ⟨_, _, _, _, _, _, _, _⟩
      exact .inl (hrest.trans (hostMove_sameBlock hm h))

/-- A step of the idle block on which a word waits issues it (R290). -/
theorem step_of_cmd {s : State} {p : PortWord} (hi : s.phase = .idle) (hc : s.cmd = some p) :
    step s = issue p { s with cmd := none } := by
  simp [step, State.busy, hi, hc]

/-- A step of the idle block on which no word waits is the host's (R253). -/
theorem step_of_noCmd {s : State} (hi : s.phase = .idle) (hc : s.cmd = none) : step s = .next ((hostAct s).getD s) := by
  simp [step, State.busy, hi, hc]

/-- A step of the faulted idle block leaves the block as it is, or clears the fault by RST or hardware reset (R247, R248). -/
theorem step_of_fault {s t : State} (hi : s.phase = .idle) (he : s.err ≠ 0#8) (h : step s = .next t) :
    SameBlock s t ∨ (t.FaultCleared ∧
      ((∃ p, s.cmd = some p ∧ (p.word = 0x0F#8 ∨ ∃ k, .reset k ∈ p.during)) ∨
        (s.cmd = none ∧ ∃ ms, s.host = .hardwareReset :: ms))) := by
  cases hc : s.cmd with
  | some p =>
    rw [step_of_cmd hi hc] at h
    have htaken : SameBlock s { s with cmd := none } := ⟨_, _, _, _, _, _, _, _⟩
    exact (issue_of_fault (s := { s with cmd := none }) hi he h).imp htaken.trans
      fun ⟨hclear, hcause⟩ => ⟨hclear, .inl ⟨p, rfl, hcause⟩⟩
  | none =>
    rw [step_of_noCmd hi hc] at h
    cases hact : hostAct s with
    | none => rw [hact] at h; cases h; exact .inl (.refl _)
    | some u =>
      rw [hact] at h
      cases h
      exact (hostAct_sameBlock_or_reset hact).imp_right fun ⟨hclear, hcause⟩ => ⟨hclear, .inr ⟨rfl, hcause⟩⟩

end Sys2Proof.Machine

namespace Sys2Proof.Proofs

open Sys2Proof.Machine

/-- Settles O16: a step of the faulted block leaves ERR and ERRINFO with the rest of the block, or is a reset. -/
theorem recordedFaultStaysUntilCleared : Obligations.RecordedFaultStaysUntilCleared := by
  intro s t hi he h
  obtain hsame | ⟨⟨herr, hinfo, hft, htree, hcwt⟩, hcause⟩ := step_of_fault hi he h
  · exact .inl hsame.err
  · exact .inr ⟨herr, hinfo, hft, htree, hcwt, hcause⟩

end Sys2Proof.Proofs
end

section
/-! ## A word that waits on the command port while a command runs (R290)

The engine neither reads nor writes the command port: putting a word there before an engine step, or after it, gives the same
outcome (`IgnoresPort`). -/

namespace Sys2Proof.Machine

/-- The state with `c` on its command port. -/
def State.withCmd (c : Option PortWord) (s : State) : State := { s with cmd := c }

section
variable (c : Option PortWord) (s : State)

@[simp] theorem State.withCmd_loop : (s.withCmd c).loop = s.loop := rfl
@[simp] theorem State.withCmd_arena : (s.withCmd c).arena = s.arena := rfl
@[simp] theorem State.withCmd_members : (s.withCmd c).members = s.members := rfl
@[simp] theorem State.withCmd_stack : (s.withCmd c).stack = s.stack := rfl
@[simp] theorem State.withCmd_alloc : (s.withCmd c).alloc = s.alloc := rfl
@[simp] theorem State.withCmd_bitin : (s.withCmd c).bitin = s.bitin := rfl

end

/-- The outcome with `c` put on the command port of its next state. -/
def withCmdAfter (c : Option PortWord) (o : Result) : Result := andThen o fun t => .next (t.withCmd c)

@[simp] theorem withCmdAfter_next (c : Option PortWord) (t : State) : withCmdAfter c (.next t) = .next (t.withCmd c) := rfl

/-- What `f` does is the same whatever stands on the command port, and leaves it there. -/
def IgnoresPort (f : State → Result) : Prop := ∀ c s, f (s.withCmd c) = withCmdAfter c (f s)

/-! ### Sequencing and running -/

/-- A sequence ignores the port when its first part does and its second part does from every state. -/
theorem andThen_withCmd {c : Option PortWord} {o : Result} {f g : State → Result}
    (h : ∀ t, g (t.withCmd c) = withCmdAfter c (f t)) : andThen (withCmdAfter c o) g = withCmdAfter c (andThen o f) := by
  cases o with
  | next t => exact h t
  | fault | refused => rfl

theorem drive_ignoresPort {tick : State → Result} (h : IgnoresPort tick) (n : Nat) : IgnoresPort (drive tick n) := by
  intro c
  induction n with
  | zero => intro s; rfl
  | succ n ih =>
    intro s
    by_cases hi : s.phase = .idle
    · rw [drive_idle _ _ hi, drive_idle _ _ (s := s.withCmd c) hi, withCmdAfter_next]
    · rw [drive_succ _ _ hi, drive_succ _ _ (s := s.withCmd c) hi, h c s]
      exact andThen_withCmd ih

/-! ### Memories and ports

Each rule is about a continuation `k'` that from the state with `c` on the port does what `k` does from the state without. -/

section
variable {c : Option PortWord} {s : State}

theorem withCounter_withCmd {x : Nat} {k k' : Freq → Result} (h : ∀ f, k' f = withCmdAfter c (k f)) :
    withCounter (s.withCmd c) x k' = withCmdAfter c (withCounter s x k) := by
  change withCounter s x k' = _
  unfold withCounter
  cases s.ft.read x with
  | some f => exact h f
  | none => rfl

theorem withEntry_withCmd {x : Nat} {k k' : CwEntry → Result} (h : ∀ e, k' e = withCmdAfter c (k e)) :
    withEntry (s.withCmd c) x k' = withCmdAfter c (withEntry s x k) := by
  change withEntry s x k' = _
  unfold withEntry
  cases s.cwt.read x with
  | some e => exact h e
  | none => rfl

theorem withRecord_withCmd {i : NodeIdx} {k k' : Node → Result} (h : ∀ nd, k' nd = withCmdAfter c (k nd)) :
    withRecord (s.withCmd c) i k' = withCmdAfter c (withRecord s i k) := by
  change withRecord s i k' = _
  unfold withRecord
  cases s.arena.read i.toNat with
  | some nd => exact h nd
  | none => rfl

theorem withChildren_withCmd {i : NodeIdx} {k k' : NodeIdx → NodeIdx → Result}
    (h : ∀ l r, k' l r = withCmdAfter c (k l r)) :
    withChildren (s.withCmd c) i k' = withCmdAfter c (withChildren s i k) :=
  withRecord_withCmd fun
    | .internal l r _ => h l r
    | .leaf _ _ => rfl

theorem withSym_withCmd {i : NodeIdx} {k k' : Sym → Result} (h : ∀ x, k' x = withCmdAfter c (k x)) :
    withSym (s.withCmd c) i k' = withCmdAfter c (withSym s i k) :=
  withRecord_withCmd fun
    | .leaf x _ => h x
    | .internal _ _ _ => rfl

end

theorem writeRecord_ignoresPort (i : Nat) (nd : Node) : IgnoresPort (writeRecord i nd) := by
  intro c s
  unfold writeRecord
  split <;> rfl

theorem byteIn_withCmd (c : Option PortWord) (s : State) :
    byteIn (s.withCmd c) = Prod.map id (State.withCmd c) (byteIn s) := rfl

theorem bitIn_withCmd (c : Option PortWord) (s : State) :
    bitIn (s.withCmd c) = Prod.map id (State.withCmd c) (bitIn s) := rfl

theorem bitOut_withCmd (c : Option PortWord) (b : Bool) (s : State) :
    bitOut b (s.withCmd c) = Prod.map id (State.withCmd c) (bitOut b s) := rfl

theorem byteOut_withCmd (c : Option PortWord) (b : Byte) (s : State) :
    byteOut b (s.withCmd c) = Prod.map id (State.withCmd c) (byteOut b s) := rfl

theorem bitsIn_withCmd (c : Option PortWord) (n : Nat) (s : State) :
    bitsIn n (s.withCmd c) = Prod.map id (State.withCmd c) (bitsIn n s) := by
  unfold bitsIn
  rw [State.withCmd_bitin]
  by_cases hn : n ≤ (s.bitin.supply Config.endlessBit n).data.length
  · rw [if_pos hn, if_pos hn]
    rfl
  · rw [if_neg hn, if_neg hn]
    cases (s.bitin.supply Config.endlessBit n).ending.answer with
    | got | ended | failed | waiting => rfl

/-! ### Each command's engine step -/

theorem countByte_ignoresPort (b : Byte) : IgnoresPort (countByte b) := by
  intro c s
  refine withCounter_withCmd fun f => ?_
  split <;> rfl

theorem countTick_ignoresPort : IgnoresPort countTick := by
  intro c s
  unfold countTick
  rw [State.withCmd_loop, byteIn_withCmd]
  cases s.loop with
  | start => rfl
  | _ =>
    obtain ⟨a, u⟩ := byteIn s
    cases a with
    | got b => exact countByte_ignoresPort b c u
    | ended | failed | waiting => rfl

theorem addNode_ignoresPort (nd : Node) : IgnoresPort (addNode nd) := by
  intro c s
  unfold addNode
  rw [writeRecord_ignoresPort]
  exact andThen_withCmd fun t => rfl

theorem addLeaves_ignoresPort (syms : List Nat) : IgnoresPort (addLeaves syms) := by
  intro c
  induction syms with
  | nil => intro s; rfl
  | cons x syms ih =>
    intro s
    refine withCounter_withCmd fun f => ?_
    split
    · exact ih s
    · rw [addNode_ignoresPort]
      exact andThen_withCmd ih

theorem buildStart_ignoresPort : IgnoresPort buildStart := by
  intro c s
  unfold buildStart
  generalize Memory.fill Config.nodeMax false = pq
  exact addLeaves_ignoresPort _ c { s with treeV := false, cwtV := false, pq := pq, alloc := 0, loop := .top }

theorem extractMin_withCmd {c : Option PortWord} {s : State} {k k' : Nat → NodeFreq → State → Result}
    (h : ∀ i f t, k' i f (t.withCmd c) = withCmdAfter c (k i f t)) :
    extractMin (s.withCmd c) k' = withCmdAfter c (extractMin s k) := by
  unfold extractMin
  rw [State.withCmd_arena, State.withCmd_members]
  cases minKey s.arena s.members with
  | ok p =>
    obtain ⟨f, i⟩ := p
    exact h i f { s with pq := s.pq.write i false }
  | error e => rfl

theorem buildMerge_ignoresPort : IgnoresPort buildMerge := by
  intro c s
  exact extractMin_withCmd fun a fa t => extractMin_withCmd fun b fb u => addNode_ignoresPort _ c u

theorem buildTick_ignoresPort : IgnoresPort buildTick := by
  intro c s
  unfold buildTick
  rw [State.withCmd_loop, State.withCmd_members]
  cases s.loop with
  | start => exact buildStart_ignoresPort c s
  | _ =>
    match s.members with
    | [] | [_] => rfl
    | _ :: _ :: _ => exact buildMerge_ignoresPort c s

theorem recordCodeword_withCmd (c : Option PortWord) (x : Sym) (s : State) :
    recordCodeword x (s.withCmd c) = (recordCodeword x s).withCmd c := by
  unfold recordCodeword
  split <;> rfl

theorem deriveTick_ignoresPort : IgnoresPort deriveTick := by
  intro c s
  unfold deriveTick
  rw [State.withCmd_loop, State.withCmd_stack]
  cases s.loop with
  | start => rfl
  | _ =>
    match s.stack with
    | [] | ⟨_, .right⟩ :: _ => rfl
    | ⟨i, .enter⟩ :: rest =>
      refine withRecord_withCmd fun nd => ?_
      cases nd with
      | leaf x f => dsimp only; rw [recordCodeword_withCmd]; rfl
      | internal l r f => rfl
    | ⟨i, .left⟩ :: rest => exact withChildren_withCmd fun l r => rfl

theorem serPut_withCmd {c : Option PortWord} {s : State} {r : PutAnswer × State} {k k' : State → State}
    (h : ∀ t, k' (t.withCmd c) = (k t).withCmd c) :
    serPut (s.withCmd c) (Prod.map id (State.withCmd c) r) k' = withCmdAfter c (serPut s r k) := by
  obtain ⟨a, u⟩ := r
  cases a with
  | ok => exact congrArg _ (h u)
  | failed | waiting => rfl

theorem serTick_ignoresPort : IgnoresPort serTick := by
  intro c s
  unfold serTick
  rw [State.withCmd_loop, State.withCmd_stack]
  cases s.loop with
  | start => rfl
  | symbol i => exact withSym_withCmd fun x => serPut_withCmd (r := bitsOut x.toNat Config.symW s) fun t => rfl
  | _ =>
    match s.stack with
    | [] | ⟨_, .right⟩ :: _ => rfl
    | ⟨i, .enter⟩ :: rest =>
      refine withRecord_withCmd fun nd => ?_
      cases nd with
      | leaf x f => exact serPut_withCmd (r := bitOut false s) fun t => rfl
      | internal l r f => exact serPut_withCmd (r := bitOut true s) fun t => rfl
    | ⟨i, .left⟩ :: rest => exact withChildren_withCmd fun l r => rfl

theorem encodeLookup_ignoresPort (x : Sym) : IgnoresPort (encodeLookup x) := by
  intro c s
  exact withEntry_withCmd fun
    | some _ => rfl
    | none => rfl

theorem encodeNext_withCmd (c : Option PortWord) (x : Sym) (s : State) :
    encodeNext x (s.withCmd c) = (encodeNext x s).withCmd c := by
  unfold encodeNext
  split <;> rfl

theorem encodeBit_ignoresPort (x : Sym) (j : Nat) : IgnoresPort (encodeBit x j) := by
  intro c s
  refine withEntry_withCmd fun e => ?_
  cases e with
  | none => rfl
  | some cw =>
    dsimp only
    split
    · rw [bitOut_withCmd]
      obtain ⟨a, u⟩ := bitOut (cw.bits.getLsbD j) s
      cases a <;> rfl
    · rw [encodeNext_withCmd, withCmdAfter_next]

theorem encodeTick_ignoresPort : IgnoresPort encodeTick := by
  intro c s
  unfold encodeTick
  rw [State.withCmd_loop, byteIn_withCmd]
  cases s.loop with
  | start => rfl
  | emit x j => exact encodeBit_ignoresPort x j c s
  | _ =>
    obtain ⟨a, u⟩ := byteIn s
    cases a with
    | got b => exact encodeLookup_ignoresPort _ c u
    | ended => exact encodeLookup_ignoresPort _ c u
    | failed | waiting => rfl

theorem deserAlloc_ignoresPort {k : NodeIdx → State → Result} (h : ∀ i, IgnoresPort (k i)) :
    IgnoresPort fun s => deserAlloc s k := by
  intro c s
  change deserAlloc (s.withCmd c) k = withCmdAfter c (deserAlloc s k)
  unfold deserAlloc
  rw [State.withCmd_alloc]
  split
  · exact h s.alloc c { s with alloc := s.alloc + 1 }
  · rfl

theorem deserLeafTag_ignoresPort : IgnoresPort deserLeafTag := deserAlloc_ignoresPort fun _ _ _ => rfl

theorem deserInternalTag_ignoresPort : IgnoresPort deserInternalTag := deserAlloc_ignoresPort fun _ _ _ => rfl

theorem deserReturn_withCmd (c : Option PortWord) : ∀ (st : List Frame) (s : State) (i : NodeIdx),
    deserReturn (s.withCmd c) i st = withCmdAfter c (deserReturn s i st) := by
  intro st
  induction st with
  | nil => intro s i; rfl
  | cons fr rest ih =>
    obtain ⟨j, pos⟩ := fr
    intro s i
    cases pos with
    | enter | left => rfl
    | right =>
      simp only [deserReturn]
      rw [writeRecord_ignoresPort]
      exact andThen_withCmd fun t => ih t j

theorem deserSymbol_ignoresPort (i : NodeIdx) (x : Sym) : IgnoresPort (deserSymbol i x) := by
  intro c s
  unfold deserSymbol
  rw [writeRecord_ignoresPort]
  exact andThen_withCmd fun t => deserReturn_withCmd c t.stack t i

theorem deserTick_ignoresPort : IgnoresPort deserTick := by
  intro c s
  unfold deserTick
  rw [State.withCmd_loop, bitsIn_withCmd, bitIn_withCmd]
  cases s.loop with
  | start => rfl
  | symbol i =>
    obtain ⟨a, u⟩ := bitsIn Config.symW s
    cases a with
    | got v => exact deserSymbol_ignoresPort i (BitVec.ofNat Config.symW v) c u
    | ended | failed | waiting => rfl
  | _ =>
    obtain ⟨a, u⟩ := bitIn s
    cases a with
    | got b =>
      cases b with
      | false => exact deserLeafTag_ignoresPort c u
      | true => exact deserInternalTag_ignoresPort c u
    | ended | failed | waiting => rfl

theorem decodeCheck_ignoresPort : IgnoresPort decodeCheck := by
  intro c s
  refine withRecord_withCmd (s := { s with eos := false, trunc := false, cur := s.root }) fun nd => ?_
  cases nd with
  | internal l r f => rfl
  | leaf x f => dsimp only; split <;> rfl

theorem decodeArrive_ignoresPort (i : NodeIdx) : IgnoresPort (decodeArrive i) := by
  intro c s
  refine withRecord_withCmd (s := { s with cur := i }) fun nd => ?_
  cases nd with
  | internal l r f => rfl
  | leaf x f => dsimp only; split <;> rfl

theorem decodeWalk_ignoresPort : IgnoresPort decodeWalk := by
  intro c s
  unfold decodeWalk
  rw [bitIn_withCmd]
  obtain ⟨a, u⟩ := bitIn s
  cases a with
  | got b => exact withChildren_withCmd fun l r => decodeArrive_ignoresPort _ c u
  | ended | failed | waiting => rfl

theorem decodeEmit_ignoresPort : IgnoresPort decodeEmit := by
  intro c s
  refine withSym_withCmd fun x => ?_
  rw [byteOut_withCmd]
  obtain ⟨a, u⟩ := byteOut (x.setWidth Config.byteW) s
  cases a <;> rfl

theorem decodeTick_ignoresPort : IgnoresPort decodeTick := by
  intro c s
  unfold decodeTick
  rw [State.withCmd_loop]
  cases s.loop with
  | start => exact decodeCheck_ignoresPort c s
  | write => exact decodeEmit_ignoresPort c s
  | stop => rfl
  | _ => exact decodeWalk_ignoresPort c s

/-! ### The command that runs, and the host beside it -/

theorem tickOf_ignoresPort (p : Phase) : IgnoresPort (tickOf p) := by
  cases p with
  | idle => exact fun c s => rfl
  | count => exact countTick_ignoresPort
  | build => exact buildTick_ignoresPort
  | derive => exact deriveTick_ignoresPort
  | ser => exact serTick_ignoresPort
  | encode => exact encodeTick_ignoresPort
  | deser => exact deserTick_ignoresPort
  | decode => exact decodeTick_ignoresPort

theorem fuelOf_withCmd (c : Option PortWord) (p : Phase) (s : State) : fuelOf p (s.withCmd c) = fuelOf p s := by
  cases p <;> rfl

/-- The command that runs is carried on in the same way, word or no word on the port (R290). -/
theorem resume_ignoresPort : IgnoresPort resume := by
  intro c s
  rw [resume_eq_drive, resume_eq_drive, fuelOf_withCmd, ← drive_tickOf _ (.inl rfl), ← drive_tickOf _ (.inl rfl)]
  exact drive_ignoresPort (tickOf_ignoresPort s.phase) _ c s

/-- What stands on the port while a command is carried on stands there afterwards (R290). -/
theorem resume_cmd {s t : State} (h : resume s = .next t) : t.cmd = s.cmd := by
  have hw : resume s = withCmdAfter s.cmd (resume s) := resume_ignoresPort s.cmd s
  rw [h, withCmdAfter_next] at hw
  have ht : t = t.withCmd s.cmd := Host.Outcome.next.inj hw
  rw [ht]
  rfl

theorem hostReadCsr_cmd (n : BitVec 3) (s : State) : (hostReadCsr n s).cmd = s.cmd := by
  unfold hostReadCsr
  split <;> rfl

/-- While a command runs no move of the host on the streams happens (R294). -/
theorem whileIdle_of_running {s : State} (o : Option State) (hp : s.phase ≠ .idle) : whileIdle s o = none := by
  simp [whileIdle, State.busy, hp]

/-- While a command runs no move of the host takes a word off the port or puts another in its place (R290, R294). -/
theorem hostMove_cmd {s t : State} {w : PortWord} {m : HostMove} (hp : s.phase ≠ .idle) (hc : s.cmd = some w)
    (h : hostMove s m = some t) : t.cmd = some w := by
  cases m with
  | present p => simp [hostMove, hc] at h
  | hardwareReset => cases h; exact hc
  | readCsr n => cases h; exact (hostReadCsr_cmd n s).trans hc
  | _ => exact absurd ((whileIdle_of_running _ hp).symm.trans h) nofun

theorem hostAct_cmd {s t : State} {w : PortWord} (hp : s.phase ≠ .idle) (hc : s.cmd = some w)
    (h : hostAct s = some t) : t.cmd = some w := by
  unfold hostAct at h
  split at h
  · cases h
  · next m ms _ => exact hostMove_cmd (s := { s with host := ms }) hp hc h

end Sys2Proof.Machine

namespace Sys2Proof.Proofs

open Sys2Proof.Machine

/-- Settles O8: a step of the running block is a move of the host, which leaves the word, or the engine's, which ignores it. -/
theorem busyBlockLeavesTheWordOnThePort : Obligations.BusyBlockLeavesTheWordOnThePort := by
  refine ⟨fun s t w hp hc h => ?_, fun s w hp hh => ?_⟩
  · obtain hact | rfl | hrun | ⟨-, hi, -⟩ := step_cases h
    · exact hostAct_cmd hp hc hact
    · exact hc
    · exact (resume_cmd hrun).trans hc
    · exact absurd hi hp
  · change step (s.withCmd (some w)) = withCmdAfter (some w) (step (s.withCmd none))
    rw [step_of_running (s := s.withCmd (some w)) hp hh, step_of_running (s := s.withCmd none) hp hh]
    exact resume_ignoresPort (some w) (s.withCmd none)

end Sys2Proof.Proofs
end

section
/-! ## Execution is acceptance and then the run (R283, R295) -/

namespace Sys2Proof.Proofs

open Sys2Proof.Machine

/-- Settles O6: so it is for every instruction on the idle block, and a step takes the word on its port from there. -/
theorem executionIsAcceptanceThenRun : Obligations.ExecutionIsAcceptanceThenRun := by
  refine ⟨fun i s => exec_eq_acceptOnly_resume i, fun s w i m ms hi hc hdec => ?_⟩
  obtain rfl : decodeCommand w = i := Except.ok.inj hdec
  rw [step_of_cmd hi hc]
  exact issue_eq ⟨w, m :: ms⟩ (s := { s with cmd := none }) hi

end Sys2Proof.Proofs
end
